-- ==== Sys2Proof/Word.lean ====
section
/-! DEFINITION. The word types of the LS16: bytes, 32-bit line words, and the two time widths. -/

namespace Sys2Proof

/-- A byte of a line. -/
abbrev Byte := BitVec 8
/-- A 32-bit line word, also a 32-bit bus address. -/
abbrev Word := BitVec 32
/-- A 32-bit time in reference ticks (LT and arrival tags), wrapping modulo 2^32 (00_scope, Time units). -/
abbrev Rt := BitVec 32
/-- A 33-bit time in presentation ticks (lane clocks, PTS, DTS, PCR base), wrapping modulo 2^33 (00_scope, Time units). -/
abbrev Pt := BitVec 33
/-- A 13-bit packet identifier (00_scope, Identifiers). -/
abbrev Pid := BitVec 13
/-- A 4-bit continuity counter. -/
abbrev Cc := BitVec 4

end Sys2Proof
end

