-- ==== Sys2Proof/Config.lean ====
section
/-! DEFINITION. What the spec fixes for the part as numbers, and the one value the model fixes about the memory behind it. -/

namespace Sys2Proof.Config

/-- What an address of buffer memory that nothing has written reads as.
DESIGN CHOICE (log 1), unsafe: the spec gives no power-on contents. -/
def unwritten : Byte := 0

/-- The null PID, which marks "none" in any PID field (00_scope, Identifiers). -/
def nullPid : Pid := 0x1FFF

/-- Forward queue capacity (R1). -/
def forwardCapacity : Nat := 32
/-- Record queue capacity (R183). -/
def recordCapacity : Nat := 8
/-- The wait count at which the next grant goes to a part-originated write (R17). -/
def waitLimit : Nat := 8
/-- The greatest value of every saturating 16-bit counter (R15, R31, R75, R170, R172, R183). -/
def counterMax : Nat := 65535
/-- Slots are 192 bytes (00_scope, Lines and transactions). -/
def slotBytes : Nat := 192
/-- Lines are 64 bytes (00_scope, Lines and transactions). -/
def lineBytes : Nat := 64
/-- Identity code, word 0 of the claim line and of the status line (R5, R179). -/
def identity : Word := 0x1C5A0016
/-- Word 1 of the claim line (R5). -/
def identityComplement : Word := 0xE3A5FFE9
/-- Format revision (R5). -/
def formatRevision : Word := 1
/-- RT in one millisecond (00_scope, Time units). -/
def rtPerMs : Nat := 27000
/-- RT in one PT (00_scope, Time units). -/
def rtPerPt : Nat := 300
/-- The elapsed RT at which a lane clock is folded, 300 × 2^22 (R35). -/
def foldRt : Nat := 1258291200
/-- The PT by which a fold advances the clock value, 2^22 (R35). -/
def foldPt : Nat := 4194304
/-- The RT a raw EAL difference must be held (R145). -/
def ealFilterRt : Nat := 270000
/-- RT in one held second (R144). -/
def secondRt : Nat := 27000000
/-- RT in one unit of the renewal period P (R134). -/
def periodRt : Nat := 270000
/-- RT of one sixteenth of one unit of P (R134). -/
def lockedRt : Nat := 16875
/-- The largest loop count (R150). -/
def loopMax : Nat := 31

end Sys2Proof.Config
end

