-- ==== Sys2Proof/Syntax.lean ====
section
/-! DEFINITION. The steps of the LS16: one constructor of `Instr` per row of spec/opcode_table.json.
The table gives no row any bits. A row that stands for an event outside the part carries what that event brings
(the request on the Q port, the new level of the EAL line, the lane concerned). A row that stands for the execution of
a host command carries nothing: its parameters are the words captured at its take (R169, R174). -/

namespace Sys2Proof

/-- A Q-port request (chapter 1.1): an operation, a 32-bit address, and 1 to 4 lines, given as a count for a READ and as
the bytes with one enable per byte for a WRITE. -/
inductive QRequest where
  | read (addr : Word) (lines : Nat)
  | write (addr : Word) (data : List Byte) (enables : List Bool)
  deriving DecidableEq, Repr, Inhabited

/-- The steps of the part, in the order of spec/opcode_table.json. -/
inductive Instr where
  /-- Q_PORT_ACCEPT (R1): the engine presents a request. -/
  | qPortAccept (r : QRequest)
  /-- M_PORT_GRANT (R16): the arbiter grants one waiting request. -/
  | mPortGrant
  /-- READ_DATA_ARRIVAL (R1): the data of the oldest granted forwarded read arrives. -/
  | readDataArrival
  /-- SLOT_READ_PROCEDURE (R97): the procedure of the oldest arrived slot read runs. -/
  | slotReadProcedure
  /-- SLATE_COUNTDOWN_EXPIRY (R166): the slate requests of a lane whose countdown stands at 0 become due. -/
  | slateCountdownExpiry (lane : Nat)
  /-- FETCH_DATA_ARRIVAL (R60): the data of the oldest granted library fetch arrives. -/
  | fetchDataArrival
  /-- READ_RETURN (R3): the oldest READ entry is returned on the Q port. -/
  | readReturn
  /-- REGION_SET (R9). -/
  | regionSet
  /-- LANE_SET (R22). -/
  | laneSet
  /-- LANE_ENABLE (R23). -/
  | laneEnable
  /-- LANE_DISABLE (R26). -/
  | laneDisable
  /-- LANE_STATUS (R176). -/
  | laneStatus
  /-- CLIP_SET (R53). -/
  | clipSet
  /-- CLIP_CLEAR (R54). -/
  | clipClear
  /-- PLACE (R70). -/
  | place
  /-- WITHDRAW (R72). -/
  | withdraw
  /-- PLACEMENT_STATUS (R73). -/
  | placementStatus
  /-- CUE (R76). -/
  | cue
  /-- ALERT_PROFILE (R135). -/
  | alertProfile
  /-- ALERT_START (R138). -/
  | alertStart
  /-- ALERT_RENEW (R148). -/
  | alertRenew
  /-- ALERT_END (R143). -/
  | alertEnd
  /-- ALERT_LOCK (R151). -/
  | alertLock
  /-- AUDIT_MARK (R189). -/
  | auditMark
  /-- LOG_ACK (R186). -/
  | logAck
  /-- UNCLAIM (R177). -/
  | unclaim
  /-- UNKNOWN_COMMAND (R174). -/
  | unknownCommand
  /-- RST_N_ASSERT (R19). -/
  | rstNAssert
  /-- RST_N_RELEASE (R19). -/
  | rstNRelease
  /-- BYPASS_ASSERT (R112). -/
  | bypassAssert
  /-- BYPASS_RELEASE (R114). -/
  | bypassRelease
  /-- EAL_RAW_CHANGE (R145): the raw level of the EAL line comes to stand at `level`. -/
  | ealRawChange (level : Bool)
  /-- EAL_FILTER_EXPIRY (R145). -/
  | ealFilterExpiry
  /-- HOLD_SECOND_ELAPSED (R144). -/
  | holdSecondElapsed
  /-- HOLD_LIMIT_EXPIRY (R144). -/
  | holdLimitExpiry
  /-- RENEWAL_PERIOD_EXPIRY (R149). -/
  | renewalPeriodExpiry
  /-- LANE_CLOCK_FOLD (R35): the fold of one lane's clock. -/
  | laneClockFold (lane : Nat)
  deriving DecidableEq, Repr, Inhabited

end Sys2Proof
end

