-- ==== Sys2Proof/WellFormed.lean ====
section
/-! DEFINITION. Which steps can be presented to the part at all: the shape of a Q-port request (chapter 1.1) and the
lane numbers 0..15 (00_scope, Identifiers). -/

namespace Sys2Proof

/-- A request moves 1 to 4 lines; a WRITE brings 64 bytes a line and one enable per byte (chapter 1.1). -/
def QRequest.wf : QRequest → Bool
  | .read _ n => decide (1 ≤ n ∧ n ≤ 4)
  | .write _ d e => decide (d.length = 64 ∨ d.length = 128 ∨ d.length = 192 ∨ d.length = 256) && decide (e.length = d.length)

/-- A step is well formed when its operands are values its port or its lane number can take. -/
def Instr.wf : Instr → Bool
  | .qPortAccept r => r.wf
  | .slateCountdownExpiry l => decide (l < 16)
  | .laneClockFold l => decide (l < 16)
  | .mPortGrant | .readDataArrival | .slotReadProcedure | .fetchDataArrival | .readReturn => true
  | .regionSet | .laneSet | .laneEnable | .laneDisable | .laneStatus | .clipSet | .clipClear => true
  | .place | .withdraw | .placementStatus | .cue => true
  | .alertProfile | .alertStart | .alertRenew | .alertEnd | .alertLock => true
  | .auditMark | .logAck | .unclaim | .unknownCommand => true
  | .rstNAssert | .rstNRelease | .bypassAssert | .bypassRelease => true
  | .ealRawChange _ | .ealFilterExpiry | .holdSecondElapsed | .holdLimitExpiry | .renewalPeriodExpiry => true

end Sys2Proof
end

