-- ==== Sys2Proof/Decode.lean ====
section
/-! DEFINITION. Decoding of table words. The LS16 is a block: spec/opcode_table.json gives none of its 37 rows any bits
("fields" is empty and "fixed" is absent in every row), so no word spells a step. -/

namespace Sys2Proof

/-- No row of spec/opcode_table.json gives bits, so no word decodes to a step. The host's commands are read from
captured command lines instead (Machine/Operands.lean). -/
def decodeTableWord (_nbits _w : Nat) : Option Instr := none

end Sys2Proof
end

