-- ==== Sys2Proof/Machine/State.lean ====
section
/-! DEFINITION. The state of the LS16 as plain data, its outcomes, and its value after reset. Each field's docstring names
the rule of spec/ that gives it; INVENTORY.md lists them all with their reset values. -/

namespace Sys2Proof.Machine

open Sys2Proof

/-! ## Outcomes -/

/-- No rule of the spec gives the part a fault: refused commands are answered, malformed packets and damaged slots are
handled, and every 32-bit address exists. The type has no value. -/
inductive Fault : Type where
  deriving DecidableEq, Repr

/-- Why a step has no meaning in the model. -/
inductive Refusal where
  /-- Raised by `exec` for a row that has no meaning yet (no arm raises it now). Safe. -/
  | notModelled (mnemonic : String)
  /-- Raised by `execQPortAccept` for a request whose line count is not 1..4 or whose data or enables do not fill its
  lines: no such request can be presented at the Q port (chapter 1.1). Safe. -/
  | requestMalformed
  /-- Raised by the two steps that name a lane, for a lane number above 15: there is no such lane (00_scope). Safe. -/
  | noSuchLane
  deriving DecidableEq, Repr

/-! ## Router and regions (chapter 1) -/

/-- Region roles (R8). -/
inductive RegionRole where
  | none | ring | library | log
  deriving DecidableEq, Repr, Inhabited

/-- One entry of the Region Table (R8). -/
structure Region where
  role : RegionRole
  /-- a multiple of 64 (R8) -/
  base : Word
  /-- exclusive, a multiple of 64 (R8) -/
  limit : Word
  /-- the lane of a RING region; 0 for the other roles (R8) -/
  lane : Nat
  deriving DecidableEq, Repr, Inhabited

/-- The state of a forward queue entry (R1). A WRITE leaves at its grant, so it is only ever QUEUED. -/
inductive FwdState where
  | queued | granted | arrived | ready
  deriving DecidableEq, Repr, Inhabited

/-- The class a transaction is given at acceptance (section 1.4, R11 to R14). `plain` is every transaction that is only
forwarded. A write that delivered a command by take is `command take`, with the take's number (R169, R175). -/
inductive FwdClass where
  | plain
  | straddle
  | stray (lane : Nat)
  | logIntrusion
  | slotWrite (lane slot : Nat)
  | slotRead (lane slot : Nat)
  | command (take : Nat)
  | offered
  deriving DecidableEq, Repr, Inhabited

/-- One entry of the forward queue (R1). -/
structure FwdEntry where
  /-- operation, line address, line count, and for a WRITE its data and enables as presented (R1) -/
  req : QRequest
  cls : FwdClass
  state : FwdState
  /-- set on a slot read accepted before a LANE-DISABLE of its lane (R27) -/
  abandoned : Bool
  /-- a READ's data as memory gave it, once arrived -/
  raw : List Byte
  /-- a READ's return data, final once READY (R1, R3) -/
  out : List Byte
  deriving DecidableEq, Repr, Inhabited

/-- Whose data an outstanding M-port read brings (section 1.5): a forwarded READ, or the fetch of a lane's lookahead, with the id
of the clip it fetches from (R58, R66); `orphan` marks a fetch whose lookahead a reset emptied, so that its data is discarded
(R19, R20). -/
inductive ReadOwner where
  | forward
  | fetch (lane : Nat) (clip : Nat) (orphan : Bool)
  deriving DecidableEq, Repr, Inhabited

/-- An M-port read granted and not yet arrived, with the data memory gave at the grant (R2). Arrivals come in grant
order (section 1.5). -/
structure InFlight where
  owner : ReadOwner
  data : List Byte
  deriving DecidableEq, Repr, Inhabited

/-- A part-originated write that is waiting at the arbiter (R4, R16). Its content is taken at its grant. -/
inductive PartWrite where
  | answer (line : Nat)
  | log
  | status
  deriving DecidableEq, Repr, Inhabited

/-- A request granted on the M port: the model's view of the M-port pins (12.7). -/
inductive MRequest where
  | read (addr : Word) (lines : Nat)
  | write (addr : Word) (data : List Byte) (enables : List Bool)
  deriving DecidableEq, Repr, Inhabited

/-- Data returned on the Q port: the model's view of the Q-port read data pins (12.7). -/
structure QReturn where
  addr : Word
  data : List Byte
  deriving DecidableEq, Repr, Inhabited

/-- The Transaction Router and the Region Table (chapter 1). -/
structure Router where
  /-- the claim state and the control base: absent while UNCLAIMED (R5, R6) -/
  controlBase : Option Word
  /-- the forward queue, oldest first (R1) -/
  forward : List FwdEntry
  /-- M-port reads granted and not yet arrived, in grant order (section 1.5) -/
  inFlight : List InFlight
  /-- part-originated writes waiting, in the order they became waiting (R16) -/
  waiting : List PartWrite
  /-- lanes with a library fetch requested and not yet granted, in the order of their requests (R16) -/
  fetchOrder : List Nat
  /-- the arbiter's wait count, 0..8 (R17) -/
  waitCount : Nat
  /-- R7, R15 -/
  strayClaims : Nat
  /-- R11, R15 -/
  straddles : Nat
  /-- R14, R15 -/
  logIntrusions : Nat
  /-- the Region Table (R8) -/
  regions : Vector Region 32
  /-- the last transaction granted on the M port (12.7) -/
  mPort : Option MRequest
  /-- the last data returned on the Q port (12.7) -/
  qPort : Option QReturn
  deriving DecidableEq, Repr

/-! ## Command Unit (chapter 10) -/

/-- Answer codes (R174, 12.4). -/
inductive AnswerCode where
  | done | unknown | range | overlap | busy | inUse | notReady | noEntry | locked | lower | noAlert | lineHeld | bypass
  deriving DecidableEq, Repr, Inhabited

/-- One entry of the command queue (R171). -/
structure Captured where
  /-- the command line, 0..15 -/
  line : Nat
  /-- the 16 words as written -/
  words : List Word
  /-- the order of its take -/
  take : Nat
  deriving DecidableEq, Repr, Inhabited

/-- One member of the answer-pending set (R171). -/
structure Answer where
  line : Nat
  code : AnswerCode
  /-- the 14 result words -/
  results : List Word
  /-- the take that delivered the command (R175) -/
  take : Nat
  /-- the DONE answer of UNCLAIM, which is not dropped (R173) and brings UNCLAIM's effect at its grant (R178) -/
  isUnclaim : Bool
  deriving DecidableEq, Repr, Inhabited

/-- The Command Unit (chapter 10). -/
structure CmdUnit where
  /-- oldest first (R171) -/
  queue : List Captured
  /-- the answer-pending set (R171) -/
  answers : List Answer
  /-- the takes made so far: the order a next take is given (R171) -/
  takes : Nat
  /-- UNCLAIM has been answered DONE and has not yet taken effect: no further command executes (R178) -/
  unclaiming : Bool
  /-- R170 -/
  partials : Nat
  /-- R172, R173 -/
  supersedes : Nat
  /-- status sequence count (R179) -/
  statusSeq : Nat
  deriving DecidableEq, Repr, Inhabited

/-! ## Packet inspection (chapter 3) -/

/-- The inspection result of one packet (R47). A PCR is always at byte 6 (R44), so only PTS and DTS carry a location. -/
structure Insp where
  malformed : Bool
  pid : Option Pid
  pusi : Bool
  hasPayload : Bool
  cc : Cc
  payStart : Nat
  payLen : Nat
  rap : Bool
  /-- base and extension -/
  pcr : Option (Pt × Nat)
  pesStart : Bool
  /-- value and location -/
  pts : Option (Pt × Nat)
  /-- value and location -/
  dts : Option (Pt × Nat)
  deriving DecidableEq, Repr, Inhabited

/-! ## Clips and lookahead (chapter 4) -/

/-- One entry of the clip table (R52). -/
structure Clip where
  defined : Bool
  addr : Word
  count : Nat
  firstPts : Pt
  /-- the PID map: clip PID and lane role -/
  pidMap : List (Pid × Fin 4)
  deriving DecidableEq, Repr, Inhabited

/-- Entry kinds, in rank order (chapter 6). -/
inductive Kind where
  | slate | programme | advert | alert
  deriving DecidableEq, Repr, Inhabited

/-- What a stack entry plays for (R94). -/
inductive Source where
  | laneSlate
  | placement (id : Nat)
  | profile (p : Nat)
  deriving DecidableEq, Repr, Inhabited

/-- The key of a lookahead, and the clip id found at the key's clip index (R58). The entry is named by its source. -/
structure LookKey where
  source : Source
  index : Nat
  clip : Nat
  packet : Nat
  deriving DecidableEq, Repr, Inhabited

/-- A lane's lookahead (R58). -/
inductive Look where
  | empty
  | fetching (key : LookKey) (addr : Word) (granted stale demand : Bool)
  | full (key : LookKey) (slot : List Byte) (insp : Insp) (damaged : Bool)
  deriving DecidableEq, Repr, Inhabited

/-! ## Placements (chapter 5) -/

/-- Placement states (R69). -/
inductive PState where
  | vacant | armed | pending | onAir | covered
  deriving DecidableEq, Repr, Inhabited

/-- Placement triggers (R68). -/
inductive Trigger where
  | cue | time | immediate
  deriving DecidableEq, Repr, Inhabited

/-- Return rules (R68). -/
inductive ReturnRule where
  | atEnd | early
  deriving DecidableEq, Repr, Inhabited

/-- One entry of the placement table (R68, R69). Its E is held in its stack entry (R69). -/
structure Placement where
  state : PState
  lane : Nat
  kind : Kind
  trigger : Trigger
  avail : Word
  scheduled : Pt
  duration : Nat
  takeCueDuration : Bool
  rule : ReturnRule
  clips : List Nat
  /-- T, absent while not known -/
  t : Option Pt
  lateCheck : Bool
  blocked : Bool
  preRoll : Nat
  entryTime : Pt
  withdrawn : Bool
  earlyReturn : Bool
  deriving DecidableEq, Repr, Inhabited

/-- Cue types (12.3). -/
inductive CueType where
  | out | into | cancel
  deriving DecidableEq, Repr, Inhabited

/-! ## The substitution stack (chapter 6) -/

/-- Clip outcomes (R188). -/
inductive ClipOutcome where
  | aired | damaged | missing | preempted | cut | skipped
  deriving DecidableEq, Repr, Inhabited

/-- One item of a placement entry's tally (R94); no outcome while the position is undecided. -/
structure TallyItem where
  aired : Nat
  outcome : Option ClipOutcome
  deriving DecidableEq, Repr, Inhabited

/-- One stack entry (R94). Whether its list loops follows from its kind. Its next position is its current clip and packet
index, else `nextIdx` and packet 0 (R58); a placement list whose `nextIdx` has passed its last index is exhausted. -/
structure Entry where
  kind : Kind
  source : Source
  clips : List Nat
  /-- list index and packet index -/
  current : Option (Nat × Nat)
  nextIdx : Nat
  /-- some clip of the entry has started (R59) -/
  started : Bool
  ptsOffset : Pt
  tagOffset : Rt
  /-- E, placements only -/
  endTime : Option Pt
  rule : ReturnRule
  endRequested : Bool
  hasBeenTop : Bool
  aired : Bool
  interrupted : Bool
  returning : Bool
  tally : List TallyItem
  maxLag : Nat
  deriving DecidableEq, Repr, Inhabited

/-- An alert request pending on a lane (R96). -/
inductive AlertReq where
  | insert (profile : Nat)
  | replace (profile : Nat)
  | remove
  deriving DecidableEq, Repr, Inhabited

/-- A slate request pending on a lane with its countdown (R96); `due` once the countdown has stood at 0 at a first stage
(R166). -/
structure SlateReq where
  countdown : Nat
  due : Bool
  deriving DecidableEq, Repr, Inhabited

/-! ## Feed supervision (chapter 9) -/

/-- Monitor states (R155). -/
inductive MonState where
  | disabled | blank | good | suspect | lost | recovering
  deriving DecidableEq, Repr, Inhabited

/-- Rate modes (R154). -/
inductive RateMode where
  | off | low | high
  deriving DecidableEq, Repr, Inhabited

/-- Continuity items of one role (R155). -/
structure ContItem where
  lastCc : Cc
  seen : Bool
  duplicate : Bool
  errors : Nat
  deriving DecidableEq, Repr, Inhabited

/-- A lane's monitor (R155). -/
structure Monitor where
  state : MonState
  blankStart : Option Rt
  anchorTag : Rt
  anchorIndex : Option Nat
  anchorAge : Nat
  anchorAbsent : Bool
  filterStart : Rt
  recoveryIndex : Nat
  recoveryAge : Nat
  rateStart : Rt
  rateCount : Nat
  rateLast : Nat
  rateAlarm : Bool
  cont : Vector ContItem 4
  deriving DecidableEq, Repr

/-! ## Lanes (chapter 2) -/

/-- A lane record (R21) with the supervision settings (R154). -/
structure LaneRecord where
  isSet : Bool
  zone : Nat
  region : Nat
  roles : Vector Pid 4
  passList : List Pid
  cuePid : Pid
  entryWindow : Nat
  jumpLimit : Nat
  slateClip : Option Nat
  gapLimit : Nat
  lossFilter : Nat
  goodFilter : Nat
  blankTime : Nat
  rateInterval : Nat
  rateThreshold : Nat
  rateMode : RateMode
  rateAsLoss : Bool
  deriving DecidableEq, Repr

/-- Continuity state of one role (R36). -/
structure RoleState where
  outLast : Cc
  delta : Cc
  realign : Bool
  deriving DecidableEq, Repr, Inhabited

/-- A lane's audit mark (R189). -/
inductive AuditMark where
  | none | out | into
  deriving DecidableEq, Repr, Inhabited

/-- Everything the part keeps for one lane. -/
structure Lane where
  record : LaneRecord
  enabled : Bool
  /-- R28 -/
  writeIndex : Nat
  /-- R29 -/
  readIndex : Nat
  /-- the lane clock's C, L and anchored flag (R32) -/
  clockC : Pt
  clockL : Rt
  anchored : Bool
  /-- R36 -/
  roles : Vector RoleState 4
  /-- the recent-avail list, oldest first (R38) -/
  recent : List Word
  /-- the five lane counters (R31) and the cue-error counter (R75) -/
  strays : Nat
  writeSkips : Nat
  readSkips : Nat
  malformed : Nat
  ptsLess : Nat
  cueErrors : Nat
  monitor : Monitor
  /-- the substitution stack, top first (R93) -/
  stack : List Entry
  /-- R96 -/
  alertReq : Option AlertReq
  slateInsert : Option SlateReq
  slateRemove : Option SlateReq
  /-- R58 -/
  look : Look
  /-- R189 -/
  audit : AuditMark
  deriving DecidableEq, Repr

/-- The slot read whose procedure waits on its lane's lookahead (R62, R63, R97). It is the oldest ARRIVED entry of the
forward queue. -/
structure WaitingRead where
  lane : Nat
  /-- set when it waits for the first slot of a clip it started (R63), clear when it waits to draw (R62) -/
  starting : Bool
  /-- the start time of a clip it starts: the lane clock as stage 1 left it, or the entry time of a placement that has just
  entered (R106, R117) -/
  clock : Pt
  deriving DecidableEq, Repr, Inhabited

/-! ## Alert Controller (chapter 8) -/

/-- Controller states (R136). -/
inductive AlertState where
  | idle | activeCmd | activeLine | activeLatched
  deriving DecidableEq, Repr, Inhabited

/-- Reactions (R134). -/
inductive Reaction where
  | warn | release | latch
  deriving DecidableEq, Repr, Inhabited

/-- An alert profile (R134). -/
structure Profile where
  defined : Bool
  /-- zone z at bit z -/
  zones : BitVec 8
  severity : Nat
  clips : List Nat
  holdLimit : Nat
  period : Nat
  lockedFraction : Nat
  loopLimit : Nat
  reaction : Reaction
  deriving DecidableEq, Repr, Inhabited

/-- The Alert Controller (R134, R136) with its EAL filter (R145). ALERT_ON follows from its state (R137). -/
structure AlertCtl where
  profiles : Vector Profile 4
  state : AlertState
  profile : Nat
  severity : Nat
  holdMark : Rt
  heldSeconds : Nat
  periodStart : Rt
  loopCount : Nat
  reactionFired : Bool
  linePending : Bool
  lock : Bool
  /-- the filtered EAL level (R145) -/
  ealFiltered : Bool
  /-- the change mark, while one is kept (R145) -/
  ealMark : Option Rt
  deriving DecidableEq, Repr

/-! ## Log Writer (chapter 11) -/

/-- Placement outcomes (R188). -/
inductive Outcome where
  | complete | truncated | earlyReturn | preempted | coveredOut | missedLate | missedNoEntry | missedBlocked
  | cancelled | withdrawn | bypassed | abandoned
  deriving DecidableEq, Repr, Inhabited

/-- One clip item of an as-run report (R90). -/
structure ClipItem where
  clip : Nat
  aired : Nat
  outcome : ClipOutcome
  deriving DecidableEq, Repr, Inhabited

/-- Actions of an ALERT record (R187). -/
inductive AlertAction where
  | start | replace | finish
  deriving DecidableEq, Repr, Inhabited

/-- Reasons of an ALERT record (R187). -/
inductive AlertReason where
  | command | line | expired | renewal | bypass
  deriving DecidableEq, Repr, Inhabited

/-- Reasons of a CUE_UNPLACED record (R81). -/
inductive UnplacedReason where
  | noPlacement | tooLate
  deriving DecidableEq, Repr, Inhabited

/-- The request a SUPERVISION record tells of (R168): which, its countdown, and whether R165 cancelled it. -/
structure PostedSlate where
  isRemove : Bool
  countdown : Nat
  cancelled : Bool
  deriving DecidableEq, Repr, Inhabited

/-- The fields of a record by its kind (R187, R188). A GAP is never queued (R185), so it is not among them. -/
inductive RecordBody where
  | placement (id : Nat) (kind : Kind) (trigger : Trigger) (avail : Word) (t : Option Pt) (times : Option (Pt × Pt))
      (outcome : Outcome) (maxLag : Nat) (items : List ClipItem)
  | cueUnplaced (type : CueType) (avail : Word) (reason : UnplacedReason) (injected : Bool)
  | alert (action : AlertAction) (profile severity : Nat) (reason : AlertReason) (lanes : BitVec 16)
  | renewal (profile loopCount : Nat) (reaction : Reaction)
  | monitor (state : MonState) (slot : Nat) (tag : Rt) (posted : Option PostedSlate)
  | rate (alarm : Bool) (count slot : Nat) (tag : Rt)
  | timelineJump (d : Int)
  | auditOut (id : Nat) (t : Option Pt) (s : Option Pt) (error : Int) (preRoll : Nat)
  | auditIn (kind : Kind) (atRap : Bool) (e : Option Pt) (returned : Pt) (error : Int)
  deriving DecidableEq, Repr

/-- A record: its LT stamp, its lane (255 for none), its fields (R187). -/
structure Record where
  stamp : Rt
  lane : Nat
  body : RecordBody
  deriving DecidableEq, Repr

/-- The log write presented at the arbiter (R184). -/
inductive LogWrite where
  | gap
  | record
  deriving DecidableEq, Repr, Inhabited

/-- The Log Writer (R182, R183, R184). The ring itself is the Region Table's LOG entry. -/
structure LogWriter where
  head : Nat
  tail : Nat
  queue : List Record
  lost : Nat
  /-- the write presented and not yet granted (R184) -/
  presented : Option LogWrite
  deriving DecidableEq, Repr

/-! ## The whole machine -/

/-- Buffer memory as (address, byte) pairs, addresses strictly rising and no byte equal to `Config.unwritten`
(Machine/Memory.lean says so as `Memory.wf`). -/
abbrev Memory := List Host.Cell

/-- The state of the part, of the memory behind its M port, and of the queue of steps that wait to be taken. -/
structure State where
  /-- Local Time (R193) -/
  lt : Rt
  /-- REFCLK is running (12.7, R193) -/
  refclk : Bool
  /-- RST_N is asserted (12.7) -/
  rst : Bool
  /-- the level of BYPASS (12.7) -/
  bypass : Bool
  /-- the raw level of EAL (12.7) -/
  eal : Bool
  router : Router
  cmd : CmdUnit
  lanes : Vector Lane 16
  clips : Vector Clip 256
  placements : Vector Placement 128
  /-- the slot read that waits, if one does (R97) -/
  wait : Option WaitingRead
  alert : AlertCtl
  log : LogWriter
  /-- the buffer memory on the M port (R2) -/
  mem : Memory
  /-- the steps waiting to be taken, first in first out -/
  pending : List Instr
  deriving DecidableEq, Repr

/-! ## Reset values -/

/-- R8: role NONE, base 0, limit 0, lane 0. -/
def Region.reset : Region := { role := .none, base := 0, limit := 0, lane := 0 }

/-- R19, R20: UNCLAIMED, every counter 0, the table empty. -/
def Router.reset : Router :=
  { controlBase := none, forward := [], inFlight := [], waiting := [], fetchOrder := [], waitCount := 0, strayClaims := 0,
    straddles := 0, logIntrusions := 0, regions := Vector.replicate 32 Region.reset, mPort := none, qPort := none }

/-- R181. -/
def CmdUnit.reset : CmdUnit :=
  { queue := [], answers := [], takes := 0, unclaiming := false, partials := 0, supersedes := 0, statusSeq := 0 }

/-- R52: an undefined entry. -/
def Clip.undefined : Clip := { defined := false, addr := 0, count := 0, firstPts := 0, pidMap := [] }

/-- R68, R69: an EMPTY placement. -/
def Placement.vacant : Placement :=
  { state := .vacant, lane := 0, kind := .advert, trigger := .immediate, avail := 0, scheduled := 0, duration := 1,
    takeCueDuration := false, rule := .atEnd, clips := [], t := none, lateCheck := false, blocked := false, preRoll := 0,
    entryTime := 0, withdrawn := false, earlyReturn := false }

/-- The continuity items at LANE-ENABLE (R155); the last CC is DESIGN CHOICE 0 (log 4). -/
def ContItem.reset : ContItem := { lastCc := 0, seen := false, duplicate := false, errors := 0 }

/-- The monitor at LANE-ENABLE but for its state (R155); the tags, the recovery index and the rate interval start, which
R155 does not name, are DESIGN CHOICE 0 (log 4). -/
def Monitor.fresh (st : MonState) : Monitor :=
  { state := st, blankStart := none, anchorTag := 0, anchorIndex := none, anchorAge := 0, anchorAbsent := false,
    filterStart := 0, recoveryIndex := 0, recoveryAge := 0, rateStart := 0, rateCount := 0, rateLast := 0,
    rateAlarm := false, cont := Vector.replicate 4 ContItem.reset }

/-- R21, R154. -/
def LaneRecord.reset : LaneRecord :=
  { isSet := false, zone := 0, region := 0, roles := Vector.replicate 4 Config.nullPid, passList := [],
    cuePid := Config.nullPid, entryWindow := 0, jumpLimit := 9000, slateClip := none, gapLimit := 500, lossFilter := 200,
    goodFilter := 1000, blankTime := 2000, rateInterval := 100, rateThreshold := 0, rateMode := .off, rateAsLoss := false }

/-- R36. -/
def RoleState.reset : RoleState := { outLast := 0, delta := 0, realign := false }

/-- R26, R31, R32, R36, R38, R58, R75, R93, R96, R155, R189. -/
def Lane.reset : Lane :=
  { record := LaneRecord.reset, enabled := false, writeIndex := 0, readIndex := 0, clockC := 0, clockL := 0,
    anchored := false, roles := Vector.replicate 4 RoleState.reset, recent := [], strays := 0, writeSkips := 0,
    readSkips := 0, malformed := 0, ptsLess := 0, cueErrors := 0, monitor := Monitor.fresh .disabled, stack := [],
    alertReq := none, slateInsert := none, slateRemove := none, look := .empty, audit := .none }

/-- R134: an undefined profile. -/
def Profile.undefined : Profile :=
  { defined := false, zones := 0, severity := 1, clips := [], holdLimit := 1, period := 10, lockedFraction := 0,
    loopLimit := 2, reaction := .warn }

/-- R153. -/
def AlertCtl.reset : AlertCtl :=
  { profiles := Vector.replicate 4 Profile.undefined, state := .idle, profile := 0, severity := 0, holdMark := 0,
    heldSeconds := 0, periodStart := 0, loopCount := 0, reactionFired := false, linePending := false, lock := false,
    ealFiltered := false, ealMark := none }

/-- R182, R183. -/
def LogWriter.reset : LogWriter := { head := 0, tail := 0, queue := [], lost := 0, presented := none }

/-- The part right after RST_N has been asserted and released: every block at its RST_N value, Local Time 0 (R193).
The levels of BYPASS and EAL are inputs, and so is REFCLK; the levels are taken as deasserted and REFCLK as running (DESIGN CHOICE, log 3). -/
def State.reset : State :=
  { lt := 0, refclk := true, rst := false, bypass := false, eal := false, router := Router.reset, cmd := CmdUnit.reset,
    lanes := Vector.replicate 16 Lane.reset, clips := Vector.replicate 256 Clip.undefined,
    placements := Vector.replicate 128 Placement.vacant, wait := none, alert := AlertCtl.reset, log := LogWriter.reset,
    mem := [], pending := [] }

end Sys2Proof.Machine
end

