-- ==== Sys2Proof/Machine/Bits.lean ====
section
/-! DEFINITION. Bit fields, byte order, circular comparison, saturation, and the totals over the part's tables. -/

namespace Sys2Proof.Machine

open Sys2Proof

/-! ## Circular time (00_scope, Circular comparison) -/

/-- In 33-bit PT time, `a` is at or after `b`. -/
def ptAtOrAfter (a b : Pt) : Bool := decide ((a - b).toNat < 2 ^ 32)

/-- In 33-bit PT time, `a` is after `b`: at or after it, and different from it. -/
def ptAfter (a b : Pt) : Bool := ptAtOrAfter a b && decide (a ≠ b)

/-- The signed difference of two 33-bit values: negative when (a − b) mod 2^33 is 2^32 or more. -/
def ptDiff (a b : Pt) : Int := (a - b).toInt

/-- In 32-bit RT time, `a` is at or after `b`. -/
def rtAtOrAfter (a b : Rt) : Bool := decide ((a - b).toNat < 2 ^ 31)

/-- In 32-bit RT time, `a` is after `b`. -/
def rtAfter (a b : Rt) : Bool := rtAtOrAfter a b && decide (a ≠ b)

/-- (now − mark) mod 2^32, as a number. -/
def rtSince (now mark : Rt) : Nat := (now - mark).toNat

/-- A time `t` plus a number of RT, modulo 2^32. -/
def rtPlus (t : Rt) (n : Nat) : Rt := t + BitVec.ofNat 32 n

/-- A time `t` plus a number of PT, modulo 2^33. -/
def ptPlus (t : Pt) (n : Nat) : Pt := t + BitVec.ofNat 33 n

/-! ## Counters -/

/-- A saturating 16-bit counter gains one (00_scope, Counters). -/
def satInc (n : Nat) : Nat := if n < Config.counterMax then n + 1 else n

/-! ## Fields of line words (R192) -/

/-- The `len` bits of a word from bit `lo` up, as an unsigned number. -/
def field (w : Word) (lo len : Nat) : Nat := w.toNat / 2 ^ lo % 2 ^ len

/-- A number placed as the `len` bits of a word from bit `lo` up. -/
def put (v len lo : Nat) : Nat := v % 2 ^ len * 2 ^ lo

/-- A flag at bit `lo`: 1 when set. -/
def flag (b : Bool) (lo : Nat) : Nat := if b then 2 ^ lo else 0

/-- A line word of a number. -/
def word (n : Nat) : Word := BitVec.ofNat 32 n

/-- The low word of a 33-bit time value (00_scope, Word order in lines). -/
def ptLow (t : Pt) : Word := BitVec.ofNat 32 t.toNat

/-- Bit 32 of a 33-bit time value. -/
def ptHigh (t : Pt) : Nat := t.toNat / 2 ^ 32

/-- Word `n` of a captured line. -/
def wordAt (ws : List Word) (n : Nat) : Word := ws.getD n 0

/-- A time parameter: low 32 bits from word `n`, the rest from the whole of word `n + 1` (R192). -/
def timeAt (ws : List Word) (n : Nat) : Nat := (wordAt ws n).toNat + (wordAt ws (n + 1)).toNat * 2 ^ 32

/-! ## Byte order -/

/-- The four bytes of a word, least significant first. -/
def wordBytes (w : Word) : List Byte :=
  [BitVec.ofNat 8 w.toNat, BitVec.ofNat 8 (w.toNat / 2 ^ 8), BitVec.ofNat 8 (w.toNat / 2 ^ 16), BitVec.ofNat 8 (w.toNat / 2 ^ 24)]

/-- The bytes of a list of words, word n in bytes 4n..4n+3. -/
def wordsBytes (ws : List Word) : List Byte := ws.flatMap wordBytes

/-- Byte `i` of a list of bytes, as a number; 0 past its end. -/
def byteAt (bs : List Byte) (i : Nat) : Nat := (bs.getD i 0).toNat

/-- Word `n` of a list of bytes, least significant byte first. -/
def wordOfBytes (bs : List Byte) (n : Nat) : Word :=
  word (byteAt bs (4 * n) + byteAt bs (4 * n + 1) * 2 ^ 8 + byteAt bs (4 * n + 2) * 2 ^ 16 + byteAt bs (4 * n + 3) * 2 ^ 24)

/-- The 16 words of a line. -/
def lineWords (bs : List Byte) : List Word := (List.range 16).map (wordOfBytes bs)

/-- A big-endian number of `n` bytes from byte `i` (transport packet fields, 00_scope). -/
def bigEndian (bs : List Byte) (i : Nat) : Nat → Nat
  | 0 => 0
  | n + 1 => bigEndian bs i n * 2 ^ 8 + byteAt bs (i + n)

/-- Byte `i` replaced by a number modulo 256. -/
def setByte (bs : List Byte) (i n : Nat) : List Byte := bs.set i (BitVec.ofNat 8 n)

/-! ## Tables -/

/-- A table with every entry changed by the same function. -/
def vmap {α β : Type} {n : Nat} (f : α → β) (v : Vector α n) : Vector β n := ⟨⟨v.toList.map f⟩, by simp⟩

/-- The mask of the numbers 0..15 that satisfy a test, number n at bit n. -/
def mask16 (p : Nat → Bool) : BitVec 16 :=
  (List.range 16).foldl (fun m l => if p l then m ||| BitVec.ofNat 16 (2 ^ l) else m) 0

end Sys2Proof.Machine
end

