-- ==== Sys2Proof/Machine/Memory.lean ====
section
/-! DEFINITION. The buffer memory on the M port: reading and writing bytes, masked lines and slots (R1, R2). The whole 32-bit
address space exists; addresses wrap modulo 2^32 (R1). -/

namespace Sys2Proof.Machine

open Sys2Proof

/-- One byte of memory. -/
def Memory.read : Memory → Nat → Byte
  | [], _ => Config.unwritten
  | (k, b) :: rest, a => if k = a then b else Memory.read rest a

/-- One byte written, keeping the canonical form: writing what an unlisted address reads as lists nothing. -/
def Memory.write : Memory → Nat → Byte → Memory
  | [], a, v => if v = Config.unwritten then [] else [(a, v)]
  | (k, b) :: rest, a, v =>
    if a < k then (if v = Config.unwritten then (k, b) :: rest else (a, v) :: (k, b) :: rest)
    else if a = k then (if v = Config.unwritten then rest else (a, v) :: rest)
    else (k, b) :: Memory.write rest a v

/-- Every listed address is above `lo`, addresses rise strictly, and no entry reads as an unlisted address does. -/
def Memory.wfAbove : Option Nat → Memory → Bool
  | _, [] => true
  | lo, (k, b) :: rest =>
    (match lo with
      | none => true
      | some a => decide (a < k)) && decide (b ≠ Config.unwritten) && Memory.wfAbove (some k) rest

/-- The canonical form of memory. -/
def Memory.wf (m : Memory) : Bool := Memory.wfAbove none m

/-- The address of a byte `i` past a line address, modulo 2^32 (R1). -/
def addrPlus (a : Word) (i : Nat) : Nat := (a.toNat + i) % 2 ^ 32

/-- `n` bytes read from an address up. -/
def Memory.readBytes (m : Memory) (a : Word) (n : Nat) : List Byte := (List.range n).map fun i => m.read (addrPlus a i)

/-- Bytes written from offset `i` past an address up, each only where its enable is set (R2). -/
def Memory.writeFrom (m : Memory) (a : Word) (i : Nat) : List Byte → List Bool → Memory
  | d :: ds, e :: es => Memory.writeFrom (if e then m.write (addrPlus a i) d else m) a (i + 1) ds es
  | _, _ => m

/-- A masked write of lines (R2). -/
def Memory.writeMasked (m : Memory) (a : Word) (data : List Byte) (enables : List Bool) : Memory := m.writeFrom a 0 data enables

end Sys2Proof.Machine
end

