-- ==== Sys2Proof/Machine/Packet.lean ====
section
/-! DEFINITION. Slots and transport packets: inspection (chapter 3), the lane matches, the null packet, and the rewriting of
header fields and timestamps (R123 to R126, 12.2). -/

namespace Sys2Proof.Machine

open Sys2Proof

/-! ## Slots (12.2) -/

/-- A slot's arrival tag, bytes 0..3, least significant byte first. -/
def slotTag (slot : List Byte) : Rt := wordOfBytes slot 0

/-- A slot's packet, bytes 4..191. -/
def slotPacket (slot : List Byte) : List Byte := slot.drop 4

/-- A slot of a stored slot's own tag and a packet (R108). -/
def slotWith (slot packet : List Byte) : List Byte := slot.take 4 ++ packet

/-- The null packet (R51). -/
def nullPacket : List Byte := [0x47, 0x1F, 0xFF, 0x10] ++ List.replicate 184 0xFF

/-! ## Inspection (R41 to R47) -/

/-- The result of a packet whose sync byte is not 0x47 (R41): malformed and nothing else. Payload start 188 and CC 0 stand where
R41 and R47 give such a packet none (DESIGN CHOICE, log 39); nothing reads them. -/
def Insp.bad : Insp :=
  { malformed := true, pid := none, pusi := false, hasPayload := false, cc := 0, payStart := 188, payLen := 0, rap := false,
    pcr := none, pesStart := false, pts := none, dts := none }

/-- The 33 value bits of a 5-byte timestamp encoding at byte `q` (R46, 12.2). -/
def stampAt (p : List Byte) (q : Nat) : Pt :=
  BitVec.ofNat 33 (byteAt p q / 2 % 8 * 2 ^ 30 + byteAt p (q + 1) * 2 ^ 22 + byteAt p (q + 2) / 2 * 2 ^ 15
    + byteAt p (q + 3) * 2 ^ 7 + byteAt p (q + 4) / 2)

/-- The adaptation field length when a field is present (R43). -/
def fieldLength (p : List Byte) : Nat := byteAt p 4

/-- The adaptation field control (R42). -/
def fieldControl (p : List Byte) : Nat := byteAt p 3 / 16 % 4

/-- An adaptation field is present: control 2 or 3 (R42). -/
def hasField (p : List Byte) : Bool := decide (2 ≤ fieldControl p)

/-- A present field that holds its flags byte: a length of 1..183 (R43). -/
def fieldFits (p : List Byte) : Bool := hasField p && decide (1 ≤ fieldLength p ∧ fieldLength p ≤ 183)

/-- The payload start (R42, R43); 188 for an overlong field, which leaves no payload (DESIGN CHOICE, log 5). -/
def payloadStart (p : List Byte) : Nat :=
  if hasField p then (if fieldLength p ≤ 183 then 5 + fieldLength p else 188) else 4

/-- The has-payload outcome: control 1 or 3 (R42). -/
def payloadPresent (p : List Byte) : Bool := decide (fieldControl p % 2 = 1)

/-- The payload length (R42, R43). -/
def payloadLength (p : List Byte) : Nat := if payloadPresent p then 188 - payloadStart p else 0

/-- PUSI (R42). -/
def unitStart (p : List Byte) : Bool := decide (byteAt p 1 / 64 % 2 = 1)

/-- The PID (R42). -/
def packetPid (p : List Byte) : Pid := BitVec.ofNat 13 (byteAt p 1 % 32 * 2 ^ 8 + byteAt p 2)

/-- The continuity counter (R42). -/
def packetCc (p : List Byte) : Cc := BitVec.ofNat 4 (byteAt p 3)

/-- The RAP outcome (R43). -/
def packetRap (p : List Byte) : Bool := fieldFits p && decide (byteAt p 5 / 64 % 2 = 1)

/-- The PCR's base and extension, where the field covers bytes 6..11 (R44). -/
def packetPcr (p : List Byte) : Option (Pt × Nat) :=
  if fieldFits p && decide (byteAt p 5 / 16 % 2 = 1) && decide (7 ≤ fieldLength p) then
    some (BitVec.ofNat 33 (bigEndian p 6 6 / 2 ^ 15), bigEndian p 6 6 % 2 ^ 9)
  else none

/-- The PES-start outcome (R45). -/
def packetPes (p : List Byte) : Bool :=
  unitStart p && payloadPresent p && decide (3 ≤ payloadLength p) && decide (byteAt p (payloadStart p) = 0)
    && decide (byteAt p (payloadStart p + 1) = 0) && decide (byteAt p (payloadStart p + 2) = 1)

/-- The optional PES header is present: marker bits 1, 0 and a flags byte within the payload (R45). -/
def packetOptional (p : List Byte) : Bool :=
  packetPes p && decide (8 ≤ payloadLength p) && decide (byteAt p (payloadStart p + 6) / 64 = 2)

/-- The two timestamp flags (R46); 0 where there is no optional header. -/
def stampFlags (p : List Byte) : Nat := if packetOptional p then byteAt p (payloadStart p + 7) / 64 else 0

/-- The PTS with its location, when the announced timestamps fit the packet (R46). -/
def packetPts (p : List Byte) : Option (Pt × Nat) :=
  let q := payloadStart p
  if (stampFlags p = 2 ∧ q + 14 ≤ 188) ∨ (stampFlags p = 3 ∧ q + 19 ≤ 188) then some (stampAt p (q + 9), q + 9) else none

/-- The DTS with its location, when both timestamps are announced and fit (R46). -/
def packetDts (p : List Byte) : Option (Pt × Nat) :=
  let q := payloadStart p
  if stampFlags p = 3 ∧ q + 19 ≤ 188 then some (stampAt p (q + 14), q + 14) else none

/-- The inspection of one packet (R47). -/
def inspect (p : List Byte) : Insp :=
  if byteAt p 0 = 0x47 then
    { malformed := false, pid := some (packetPid p), pusi := unitStart p, hasPayload := payloadPresent p, cc := packetCc p,
      payStart := payloadStart p, payLen := payloadLength p, rap := packetRap p, pcr := packetPcr p, pesStart := packetPes p,
      pts := packetPts p, dts := packetDts p }
  else Insp.bad

/-! ## Matches within a lane (R48, R49) -/

/-- The role a lane record gives a PID; 0x1FFF is of no role (R48). -/
def LaneRecord.roleOf (r : LaneRecord) (pid : Pid) : Option (Fin 4) :=
  if pid = Config.nullPid then none
  else if r.roles[0] = pid then some 0
  else if r.roles[1] = pid then some 1
  else if r.roles[2] = pid then some 2
  else if r.roles[3] = pid then some 3
  else none

/-- The role of an inspected packet on a lane (R48). -/
def LaneRecord.role (r : LaneRecord) (i : Insp) : Option (Fin 4) := i.pid.bind r.roleOf

/-- The packet is on the lane's pass-list (R48). -/
def LaneRecord.passes (r : LaneRecord) (i : Insp) : Bool :=
  match i.pid with
  | some pid => decide (pid ∈ r.passList)
  | none => false

/-- The packet is on the lane's cue PID (R48). -/
def LaneRecord.onCuePid (r : LaneRecord) (i : Insp) : Bool :=
  match i.pid with
  | some pid => decide (pid = r.cuePid ∧ r.cuePid ≠ Config.nullPid)
  | none => false

/-- The packet is an anchor packet: well formed and of role 0 (R49). -/
def LaneRecord.isAnchor (r : LaneRecord) (i : Insp) : Bool := decide (r.role i = some 0)

/-- The PTS of an anchor packet with PUSI set, which updates the lane clock (R33). -/
def LaneRecord.anchorPts (r : LaneRecord) (i : Insp) : Option Pt :=
  if r.isAnchor i && i.pusi then i.pts.map Prod.fst else none

/-- The PTS of an anchor RAP; absent when the packet is none (R49). -/
def LaneRecord.anchorRap (r : LaneRecord) (i : Insp) : Option Pt := if i.rap then r.anchorPts i else none

/-! ## Rewriting (R123 to R126) -/

/-- The PID bits of bytes 1 and 2 replaced. -/
def setPid (p : List Byte) (pid : Pid) : List Byte :=
  setByte (setByte p 1 (byteAt p 1 / 32 * 32 + pid.toNat / 2 ^ 8)) 2 pid.toNat

/-- The counter bits of byte 3 replaced. -/
def setCc (p : List Byte) (cc : Cc) : List Byte := setByte p 3 (byteAt p 3 / 16 * 16 + cc.toNat)

/-- The 33 value bits of the encoding at byte `q` replaced; prefix and markers stay (R125). -/
def setStamp (p : List Byte) (q : Nat) (t : Pt) : List Byte :=
  let v := t.toNat
  let p := setByte p q (byteAt p q / 16 * 16 + v / 2 ^ 30 * 2 + byteAt p q % 2)
  let p := setByte p (q + 1) (v / 2 ^ 22)
  let p := setByte p (q + 2) (v / 2 ^ 15 % 2 ^ 7 * 2 + byteAt p (q + 2) % 2)
  let p := setByte p (q + 3) (v / 2 ^ 7)
  setByte p (q + 4) (v % 2 ^ 7 * 2 + byteAt p (q + 4) % 2)

/-- The 33 base bits of the PCR at bytes 6..10 replaced; the bits below stay (R124). -/
def setPcrBase (p : List Byte) (t : Pt) : List Byte :=
  let v := t.toNat
  let p := setByte p 6 (v / 2 ^ 25)
  let p := setByte p 7 (v / 2 ^ 17)
  let p := setByte p 8 (v / 2 ^ 9)
  let p := setByte p 9 (v / 2)
  setByte p 10 (v % 2 * 2 ^ 7 + byteAt p 10 % 2 ^ 7)

/-- A present PTS or DTS moved by an offset (R125). -/
def rebaseStamp (off : Pt) (stamp : Option (Pt × Nat)) (p : List Byte) : List Byte :=
  match stamp with
  | some (t, q) => setStamp p q (t + off)
  | none => p

/-- A present PCR base moved by an offset (R124). -/
def rebasePcr (off : Pt) (pcr : Option (Pt × Nat)) (p : List Byte) : List Byte :=
  match pcr with
  | some (t, _) => setPcrBase p (t + off)
  | none => p

/-- A library packet rewritten for a lane: PID, counter, and every present timestamp (R123). -/
def rewritePacket (p : List Byte) (i : Insp) (pid : Pid) (cc : Cc) (off : Pt) : List Byte :=
  rebaseStamp off i.dts (rebaseStamp off i.pts (rebasePcr off i.pcr (setCc (setPid p pid) cc)))

end Sys2Proof.Machine
end

