-- ==== Sys2Proof/Machine/Ops.lean ====
section
/-! DEFINITION. The named operations over the state: access to the tables, the lane clock, the log ring and the hand-over
of records, stack entries, and clips in use. -/

namespace Sys2Proof.Machine

open Sys2Proof

/-! ## Access to the tables -/

/-- Lane `l`; numbers above 15 read as a lane at reset. -/
def State.lane (s : State) (l : Nat) : Lane := (s.lanes[l]?).getD Lane.reset

/-- Lane `l` replaced; nothing for a number above 15. -/
def State.setLane (s : State) (l : Nat) (x : Lane) : State := { s with lanes := s.lanes.setIfInBounds l x }

/-- Lane `l` changed by a function. -/
def State.onLane (s : State) (l : Nat) (f : Lane → Lane) : State := s.setLane l (f (s.lane l))

/-- Clip entry `id` (R52). -/
def State.clip (s : State) (id : Nat) : Clip := (s.clips[id]?).getD Clip.undefined

/-- Clip entry `id` replaced. -/
def State.setClip (s : State) (id : Nat) (c : Clip) : State := { s with clips := s.clips.setIfInBounds id c }

/-- Placement `id` (R68). -/
def State.placement (s : State) (id : Nat) : Placement := (s.placements[id]?).getD Placement.vacant

/-- Placement `id` replaced. -/
def State.setPlacement (s : State) (id : Nat) (p : Placement) : State :=
  { s with placements := s.placements.setIfInBounds id p }

/-- Placement `id` changed by a function. -/
def State.onPlacement (s : State) (id : Nat) (f : Placement → Placement) : State := s.setPlacement id (f (s.placement id))

/-- Region entry `i` (R8). -/
def State.region (s : State) (i : Nat) : Region := (s.router.regions[i]?).getD Region.reset

/-- Alert profile `p` (R134). -/
def AlertCtl.profileAt (a : AlertCtl) (p : Nat) : Profile := (a.profiles[p]?).getD Profile.undefined

/-- The router is CLAIMED (R6). -/
def State.claimed (s : State) : Bool := s.router.controlBase.isSome

/-- Lanes in order 0..15, ids in order 0..127. -/
def laneNumbers : List Nat := List.range 16
/-- The placement ids in order. -/
def placementIds : List Nat := List.range 128

/-! ## Regions (R8) -/

/-- The slot count N of a RING region (R8). -/
def Region.slots (r : Region) : Nat := (r.limit.toNat - r.base.toNat) / Config.slotBytes

/-- The line count of a region. -/
def Region.lines (r : Region) : Nat := (r.limit.toNat - r.base.toNat) / Config.lineBytes

/-- An address lies in a region whose role is not NONE (R8). -/
def Region.holds (r : Region) (a : Nat) : Bool := decide (r.role ≠ .none ∧ r.base.toNat ≤ a ∧ a < r.limit.toNat)

/-- A range of addresses lies wholly inside one region entry of a role (R53, R60). -/
def State.insideOne (s : State) (role : RegionRole) (lo hi : Nat) : Bool :=
  s.router.regions.toList.any fun r => decide (r.role = role ∧ r.base.toNat ≤ lo ∧ hi ≤ r.limit.toNat)

/-- The slot count of a lane's ring (R28). -/
def State.ringSlots (s : State) (l : Nat) : Nat := (s.region (s.lane l).record.region).slots

/-! ## The lane clock (R32) -/

/-- The current value of a lane's clock at Local Time `lt` (R32). -/
def Lane.clockAt (x : Lane) (lt : Rt) : Pt := ptPlus x.clockC (rtSince lt x.clockL / Config.rtPerPt)

/-- The current value of lane `l`'s clock. -/
def State.clock (s : State) (l : Nat) : Pt := (s.lane l).clockAt s.lt

/-- The occupancy of a ring of `n` slots (R30). -/
def Lane.occupancy (x : Lane) (n : Nat) : Nat := (x.writeIndex + n - x.readIndex) % n

/-! ## The log ring (R182 to R185) -/

/-- The ring's base and line count C; absent without a LOG entry (R182). -/
def State.logRing (s : State) : Option (Word × Nat) :=
  (s.router.regions.toList.find? fun r => decide (r.role = .log)).map fun r => (r.base, r.lines)

/-- The ring of `c` lines is full (R182). -/
def LogWriter.full (g : LogWriter) (c : Nat) : Bool := decide ((g.head + 1) % c = g.tail)

/-- The Log Writer presents its next write when it may: a GAP if one is due, else the first queued record (R184). -/
def presentLog (s : State) : State :=
  match s.logRing with
  | none => s
  | some (_, c) =>
    if s.log.presented = none ∧ s.log.full c = false ∧ (0 < s.log.lost ∨ s.log.queue ≠ []) then
      { s with log := { s.log with presented := some (if 0 < s.log.lost then .gap else .record) } }
    else s

/-- A record is lost and counted (R183). -/
def loseRecord (s : State) : State := presentLog { s with log := { s.log with lost := satInc s.log.lost } }

/-- A record produced now is handed to the Log Writer (R183). -/
def handRecord (lane : Nat) (body : RecordBody) (s : State) : State :=
  match s.logRing with
  | none => loseRecord s
  | some (_, c) =>
    if s.log.full c ∨ Config.recordCapacity ≤ s.log.queue.length then loseRecord s
    else presentLog { s with log := { s.log with queue := s.log.queue ++ [{ stamp := s.lt, lane := lane, body := body }] } }

/-- Several records of one event, handed over in order (R183). -/
def handRecords (lane : Nat) : List RecordBody → State → State
  | [], s => s
  | b :: bs, s => handRecords lane bs (handRecord lane b s)

/-- The lane field of a record that has no lane (00_scope, Identifiers). -/
def noLane : Nat := 255

/-! ## Stack entries (R94) -/

/-- SLATE and ALERT lists loop (R94). -/
def Kind.looped : Kind → Bool
  | .slate | .alert => true
  | .programme | .advert => false

/-- The rank of a kind (chapter 6). -/
def Kind.rank : Kind → Nat
  | .slate => 1 | .programme => 2 | .advert => 3 | .alert => 4

/-- An exhausted list: a placement list walked past its last index (R94). -/
def Entry.exhausted (e : Entry) : Bool :=
  !e.kind.looped && e.current.isNone && decide (e.clips.length ≤ e.nextIdx)

/-- The entry's next position (R58). -/
def Entry.nextPosition (e : Entry) : Nat × Nat := e.current.getD (e.nextIdx, 0)

/-- The list index after `j`, wrapping in a looped list (R58). -/
def Entry.indexAfter (e : Entry) (j : Nat) : Nat := if e.kind.looped then (j + 1) % e.clips.length else j + 1

/-- The outcome of list position `j` decided (R94). -/
def Entry.mark (e : Entry) (j : Nat) (o : ClipOutcome) : Entry :=
  { e with tally := e.tally.modify j fun t => { t with outcome := some o } }

/-- The current clip, if there is one, ends: with an outcome or, at a restart, with none, and play goes on at the next
index (R58, R64, R65, R105). -/
def Entry.endClip (e : Entry) (o : ClipOutcome) : Entry :=
  match e.current with
  | none => e
  | some (j, _) => { e.mark j o with current := none, nextIdx := e.indexAfter j }

/-- The id of the current clip (R55). -/
def Entry.currentClip (e : Entry) : Option Nat := e.current.bind fun c => e.clips[c.1]?

/-- A new entry (R95): nothing started, next position index 0, packet 0. -/
def Entry.made (kind : Kind) (source : Source) (clips : List Nat) (endTime : Option Pt) (rule : ReturnRule) : Entry :=
  { kind := kind, source := source, clips := clips, current := none, nextIdx := 0, started := false, ptsOffset := 0,
    tagOffset := 0, endTime := endTime, rule := rule, endRequested := false, hasBeenTop := false, aired := false,
    interrupted := false, returning := false,
    tally := if kind.looped then [] else clips.map fun _ => { aired := 0, outcome := none }, maxLag := 0 }

/-- An entry joins a stack at the position its rank gives it (R93). The stack is top first. -/
def insertEntry (e : Entry) : List Entry → List Entry
  | [] => [e]
  | x :: rest => if x.kind.rank < e.kind.rank then e :: x :: rest else x :: insertEntry e rest

/-- The top entry of a lane (R93). -/
def Lane.top (x : Lane) : Option Entry := x.stack.head?

/-- The entry of a kind on a lane's stack. -/
def Lane.entryOf (x : Lane) (k : Kind) : Option Entry := x.stack.find? fun e => decide (e.kind = k)

/-- The top entry changed by a function. -/
def Lane.onTop (x : Lane) (f : Entry → Entry) : Lane :=
  match x.stack with
  | [] => x
  | e :: rest => { x with stack := f e :: rest }

/-- Every entry of a lane's stack that plays for a source changed by a function. -/
def Lane.onSource (x : Lane) (src : Source) (f : Entry → Entry) : Lane :=
  { x with stack := x.stack.map fun e => if e.source = src then f e else e }

/-- The stack entry of a placement on its lane (R69). -/
def State.entryOfPlacement (s : State) (id : Nat) : Option Entry :=
  (s.lane (s.placement id).lane).stack.find? fun e => decide (e.source = .placement id)

/-! ## Clips in use (R55) -/

/-- The lookahead names a clip while it is FETCHING or FULL (R55, R58). -/
def Look.names (k : Look) (id : Nat) : Bool :=
  match k with
  | .empty => false
  | .fetching key _ _ _ _ => decide (key.clip = id)
  | .full key _ _ _ => decide (key.clip = id)

/-- A lane keeps a clip in use (R55). -/
def Lane.uses (x : Lane) (id : Nat) : Bool :=
  (x.stack.any fun e => decide (e.currentClip = some id)) || x.look.names id

/-- A granted fetch whose lookahead a reset emptied brings a slot of the clip (R66). -/
def InFlight.fetches (f : InFlight) (id : Nat) : Bool :=
  match f.owner with
  | .forward => false
  | .fetch _ clip orphan => orphan && decide (clip = id)

/-- A clip is in use: current, or named by a lookahead (R55), or in a granted fetch that a reset has left without a lookahead, until
its data arrives (R66). For that span R55 and R58 alone would release it; R66's last sentence is followed (DESIGN CHOICE between the
rules, log 36). -/
def State.clipInUse (s : State) (id : Nat) : Bool :=
  (laneNumbers.any fun l => (s.lane l).uses id) || s.router.inFlight.any fun f => f.fetches id

/-- The first address past a clip's extent (R52). -/
def Clip.extentEnd (c : Clip) : Nat := c.addr.toNat + Config.slotBytes * c.count

end Sys2Proof.Machine
end

