-- ==== Sys2Proof/Machine/Report.lean ====
section
/-! DEFINITION. The end of a placement (R89 to R91) and the splice audit's notices (R189 to R191). -/

namespace Sys2Proof.Machine

open Sys2Proof

/-! ## As-run reports (R90, R91) -/

/-- The clip item of list position `j`: as decided, CUT for the current clip, SKIPPED when not reached (R90). So a top that an alert
covers at stage 2 and that is removed at stage 3 of the same read has its clip CUT, since no stage 5 has decided that clip, although
R101 says that a covered entry has no current clip (DESIGN CHOICE, log 42). -/
def Entry.clipItem (e : Entry) (j : Nat) (t : TallyItem) : ClipItem :=
  let clip := e.clips.getD j 0
  match t.outcome with
  | some o => { clip := clip, aired := t.aired, outcome := o }
  | none =>
    if e.current.map Prod.fst = some j then { clip := clip, aired := t.aired, outcome := .cut }
    else { clip := clip, aired := 0, outcome := .skipped }

/-- One item per list position, in list order (R90). -/
def Entry.clipItems (e : Entry) : List ClipItem := e.tally.zipIdx.map fun t => e.clipItem t.2 t.1

/-- The as-run report of placement `id` (R91); a placement that never entered has no entry, times, lag or items. -/
def placementReport (id : Nat) (p : Placement) (o : Outcome) (e : Option Entry) (endTime : Pt) : RecordBody :=
  .placement id p.kind p.trigger p.avail p.t (e.map fun _ => (p.entryTime, endTime)) o
    ((e.map Entry.maxLag).getD 0) ((e.map Entry.clipItems).getD [])

/-- A placement ends: its report is handed over, and it becomes EMPTY in the same step (R91). -/
def endPlacement (id : Nat) (o : Outcome) (e : Option Entry) (endTime : Pt) (s : State) : State :=
  (handRecord (s.placement id).lane (placementReport id (s.placement id) o e endTime) s).setPlacement id Placement.vacant

/-- The outcome of a placement whose entry leaves the stack at the ends stage (R89). -/
def leaveOutcome (p : Placement) (e : Entry) (covered : Bool) : Outcome :=
  if p.withdrawn then .withdrawn
  else if p.earlyReturn then .earlyReturn
  else if covered then (if e.aired then .preempted else .coveredOut)
  else if e.exhausted then .complete
  else .truncated

/-- An entry leaves a stack with an outcome chosen for its placement: a placement ends and is reported; a slate or alert
entry goes without a record (R26, R101, R102, R112). -/
def leaveStack (e : Entry) (o : Placement → Outcome) (endTime : Pt) (s : State) : State :=
  match e.source with
  | .placement id => endPlacement id (o (s.placement id)) (some e) endTime s
  | .laneSlate | .profile _ => s

/-- The entries of a torn down stack leave it top first, placements with one outcome whatever their marks (R26, R89, R112). -/
def leaveAll (o : Outcome) (endTime : Pt) : List Entry → State → State
  | [], s => s
  | e :: rest, s => leaveAll o endTime rest (leaveStack e (fun _ => o) endTime s)

/-! ## The splice audit (R189 to R191) -/

/-- The error of a measurement, clamped to −32,767..32,767 PT (R190). -/
def auditError (actual requested : Pt) : Int := max (-32767) (min 32767 (ptDiff actual requested))

/-- The error of a measurement that lacks one of its times (R190, R191). -/
def auditSentinel : Int := -32768

/-- An entry notice: measured by a lane's OUT mark, else discarded (R86, R190). -/
def auditEntry (lane id : Nat) (t : Option Pt) (start : Pt) (preRoll : Nat) (s : State) : State :=
  if (s.lane lane).audit = .out then
    (handRecord lane (.auditOut id t (some start) ((t.map (auditError start)).getD auditSentinel) preRoll) s).onLane lane
      fun x => { x with audit := .none }
  else s

/-- A missed notice: the sentinel case of a lane's OUT mark, else discarded (R91, R190). -/
def auditMissed (id : Nat) (p : Placement) (s : State) : State :=
  if (s.lane p.lane).audit = .out then
    (handRecord p.lane (.auditOut id p.t none auditSentinel p.preRoll) s).onLane p.lane fun x => { x with audit := .none }
  else s

/-- A return notice: measured by a lane's IN mark, else discarded (R103, R191). -/
def auditReturn (lane : Nat) (kind : Kind) (e : Option Pt) (returned : Pt) (atRap : Bool) (s : State) : State :=
  if (s.lane lane).audit = .into then
    (handRecord lane (.auditIn kind atRap e returned ((e.map (auditError returned)).getD auditSentinel)) s).onLane lane
      fun x => { x with audit := .none }
  else s

/-- A placement ends with one of the MISSED outcomes: its report and its missed notice (R91, R190). The report is handed over
first, and the AUDIT record follows it before the next placement's report (DESIGN CHOICE, log 40). -/
def endMissed (id : Nat) (o : Outcome) (s : State) : State := auditMissed id (s.placement id) (endPlacement id o none 0 s)

end Sys2Proof.Machine
end

