-- ==== Sys2Proof/Machine/Formats.lean ====
section
/-! DEFINITION. The layouts of the lines the part writes: answer codes and result words, the status line, the log records
(R187, R192, chapter 12). -/

namespace Sys2Proof.Machine

open Sys2Proof

/-- Words after the given ones are 0 (R192). -/
def padWords (n : Nat) (ws : List Word) : List Word := (ws ++ List.replicate n 0).take n

/-! ## Codes -/

/-- Answer codes (12.4). -/
def AnswerCode.code : AnswerCode → Nat
  | .done => 1 | .unknown => 2 | .range => 3 | .overlap => 4 | .busy => 5 | .inUse => 6 | .notReady => 7
  | .noEntry => 8 | .locked => 9 | .lower => 10 | .noAlert => 11 | .lineHeld => 12 | .bypass => 13

/-- Stack kind codes (LANE-STATUS, 12.4); also the placement kind codes of PLACE. -/
def Kind.code : Kind → Nat
  | .slate => 1 | .programme => 2 | .advert => 3 | .alert => 4

/-- Trigger codes of PLACE (12.4). -/
def Trigger.code : Trigger → Nat
  | .cue => 0 | .time => 1 | .immediate => 2

/-- Return rule codes of PLACE (12.4). -/
def ReturnRule.code : ReturnRule → Nat
  | .atEnd => 0 | .early => 1

/-- Placement state codes (12.4). -/
def PState.code : PState → Nat
  | .vacant => 0 | .armed => 1 | .pending => 2 | .onAir => 3 | .covered => 4

/-- Monitor state codes (12.4). -/
def MonState.code : MonState → Nat
  | .disabled => 0 | .blank => 1 | .good => 2 | .suspect => 3 | .lost => 4 | .recovering => 5

/-- Alert state codes (12.5). -/
def AlertState.code : AlertState → Nat
  | .idle => 0 | .activeCmd => 1 | .activeLine => 2 | .activeLatched => 3

/-- Cue type codes (12.3). -/
def CueType.code : CueType → Nat
  | .out => 1 | .into => 2 | .cancel => 3

/-- Outcome codes (12.6). -/
def Outcome.code : Outcome → Nat
  | .complete => 1 | .truncated => 2 | .earlyReturn => 3 | .preempted => 4 | .coveredOut => 5 | .missedLate => 6
  | .missedNoEntry => 7 | .missedBlocked => 8 | .cancelled => 9 | .withdrawn => 10 | .bypassed => 11 | .abandoned => 12

/-- Clip outcome codes (12.6). -/
def ClipOutcome.code : ClipOutcome → Nat
  | .aired => 1 | .damaged => 2 | .missing => 3 | .preempted => 4 | .cut => 5 | .skipped => 6

/-- Codes of a fired reaction (12.4, ALERT-RENEW; 12.6, RENEWAL). -/
def Reaction.firedCode : Reaction → Nat
  | .warn => 1 | .release => 2 | .latch => 3

/-- Alert action codes (12.6). -/
def AlertAction.code : AlertAction → Nat
  | .start => 1 | .replace => 2 | .finish => 3

/-- Alert reason codes (12.6). -/
def AlertReason.code : AlertReason → Nat
  | .command => 1 | .line => 2 | .expired => 3 | .renewal => 4 | .bypass => 5

/-- Reason codes of CUE_UNPLACED (12.6). -/
def UnplacedReason.code : UnplacedReason → Nat
  | .noPlacement => 1 | .tooLate => 2

/-- A lookahead's state code (LANE-STATUS, 12.4). -/
def Look.code : Look → Nat
  | .empty => 0 | .fetching .. => 1 | .full .. => 2

/-! ## Log records (12.6) -/

/-- Present, as a flag. -/
def present {α : Type} (o : Option α) (lo : Nat) : Nat := flag o.isSome lo

/-- The low and high word of an optional 33-bit time; 0 where absent (R192). -/
def timeWords (t : Option Pt) : List Word := [ptLow (t.getD 0), word (ptHigh (t.getD 0))]

/-- Word of clip item `i`: packets aired and clip outcome; 0 past the items. -/
def itemWord (items : List ClipItem) (i : Nat) : Word :=
  match items[i]? with
  | some c => word (put c.aired 24 0 + put c.outcome.code 4 24)
  | none => 0

/-- Clip id of item `i`; 0 past the items. -/
def itemClip (items : List ClipItem) (i : Nat) : Nat := (items[i]?.map ClipItem.clip).getD 0

/-- A SUPERVISION record's request field: 0 none, 1 insert, 2 remove (12.6). -/
def postedCode : Option PostedSlate → Nat
  | none => 0
  | some p => if p.isRemove then 2 else 1

/-- T of a PLACEMENT record: carried by the TIME and IMMEDIATE triggers only (R91, R188). -/
def recordT (trigger : Trigger) (t : Option Pt) : Option Pt := if trigger = .cue then none else t

/-- Kind code and words 2.. of a record (12.6). -/
def RecordBody.layout : RecordBody → Nat × List Word
  | .placement id kind trigger avail t times outcome maxLag items =>
    let tt := recordT trigger t
    (1, [word (put id 8 0 + put kind.code 8 8 + put trigger.code 8 16 + put outcome.code 8 24),
      if trigger = .cue then avail else ptLow (tt.getD 0),
      word (put (ptHigh (tt.getD 0)) 1 0 + present tt 1 + present times 2 + put (ptHigh ((times.map Prod.fst).getD 0)) 1 8
        + put (ptHigh ((times.map Prod.snd).getD 0)) 1 9 + put items.length 8 16),
      ptLow ((times.map Prod.fst).getD 0), ptLow ((times.map Prod.snd).getD 0), word maxLag,
      itemWord items 0, itemWord items 1, itemWord items 2, itemWord items 3, itemWord items 4, itemWord items 5,
      word (put (itemClip items 0) 8 0 + put (itemClip items 1) 8 8 + put (itemClip items 2) 8 16 + put (itemClip items 3) 8 24),
      word (put (itemClip items 4) 8 0 + put (itemClip items 5) 8 8)])
  | .cueUnplaced type avail reason injected =>
    (2, [word (put type.code 8 0 + put reason.code 8 8 + flag injected 16), avail])
  | .alert action profile severity reason lanes =>
    (3, [word (put action.code 8 0 + put profile 8 8 + put severity 8 16 + put reason.code 8 24), word lanes.toNat])
  | .renewal profile loopCount reaction =>
    (4, [word (put profile 8 0 + put loopCount 8 8 + put reaction.firedCode 8 16)])
  | .monitor state slot tag posted =>
    (5, [word (put 1 8 0 + put state.code 8 8 + put (postedCode posted) 8 16
        + flag ((posted.map PostedSlate.cancelled).getD false) 24), 0, word slot, tag,
      word ((posted.map PostedSlate.countdown).getD 0)])
  | .rate alarm count slot tag => (5, [word (put 2 8 0 + flag alarm 8), word count, word slot, tag, 0])
  | .timelineJump d => (6, [word (BitVec.ofInt 64 d).toNat, word ((BitVec.ofInt 64 d).toNat / 2 ^ 32)])
  | .auditOut id t s error preRoll =>
    (7, [word (put 1 8 0 + put id 8 8 + present s 25 + present t 26), BitVec.ofInt 32 error] ++ timeWords t ++ timeWords s
      ++ [word preRoll])
  | .auditIn kind atRap e returned error =>
    (7, [word (put 2 8 0 + put 255 8 8 + put kind.code 8 16 + flag atRap 24 + flag true 25 + present e 26),
      BitVec.ofInt 32 error] ++ timeWords e ++ timeWords (some returned))

/-- The 16 words of a record: kind and lane, LT stamp, the fields of its kind (R187, 12.6). -/
def Record.lineOf (r : Record) : List Word :=
  padWords 16 ([word (put r.body.layout.1 8 0 + put r.lane 8 8), r.stamp] ++ r.body.layout.2)

/-- The 16 words of a GAP record granted at `lt` with a lost count (R185, 12.6). -/
def gapWords (lt : Rt) (lost : Nat) : List Word := padWords 16 [word (put 8 8 0 + put noLane 8 8), lt, word lost]

end Sys2Proof.Machine
end

