-- ==== Sys2Proof/Machine/Flags.lean ====
section
/-! DEFINITION. What the part shows of itself: the ALERT_ON line (R137), the items of the status line (R179), and what
every step brings to its arbiter when it is done: answers, the log write and the status line write that become waiting
in the same instant take their places in that order (R16, R175, R180), and the wait count follows (R17). -/

namespace Sys2Proof.Machine

open Sys2Proof

/-- The ALERT_ON output is asserted in the active states (R137). -/
def State.alertOn (s : State) : Bool := decide (s.alert.state ≠ .idle)

/-- Mask of the enabled lanes (R179). -/
def State.enabledMask (s : State) : BitVec 16 := mask16 fun l => (s.lane l).enabled

/-- Mask of the enabled lanes whose monitor is LOST (R168, R179). -/
def State.lostMask (s : State) : BitVec 16 := mask16 fun l => (s.lane l).enabled && decide ((s.lane l).monitor.state = .lost)

/-- Status word 4: alert state, profile and severity (0 when IDLE), lock (R137, 12.5). -/
def AlertCtl.statusWord (a : AlertCtl) : Word :=
  word (put a.state.code 2 0 + (if a.state = .idle then 0 else put a.profile 2 8 + put a.severity 3 16) + flag a.lock 24)

/-- The items the status line carries, other than the sequence count (R179). -/
structure StatusItems where
  claimed : Bool
  alertWord : Word
  bypass : Bool
  eal : Bool
  head : Nat
  tail : Nat
  lost : Nat
  enabled : BitVec 16
  lostLanes : BitVec 16
  strayClaims : Nat
  straddles : Nat
  intrusions : Nat
  partials : Nat
  supersedes : Nat
  deriving DecidableEq, Repr

/-- The items as they stand (R179). -/
def State.statusItems (s : State) : StatusItems :=
  { claimed := s.claimed, alertWord := s.alert.statusWord, bypass := s.bypass, eal := s.alert.ealFiltered,
    head := s.log.head, tail := s.log.tail, lost := s.log.lost, enabled := s.enabledMask, lostLanes := s.lostMask,
    strayClaims := s.router.strayClaims, straddles := s.router.straddles, intrusions := s.router.logIntrusions,
    partials := s.cmd.partials, supersedes := s.cmd.supersedes }

/-- The 16 words of the status line with a sequence count (12.5). -/
def StatusItems.words (i : StatusItems) (seq : Nat) : List Word :=
  padWords 16 [Config.identity, Config.formatRevision, word (flag i.claimed 0), word seq, i.alertWord,
    word (flag i.bypass 0 + flag i.eal 1), word (put i.head 16 0 + put i.tail 16 16), word (put i.lost 16 0),
    word (i.enabled.toNat + i.lostLanes.toNat * 2 ^ 16), word (put i.strayClaims 16 0 + put i.straddles 16 16),
    word (put i.intrusions 16 0 + put i.partials 16 16), word (put i.supersedes 16 0)]

/-! ## What a step brings to the arbiter -/

/-- A part-originated write joins the waiting ones, unless it is among them (R16). -/
def joinWaiting (w : PartWrite) (s : State) : State :=
  if w ∈ s.router.waiting then s else { s with router := { s.router with waiting := s.router.waiting ++ [w] } }

/-- A part-originated write that its owner withdraws before its grant (R16). -/
def withdrawWaiting (w : PartWrite) (s : State) : State :=
  { s with router := { s.router with waiting := s.router.waiting.filter fun x => decide (x ≠ w) } }

/-- The host write that delivered a take has been granted: it is no longer in the forward queue (R175). -/
def State.takeGranted (s : State) (take : Nat) : Bool :=
  s.router.forward.all fun f => decide (f.cls ≠ .command take)

/-- The answer of a command line may wait at the arbiter: its command has executed and the host write that delivered it
has been granted (R175). -/
def State.answerReady (s : State) (line : Nat) : Bool :=
  s.cmd.answers.any fun a => decide (a.line = line) && s.takeGranted a.take

/-- The command lines of the control region, 0..15 (R6). -/
def commandLines : List Nat := List.range 16

/-- Answers that may wait join, lowest command line first (R16, R175). -/
def joinAnswers : List Nat → State → State
  | [], s => s
  | n :: rest, s => joinAnswers rest (if s.answerReady n then joinWaiting (.answer n) s else s)

/-- The presented log write joins (R184). -/
def joinLog (s : State) : State := if s.log.presented.isSome then joinWaiting .log s else s

/-- The status line write joins when the step that began at `before` changed an item it carries (R180). It is never due
while UNCLAIMED or while RST_N is held. -/
def joinStatus (before s : State) : State :=
  if s.claimed ∧ s.rst = false ∧ before.statusItems ≠ s.statusItems then joinWaiting .status s else s

/-- With no part-originated write waiting the wait count is 0 (R17). The waiting writes are looked at where a step ends: a step in
which the only one is withdrawn and another becomes waiting keeps the count (DESIGN CHOICE, log 35; R17 does not say). -/
def settleWaitCount (s : State) : State :=
  if s.router.waiting = [] then { s with router := { s.router with waitCount := 0 } } else s

/-- The close of every step that began at `before` (R16, R17, R175, R180). -/
def settle (before s : State) : State := settleWaitCount (joinStatus before (joinLog (joinAnswers commandLines s)))

end Sys2Proof.Machine
end

