-- ==== Sys2Proof/Machine/Library.lean ====
section
/-! DEFINITION. The clip table and the lookaheads (chapter 4): the walk to a defined clip, the prefetch test, demand
fetches, overtaking, and the damage check. -/

namespace Sys2Proof.Machine

open Sys2Proof

/-! ## A clip's turn (R56) -/

/-- An undefined id is skipped: MISSING with 0 packets aired in a placement's tally (R56). -/
def Entry.skipMissing (e : Entry) : Entry := { e.mark e.nextIdx .missing with nextIdx := e.indexAfter e.nextIdx }

/-- The clip at the entry's next index starts: it becomes the current clip with packet index 0 (R56). -/
def Entry.startClip (e : Entry) : Entry := { e with current := some (e.nextIdx, 0), started := true }

/-- The walk from the entry's next index to a defined clip, over at most `fuel` positions (R56). A placement list walked
past its last index is left exhausted; a looped list walked once round is left where it began. -/
def Entry.walk (defined : Nat → Bool) : Nat → Entry → Entry
  | 0, e => e
  | fuel + 1, e =>
    match e.clips[e.nextIdx]? with
    | none => e
    | some id => if defined id then e.startClip else Entry.walk defined fuel e.skipMissing

/-- The entry's turn of its next clip (R56). -/
def Entry.turn (defined : Nat → Bool) (e : Entry) : Entry := e.walk defined e.clips.length

/-! ## The slot a top entry would fetch (R59) -/

/-- The address of slot `i` of a clip (R52). -/
def Clip.slotAddr (c : Clip) (i : Nat) : Word := c.addr + BitVec.ofNat 32 (Config.slotBytes * i)

/-- The lookahead key of an entry's next position, where its list holds a clip id there (R58). -/
def Entry.nextKey (e : Entry) : Option LookKey :=
  (e.clips[e.nextPosition.1]?).map fun id =>
    { source := e.source, index := e.nextPosition.1, clip := id, packet := e.nextPosition.2 }

/-- The top entry has a slot to fetch (R59). -/
def State.hasSlotToFetch (s : State) (e : Entry) : Bool :=
  match e.current with
  | some (j, i) => (e.clips[j]?).any fun id => decide (i < (s.clip id).count)
  | none => e.started && (e.clips[e.nextIdx]?).any fun id => (s.clip id).defined

/-! ## Requests and overtaking (R16, R59, R61) -/

/-- A fetch of the entry's next position is requested for lane `l`: the lookahead becomes FETCHING with its key (R59), or
as a demand fetch (R62, R63). -/
def requestFetch (l : Nat) (e : Entry) (demand : Bool) (s : State) : State :=
  match e.nextKey with
  | none => s
  | some key =>
    let s := s.onLane l fun x => { x with look := .fetching key ((s.clip key.clip).slotAddr key.packet) false false demand }
    { s with router := { s.router with fetchOrder := s.router.fetchOrder ++ [l] } }

/-- A slot read of lane `l` waits on its lookahead (R62, R63). -/
def State.waitsOn (s : State) (l : Nat) : Bool :=
  match s.wait with
  | some w => decide (w.lane = l)
  | none => false

/-- The prefetch test of lane `l` (R59); where a slot read of the lane waits, the request is its demand fetch (R60). -/
def prefetchTest (l : Nat) (s : State) : State :=
  match (s.lane l).top with
  | none => s
  | some e =>
    if (s.lane l).enabled ∧ s.bypass = false ∧ (s.lane l).look = .empty ∧ s.hasSlotToFetch e then
      requestFetch l e (s.waitsOn l) s
    else s

/-- The prefetch test of several lanes, in order (R16, R59). -/
def prefetchTests : List Nat → State → State
  | [], s => s
  | l :: rest, s => prefetchTests rest (prefetchTest l s)

/-- A request not yet granted is withdrawn from the arbiter (R61). -/
def withdrawFetch (l : Nat) (s : State) : State :=
  { s with router := { s.router with fetchOrder := s.router.fetchOrder.filter fun x => decide (x ≠ l) } }

/-- Lane `l`'s lookahead is overtaken, or discarded by a teardown: FULL and ungranted requests become EMPTY, a granted
fetch is marked stale (R61, R66). -/
def overtake (l : Nat) (s : State) : State :=
  match (s.lane l).look with
  | .empty => s
  | .full .. => s.onLane l fun x => { x with look := .empty }
  | .fetching key a granted _ _ =>
    if granted then s.onLane l fun x => { x with look := .fetching key a true true false }
    else withdrawFetch l (s.onLane l fun x => { x with look := .empty })

/-- The lookahead's key, outside EMPTY. -/
def Look.key : Look → Option LookKey
  | .empty => none
  | .fetching key _ _ _ _ => some key
  | .full key _ _ _ => some key

/-- A lookahead that holds or fetches another slot than the top's next position is overtaken (R61). -/
def alignLook (l : Nat) (s : State) : State :=
  if (s.lane l).look.key = (s.lane l).top.bind Entry.nextKey then s
  else
    match (s.lane l).look with
    | .fetching _ _ true true _ => s
    | _ => overtake l s

/-- The slot read that needs lane `l`'s lookahead waits on it: a fetch in flight becomes its demand fetch, and an EMPTY
lookahead requests one at once (R18, R62, R63). -/
def demandFetch (l : Nat) (s : State) : State :=
  match (s.lane l).look with
  | .full .. => s
  | .fetching key a granted stale _ => s.onLane l fun x => { x with look := .fetching key a granted stale true }
  | .empty =>
    match (s.lane l).top with
    | none => s
    | some e => requestFetch l e true s

/-! ## The arrival of a fetch (R60) -/

/-- A fetched slot is damaged: its packet is malformed, or its 192 bytes lie in no one LIBRARY region (R60). -/
def State.slotDamaged (s : State) (addr : Word) (slot : List Byte) : Bool :=
  (inspect (slotPacket slot)).malformed || !s.insideOne .library addr.toNat (addr.toNat + Config.slotBytes)

/-- The data of lane `l`'s granted fetch arrives: discarded when stale, with the prefetch test made at once; else held FULL
with its inspection result and damage flag (R60). -/
def fillLook (l : Nat) (slot : List Byte) (s : State) : State :=
  match (s.lane l).look with
  | .fetching key a true stale _ =>
    if stale then prefetchTest l (s.onLane l fun x => { x with look := .empty })
    else s.onLane l fun x => { x with look := .full key slot (inspect (slotPacket slot)) (s.slotDamaged a slot) }
  | _ => s

end Sys2Proof.Machine
end

