-- ==== Sys2Proof/Machine/Scheduler.lean ====
section
/-! DEFINITION. The Placement Scheduler (chapter 5): time tests, cue messages and their intake, eligibility, and the states
of placements on a stack. -/

namespace Sys2Proof.Machine

open Sys2Proof

/-! ## Time tests (R82 to R84) -/

/-- Both an enabled lane and an anchored clock, which every time test needs (R32, section 5.5). -/
def Lane.canTest (x : Lane) : Bool := x.enabled && x.anchored

/-- The lane clock is after T + entry window: the condition of the late test and of the expiry test (R83, R84). -/
def State.windowPassed (s : State) (l : Nat) (t : Pt) : Bool :=
  ptAfter (s.clock l) (ptPlus t (s.lane l).record.entryWindow)

/-- The late test of placement `id`, where it is owed and can be made (R83). -/
def lateTest (id : Nat) (s : State) : State :=
  let p := s.placement id
  if p.state = .pending ∧ p.lateCheck ∧ (s.lane p.lane).canTest then
    match p.t with
    | none => s
    | some t =>
      if s.windowPassed p.lane t then endMissed id .missedLate s
      else s.onPlacement id fun p => { p with lateCheck := false }
  else s

/-- The expiry test of placement `id` (R84). -/
def expiryTest (id : Nat) (s : State) : State :=
  let p := s.placement id
  if p.state = .pending ∧ (s.lane p.lane).canTest then
    match p.t with
    | none => s
    | some t =>
      if s.windowPassed p.lane t then endMissed id (if p.blocked then .missedBlocked else .missedNoEntry) s
      else s
  else s

/-- T of an IMMEDIATE start, and of a placement started by an immediate cue on an unanchored clock, taken at the first
slot read at which the clock is anchored (R82, step 1). -/
def takeT (id : Nat) (s : State) : State :=
  let p := s.placement id
  if p.t = none ∧ (s.lane p.lane).anchored then
    s.onPlacement id fun p => { p with t := some (s.clock p.lane), lateCheck := true }
  else s

/-- The per-read tests of one placement (R82). -/
def perReadTest (l id : Nat) (s : State) : State :=
  let p := s.placement id
  if p.state = .pending ∧ p.lane = l then
    expiryTest id (lateTest id ((takeT id s).onPlacement id fun p => { p with preRoll := satInc p.preRoll }))
  else s

/-- The per-read tests of the PENDING placements of a lane, in order of id (R82). -/
def perReadTests (l : Nat) : List Nat → State → State
  | [], s => s
  | id :: rest, s => perReadTests l rest (perReadTest l id s)

/-! ## Cue messages (R74, R75, 12.3) -/

/-- A cue as intake takes it (R75); no time means an immediate cue. -/
structure Cue where
  type : CueType
  avail : Word
  time : Option Pt
  duration : Option Nat
  deriving DecidableEq, Repr

/-- One message bit taken into the CRC register (R75). -/
def crcBit (reg : BitVec 8) (bit : Bool) : BitVec 8 :=
  if reg.msb != bit then (reg <<< 1) ^^^ 0x07 else reg <<< 1

/-- One byte taken into the CRC register, most significant bit first (R75). -/
def crcByte (reg : BitVec 8) (b : Byte) : BitVec 8 :=
  [7, 6, 5, 4, 3, 2, 1, 0].foldl (fun r i => crcBit r (b.getLsbD i)) reg

/-- The CRC-8 over a list of bytes (R75). -/
def crc8 (bs : List Byte) : BitVec 8 := bs.foldl crcByte 0xFF

/-- The cue type of a code (12.3). -/
def cueTypeOf (n : Nat) : Option CueType :=
  if n = 1 then some .out else if n = 2 then some .into else if n = 3 then some .cancel else none

/-- A candidate message tested and read; nothing for a cue error (R75, 12.3). -/
def readCue (m : List Byte) : Option Cue :=
  if byteAt m 0 = 0x5C ∧ m.getD 17 0 = crc8 (m.take 17) then
    (cueTypeOf (byteAt m 1)).map fun type =>
      { type := type, avail := word (bigEndian m 2 4),
        time := if byteAt m 6 / 128 = 1 then some (BitVec.ofNat 33 (bigEndian m 7 5)) else none,
        duration := if byteAt m 6 / 64 % 2 = 1 then some (bigEndian m 12 5 % 2 ^ 33) else none }
  else none

/-! ## Intake (R77 to R81) -/

/-- The intake case that applied (R76). -/
inductive IntakeCase where
  | started | moved | repeated | ended | earlySet | unplaced
  deriving DecidableEq, Repr, Inhabited

/-- A placement of a lane armed by cue for an avail (R68, R77). Only trigger CUE uses the avail id (R70). -/
def Placement.isFor (p : Placement) (l : Nat) (avail : Word) : Bool :=
  decide (p.state ≠ .vacant ∧ p.lane = l ∧ p.trigger = .cue ∧ p.avail = avail)

/-- The placement stands on its lane's stack (R69). -/
def Placement.onStack (p : Placement) : Bool := decide (p.state = .onAir ∨ p.state = .covered)

/-- The placement is ARMED or PENDING (R69). -/
def Placement.waits (p : Placement) : Bool := decide (p.state = .armed ∨ p.state = .pending)

/-- The ids of a lane's placements for an avail that satisfy a test, in order of id. -/
def State.idsFor (s : State) (l : Nat) (avail : Word) (test : Placement → Bool) : List Nat :=
  placementIds.filter fun id => (s.placement id).isFor l avail && test (s.placement id)

/-- D after a cue: its duration where take-cue-duration is set and the duration lies in 1..2^31 − 1 (R78). -/
def cueDuration (p : Placement) (c : Cue) : Nat :=
  match c.duration with
  | some d => if p.takeCueDuration ∧ 1 ≤ d ∧ d < 2 ^ 31 then d else p.duration
  | none => p.duration

/-- The T an OUT cue gives: its time, or the lane clock for an immediate cue on an anchored clock (R78). -/
def State.outTime (s : State) (l : Nat) (c : Cue) : Option Pt :=
  match c.time with
  | some t => some t
  | none => if (s.lane l).anchored then some (s.clock l) else none

/-- The time an IN cue gives: its time, or the lane clock (R79). -/
def State.inTime (s : State) (l : Nat) (c : Cue) : Pt := c.time.getD (s.clock l)

/-- An OUT cue moves an ARMED placement to PENDING (R77 case 1, R78). -/
def startPlacement (id : Nat) (t : Option Pt) (c : Cue) (s : State) : State :=
  lateTest id (s.onPlacement id fun p =>
    { p with state := .pending, t := t, duration := cueDuration p c, preRoll := 0, lateCheck := true, blocked := false })

/-- An OUT cue updates the T of a PENDING placement (R77 case 2, R78). -/
def movePlacement (id : Nat) (t : Option Pt) (c : Cue) (s : State) : State :=
  lateTest id (s.onPlacement id fun p =>
    { p with t := t, duration := cueDuration p c, lateCheck := true, blocked := false })

/-- Several PENDING placements moved, in order of id. -/
def movePlacements (t : Option Pt) (c : Cue) : List Nat → State → State
  | [], s => s
  | id :: rest, s => movePlacements t c rest (movePlacement id t c s)

/-- An id joins a recent-avail list (R38). -/
def joinRecent (a : Word) (r : List Word) : List Word :=
  if a ∈ r then r else if 4 ≤ r.length then r.drop 1 ++ [a] else r ++ [a]

/-- A CUE_UNPLACED record (R81). -/
def cueUnplaced (l : Nat) (c : Cue) (reason : UnplacedReason) (injected : Bool) (s : State) : State :=
  handRecord l (.cueUnplaced c.type c.avail reason injected) s

/-- A cue that changed no placement: a repeat where its avail is in the recent-avail list, else unplaced with a record (R77,
R79, R80). -/
def repeatOrUnplaced (l : Nat) (c : Cue) (injected : Bool) (s : State) : State × IntakeCase :=
  if c.avail ∈ (s.lane l).recent then (s, .repeated) else (cueUnplaced l c .noPlacement injected s, .unplaced)

/-- Intake of an OUT cue (R77). -/
def intakeOut (l : Nat) (c : Cue) (injected : Bool) (s : State) : State × IntakeCase :=
  match s.idsFor l c.avail fun p => decide (p.state = .armed) with
  | id :: _ =>
    ((startPlacement id (s.outTime l c) c s).onLane l fun x => { x with recent := joinRecent c.avail x.recent }, .started)
  | [] =>
    let pending := s.idsFor l c.avail fun p => decide (p.state = .pending)
    if pending ≠ [] then
      let t := s.outTime l c
      let moved := pending.filter fun id => t.isSome && decide ((s.placement id).t ≠ t)
      if moved = [] then (s, .repeated) else (movePlacements t c moved s, .moved)
    else if s.idsFor l c.avail Placement.onStack ≠ [] then (s, .repeated)
    else repeatOrUnplaced l c injected s

/-- E written into a placement's stack entry (R88). -/
def writeEnd (id : Nat) (e : Pt) (s : State) : State :=
  s.onLane (s.placement id).lane fun x => x.onSource (.placement id) fun n => { n with endTime := some e }

/-- An IN cue on a placement on the stack: E, return rule EARLY, early-return mark (R79). -/
def setEarly (id : Nat) (e : Pt) (s : State) : State :=
  ((writeEnd id e s).onLane (s.placement id).lane fun x => x.onSource (.placement id) fun n => { n with rule := .early }).onPlacement
    id fun p => { p with rule := .early, earlyReturn := true }

/-- An IN cue on one placement for its avail (R79). -/
def inOne (l : Nat) (c : Cue) (id : Nat) (s : State) : State :=
  let p := s.placement id
  if p.onStack then setEarly id (s.inTime l c) s
  else if p.state = .pending then endPlacement id .cancelled none 0 s
  else s

/-- An IN cue on the placements for its avail, in order of id (R79). -/
def inAll (l : Nat) (c : Cue) : List Nat → State → State
  | [], s => s
  | id :: rest, s => inAll l c rest (inOne l c id s)

/-- Intake of an IN cue (R79). -/
def intakeIn (l : Nat) (c : Cue) (injected : Bool) (s : State) : State × IntakeCase :=
  let after := inAll l c (s.idsFor l c.avail fun _ => true) s
  if s.idsFor l c.avail Placement.onStack ≠ [] then (after, .earlySet)
  else if (s.idsFor l c.avail fun p => decide (p.state = .pending)) ≠ [] then (after, .ended)
  else repeatOrUnplaced l c injected s

/-- Several placements end CANCELLED, in order of id (R80). -/
def cancelAll : List Nat → State → State
  | [], s => s
  | id :: rest, s => cancelAll rest (endPlacement id .cancelled none 0 s)

/-- One TOO_LATE record for each placement found on the stack (R80). -/
def tooLateAll (l : Nat) (c : Cue) (injected : Bool) : List Nat → State → State
  | [], s => s
  | _ :: rest, s => tooLateAll l c injected rest (cueUnplaced l c .tooLate injected s)

/-- Intake of a CANCEL cue (R80); its records follow the reports (R81). -/
def intakeCancel (l : Nat) (c : Cue) (injected : Bool) (s : State) : State × IntakeCase :=
  let ended := s.idsFor l c.avail Placement.waits
  let late := s.idsFor l c.avail Placement.onStack
  let after := tooLateAll l c injected late (cancelAll ended s)
  if ended ≠ [] then (after, .ended)
  else if late ≠ [] then (after, .unplaced)
  else repeatOrUnplaced l c injected s

/-- Intake of a cue for lane `l` (R77 to R81). -/
def intake (l : Nat) (c : Cue) (injected : Bool) (s : State) : State × IntakeCase :=
  match c.type with
  | .out => intakeOut l c injected s
  | .into => intakeIn l c injected s
  | .cancel => intakeCancel l c injected s

/-- A well-formed packet on a lane's cue PID is taken as a candidate message (R74). -/
def cueIntake (l : Nat) (packet : List Byte) (i : Insp) (s : State) : State :=
  if i.pusi && i.hasPayload then
    if i.payLen < 18 then s.onLane l fun x => { x with cueErrors := satInc x.cueErrors }
    else
      match readCue ((packet.drop i.payStart).take 18) with
      | none => s.onLane l fun x => { x with cueErrors := satInc x.cueErrors }
      | some c => (intake l c false s).1
  else s

/-! ## Eligibility (R85) -/

/-- What one slot read carries through its stages: the lane, the stored slot, its inspection result, and the lane clock as
stage 1 left it (R97, R117). -/
structure ReadCtx where
  lane : Nat
  slot : List Byte
  insp : Insp
  clock : Pt
  deriving DecidableEq, Repr

/-- The PTS of the slot's anchor RAP, where its stored packet is one (R49). -/
def ReadCtx.rap (cx : ReadCtx) (s : State) : Option Pt := (s.lane cx.lane).record.anchorRap cx.insp

/-- The anchor RAP form: the slot holds an anchor RAP whose PTS is at or after T (R85). -/
def rapForm (rap : Option Pt) (t : Pt) : Bool := rap.any fun p => ptAtOrAfter p t

/-- The lost-feed form: the monitor is LOST or a slate entry stands on the stack, and the anchored clock has reached T (R85). -/
def Lane.lostForm (x : Lane) (clock t : Pt) : Bool :=
  (decide (x.monitor.state = .lost) || (x.entryOf .slate).isSome) && x.anchored && ptAtOrAfter clock t

/-- Placement `id` is eligible at the slot read (R85). -/
def State.eligible (s : State) (cx : ReadCtx) (id : Nat) : Bool :=
  let p := s.placement id
  decide (p.state = .pending ∧ p.lane = cx.lane) &&
    p.t.any fun t => rapForm (cx.rap s) t || (s.lane cx.lane).lostForm cx.clock t

/-- The eligible placements of one kind, lowest id first (R85). -/
def State.offered (s : State) (cx : ReadCtx) (k : Kind) : List Nat :=
  placementIds.filter fun id => decide ((s.placement id).kind = k) && s.eligible cx id

/-- S of a placement that enters: the RAP's PTS in the anchor RAP form, else the lane clock (R104). -/
def entryStart (rap : Option Pt) (clock t : Pt) : Pt := if rapForm rap t then rap.getD clock else clock

/-! ## Placement states on a stack (R87) -/

/-- The placement of one stack entry takes the state its place gives it (R87). -/
def syncEntry (st : PState) (e : Entry) (s : State) : State :=
  match e.source with
  | .placement id => s.onPlacement id fun p => { p with state := st }
  | .laneSlate | .profile _ => s

/-- The placements of the entries below the top are COVERED (R87). -/
def syncCovered : List Entry → State → State
  | [], s => s
  | e :: rest, s => syncCovered rest (syncEntry .covered e s)

/-- The placements of a stack take their states: ON_AIR at the top, COVERED below it (R87). -/
def syncStack : List Entry → State → State
  | [], s => s
  | e :: rest, s => syncCovered rest (syncEntry .onAir e s)

end Sys2Proof.Machine
end

