-- ==== Sys2Proof/Machine/Supervisor.lean ====
section
/-! DEFINITION. The Feed Supervisor (chapter 9): anchor tracking, the continuity check, the rate monitor, the moves of the
monitor, and slate requests; and the Lane Tracker's handling of a slot write (R28). -/

namespace Sys2Proof.Machine

open Sys2Proof

/-! ## Slate requests (R164 to R166) -/

/-- (marker − read index) mod N. -/
def ringDistance (n marker readIndex : Nat) : Nat := (marker + n - readIndex) % n

/-- A countdown clamped: 0 when the marker's age is N or more or the value exceeds the occupancy (R164). -/
def clampCountdown (n age value occupancy : Nat) : Nat := if n ≤ age ∨ occupancy < value then 0 else value

/-- The countdown of an insert posted now (R164). -/
def Lane.insertCountdown (x : Lane) (n : Nat) : Nat :=
  match x.monitor.anchorIndex with
  | none => 0
  | some a => clampCountdown n x.monitor.anchorAge (ringDistance n ((a + 1) % n) x.readIndex) (x.occupancy n)

/-- The countdown of a remove posted now (R164). -/
def Lane.removeCountdown (x : Lane) (n : Nat) : Nat :=
  clampCountdown n x.monitor.recoveryAge (ringDistance n x.monitor.recoveryIndex x.readIndex) (x.occupancy n)

/-- An insert posted with a countdown: it replaces a pending insert, and cancels a pending remove whose countdown is at or
above its own (R165). -/
def Lane.postInsert (x : Lane) (c : Nat) : Lane :=
  { x with slateInsert := some { countdown := c, due := false },
           slateRemove := x.slateRemove.filter fun r => decide (r.countdown < c) }

/-- A remove posted finds a pending insert, so that both are cancelled (R165). -/
def Lane.removeCancelled (x : Lane) : Bool := x.slateInsert.isSome

/-- A remove posted with a countdown: it and a pending insert cancel each other, else it becomes the pending remove (R165). -/
def Lane.postRemove (x : Lane) (c : Nat) : Lane :=
  if x.removeCancelled then { x with slateInsert := none }
  else { x with slateRemove := some { countdown := c, due := false } }

/-- A request's countdown above 0 is reduced by one (R166). -/
def SlateReq.tick (r : SlateReq) : SlateReq := { r with countdown := r.countdown - 1 }

/-- A request whose countdown stands at 0 becomes due (R166). -/
def SlateReq.expire (r : SlateReq) : SlateReq := { r with due := r.due || decide (r.countdown = 0) }

/-- The countdowns of a lane run down by one at a first stage (R166). -/
def Lane.tickSlate (x : Lane) : Lane :=
  { x with slateInsert := x.slateInsert.map SlateReq.tick, slateRemove := x.slateRemove.map SlateReq.tick }

/-- The requests of a lane whose countdown stands at 0 become due (R166). -/
def Lane.expireSlate (x : Lane) : Lane :=
  { x with slateInsert := x.slateInsert.map SlateReq.expire, slateRemove := x.slateRemove.map SlateReq.expire }

/-! ## What a slot write gives the Supervisor (R156) -/

/-- A tag plus a setting in milliseconds (R154). -/
def afterMs (t : Rt) (ms : Nat) : Rt := rtPlus t (ms * Config.rtPerMs)

/-- Step 1: the blank start (R156). -/
def Monitor.startBlank (m : Monitor) (t : Rt) : Monitor :=
  if m.blankStart = none then { m with blankStart := some t, anchorTag := t, rateStart := t } else m

/-- Step 2: anchor tracking, with the recovery age that counts the same writes (R156, R157, R163). -/
def Monitor.trackAnchor (m : Monitor) (gap : Nat) (isAnchor : Bool) (w : Nat) (t : Rt) : Monitor :=
  let m := { m with recoveryAge := satInc m.recoveryAge }
  if isAnchor then { m with anchorTag := t, anchorIndex := some w, anchorAge := 0, anchorAbsent := false }
  else
    { m with anchorAge := satInc m.anchorAge,
             anchorAbsent := m.anchorAbsent || rtAfter t (afterMs m.anchorTag gap) }

/-- The continuity check of one role's items on a payload packet's counter (R158). -/
def ContItem.check (k : ContItem) (cc : Cc) : ContItem :=
  if !k.seen then { k with lastCc := cc, seen := true }
  else if cc = k.lastCc + 1 then { k with lastCc := cc, duplicate := false }
  else if cc = k.lastCc ∧ k.duplicate = false then { k with duplicate := true }
  else { k with errors := satInc k.errors, lastCc := cc, duplicate := false }

/-- Step 3: the continuity check (R158). -/
def Monitor.checkCc (m : Monitor) (role : Option (Fin 4)) (i : Insp) : Monitor :=
  match role with
  | some r => if i.hasPayload then { m with cont := m.cont.set r (m.cont[r].check i.cc) } else m
  | none => m

/-- The rate alarm an interval's count gives (R159). -/
def rateAlarmOf (r : LaneRecord) (count : Nat) : Bool :=
  match r.rateMode with
  | .off => false
  | .low => decide (count < r.rateThreshold)
  | .high => decide (r.rateThreshold ≤ count)

/-- A rate interval ends at this write (R159). -/
def Monitor.intervalEnds (m : Monitor) (r : LaneRecord) (t : Rt) : Bool :=
  decide (r.rateMode ≠ .off) && rtAtOrAfter t (afterMs m.rateStart r.rateInterval)

/-- Step 4: the rate monitor (R159). -/
def Monitor.countRate (m : Monitor) (r : LaneRecord) (isRole : Bool) (t : Rt) : Monitor :=
  let m :=
    if m.intervalEnds r t then
      { m with rateAlarm := rateAlarmOf r m.rateCount, rateLast := m.rateCount, rateCount := 0, rateStart := t }
    else m
  if r.rateMode ≠ .off ∧ isRole then { m with rateCount := satInc m.rateCount } else m

/-- The SUPERVISION record of a changed rate alarm, from the monitor before and after step 4 (R159, R168). -/
def rateRecords (before after : Monitor) (w : Nat) (t : Rt) : List RecordBody :=
  if before.rateAlarm = after.rateAlarm then [] else [.rate after.rateAlarm after.rateLast w t]

/-- The loss condition (R160). -/
def Lane.lossHolds (x : Lane) : Bool :=
  x.monitor.anchorAbsent || (x.monitor.rateAlarm && decide (x.record.rateMode = .low) && x.record.rateAsLoss)

/-- The monitor of a lane moves to a state. -/
def Lane.monitorTo (x : Lane) (st : MonState) : Lane := { x with monitor := { x.monitor with state := st } }

/-- In SUSPECT with the loss condition: LOST once the loss filter is met, with its insert posted (R162). -/
def Lane.suspectMove (x : Lane) (n w : Nat) (t : Rt) : Lane × List RecordBody :=
  if rtAtOrAfter t (afterMs x.monitor.filterStart x.record.lossFilter) then
    let c := x.insertCountdown n
    ((x.monitorTo .lost).postInsert c,
      [.monitor .lost w t (some { isRemove := false, countdown := c, cancelled := false })])
  else (x, [])

/-- The move to SUSPECT, with the filter start at the write's tag; R162 is applied at the same write (R160, R161). -/
def Lane.enterSuspect (x : Lane) (n w : Nat) (t : Rt) : Lane × List RecordBody :=
  let x := x.monitorTo .suspect
  ({ x with monitor := { x.monitor with filterStart := t } } : Lane).suspectMove n w t

/-- In RECOVERING without the loss condition: GOOD once the good filter is met, with its remove posted (R163). -/
def Lane.recoverMove (x : Lane) (n w : Nat) (t : Rt) : Lane × List RecordBody :=
  if rtAtOrAfter t (afterMs x.monitor.filterStart x.record.goodFilter) then
    let c := x.removeCountdown n
    ((x.monitorTo .good).postRemove c,
      [.monitor .good w t (some { isRemove := true, countdown := c, cancelled := x.removeCancelled })])
  else (x, [])

/-- The move from LOST to RECOVERING, with the good filter judged at the same write (R163). -/
def Lane.enterRecovering (x : Lane) (n w : Nat) (t : Rt) : Lane × List RecordBody :=
  let x := x.monitorTo .recovering
  let x : Lane := { x with monitor := { x.monitor with recoveryIndex := w, recoveryAge := 0, filterStart := t } }
  let r := x.recoverMove n w t
  (r.1, .monitor .recovering w t none :: r.2)

/-- Steps 5 and 6: the moves of the monitor at one write, with the requests they post and the records they produce
(R160 to R163, R168). -/
def Lane.moveMonitor (x : Lane) (n w : Nat) (t : Rt) : Lane × List RecordBody :=
  match x.monitor.state with
  | .disabled => (x, [])
  | .blank =>
    if rtAtOrAfter t (afterMs (x.monitor.blankStart.getD t) x.record.blankTime) then
      if x.lossHolds then x.enterSuspect n w t else (x.monitorTo .good, [])
    else (x, [])
  | .good => if x.lossHolds then x.enterSuspect n w t else (x, [])
  | .suspect => if x.lossHolds then x.suspectMove n w t else (x.monitorTo .good, [.monitor .good w t none])
  | .lost => if x.lossHolds then (x, []) else x.enterRecovering n w t
  | .recovering => if x.lossHolds then (x.monitorTo .lost, [.monitor .lost w t none]) else x.recoverMove n w t

/-- The items of a monitor after steps 1 to 4 of a write (R156). -/
def Lane.observe (x : Lane) (w : Nat) (t : Rt) (i : Insp) : Monitor :=
  let m := (x.monitor.startBlank t).trackAnchor x.record.gapLimit (x.record.isAnchor i) w t
  (m.checkCc (x.record.role i) i).countRate x.record (x.record.role i).isSome t

/-- What the Supervisor makes of one slot write: the lane after it, and its records in step order (R156). -/
def Lane.supervise (x : Lane) (n w : Nat) (t : Rt) (i : Insp) : Lane × List RecordBody :=
  let m := x.observe w t i
  let r := ({ x with monitor := m } : Lane).moveMonitor n w t
  (r.1, rateRecords x.monitor m w t ++ r.2)

/-! ## The slot write (R28) -/

/-- The write index follows a slot write at index `w` (R28, step 1). -/
def Lane.followWrite (x : Lane) (n w : Nat) : Lane :=
  { x with writeIndex := (w + 1) % n, writeSkips := if w = x.writeIndex then x.writeSkips else satInc x.writeSkips }

/-- The Supervisor's part of a slot write, with its records handed over (R28 step 4, R168). -/
def superviseWrite (l n w : Nat) (t : Rt) (i : Insp) (s : State) : State :=
  let r := (s.lane l).supervise n w t i
  handRecords l r.2 (s.setLane l r.1)

/-- A slot write of an enabled lane, at its acceptance (R28). -/
def ingress (l w : Nat) (slot : List Byte) (s : State) : State :=
  let n := s.ringSlots l
  let i := inspect (slotPacket slot)
  let s := s.onLane l fun x => x.followWrite n w
  let s := if (s.lane l).record.onCuePid i then cueIntake l (slotPacket slot) i s else s
  superviseWrite l n w (slotTag slot) i s

end Sys2Proof.Machine
end

