-- ==== Sys2Proof/Machine/Alerts.lean ====
section
/-! DEFINITION. The Alert Controller (chapter 8): starts, replacements and ends, lane requests, the filtered EAL line, and
the loop count. -/

namespace Sys2Proof.Machine

open Sys2Proof

/-! ## Lane requests (R140) -/

/-- The zone mask in effect: empty from IDLE (R140). -/
def AlertCtl.zonesInEffect (a : AlertCtl) : BitVec 8 := if a.state = .idle then 0 else (a.profileAt a.profile).zones

/-- A lane's zone lies in a mask (R134). -/
def Lane.inZones (x : Lane) (m : BitVec 8) : Bool := m.getLsbD x.record.zone

/-- The lane holds an alert entry or a pending alert request (R140). -/
def Lane.holdsAlert (x : Lane) : Bool := (x.entryOf .alert).isSome || x.alertReq.isSome

/-- The request a start or replacement posts to a lane, by its zone in the old mask and the new (R140). -/
def Lane.requestFor (x : Lane) (old new : BitVec 8) (p : Nat) : Option AlertReq :=
  if !x.enabled then none
  else if x.inZones new then some (if x.inZones old then .replace p else .insert p)
  else if x.inZones old then some .remove
  else none

/-- The request an end posts to a lane: REMOVE in the old mask, and wherever an alert entry or request is held (R140). -/
def Lane.removeFor (x : Lane) (old : BitVec 8) : Option AlertReq :=
  if x.enabled && (x.inZones old || x.holdsAlert) then some .remove else none

/-- A posted request replaces any alert request pending on the lane (R96). -/
def Lane.post (x : Lane) (q : Option AlertReq) : Lane :=
  match q with
  | some r => { x with alertReq := some r }
  | none => x

/-- Requests posted to every lane (R140). -/
def postAll (q : Lane → Option AlertReq) (s : State) : State := { s with lanes := vmap (fun x => x.post (q x)) s.lanes }

/-- The lanes to which an event posts (R140, R187). -/
def State.postedMask (s : State) (q : Lane → Option AlertReq) : BitVec 16 := mask16 fun l => (q (s.lane l)).isSome

/-! ## Taking effect (R136, R138, R139, R146) -/

/-- The items an alert takes when it takes effect on profile `p` at Local Time `lt` (R136). -/
def AlertCtl.takeEffect (a : AlertCtl) (st : AlertState) (p : Nat) (lt : Rt) : AlertCtl :=
  { a with state := st, profile := p, severity := (a.profileAt p).severity, holdMark := lt, heldSeconds := 0,
           periodStart := lt, loopCount := 0, reactionFired := false }

/-- Line-pending when an alert takes effect: cleared by a line alert, set when a command alert replaces one (R139, R147). -/
def AlertCtl.pendingAfter (a : AlertCtl) (st : AlertState) : Bool :=
  if st = .activeLine then false else if a.state = .activeLine then true else a.linePending

/-- START from IDLE, REPLACE from an active state (R138, R139). -/
def AlertCtl.action (a : AlertCtl) : AlertAction := if a.state = .idle then .start else .replace

/-- The requests an alert on profile `p` posts when it takes effect (R140). -/
def AlertCtl.requests (a : AlertCtl) (p : Nat) (x : Lane) : Option AlertReq :=
  x.requestFor a.zonesInEffect (a.profileAt p).zones p

/-- An alert on profile `p` takes effect, from IDLE or in place of the alert in effect: state and items, lane requests,
ALERT record (R136, R138, R139, R140). -/
def beginAlert (st : AlertState) (p : Nat) (reason : AlertReason) (s : State) : State :=
  let mask := s.postedMask (s.alert.requests p)
  let posted := postAll (s.alert.requests p) s
  handRecord noLane (.alert s.alert.action p (s.alert.profileAt p).severity reason mask)
    { posted with alert := { s.alert.takeEffect st p s.lt with linePending := s.alert.pendingAfter st } }

/-- The line alert starts on profile 0 (R146). -/
def beginLine (s : State) : State := beginAlert .activeLine 0 .line s

/-! ## Ending (R142) -/

/-- The controller becomes IDLE; the items kept in active states are cleared (R136, R142). -/
def AlertCtl.toIdle (a : AlertCtl) : AlertCtl :=
  { a with state := .idle, profile := 0, severity := 0, holdMark := 0, heldSeconds := 0, periodStart := 0, loopCount := 0,
           reactionFired := false }

/-- The REMOVE requests an end posts (R140). -/
def AlertCtl.removals (a : AlertCtl) (x : Lane) : Option AlertReq := x.removeFor a.zonesInEffect

/-- The lanes to which an end posts REMOVE (R142). -/
def State.removalMask (s : State) : BitVec 16 := s.postedMask s.alert.removals

/-- The alert in effect ends: IDLE, REMOVE requests, ALERT record with the profile and severity that were in effect (R142). -/
def finishAlert (reason : AlertReason) (s : State) : State :=
  handRecord noLane (.alert .finish s.alert.profile s.alert.severity reason s.removalMask)
    { postAll s.alert.removals s with alert := s.alert.toIdle }

/-- A line alert follows an end that was not a line alert's, with line-pending set and profile 0 defined (R142). -/
def State.lineFollows (s : State) (reason : AlertReason) : Bool :=
  decide (reason ≠ .line ∧ reason ≠ .bypass ∧ s.alert.state ≠ .activeLine) && s.alert.linePending && (s.alert.profileAt 0).defined

/-- The alert in effect ends, and a pending line alert may start in the same event (R142). -/
def endAlert (reason : AlertReason) (s : State) : State :=
  if s.lineFollows reason then beginLine (finishAlert reason s) else finishAlert reason s

/-! ## The filtered EAL line (R146, R147, R152) -/

/-- Line-pending set (R146). -/
def setLinePending (b : Bool) (s : State) : State := { s with alert := { s.alert with linePending := b } }

/-- A filtered assertion while BYPASS is not asserted (R146). -/
def lineAsserted (s : State) : State :=
  let p0 := s.alert.profileAt 0
  if p0.defined ∧ (s.alert.state = .idle ∨ s.alert.severity ≤ p0.severity) then beginLine s else setLinePending true s

/-- A filtered deassertion while BYPASS is not asserted (R147). -/
def lineDeasserted (s : State) : State :=
  let s := setLinePending false s
  if s.alert.state = .activeLine then endAlert .line s else s

/-- A filtered change of the line reaches the controller, unless BYPASS is held (R145, R152). -/
def filteredChange (s : State) : State :=
  if s.bypass then s else if s.alert.ealFiltered then lineAsserted s else lineDeasserted s

/-- The change mark for a raw level against a filtered one (R145). -/
def changeMark (raw filtered : Bool) (lt : Rt) : Option Rt := if raw = filtered then none else some lt

/-! ## Renewal supervision (R148 to R150) -/

/-- The renewal period of a profile in RT (R134). -/
def Profile.periodLength (p : Profile) : Nat := p.period * Config.periodRt

/-- The locked window of a profile in RT (R134). -/
def Profile.lockedWindow (p : Profile) : Nat := p.period * p.lockedFraction * Config.lockedRt

/-- The loop count after a failure (R150). -/
def loopFail (n : Nat) : Nat := min (n + 2) Config.loopMax

/-- A failure crosses the loop limit from below (R150). -/
def AlertCtl.crosses (a : AlertCtl) : Bool :=
  decide ((a.profileAt a.profile).loopLimit ≤ loopFail a.loopCount) && !a.reactionFired

/-- The reaction a failure fires, if it is a crossing (R150). -/
def AlertCtl.fires (a : AlertCtl) : Option Reaction := if a.crosses then some (a.profileAt a.profile).reaction else none

/-- A failure: the count, and the reaction at a crossing (R150). -/
def renewalFailure (s : State) : State :=
  let count := loopFail s.alert.loopCount
  let counted : State := { s with alert := { s.alert with loopCount := count } }
  match s.alert.fires with
  | none => counted
  | some .warn =>
    handRecord noLane (.renewal s.alert.profile count .warn)
      { counted with alert := { counted.alert with reactionFired := true } }
  | some .release => endAlert .renewal counted
  | some .latch =>
    handRecord noLane (.renewal s.alert.profile count .latch)
      { counted with alert := { counted.alert with reactionFired := true, state := .activeLatched } }

/-- A success: the count falls by one, and reaction-fired clears below the limit (R150). -/
def renewalSuccess (s : State) : State :=
  let count := s.alert.loopCount - 1
  let limit := (s.alert.profileAt s.alert.profile).loopLimit
  { s with alert := { s.alert with loopCount := count,
                                   reactionFired := s.alert.reactionFired && decide (limit ≤ count) } }

/-- The period restarts at a Local Time (R148, R149). -/
def restartPeriod (lt : Rt) (s : State) : State := { s with alert := { s.alert with periodStart := lt } }

end Sys2Proof.Machine
end

