-- ==== Sys2Proof/Machine/Splice.lean ====
section
/-! DEFINITION. The Splice Controller's slot-read procedure (chapter 6) with the rebasing, pacing and numbering of what it
returns (chapter 7): stages 1 to 6, the waits, and the completion of a read. -/

namespace Sys2Proof.Machine

open Sys2Proof

/-! ## Stage 1: inspect and clock (R29, R33, R34, R39) -/

/-- The read index follows a slot read at index `k` (R29, step 1). -/
def Lane.followRead (x : Lane) (n k : Nat) : Lane :=
  { x with readIndex := (k + 1) % n, readSkips := if k = x.readIndex then x.readSkips else satInc x.readSkips }

/-- The malformed and PTS-less-anchor counters (R29, steps 2 and 3). -/
def Lane.countRead (x : Lane) (i : Insp) : Lane :=
  if i.malformed then { x with malformed := satInc x.malformed }
  else if x.record.isAnchor i && i.pusi && i.pts.isNone then { x with ptsLess := satInc x.ptsLess }
  else x

/-- The difference of an anchored clock's prediction and a PTS, where it is a timeline jump (R33). -/
def Lane.jumpOf (x : Lane) (lt : Rt) (p : Pt) : Option Int :=
  let d := ptDiff p (x.clockAt lt)
  if x.anchored ∧ x.record.jumpLimit < d.natAbs then some d else none

/-- A timeline jump moves every E on the stack by the same difference (R34). -/
def Lane.moveEnds (x : Lane) (d : Int) : Lane :=
  { x with stack := x.stack.map fun e => { e with endTime := e.endTime.map fun t => t + BitVec.ofInt 33 d } }

/-- The clock takes a PTS (R33). -/
def Lane.anchorAt (x : Lane) (lt : Rt) (p : Pt) : Lane := { x with clockC := p, clockL := lt, anchored := true }

/-- The clock update of a slot read, with a timeline jump taken first (R33, R34). -/
def updateClock (l : Nat) (i : Insp) (s : State) : State :=
  match (s.lane l).record.anchorPts i with
  | none => s
  | some p =>
    let s' :=
      match (s.lane l).jumpOf s.lt p with
      | some d => handRecord l (.timelineJump d) (s.onLane l fun x => x.moveEnds d)
      | none => s
    s'.onLane l fun x => x.anchorAt s.lt p

/-- While BYPASS is held a payload-bearing packet of a role sets that role's last counter (R39). -/
def Lane.bypassRole (x : Lane) (i : Insp) : Lane :=
  match x.record.role i with
  | some r => if i.hasPayload then { x with roles := x.roles.set r { x.roles[r] with outLast := i.cc } } else x
  | none => x

/-- Stage 1 of a slot read at ring index `k` (R29), and the Scheduler's per-read tests after it (R82). -/
def stageOne (l k : Nat) (i : Insp) (s : State) : State :=
  let n := s.ringSlots l
  let s := s.onLane l fun x => (x.followRead n k).countRead i
  let s := updateClock l i s
  let s := if s.bypass then s.onLane l fun x => x.bypassRole i else s
  let s := s.onLane l fun x => x.tickSlate.expireSlate
  perReadTests l placementIds s

/-! ## Stage 2: requests (R98, R99) -/

/-- The alert entry of profile `p` (R95). -/
def alertEntry (s : State) (p : Nat) : Entry := Entry.made .alert (.profile p) (s.alert.profileAt p).clips none .atEnd

/-- An alert entry on the stack becomes profile `p`'s (R98). -/
def Lane.retargetAlert (x : Lane) (p : Nat) (clips : List Nat) : Lane :=
  { x with stack := x.stack.map fun e =>
      if e.kind = .alert then { e with source := .profile p, clips := clips, endRequested := false } else e }

/-- End requested is set on the entry of a kind, where there is one (R98, R99). -/
def Lane.requestEnd (x : Lane) (k : Kind) (b : Bool) : Lane :=
  { x with stack := x.stack.map fun e => if e.kind = k then { e with endRequested := b } else e }

/-- The pending alert request of a lane applied and cleared; true with it when it restarts an alert entry (R98). -/
def applyAlert (l : Nat) (s : State) : State × Bool :=
  let x := s.lane l
  let cleared : Lane := { x with alertReq := none }
  match x.alertReq with
  | none => (s, false)
  | some .remove => (s.setLane l (cleared.requestEnd .alert true), false)
  | some (.insert p) | some (.replace p) =>
    if (x.entryOf .alert).isSome then (s.setLane l (cleared.retargetAlert p (s.alert.profileAt p).clips), true)
    else (s.setLane l { cleared with stack := insertEntry (alertEntry s p) x.stack }, false)

/-- A request that is present and due (R166). -/
def slateDue (q : Option SlateReq) : Bool := q.any SlateReq.due

/-- A due slate insert applied and cleared (R99). -/
def Lane.applyInsert (x : Lane) : Lane :=
  if slateDue x.slateInsert then
    let x : Lane := { x with slateInsert := none }
    if (x.entryOf .slate).isSome then x.requestEnd .slate false
    else
      match x.record.slateClip with
      | some c => { x with stack := insertEntry (Entry.made .slate .laneSlate [c] none .atEnd) x.stack }
      | none => x
  else x

/-- A due slate remove applied and cleared (R99). -/
def Lane.applyRemove (x : Lane) : Lane :=
  if slateDue x.slateRemove then ({ x with slateRemove := none } : Lane).requestEnd .slate true else x

/-- Stage 2: the pending alert request, then the due slate requests, the insert before the remove (R98, R99). -/
def stageTwo (l : Nat) (s : State) : State × Bool :=
  let r := applyAlert l s
  (r.1.onLane l fun x => x.applyInsert.applyRemove, r.2)

/-! ## Stage 3: ends (R100 to R103) -/

/-- An entry has reached its end (R100). -/
def Entry.reachedEnd (e : Entry) (anchored : Bool) (clock : Pt) : Bool :=
  match e.kind with
  | .alert | .slate => e.endRequested
  | .programme | .advert =>
    (anchored && e.endTime.any fun t => ptAtOrAfter clock t) || (decide (e.rule = .early) && e.exhausted)

/-- The slot is a return point: its packet is an anchor RAP, or the monitor is LOST (R102). -/
def State.returnPoint (s : State) (cx : ReadCtx) : Bool :=
  (cx.rap s).isSome || decide ((s.lane cx.lane).monitor.state = .lost)

/-- What stage 3 makes of a stack (R101, R102). -/
structure EndsPlan where
  /-- the covered entries that have reached their end, in stack order (R101) -/
  gone : List Entry
  /-- the covered entries that stay -/
  kept : List Entry
  /-- the top has reached its end -/
  ended : Bool
  /-- the top is popped, with an entry beneath or at a return to the base (R102) -/
  leaves : Bool
  /-- the top is the last entry and the lane returns to the base (R102, R103) -/
  returns : Bool
  deriving DecidableEq, Repr

/-- The judgement of stage 3 on a top and the entries beneath it (R100 to R102). -/
def planEnds (cx : ReadCtx) (s : State) (e : Entry) (rest : List Entry) : EndsPlan :=
  let isOver (n : Entry) := n.reachedEnd (s.lane cx.lane).anchored cx.clock
  let kept := rest.filter fun n => !isOver n
  let returns := isOver e && kept.isEmpty && s.returnPoint cx
  { gone := rest.filter isOver, kept := kept, ended := isOver e, leaves := isOver e && (!kept.isEmpty || returns), returns := returns }

/-- Entries that leave the stack, in the order of the list, removed while covered or not (R89, R101, R102). -/
def leaveEnds (covered : Bool) (clock : Pt) : List Entry → State → State
  | [], s => s
  | e :: rest, s => leaveEnds covered clock rest (leaveStack e (fun p => leaveOutcome p e covered) clock s)

/-- The report of the popped top goes before those of the covered entries that are removed: its placement id is the lower one
(R91). -/
def Entry.reportsFirst (e : Entry) (gone : List Entry) : Bool :=
  match e.source with
  | .placement id =>
    gone.all fun n =>
      match n.source with
      | .placement m => decide (id < m)
      | .laneSlate | .profile _ => true
  | .laneSlate | .profile _ => false

/-- The placements that end at a stage 3 (R89, R101, R102). Where a covered one and the top end, their reports go in order of
placement id (R91); two covered ones go in stack order, which R101 states where R91 has the order of id (DESIGN CHOICE between
the rules, log 37). -/
def reportEnds (clock : Pt) (e : Entry) (k : EndsPlan) (s : State) : State :=
  let top := leaveEnds false clock (if k.leaves then [e] else [])
  let beneath := leaveEnds true clock k.gone
  if e.reportsFirst k.gone then beneath (top s) else top (beneath s)

/-- The lane after its stage 3: the covered entries that have ended are removed, a top that has ended is popped or returning, and
a return to the base sets realign on all four roles (R101 to R103). -/
def Lane.afterEnds (e : Entry) (k : EndsPlan) (x : Lane) : Lane :=
  { x with
    stack := if k.leaves then k.kept else { e with returning := k.ended } :: k.kept
    roles := if k.returns then vmap (fun r => { r with realign := true }) x.roles else x.roles }

/-- Stage 3: covered entries that have ended are removed, then the top is judged, and at a return to the base the return notice
is given (R101 to R103), after the reports of the stage (log 37). -/
def stageThree (cx : ReadCtx) (s : State) : State :=
  match (s.lane cx.lane).stack with
  | [] => s
  | e :: rest =>
    let k := planEnds cx s e rest
    let t := (reportEnds cx.clock e k s).onLane cx.lane (Lane.afterEnds e k)
    if k.returns then auditReturn cx.lane e.kind e.endTime ((cx.rap s).getD cx.clock) (cx.rap s).isSome t else t

/-! ## Stage 4: entries (R86, R104) -/

/-- The stack entry of a placement that enters at time `start` (R95). -/
def placementEntry (id : Nat) (p : Placement) (start : Pt) : Entry :=
  Entry.made p.kind (.placement id) p.clips (some (ptPlus start p.duration)) p.rule

/-- An offered placement is inserted where its rank is free, with its entry time, E and entry notice; else it is blocked
(R86, R104). A returning top beneath which it is inserted keeps its returning flag until the next stage 3 (DESIGN CHOICE,
log 41). -/
def enterOne (cx : ReadCtx) (id : Nat) (s : State) : State :=
  let p := s.placement id
  let x := s.lane cx.lane
  if (x.entryOf p.kind).isSome then s.onPlacement id fun p => { p with blocked := true }
  else
    let start := entryStart (cx.rap s) cx.clock (p.t.getD 0)
    let s := s.setLane cx.lane { x with stack := insertEntry (placementEntry id p start) x.stack }
    let s := s.onPlacement id fun p =>
      { p with state := .covered, entryTime := start, lateCheck := false, blocked := false, withdrawn := false, earlyReturn := false }
    auditEntry cx.lane id p.t start p.preRoll s

/-- The offered placements taken in turn (R104). -/
def enterAll (cx : ReadCtx) : List Nat → State → State
  | [], s => s
  | id :: rest, s => enterAll cx rest (enterOne cx id s)

/-- Stage 4: the eligible placements, ADVERT before PROGRAMME, lowest id first within a rank (R85, R104). -/
def stageFour (cx : ReadCtx) (s : State) : State :=
  enterAll cx (s.offered cx .advert ++ s.offered cx .programme) s

/-- The placements inserted by this read's stage 4: offered while PENDING, and on the stack after it (R104, R106). -/
def State.entered (s : State) (offered : List Nat) : List Nat := offered.filter fun id => (s.placement id).onStack

/-! ## Clip starts (R63, R65, R117) -/

/-- What a clip's turn came to: no clip, a clip whose offsets are set, a clip that ended DAMAGED in its slot 0, or a wait
for the clip's slot 0 (R56, R63, R65). -/
inductive Turn where
  | nothing | ready | damaged | waits
  deriving DecidableEq, Repr, Inhabited

/-- A damaged slot ends the top entry's current clip, and the lookahead becomes EMPTY (R65). -/
def damageClip (l : Nat) (s : State) : State :=
  s.onLane l fun x => { (x.onTop fun e => e.endClip .damaged) with look := .empty }

/-- The offsets of the top entry's current clip, from its start time and first PTS, and from the tags of the ring slot and
of the clip's slot 0 (R117). -/
def setOffsets (cx : ReadCtx) (start : Pt) (slot0 : List Byte) (s : State) : State :=
  s.onLane cx.lane fun x => x.onTop fun e =>
    { e with ptsOffset := start - (s.clip (e.currentClip.getD 0)).firstPts, tagOffset := slotTag cx.slot - slotTag slot0 }

/-- A clip that has just become current needs its slot 0: its offsets are set from it, or it ends DAMAGED, or the slot read
waits (R63). -/
def beginClip (cx : ReadCtx) (start : Pt) (s : State) : State × Turn :=
  let s := alignLook cx.lane s
  match (s.lane cx.lane).look with
  | .full _ slot0 _ damaged =>
    if damaged then (damageClip cx.lane s, .damaged) else (setOffsets cx start slot0 s, .ready)
  | .fetching .. | .empty => (demandFetch cx.lane s, .waits)

/-- The top entry takes the turn of a clip at its next position (R56, R106, R109). -/
def takeTurn (cx : ReadCtx) (start : Pt) (s : State) : State × Turn :=
  match (s.lane cx.lane).top with
  | none => (s, .nothing)
  | some e =>
    let e' := e.turn fun id => (s.clip id).defined
    let s := s.onLane cx.lane fun x => x.onTop fun _ => e'
    if e'.current.isSome then beginClip cx start s else (s, .nothing)

/-! ## Stage 5: reveal and start (R105, R106) -/

/-- The start time of the clip that a change of top starts: the entry time of a placement inserted at this read, else the
lane clock stage 1 left (R106). -/
def startTime (cx : ReadCtx) (entered : List Nat) (s : State) : Pt :=
  match (s.lane cx.lane).top.map Entry.source with
  | some (.placement id) => if id ∈ entered then (s.placement id).entryTime else cx.clock
  | some .laneSlate | some (.profile _) | none => cx.clock

/-- The old top is covered: interrupted, no longer returning, its current clip PREEMPTED (R105). -/
def Entry.cover (e : Entry) : Entry := { e.endClip .preempted with interrupted := true, returning := false }

/-- A restarted alert entry plays from clip 0; its current clip is dropped without an outcome (R105, R106). -/
def Entry.restart (e : Entry) : Entry := { e with current := none, nextIdx := 0 }

/-- What is owed to the entry that was the top at the start of stage 2 (R105). -/
def settleOld (l : Nat) (old : Option Entry) (restarted : Bool) (s : State) : State :=
  if restarted then s.onLane l fun x => x.onTop Entry.restart
  else
    match old with
    | none => s
    | some o => s.onLane l fun x => x.onSource o.source Entry.cover

/-- The top has changed between the start of stage 2 and the end of stage 4 (R105). -/
def State.topChanged (s : State) (l : Nat) (old : Option Entry) (restarted : Bool) : Bool :=
  restarted || decide (old.map Entry.source ≠ (s.lane l).top.map Entry.source)

/-- Stage 5: a change of top covers the old top, overtakes the lookahead and starts a clip for the new one (R105, R106). -/
def stageFive (cx : ReadCtx) (start : Pt) (old : Option Entry) (restarted : Bool) (s : State) : State × Turn :=
  if s.topChanged cx.lane old restarted then
    let s := overtake cx.lane (settleOld cx.lane old restarted s)
    match (s.lane cx.lane).top with
    | none => (s, .nothing)
    | some e =>
      let s := s.onLane cx.lane fun x => x.onTop fun e => { e with hasBeenTop := true }
      if e.exhausted then (s, .nothing) else takeTurn cx start s
  else (s, .nothing)

/-! ## Numbering (R127, R128) -/

/-- The counter of a library packet returned under a role, and the role state after it (R127). -/
def RoleState.library (k : RoleState) (hasPayload : Bool) : RoleState × Cc :=
  if hasPayload then ({ k with outLast := k.outLast + 1 }, k.outLast + 1) else (k, k.outLast)

/-- The role state once a payload packet has chosen a new delta for a set realign flag (R128, step 1). -/
def RoleState.realigned (k : RoleState) (hasPayload : Bool) (cc : Cc) : RoleState :=
  if k.realign && hasPayload then { k with delta := k.outLast + 1 - cc, realign := false } else k

/-- The counter of a network packet of a role with the base on top, and the role state after it (R128). -/
def RoleState.network (k : RoleState) (hasPayload : Bool) (cc : Cc) : RoleState × Cc :=
  let k := k.realigned hasPayload cc
  (if hasPayload then { k with outLast := cc + k.delta } else k, cc + k.delta)

/-! ## Stage 6: the source of the slot (R108) -/

/-- What stage 6 comes to: the slot returned, or a wait, for a clip's first slot when `starting` (R62, R63, R108). -/
inductive Src where
  | returns (slot : List Byte)
  | waits (starting : Bool)
  deriving DecidableEq, Repr, Inhabited

/-- The slot returns the null packet under its own tag (R51). -/
def nullSlot (cx : ReadCtx) : Src := .returns (slotWith cx.slot nullPacket)

/-- The base on top: the stored packet, renumbered when it is of a role (R108, R128). -/
def sourceBase (cx : ReadCtx) (s : State) : State × Src :=
  let x := s.lane cx.lane
  match x.record.role cx.insp with
  | none => (s, .returns cx.slot)
  | some r =>
    let k := x.roles[r].network cx.insp.hasPayload cx.insp.cc
    (s.setLane cx.lane { x with roles := x.roles.set r k.1 }, .returns (slotWith cx.slot (setCc (slotPacket cx.slot) k.2)))

/-- The lane role a clip's PID map gives a library packet, where the lane uses that role (R57). -/
def mappedRole (rec : LaneRecord) (c : Clip) (i : Insp) : Option (Fin 4) :=
  match i.pid with
  | none => none
  | some pid =>
    match c.pidMap.find? fun m => decide (m.1 = pid) with
    | none => none
    | some m => if rec.roles[m.2] = Config.nullPid then none else some m.2

/-- The due time of a held slot under an entry's tag offset (R119). -/
def dueTime (e : Entry) (held : List Byte) : Rt := slotTag held + e.tagOffset

/-- The entry after a draw: tally and aired flag for a mapped packet, the lag, the position, and AIRED when the packet count
is used up (R64, R110, R121). -/
def Entry.afterDraw (e : Entry) (mapped : Bool) (lag count : Nat) : Entry :=
  match e.current with
  | none => e
  | some (j, i) =>
    let tally := if mapped then e.tally.modify j fun t => { t with aired := t.aired + 1 } else e.tally
    let e : Entry :=
      { e with current := some (j, i + 1), maxLag := max e.maxLag lag, aired := e.aired || mapped, tally := tally }
    if i + 1 = count then e.endClip .aired else e

/-- A due packet is drawn: returned rewritten under its mapped role or as the null packet, and the position advances
(R57, R64, R123). -/
def drawPacket (cx : ReadCtx) (e : Entry) (held : List Byte) (i : Insp) (s : State) : State × Src :=
  let x := s.lane cx.lane
  let c := s.clip (e.currentClip.getD 0)
  let lag := rtSince (slotTag cx.slot) (dueTime e held)
  match mappedRole x.record c i with
  | none => (s.setLane cx.lane { (x.onTop fun e => e.afterDraw false lag c.count) with look := .empty }, nullSlot cx)
  | some r =>
    let k := x.roles[r].library i.hasPayload
    (s.setLane cx.lane { (x.onTop fun e => e.afterDraw true lag c.count) with look := .empty, roles := x.roles.set r k.1 },
      .returns (slotWith cx.slot (rewritePacket (slotPacket held) i x.record.roles[r] k.2 e.ptsOffset)))

/-- A slot that needs a library packet consults the lookahead (R62, R65, R119). -/
def consultLook (cx : ReadCtx) (e : Entry) (s : State) : State × Src :=
  let s := alignLook cx.lane s
  match (s.lane cx.lane).look with
  | .full _ held i damaged =>
    if damaged then (damageClip cx.lane s, nullSlot cx)
    else if rtAtOrAfter (slotTag cx.slot) (dueTime e held) then drawPacket cx e held i s
    else (s, nullSlot cx)
  | .fetching .. | .empty => (demandFetch cx.lane s, .waits false)

/-- Stage 6 with a library entry on top and a slot that is not on the pass-list (R62, R108, R109). `noTurn` when a clip start
of this read has just found its slot 0 damaged. -/
def sourceEntry (cx : ReadCtx) (noTurn : Bool) (e : Entry) (s : State) : State × Src :=
  if e.exhausted then (s, nullSlot cx)
  else if e.current.isSome then consultLook cx e s
  else if noTurn then (s, nullSlot cx)
  else
    match takeTurn cx cx.clock s with
    | (s, .nothing) => (s, nullSlot cx)
    | (s, .damaged) => (s, nullSlot cx)
    | (s, .waits) => (s, .waits true)
    | (s, .ready) =>
      match (s.lane cx.lane).top with
      | some e => consultLook cx e s
      | none => (s, nullSlot cx)

/-- Stage 6: the slot's content, by the first row of R108 that applies. -/
def stageSix (cx : ReadCtx) (noTurn : Bool) (s : State) : State × Src :=
  if (s.lane cx.lane).record.passes cx.insp then (s, .returns cx.slot)
  else
    match (s.lane cx.lane).top with
    | none => sourceBase cx s
    | some e => sourceEntry cx noTurn e s

/-! ## Completion and waits (R3, R97) -/

/-- The first entry of a list that satisfies a test, changed. -/
def changeFirst {α : Type} (test : α → Bool) (f : α → α) : List α → List α
  | [] => []
  | a :: rest => if test a then f a :: rest else a :: changeFirst test f rest

/-- An ARRIVED entry (R1). -/
def FwdEntry.isArrived (f : FwdEntry) : Bool := decide (f.state = .arrived)

/-- The slot read whose procedure is the next to complete: the oldest ARRIVED entry (R3). -/
def State.oldestArrived (s : State) : Option FwdEntry := s.router.forward.find? FwdEntry.isArrived

/-- The procedure of the oldest ARRIVED read is complete: its entry becomes READY with its return data (R3, R108). -/
def completeRead (out : List Byte) (s : State) : State :=
  let forward := changeFirst FwdEntry.isArrived (fun f => { f with state := .ready, out := out }) s.router.forward
  { s with router := { s.router with forward := forward }, wait := none }

/-- The procedure's outcome at stage 6: the read completes, and the prefetch test is made (R59, R64); or it waits (R97). -/
def finishSource (cx : ReadCtx) (r : State × Src) : State :=
  match r.2 with
  | .returns slot => prefetchTest cx.lane (completeRead slot r.1)
  | .waits starting => { r.1 with wait := some { lane := cx.lane, starting := starting, clock := cx.clock } }

/-- The procedure after a clip start at stage 5: a wait for slot 0, or stage 6 (R97, R106). -/
def afterStart (cx : ReadCtx) (start : Pt) (r : State × Turn) : State :=
  match r.2 with
  | .waits => { r.1 with wait := some { lane := cx.lane, starting := true, clock := start } }
  | .damaged => finishSource cx (stageSix cx true r.1)
  | .nothing | .ready => finishSource cx (stageSix cx false r.1)

/-- Stages 2 to 6 of a slot read (R97). -/
def spliceStages (cx : ReadCtx) (s : State) : State :=
  let old := (s.lane cx.lane).top
  let two := stageTwo cx.lane s
  let three := stageThree cx two.1
  let offered := three.offered cx .advert ++ three.offered cx .programme
  let four := stageFour cx three
  let synced := syncStack (four.lane cx.lane).stack four
  let start := startTime cx (four.entered offered) synced
  afterStart cx start (stageFive cx start old two.2 synced)

/-- The slot-read procedure of a stored slot of lane `l` at ring index `k` (R97, R113). -/
def runProcedure (l k : Nat) (slot : List Byte) (s : State) : State :=
  let i := inspect (slotPacket slot)
  let one := stageOne l k i s
  if one.bypass then completeRead slot one
  else spliceStages { lane := l, slot := slot, insp := i, clock := one.clock l } one

/-- The waiting procedure continues from the point where it waited (R97). -/
def resumeRead (w : WaitingRead) (s : State) : State :=
  match s.oldestArrived with
  | none => s
  | some f =>
    let cx : ReadCtx := { lane := w.lane, slot := f.raw, insp := inspect (slotPacket f.raw), clock := w.clock }
    if w.starting then afterStart cx w.clock (beginClip cx w.clock s)
    else
      match (s.lane w.lane).top with
      | some e => finishSource cx (consultLook cx e s)
      | none => s

/-! ## The steps -/

/-- SLOT_READ_PROCEDURE (R97): runs for the oldest ARRIVED slot read, unless an earlier read's procedure waits (R3). A read
accepted before a LANE-DISABLE of its lane runs no stage (R27). -/
def slotReadStep (s : State) : State :=
  if s.wait.isSome then s
  else
    match s.oldestArrived with
    | none => s
    | some f =>
      match f.cls with
      | .slotRead l k =>
        if f.abandoned || !(s.lane l).enabled then completeRead f.raw s else runProcedure l k f.raw s
      | .plain | .straddle | .stray _ | .logIntrusion | .slotWrite _ _ | .command _ | .offered => s

/-- The meaning of SLOT_READ_PROCEDURE. -/
def execSlotReadProcedure (s : State) : Host.Outcome State Fault Refusal := .next (settle s (slotReadStep s))

/-- The meaning of SLATE_COUNTDOWN_EXPIRY (R166): the slate requests of an enabled lane whose countdown stands at 0 become
due; the same happens at the first stage of a slot read. -/
def execSlateCountdownExpiry (l : Nat) (s : State) : Host.Outcome State Fault Refusal :=
  if l < 16 then
    .next (settle s (if (s.lane l).enabled then s.onLane l Lane.expireSlate else s))
  else .refused .noSuchLane

end Sys2Proof.Machine
end

