-- ==== Sys2Proof/Machine/Operands.lean ====
section
/-! DEFINITION. The parameters of the host's commands, read from the captured words (12.4, R192), with the range tests that
look at the parameters alone. Fields beyond a given count, and bits outside every named field, are not examined. -/

namespace Sys2Proof.Machine

open Sys2Proof

/-! ## Reading fields -/

/-- Half `i` of the words from word `n` up, two 16-bit fields a word, low half first (12.4). -/
def halfAt (ws : List Word) (n i : Nat) : Nat := field (wordAt ws (n + i / 2)) (16 * (i % 2)) 16

/-- The first `count` halves from word `n` up. -/
def halvesAt (ws : List Word) (n count : Nat) : List Nat := (List.range count).map (halfAt ws n)

/-- A whole word as a number. -/
def numAt (ws : List Word) (n : Nat) : Nat := (wordAt ws n).toNat

/-- A PID field as a PID, once its range is tested. -/
def pidOf (n : Nat) : Pid := BitVec.ofNat 13 n

/-- The numbers of a list are all at most a limit. -/
def allAtMost (m : Nat) (ns : List Nat) : Bool := ns.all fun n => decide (n ≤ m)

/-! ## REGION-SET (R9) -/

/-- The parameters of REGION-SET (12.4); the role is absent for a value that is none of the four. -/
structure RegionArgs where
  index : Nat
  base : Word
  limit : Word
  role : Option RegionRole
  lane : Nat
  deriving DecidableEq, Repr

/-- The region role of a code (12.4). -/
def regionRoleOf (n : Nat) : Option RegionRole :=
  if n = 0 then some .none else if n = 1 then some .ring else if n = 2 then some .library else if n = 3 then some .log else none

/-- REGION-SET's parameters (12.4). -/
def regionArgs (ws : List Word) : RegionArgs :=
  { index := numAt ws 2, base := wordAt ws 3, limit := wordAt ws 4, role := regionRoleOf (numAt ws 5), lane := numAt ws 6 }

/-- The size of the range given. -/
def RegionArgs.size (a : RegionArgs) : Nat := a.limit.toNat - a.base.toNat

/-- Order 2 of R9 for a role other than NONE: aligned base and limit, limit above base. -/
def RegionArgs.rangeOk (a : RegionArgs) : Bool :=
  decide (a.base.toNat % 64 = 0 ∧ a.limit.toNat % 64 = 0 ∧ a.base.toNat < a.limit.toNat)

/-- Order 3 of R9: a whole number of slots, 16 to 65,535, on a lane that exists. -/
def RegionArgs.ringOk (a : RegionArgs) : Bool :=
  decide (a.lane ≤ 15 ∧ a.size % 192 = 0 ∧ 16 ≤ a.size / 192 ∧ a.size / 192 ≤ 65535)

/-- Order 4 of R9: 16 to 65,536 lines. -/
def RegionArgs.logOk (a : RegionArgs) : Bool := decide (16 ≤ a.size / 64 ∧ a.size / 64 ≤ 65536)

/-- Orders 1 to 4 of R9: the tests that look at the parameters alone. -/
def RegionArgs.inRange (a : RegionArgs) : Bool :=
  decide (a.index ≤ 31) &&
    match a.role with
    | none => false
    | some .none => true
    | some .ring => a.rangeOk && a.ringOk
    | some .library => a.rangeOk
    | some .log => a.rangeOk && a.logOk

/-- The entry's new content on DONE; a new role NONE takes 0s, and only a RING entry keeps a lane (R8, R9, log 16). -/
def RegionArgs.entry (a : RegionArgs) : Region :=
  match a.role with
  | none | some .none => Region.reset
  | some .ring => { role := .ring, base := a.base, limit := a.limit, lane := a.lane }
  | some .library => { role := .library, base := a.base, limit := a.limit, lane := 0 }
  | some .log => { role := .log, base := a.base, limit := a.limit, lane := 0 }

/-! ## LANE-SET (R22, R154) -/

/-- The parameters of LANE-SET as numbers (12.4). -/
structure LaneArgs where
  lane : Nat
  zone : Nat
  region : Nat
  passCount : Nat
  roles : List Nat
  pass : List Nat
  cuePid : Nat
  slateClip : Nat
  entryWindow : Nat
  jumpLimit : Nat
  gapLimit : Nat
  lossFilter : Nat
  goodFilter : Nat
  blankTime : Nat
  rateInterval : Nat
  rateThreshold : Nat
  rateMode : Nat
  rateAsLoss : Bool
  deriving DecidableEq, Repr

/-- LANE-SET's parameters (12.4). -/
def laneArgs (ws : List Word) : LaneArgs :=
  let count := field (wordAt ws 2) 24 8
  { lane := field (wordAt ws 2) 0 8, zone := field (wordAt ws 2) 8 8, region := field (wordAt ws 2) 16 8, passCount := count,
    roles := halvesAt ws 3 4, pass := halvesAt ws 5 (min count 8), cuePid := field (wordAt ws 9) 0 16,
    slateClip := field (wordAt ws 9) 16 16, entryWindow := numAt ws 10, jumpLimit := numAt ws 11,
    gapLimit := field (wordAt ws 12) 0 16, lossFilter := field (wordAt ws 12) 16 16,
    goodFilter := field (wordAt ws 13) 0 16, blankTime := field (wordAt ws 13) 16 16,
    rateInterval := field (wordAt ws 14) 0 16, rateThreshold := field (wordAt ws 14) 16 16,
    rateMode := field (wordAt ws 15) 0 2, rateAsLoss := decide (field (wordAt ws 15) 8 1 = 1) }

/-- The null PID as a field value. -/
def nullNum : Nat := 0x1FFF

/-- The role PIDs given that are in use. -/
def LaneArgs.usedRoles (a : LaneArgs) : List Nat := a.roles.filter fun p => decide (p ≠ nullNum)

/-- Orders 1 and 2 of R22. -/
def LaneArgs.pidsOk (a : LaneArgs) : Bool :=
  decide (a.lane ≤ 15 ∧ a.zone ≤ 7 ∧ a.region ≤ 31) && allAtMost nullNum (a.cuePid :: (a.roles ++ a.pass)) &&
    decide (a.roles.getD 0 nullNum ≠ nullNum ∧ a.usedRoles.Nodup)

/-- Orders 3 and 4 of R22. -/
def LaneArgs.passOk (a : LaneArgs) : Bool :=
  decide (a.passCount ≤ 8 ∧ a.pass.Nodup ∧ nullNum ∉ a.pass) && (a.usedRoles.all fun p => decide (p ∉ a.pass)) &&
    decide (a.cuePid = nullNum ∨ (a.cuePid ∉ a.roles ∧ a.cuePid ∉ a.pass))

/-- Orders 5 and 6 of R22. -/
def LaneArgs.timesOk (a : LaneArgs) : Bool :=
  decide (a.entryWindow ≤ 900000 ∧ 9000 ≤ a.jumpLimit ∧ a.jumpLimit ≤ 900000 ∧ (a.slateClip = 0xFFFF ∨ a.slateClip ≤ 255))

/-- Order 7 of R22: the supervision settings (R154). -/
def LaneArgs.supervisionOk (a : LaneArgs) : Bool :=
  decide (10 ≤ a.gapLimit ∧ a.gapLimit ≤ 2000 ∧ a.lossFilter ≤ 10000 ∧ a.goodFilter ≤ 10000 ∧ a.blankTime ≤ 10000 ∧
    10 ≤ a.rateInterval ∧ a.rateInterval ≤ 1000 ∧ a.rateThreshold ≤ 65535 ∧ a.rateMode ≤ 2)

/-- Orders 1 to 7 of R22: the tests that look at the parameters alone. -/
def LaneArgs.inRange (a : LaneArgs) : Bool := a.pidsOk && a.passOk && a.timesOk && a.supervisionOk

/-- The rate mode of a code (12.4). -/
def rateModeOf (n : Nat) : RateMode := if n = 1 then .low else if n = 2 then .high else .off

/-- The record LANE-SET sets, with its set flag (R21, R22). -/
def LaneArgs.record (a : LaneArgs) : LaneRecord :=
  { isSet := true, zone := a.zone, region := a.region,
    roles := #v[pidOf (a.roles.getD 0 nullNum), pidOf (a.roles.getD 1 nullNum), pidOf (a.roles.getD 2 nullNum),
      pidOf (a.roles.getD 3 nullNum)], passList := a.pass.map pidOf,
    cuePid := pidOf a.cuePid, entryWindow := a.entryWindow, jumpLimit := a.jumpLimit,
    slateClip := if a.slateClip = 0xFFFF then none else some a.slateClip, gapLimit := a.gapLimit,
    lossFilter := a.lossFilter, goodFilter := a.goodFilter, blankTime := a.blankTime, rateInterval := a.rateInterval,
    rateThreshold := a.rateThreshold, rateMode := rateModeOf a.rateMode, rateAsLoss := a.rateAsLoss }

/-! ## CLIP-SET (R53) -/

/-- The parameters of CLIP-SET (12.4): pairs of a PID field and a role field. -/
structure ClipArgs where
  id : Nat
  addr : Word
  count : Nat
  firstPts : Nat
  pairCount : Nat
  pairs : List (Nat × Nat)
  deriving DecidableEq, Repr

/-- CLIP-SET's parameters (12.4). -/
def clipArgs (ws : List Word) : ClipArgs :=
  { id := numAt ws 2, addr := wordAt ws 3, count := numAt ws 4, firstPts := timeAt ws 5, pairCount := numAt ws 7,
    pairs := (List.range (min (numAt ws 7) 4)).map fun i => (field (wordAt ws (8 + i)) 0 16, field (wordAt ws (8 + i)) 16 8) }

/-- Orders 1 to 3 of R53: the tests that look at the parameters alone. -/
def ClipArgs.inRange (a : ClipArgs) : Bool :=
  decide (a.id ≤ 255 ∧ 1 ≤ a.count ∧ a.count ≤ 16777215 ∧ a.firstPts < 2 ^ 33 ∧ 1 ≤ a.pairCount ∧ a.pairCount ≤ 4) &&
    (a.pairs.all fun p => decide (p.1 < nullNum ∧ p.2 ≤ 3)) &&
    decide ((a.pairs.map Prod.fst).Nodup ∧ (a.pairs.map Prod.snd).Nodup) && decide (a.addr.toNat % 64 = 0)

/-- The entry CLIP-SET defines (R52, R53). -/
def ClipArgs.entry (a : ClipArgs) : Clip :=
  { defined := true, addr := a.addr, count := a.count, firstPts := BitVec.ofNat 33 a.firstPts,
    pidMap := a.pairs.map fun p => (pidOf p.1, Fin.ofNat 4 p.2) }

/-! ## PLACE (R70) -/

/-- The parameters of PLACE (12.4); kind, trigger and return rule are absent for values that name none. -/
structure PlaceArgs where
  id : Nat
  lane : Nat
  kind : Option Kind
  trigger : Option Trigger
  rule : Option ReturnRule
  avail : Word
  scheduled : Nat
  duration : Nat
  takeCueDuration : Bool
  clipCount : Nat
  clips : List Nat
  deriving DecidableEq, Repr

/-- The placement kind of a code: 2 PROGRAMME, 3 ADVERT (12.4). -/
def placeKindOf (n : Nat) : Option Kind := if n = 2 then some .programme else if n = 3 then some .advert else none

/-- The trigger of a code (12.4). -/
def triggerOf (n : Nat) : Option Trigger :=
  if n = 0 then some .cue else if n = 1 then some .time else if n = 2 then some .immediate else none

/-- The return rule of a code (12.4). -/
def ruleOf (n : Nat) : Option ReturnRule := if n = 0 then some .atEnd else if n = 1 then some .early else none

/-- PLACE's parameters (12.4). -/
def placeArgs (ws : List Word) : PlaceArgs :=
  let count := field (wordAt ws 8) 8 8
  { id := numAt ws 2, lane := field (wordAt ws 3) 0 8, kind := placeKindOf (field (wordAt ws 3) 8 8),
    trigger := triggerOf (field (wordAt ws 3) 16 8), rule := ruleOf (field (wordAt ws 3) 24 8), avail := wordAt ws 4,
    scheduled := timeAt ws 5, duration := numAt ws 7, takeCueDuration := decide (field (wordAt ws 8) 0 1 = 1),
    clipCount := count, clips := halvesAt ws 9 (min count 6) }

/-- Orders 1 to 3 of R70: the tests that look at the parameters alone. -/
def PlaceArgs.inRange (a : PlaceArgs) : Bool :=
  decide (a.id ≤ 127 ∧ a.lane ≤ 15) && a.kind.isSome && a.trigger.isSome && a.rule.isSome &&
    decide (1 ≤ a.duration ∧ a.duration < 2 ^ 31 ∧ (a.trigger = some .time → a.scheduled < 2 ^ 33)) &&
    decide (1 ≤ a.clipCount ∧ a.clipCount ≤ 6) && allAtMost 255 a.clips

/-- The placement PLACE makes, as it leaves EMPTY by its trigger, before any late test (R70, R71). The scheduled time is kept
modulo 2^33 where the trigger does not use it (log 17). -/
def PlaceArgs.entry (a : PlaceArgs) : Placement :=
  let trigger := a.trigger.getD .immediate
  let time := BitVec.ofNat 33 a.scheduled
  { Placement.vacant with
    state := if trigger = .cue then .armed else .pending
    lane := a.lane
    kind := a.kind.getD .advert
    trigger := trigger
    avail := a.avail
    scheduled := time
    duration := a.duration
    takeCueDuration := a.takeCueDuration
    rule := a.rule.getD .atEnd
    clips := a.clips
    t := if trigger = .time then some time else none
    lateCheck := decide (trigger = .time) }

/-! ## CUE (R76) -/

/-- The parameters of CUE (12.4). -/
structure CueArgs where
  lane : Nat
  type : Option CueType
  avail : Word
  time : Option Nat
  duration : Option Nat
  deriving DecidableEq, Repr

/-- CUE's parameters (12.4). -/
def cueArgs (ws : List Word) : CueArgs :=
  { lane := field (wordAt ws 2) 0 8, type := cueTypeOf (field (wordAt ws 2) 8 8), avail := wordAt ws 3,
    time := if field (wordAt ws 2) 16 1 = 1 then some (timeAt ws 4) else none,
    duration := if field (wordAt ws 2) 17 1 = 1 then some (timeAt ws 6) else none }

/-- Order 1 of R76. -/
def CueArgs.inRange (a : CueArgs) : Bool :=
  decide (a.lane ≤ 15) && a.type.isSome && (a.time.all fun t => decide (t < 2 ^ 33)) &&
    (a.duration.all fun d => decide (d < 2 ^ 33))

/-- The cue that goes to intake (R76). -/
def CueArgs.cue (a : CueArgs) : Cue :=
  { type := a.type.getD .out, avail := a.avail, time := a.time.map (BitVec.ofNat 33), duration := a.duration }

/-! ## ALERT-PROFILE (R135) -/

/-- The parameters of ALERT-PROFILE (12.4); the reaction is absent for a value that names none. -/
structure ProfileArgs where
  profile : Nat
  zones : Nat
  severity : Nat
  clipCount : Nat
  clips : List Nat
  holdLimit : Nat
  period : Nat
  lockedFraction : Nat
  loopLimit : Nat
  reaction : Option Reaction
  deriving DecidableEq, Repr

/-- The reaction of a code (12.4). -/
def reactionOf (n : Nat) : Option Reaction :=
  if n = 0 then some .warn else if n = 1 then some .release else if n = 2 then some .latch else none

/-- ALERT-PROFILE's parameters (12.4). -/
def profileArgs (ws : List Word) : ProfileArgs :=
  { profile := numAt ws 2, zones := numAt ws 3, severity := numAt ws 4, clipCount := numAt ws 5,
    clips := halvesAt ws 6 (min (numAt ws 5) 4), holdLimit := numAt ws 8, period := numAt ws 9,
    lockedFraction := numAt ws 10, loopLimit := numAt ws 11, reaction := reactionOf (numAt ws 12) }

/-- Order 1 of R135. -/
def ProfileArgs.inRange (a : ProfileArgs) : Bool :=
  decide (a.profile ≤ 3 ∧ a.zones < 2 ^ 8 ∧ 1 ≤ a.severity ∧ a.severity ≤ 7 ∧ 1 ≤ a.clipCount ∧ a.clipCount ≤ 4) &&
    allAtMost 255 a.clips &&
    decide (1 ≤ a.holdLimit ∧ a.holdLimit ≤ 7200 ∧ 10 ≤ a.period ∧ a.period ≤ 1000 ∧ a.lockedFraction ≤ 15 ∧
      2 ≤ a.loopLimit ∧ a.loopLimit ≤ 31) && a.reaction.isSome

/-- The profile ALERT-PROFILE defines (R134, R135). -/
def ProfileArgs.entry (a : ProfileArgs) : Profile :=
  { defined := true, zones := BitVec.ofNat 8 a.zones, severity := a.severity, clips := a.clips, holdLimit := a.holdLimit,
    period := a.period, lockedFraction := a.lockedFraction, loopLimit := a.loopLimit, reaction := a.reaction.getD .warn }

/-! ## AUDIT-MARK (R189) -/

/-- An edge as AUDIT-MARK names it: the mark kept, and whether BOTH was reduced to OUT (R189, 12.4). -/
def edgeOf (n : Nat) : Option (AuditMark × Bool) :=
  if n = 1 then some (.out, false) else if n = 2 then some (.into, false) else if n = 3 then some (.out, true) else none

/-- The code of a kept edge (12.4). -/
def AuditMark.code : AuditMark → Nat
  | .none => 0 | .out => 1 | .into => 2

/-! ## Command codes (12.4) -/

/-- The codes that name a command (12.4). -/
def commandCodes : List Nat :=
  [0x01, 0x02, 0x03, 0x04, 0x05, 0x10, 0x11, 0x20, 0x21, 0x22, 0x23, 0x30, 0x31, 0x32, 0x33, 0x34, 0x40, 0x41, 0x7F]

end Sys2Proof.Machine
end

