-- ==== Sys2Proof/Machine/Reset.lean ====
section
/-! DEFINITION. What RST_N and the effect of UNCLAIM have in common (R19, R20, R116, R153, R178, R181): every block takes its
initial values, and what is already in the memory path completes as plain forwards. -/

namespace Sys2Proof.Machine

open Sys2Proof

/-- An entry of the forward queue completes as a plain forward: a read that has its data is READY with what memory gave
(R19). -/
def FwdEntry.toPlain (f : FwdEntry) : FwdEntry :=
  match f.state with
  | .queued | .granted => { f with cls := .plain, abandoned := false }
  | .arrived | .ready => { f with cls := .plain, abandoned := false, state := .ready, out := f.raw }

/-- The data of a granted library fetch will be discarded on arrival (R19). -/
def InFlight.toOrphan (f : InFlight) : InFlight :=
  match f.owner with
  | .forward => f
  | .fetch l clip _ => { f with owner := .fetch l clip true }

/-- The router after a reset event: UNCLAIMED, with the transactions under way completing as plain forwards, and its
part-originated writes and ungranted fetches dropped (R19, R20). The pins keep what they last carried. -/
def Router.cleared (r : Router) : Router :=
  { Router.reset with
    forward := r.forward.map FwdEntry.toPlain
    inFlight := r.inFlight.map InFlight.toOrphan
    mPort := r.mPort
    qPort := r.qPort }

/-- Every block at its initial values (R19, R20, R92, R116, R153, R155, R181, R182). Local Time, the input levels, memory and
the steps waiting are not touched. A clip whose granted fetch is
outstanding stays in use until its data arrives (R66, log 36). -/
def resetBlocks (s : State) : State :=
  { s with
    router := s.router.cleared
    cmd := CmdUnit.reset
    lanes := Vector.replicate 16 Lane.reset
    clips := Vector.replicate 256 Clip.undefined
    placements := Vector.replicate 128 Placement.vacant
    wait := none
    alert := AlertCtl.reset
    log := LogWriter.reset }

/-- A raw EAL level asserted as a reset ends begins a change mark at that Local Time (R145). -/
def beginEal (s : State) : State := { s with alert := { s.alert with ealMark := changeMark s.eal s.alert.ealFiltered s.lt } }

/-- UNCLAIM takes effect (R20, R153, R178); Local Time runs on. -/
def unclaimEffect (s : State) : State := beginEal (resetBlocks s)

end Sys2Proof.Machine
end

