-- ==== Sys2Proof/Machine/Control.lean ====
section
/-! DEFINITION. The Command Unit's executions (chapter 10): the oldest captured command is executed against the block that
owns its effect, and its answer joins the answer-pending set. -/

namespace Sys2Proof.Machine

open Sys2Proof

/-- What an execution comes to: the state, the answer code, and the result words from word 2 on (R174). -/
structure Reply where
  state : State
  code : AnswerCode
  results : List Word
  deriving DecidableEq, Repr

/-- A refused command changes nothing, and its result words are 0 (R174). -/
def refuse (c : AnswerCode) (s : State) : Reply := { state := s, code := c, results := [] }

/-- A command carried out, with the result words its rule gives (R174). -/
def carryOut (results : List Word) (s : State) : Reply := { state := s, code := .done, results := results }

/-- The line of an executed command joins the answer-pending set with its answer (R171, R174). The DONE answer of UNCLAIM is
the one given with UNCLAIM newly in course (R178). -/
def joinAnswer (c : Captured) (r : Reply) : State :=
  let a : Answer :=
    { line := c.line, code := r.code, results := padWords 14 r.results, take := c.take, isUnclaim := r.state.cmd.unclaiming }
  { r.state with cmd := { r.state.cmd with answers := (r.state.cmd.answers.filter fun b => decide (b.line ≠ c.line)) ++ [a] } }

/-- Commands are executed: the part is CLAIMED, not in reset, and no UNCLAIM is taking effect (R169, R178). -/
def State.executes (s : State) : Bool := s.claimed && !s.rst && !s.cmd.unclaiming

/-- The entry leaves the command queue (R174). -/
def State.unqueue (s : State) (rest : List Captured) : State := { s with cmd := { s.cmd with queue := rest } }

/-- The oldest entry of the command queue is executed, if its code satisfies the row's test (R174, log 7). -/
def execute (test : Nat → Bool) (body : List Word → State → Reply) (s : State) : State :=
  match s.cmd.queue with
  | [] => s
  | c :: rest => if s.executes && test (numAt c.words 0) then joinAnswer c (body c.words (s.unqueue rest)) else s

/-- The code test of a command (12.4). -/
def isCode (n : Nat) (code : Nat) : Bool := decide (code = n)

/-! ## REGION-SET (R9, R10) -/

/-- Two ranges share an address. -/
def rangesMeet (lo₁ hi₁ lo₂ hi₂ : Nat) : Bool := decide (lo₁ < hi₂ ∧ lo₂ < hi₁)

/-- The clip ids in order. -/
def clipIds : List Nat := List.range 256

/-- The region entries in order. -/
def regionIndices : List Nat := List.range 32

/-- Another entry already has role LOG (R9, order 5). -/
def State.otherLog (s : State) (i : Nat) : Bool :=
  regionIndices.any fun j => decide (j ≠ i) && decide ((s.region j).role = .log)

/-- A LIBRARY entry holds slots of a clip in use (R9, R55). -/
def State.holdsUsedClip (s : State) (r : Region) : Bool :=
  clipIds.any fun id =>
    s.clipInUse id && rangesMeet r.base.toNat r.limit.toNat (s.clip id).addr.toNat (s.clip id).extentEnd

/-- The entry as it stands is live (R9). -/
def State.regionLive (s : State) (i : Nat) : Bool :=
  match (s.region i).role with
  | .none => false
  | .ring => laneNumbers.any fun l => (s.lane l).enabled && decide ((s.lane l).record.region = i)
  | .library => s.holdsUsedClip (s.region i)
  | .log => decide (s.log.head ≠ s.log.tail)

/-- A new range shares an address with the control region or with another entry's range (R9, order 7). -/
def State.regionOverlaps (s : State) (a : RegionArgs) : Bool :=
  (match s.router.controlBase with
    | some b => rangesMeet a.base.toNat a.limit.toNat b.toNat (b.toNat + 65536)
    | none => false) ||
  regionIndices.any fun j =>
    decide (j ≠ a.index) && decide ((s.region j).role ≠ .none) &&
      rangesMeet a.base.toNat a.limit.toNat (s.region j).base.toNat (s.region j).limit.toNat

/-- A change that gives, changes or removes the LOG entry gives the Log Writer its new ring: head and tail 0, and a waiting
log write withdrawn (R10, R182, R184). -/
def newLogRing (s : State) : State :=
  presentLog (withdrawWaiting .log { s with log := { s.log with head := 0, tail := 0, presented := none } })

/-- REGION-SET answered DONE (R9, R10). -/
def setRegion (a : RegionArgs) (s : State) : State :=
  let s' := { s with router := { s.router with regions := s.router.regions.setIfInBounds a.index a.entry } }
  if (s.region a.index).role = .log ∨ a.entry.role = .log then newLogRing s' else s'

/-- REGION-SET's tests in their order (R9). -/
def regionAnswer (a : RegionArgs) (s : State) : AnswerCode :=
  if !a.inRange || (decide (a.role = some .log) && s.otherLog a.index) then .range
  else if s.regionLive a.index then .busy
  else if a.entry.role ≠ .none ∧ s.regionOverlaps a then .overlap
  else .done

/-- REGION-SET (R9). -/
def regionSetBody (ws : List Word) (s : State) : Reply :=
  match regionAnswer (regionArgs ws) s with
  | .done => carryOut [] (setRegion (regionArgs ws) s)
  | c => refuse c s

/-- The meaning of REGION_SET. -/
def execRegionSet (s : State) : Host.Outcome State Fault Refusal := .next (settle s (execute (isCode 0x01) regionSetBody s))

/-! ## LANE-SET (R22) -/

/-- LANE-SET's tests in their order (R22). -/
def laneSetAnswer (a : LaneArgs) (s : State) : AnswerCode :=
  if !a.inRange then .range
  else if (s.lane a.lane).enabled then .busy
  else if s.alert.lock ∧ a.zone ≠ (s.lane a.lane).record.zone then .locked
  else .done

/-- LANE-SET (R22). -/
def laneSetBody (ws : List Word) (s : State) : Reply :=
  let a := laneArgs ws
  match laneSetAnswer a s with
  | .done => carryOut [] (s.onLane a.lane fun x => { x with record := a.record })
  | c => refuse c s

/-- The meaning of LANE_SET. -/
def execLaneSet (s : State) : Host.Outcome State Fault Refusal := .next (settle s (execute (isCode 0x02) laneSetBody s))

/-! ## LANE-ENABLE (R23, R24) -/

/-- The lane parameter of the commands that name one (12.4). -/
def laneArg (ws : List Word) : Nat := numAt ws 2

/-- The ring region of lane `l`'s record is a RING region of that lane (R23, order 4). -/
def State.ringValid (s : State) (l : Nat) : Bool :=
  decide ((s.region (s.lane l).record.region).role = .ring ∧ (s.region (s.lane l).record.region).lane = l)

/-- LANE-ENABLE's tests in their order (R23). -/
def laneEnableAnswer (l : Nat) (s : State) : AnswerCode :=
  if 15 < l then .range
  else if (s.lane l).enabled then .busy
  else if !(s.lane l).record.isSet then .notReady
  else if !s.ringValid l then .notReady
  else .done

/-- The lane's state at LANE-ENABLE (R24, R75, R155). -/
def Lane.enable (x : Lane) (lt : Rt) : Lane :=
  { x with
    enabled := true, writeIndex := 0, readIndex := 0, clockC := 0, clockL := lt, anchored := false
    roles := Vector.replicate 4 RoleState.reset, recent := []
    strays := 0, writeSkips := 0, readSkips := 0, malformed := 0, ptsLess := 0, cueErrors := 0
    monitor := Monitor.fresh .blank }

/-- The INSERT an alert in effect posts to a lane that is enabled in its mask (R141). -/
def AlertCtl.enableRequest (a : AlertCtl) (x : Lane) : Option AlertReq :=
  if x.inZones a.zonesInEffect then some (.insert a.profile) else none

/-- LANE-ENABLE (R23, R24, R141). -/
def laneEnableBody (ws : List Word) (s : State) : Reply :=
  match laneEnableAnswer (laneArg ws) s with
  | .done => carryOut [] (s.onLane (laneArg ws) fun x => (x.enable s.lt).post (s.alert.enableRequest x))
  | c => refuse c s

/-- The meaning of LANE_ENABLE. -/
def execLaneEnable (s : State) : Host.Outcome State Fault Refusal := .next (settle s (execute (isCode 0x03) laneEnableBody s))

/-! ## LANE-DISABLE (R26, R27) -/

/-- A slot read of lane `l` whose procedure has not completed is abandoned (R27). -/
def FwdEntry.abandon (l : Nat) (f : FwdEntry) : FwdEntry :=
  match f.cls with
  | .slotRead m _ => if m = l ∧ f.state ≠ .ready then { f with abandoned := true } else f
  | .plain | .straddle | .stray _ | .logIntrusion | .slotWrite _ _ | .command _ | .offered => f

/-- Every slot read of lane `l` not yet complete is abandoned (R27). -/
def abandonReads (l : Nat) (s : State) : State :=
  { s with router := { s.router with forward := s.router.forward.map (FwdEntry.abandon l) } }

/-- A slot read that waits ends its wait with its slot as memory gave it (R27, R112). -/
def releaseWait (s : State) : State :=
  match s.oldestArrived with
  | some f => completeRead f.raw s
  | none => { s with wait := none }

/-- The pending alert and slate requests of a lane are discarded (R26, R112). -/
def Lane.dropRequests (x : Lane) : Lane := { x with alertReq := none, slateInsert := none, slateRemove := none }

/-- LANE-DISABLE of an enabled lane (R26, R27). -/
def disableLane (l : Nat) (s : State) : State :=
  let s := leaveAll .abandoned (s.clock l) (s.lane l).stack s
  let s := s.onLane l fun x => { x.dropRequests.monitorTo .disabled with enabled := false, stack := [] }
  let s := overtake l (abandonReads l s)
  if s.waitsOn l then releaseWait s else s

/-- LANE-DISABLE (R26). -/
def laneDisableBody (ws : List Word) (s : State) : Reply :=
  if 15 < laneArg ws then refuse .range s
  else carryOut [] (if (s.lane (laneArg ws)).enabled then disableLane (laneArg ws) s else s)

/-- The meaning of LANE_DISABLE. -/
def execLaneDisable (s : State) : Host.Outcome State Fault Refusal := .next (settle s (execute (isCode 0x04) laneDisableBody s))

/-! ## LANE-STATUS (R176) -/

/-- A clip index, or 0xFF for none (12.4, log 18). -/
def clipIndexCode (e : Option Entry) : Nat := ((e.bind Entry.current).map Prod.fst).getD 0xFF

/-- The kind code at place `i` of a stack from the top down; 0 past its entries (12.4). -/
def stackCode (st : List Entry) (i : Nat) : Nat := ((st[i]?).map fun e => e.kind.code).getD 0

/-- The clock LANE-STATUS reports: the current value on an enabled lane, C on a disabled one (R176). -/
def State.reportedClock (s : State) (l : Nat) : Pt := if (s.lane l).enabled then s.clock l else (s.lane l).clockC

/-- The occupancy LANE-STATUS reports, 0 for a disabled lane (R30, R176). -/
def State.reportedOccupancy (s : State) (l : Nat) : Nat :=
  if (s.lane l).enabled then (s.lane l).occupancy (s.ringSlots l) else 0

/-- Word 2 of LANE-STATUS (12.4). -/
def laneFlags (x : Lane) : Word :=
  word (flag x.enabled 0 + flag x.record.isSet 1 + flag x.anchored 2 + flag (x.top.any Entry.returning) 3
    + put x.look.code 2 8 + put x.monitor.state.code 3 16 + flag x.monitor.rateAlarm 24 + present x.slateInsert 25
    + present x.slateRemove 26)

/-- Two counters in the halves of a word (12.4). -/
def halves (a b : Nat) : Word := word (put a 16 0 + put b 16 16)

/-- The result words of LANE-STATUS (R176, 12.4). -/
def laneStatusWords (l : Nat) (s : State) : List Word :=
  let x := s.lane l
  let c := s.reportedClock l
  [laneFlags x, halves x.writeIndex x.readIndex, halves (s.reportedOccupancy l) x.monitor.anchorAge, ptLow c,
    word (ptHigh c + put (stackCode x.stack 0) 4 8 + put (stackCode x.stack 1) 4 12 + put (stackCode x.stack 2) 4 16
      + put (stackCode x.stack 3) 4 20 + put (clipIndexCode x.top) 8 24),
    word ((x.top.map Entry.maxLag).getD 0), halves x.strays x.writeSkips, halves x.readSkips x.malformed,
    halves x.ptsLess x.cueErrors, halves x.monitor.cont[0].errors x.monitor.cont[1].errors,
    halves x.monitor.cont[2].errors x.monitor.cont[3].errors, word x.monitor.rateLast,
    halves ((x.slateInsert.map SlateReq.countdown).getD 0) ((x.slateRemove.map SlateReq.countdown).getD 0)]

/-- LANE-STATUS (R176). -/
def laneStatusBody (ws : List Word) (s : State) : Reply :=
  if 15 < laneArg ws then refuse .range s else carryOut (laneStatusWords (laneArg ws) s) s

/-- The meaning of LANE_STATUS. -/
def execLaneStatus (s : State) : Host.Outcome State Fault Refusal := .next (settle s (execute (isCode 0x05) laneStatusBody s))

/-! ## CLIP-SET and CLIP-CLEAR (R53, R54) -/

/-- CLIP-SET's tests in their order (R53). -/
def clipSetAnswer (a : ClipArgs) (s : State) : AnswerCode :=
  if !a.inRange then .range
  else if !s.insideOne .library a.addr.toNat a.entry.extentEnd then .notReady
  else if s.clipInUse a.id then .inUse
  else .done

/-- CLIP-SET (R53); a clip newly defined may be the next one of a lane's top entry (R59). -/
def clipSetBody (ws : List Word) (s : State) : Reply :=
  let a := clipArgs ws
  match clipSetAnswer a s with
  | .done => carryOut [] (prefetchTests laneNumbers (s.setClip a.id a.entry))
  | c => refuse c s

/-- The meaning of CLIP_SET. -/
def execClipSet (s : State) : Host.Outcome State Fault Refusal := .next (settle s (execute (isCode 0x10) clipSetBody s))

/-- CLIP-CLEAR's tests in their order (R54). -/
def clipClearAnswer (id : Nat) (s : State) : AnswerCode :=
  if 255 < id then .range
  else if !(s.clip id).defined then .noEntry
  else if s.clipInUse id then .inUse
  else .done

/-- CLIP-CLEAR (R54). -/
def clipClearBody (ws : List Word) (s : State) : Reply :=
  match clipClearAnswer (numAt ws 2) s with
  | .done => carryOut [] (s.setClip (numAt ws 2) Clip.undefined)
  | c => refuse c s

/-- The meaning of CLIP_CLEAR. -/
def execClipClear (s : State) : Host.Outcome State Fault Refusal := .next (settle s (execute (isCode 0x11) clipClearBody s))

/-! ## PLACE, WITHDRAW and PLACEMENT-STATUS (R70 to R73) -/

/-- PLACE's tests in their order (R70). -/
def placeAnswer (a : PlaceArgs) (s : State) : AnswerCode :=
  if !a.inRange then .range
  else if (s.placement a.id).state ≠ .vacant then .busy
  else .done

/-- PLACE (R70, R71): the entry takes the content and leaves EMPTY by its trigger, with a TIME placement's late test made at
once. -/
def placeBody (ws : List Word) (s : State) : Reply :=
  let a := placeArgs ws
  match placeAnswer a s with
  | .done => carryOut [] (lateTest a.id (s.setPlacement a.id a.entry))
  | c => refuse c s

/-- The meaning of PLACE. -/
def execPlace (s : State) : Host.Outcome State Fault Refusal := .next (settle s (execute (isCode 0x20) placeBody s))

/-- WITHDRAW of a placement on the stack (R72, R88). -/
def withdrawOnStack (id : Nat) (s : State) : State :=
  if (s.placement id).withdrawn then s
  else (writeEnd id (s.clock (s.placement id).lane) s).onPlacement id fun p => { p with withdrawn := true }

/-- WITHDRAW (R72). -/
def withdrawBody (ws : List Word) (s : State) : Reply :=
  let id := numAt ws 2
  if 127 < id then refuse .range s
  else
    match (s.placement id).state with
    | .vacant => refuse .noEntry s
    | .armed | .pending => carryOut [] (endPlacement id .withdrawn none 0 s)
    | .onAir | .covered => carryOut [] (withdrawOnStack id s)

/-- The meaning of WITHDRAW. -/
def execWithdraw (s : State) : Host.Outcome State Fault Refusal := .next (settle s (execute (isCode 0x21) withdrawBody s))

/-- The packets aired so far in a stack entry (R73). -/
def Entry.airedTotal (e : Entry) : Nat := (e.tally.map TallyItem.aired).sum

/-- Two clip ids of a list in the halves of a word; 0 past the list (12.4). -/
def clipPair (clips : List Nat) (i : Nat) : Word := halves (clips.getD i 0) (clips.getD (i + 1) 0)

/-- The result words of PLACEMENT-STATUS (R73, 12.4). -/
def placementStatusWords (id : Nat) (s : State) : List Word :=
  let p := s.placement id
  let e := s.entryOfPlacement id
  let t := p.t.getD 0
  let endTime := (e.bind Entry.endTime).getD 0
  [word (put p.state.code 3 0 + present p.t 8 + flag p.lateCheck 9 + flag p.blocked 10 + flag p.withdrawn 11
      + flag p.earlyReturn 12 + put (clipIndexCode e) 8 16),
    word (put p.lane 8 0 + put p.kind.code 8 8 + put p.trigger.code 8 16 + put p.rule.code 8 24), p.avail,
    ptLow p.scheduled, word (ptHigh p.scheduled + flag p.takeCueDuration 8 + put p.clips.length 8 16), word p.duration,
    clipPair p.clips 0, clipPair p.clips 2, clipPair p.clips 4, ptLow t,
    word (ptHigh t + put (ptHigh p.entryTime) 1 1 + put (ptHigh endTime) 1 2 + put p.preRoll 16 16), ptLow p.entryTime,
    ptLow endTime, word ((e.map Entry.airedTotal).getD 0)]

/-- PLACEMENT-STATUS (R73). -/
def placementStatusBody (ws : List Word) (s : State) : Reply :=
  if 127 < numAt ws 2 then refuse .range s else carryOut (placementStatusWords (numAt ws 2) s) s

/-- The meaning of PLACEMENT_STATUS. -/
def execPlacementStatus (s : State) : Host.Outcome State Fault Refusal :=
  .next (settle s (execute (isCode 0x22) placementStatusBody s))

/-! ## CUE (R76) -/

/-- Intake case codes (12.4). -/
def IntakeCase.code : IntakeCase → Nat
  | .started => 1 | .moved => 2 | .repeated => 3 | .ended => 4 | .earlySet => 5 | .unplaced => 6

/-- What a cue may change about a placement: state, T, D, E and marks (R76). -/
def State.cueItems (s : State) (id : Nat) : PState × Option Pt × Nat × Option Pt × Bool × Bool :=
  let p := s.placement id
  (p.state, p.t, p.duration, (s.entryOfPlacement id).bind Entry.endTime, p.withdrawn, p.earlyReturn)

/-- The placements a cue changed between two states (R76). -/
def changedBy (before after : State) (id : Nat) : Bool := decide (before.cueItems id ≠ after.cueItems id)

/-- Word `n` of the placement mask: id i at bit i mod 32 of word i div 32 (12.4). -/
def placementMaskWord (p : Nat → Bool) (n : Nat) : Word :=
  word (((List.range 32).map fun i => flag (p (32 * n + i)) i).sum)

/-- CUE's tests in their order (R76). -/
def cueAnswer (a : CueArgs) (s : State) : AnswerCode :=
  if !a.inRange then .range
  else if !(s.lane a.lane).enabled then .notReady
  else .done

/-- CUE (R76): the cue goes to intake as an injected one. -/
def cueBody (ws : List Word) (s : State) : Reply :=
  let a := cueArgs ws
  match cueAnswer a s with
  | .done =>
    let r := intake a.lane a.cue true s
    let changed := changedBy s r.1
    carryOut [word r.2.code, placementMaskWord changed 0, placementMaskWord changed 1, placementMaskWord changed 2,
      placementMaskWord changed 3] r.1
  | c => refuse c s

/-- The meaning of CUE. -/
def execCue (s : State) : Host.Outcome State Fault Refusal := .next (settle s (execute (isCode 0x23) cueBody s))

/-! ## The alert commands (R135, R138, R143, R148, R151) -/

/-- ALERT-PROFILE's tests in their order (R135). -/
def profileAnswer (a : ProfileArgs) (s : State) : AnswerCode :=
  if !a.inRange then .range
  else if s.alert.lock then .locked
  else if s.alert.state ≠ .idle ∧ a.profile = s.alert.profile then .busy
  else .done

/-- The profile takes its new content (R135). -/
def setProfile (a : ProfileArgs) (s : State) : State :=
  { s with alert := { s.alert with profiles := s.alert.profiles.setIfInBounds a.profile a.entry } }

/-- Defining profile 0 from IDLE with line-pending set and BYPASS not asserted starts the line alert (R135). -/
def State.profileStartsLine (s : State) (p : Nat) : Bool :=
  decide (p = 0 ∧ s.alert.state = .idle) && s.alert.linePending && !s.bypass

/-- ALERT-PROFILE (R135). -/
def alertProfileBody (ws : List Word) (s : State) : Reply :=
  let a := profileArgs ws
  match profileAnswer a s with
  | .done =>
    if s.profileStartsLine a.profile then carryOut [1] (beginLine (setProfile a s)) else carryOut [0] (setProfile a s)
  | c => refuse c s

/-- The meaning of ALERT_PROFILE. -/
def execAlertProfile (s : State) : Host.Outcome State Fault Refusal :=
  .next (settle s (execute (isCode 0x30) alertProfileBody s))

/-- ALERT-START's tests in their order (R138). -/
def alertStartAnswer (p : Nat) (s : State) : AnswerCode :=
  if 3 < p then .range
  else if s.bypass then .bypass
  else if !(s.alert.profileAt p).defined then .notReady
  else if s.alert.state ≠ .idle ∧ (s.alert.profileAt p).severity < s.alert.severity then .lower
  else .done

/-- ALERT-START (R138, R139). -/
def alertStartBody (ws : List Word) (s : State) : Reply :=
  let p := numAt ws 2
  match alertStartAnswer p s with
  | .done =>
    let after := beginAlert .activeCmd p .command s
    carryOut [after.alert.statusWord, word (s.postedMask (s.alert.requests p)).toNat] after
  | c => refuse c s

/-- The meaning of ALERT_START. -/
def execAlertStart (s : State) : Host.Outcome State Fault Refusal := .next (settle s (execute (isCode 0x31) alertStartBody s))

/-- A renewal in ACTIVE_CMD is early (R148). -/
def State.renewalEarly (s : State) : Bool :=
  decide (rtSince s.lt s.alert.periodStart < (s.alert.profileAt s.alert.profile).lockedWindow)

/-- A renewal judged in ACTIVE_CMD: the period restarts, and the count changes (R148, R150). -/
def judgeRenewal (s : State) : State :=
  if s.renewalEarly then renewalFailure (restartPeriod s.lt s) else renewalSuccess (restartPeriod s.lt s)

/-- The result words of a renewal judged in ACTIVE_CMD (R148, 12.4). -/
def renewalWords (s : State) : List Word :=
  let e := word (rtSince s.lt s.alert.periodStart)
  if s.renewalEarly then
    [word (1 + put ((s.alert.fires.map Reaction.firedCode).getD 0) 8 8), e, word (loopFail s.alert.loopCount)]
  else [2, e, word (s.alert.loopCount - 1)]

/-- ALERT-RENEW (R148). A latched alert has no period, so its e is reported as 0 (log 19). -/
def alertRenewBody (_ : List Word) (s : State) : Reply :=
  match s.alert.state with
  | .activeCmd => carryOut (renewalWords s) (judgeRenewal s)
  | .activeLatched => carryOut [3, 0, word s.alert.loopCount] s
  | .activeLine => refuse .lineHeld s
  | .idle => refuse .noAlert s

/-- The meaning of ALERT_RENEW. -/
def execAlertRenew (s : State) : Host.Outcome State Fault Refusal := .next (settle s (execute (isCode 0x32) alertRenewBody s))

/-- ALERT-END (R143). -/
def alertEndBody (_ : List Word) (s : State) : Reply :=
  match s.alert.state with
  | .activeCmd | .activeLatched =>
    carryOut [word (s.removalMask.toNat + flag (s.lineFollows .command) 16)] (endAlert .command s)
  | .activeLine => refuse .lineHeld s
  | .idle => refuse .noAlert s

/-- The meaning of ALERT_END. -/
def execAlertEnd (s : State) : Host.Outcome State Fault Refusal := .next (settle s (execute (isCode 0x33) alertEndBody s))

/-- ALERT-LOCK (R151). -/
def alertLockBody (_ : List Word) (s : State) : Reply := carryOut [] { s with alert := { s.alert with lock := true } }

/-- The meaning of ALERT_LOCK. -/
def execAlertLock (s : State) : Host.Outcome State Fault Refusal := .next (settle s (execute (isCode 0x34) alertLockBody s))

/-! ## AUDIT-MARK and LOG-ACK (R186, R189) -/

/-- AUDIT-MARK (R189). -/
def auditMarkBody (ws : List Word) (s : State) : Reply :=
  if 15 < laneArg ws then refuse .range s
  else
    match edgeOf (numAt ws 3) with
    | none => refuse .range s
    | some (m, reduced) =>
      carryOut [word (m.code + flag reduced 8 + flag (decide ((s.lane (laneArg ws)).audit ≠ .none)) 9)]
        (s.onLane (laneArg ws) fun x => { x with audit := m })

/-- The meaning of AUDIT_MARK. -/
def execAuditMark (s : State) : Host.Outcome State Fault Refusal := .next (settle s (execute (isCode 0x40) auditMarkBody s))

/-- The lines from `b` on to `a` along a ring of `c` lines. -/
def lineDistance (c a b : Nat) : Nat := (a + c - b) % c

/-- LOG-ACK's tests in their order (R186). -/
def logAckAnswer (t : Nat) (s : State) : AnswerCode :=
  match s.logRing with
  | none => .notReady
  | some (_, c) => if c ≤ t ∨ lineDistance c s.log.head s.log.tail < lineDistance c t s.log.tail then .range else .done

/-- LOG-ACK (R186): the tail moves, and the write test of R184 is made. -/
def logAckBody (ws : List Word) (s : State) : Reply :=
  let t := numAt ws 2
  match logAckAnswer t s with
  | .done => carryOut [word t, word s.log.head] (presentLog { s with log := { s.log with tail := t } })
  | c => refuse c s

/-- The meaning of LOG_ACK. -/
def execLogAck (s : State) : Host.Outcome State Fault Refusal := .next (settle s (execute (isCode 0x41) logAckBody s))

/-! ## UNCLAIM and unknown codes (R174, R177) -/

/-- UNCLAIM (R177, R178): answered DONE, it halts execution until its effect. -/
def unclaimBody (_ : List Word) (s : State) : Reply :=
  if s.alert.lock then refuse .locked s
  else if s.alert.state ≠ .idle then refuse .busy s
  else carryOut [] { s with cmd := { s.cmd with unclaiming := true } }

/-- The meaning of UNCLAIM. -/
def execUnclaim (s : State) : Host.Outcome State Fault Refusal := .next (settle s (execute (isCode 0x7F) unclaimBody s))

/-- A code that names no command is answered UNKNOWN (R174). -/
def unknownBody (_ : List Word) (s : State) : Reply := refuse .unknown s

/-- A code that names no command (R174, 12.4). -/
def isUnknown (code : Nat) : Bool := decide (code ∉ commandCodes)

/-- The meaning of UNKNOWN_COMMAND. -/
def execUnknownCommand (s : State) : Host.Outcome State Fault Refusal := .next (settle s (execute isUnknown unknownBody s))

end Sys2Proof.Machine
end

