-- ==== Sys2Proof/Machine/Router.lean ====
section
/-! DEFINITION. The Transaction Router (chapter 1): the claim, classification and acceptance at the Q port, taking commands
(R169 to R173), the M-port arbiter and its grants, the arrival of data, and the return of reads. -/

namespace Sys2Proof

/-! ## Requests -/

/-- The address of a request (R1). -/
def QRequest.addr : QRequest → Word
  | .read a _ => a
  | .write a _ _ => a

/-- The line count of a request (chapter 1.1). -/
def QRequest.lines : QRequest → Nat
  | .read _ n => n
  | .write _ d _ => d.length / Config.lineBytes

/-- The request with the six low bits of its address taken as zero (R1). -/
def QRequest.aligned : QRequest → QRequest
  | .read a n => .read (a &&& 0xFFFFFFC0) n
  | .write a d e => .write (a &&& 0xFFFFFFC0) d e

/-- A WRITE. -/
def QRequest.isWrite : QRequest → Bool
  | .read _ _ => false
  | .write _ _ _ => true

/-- A WRITE's data; none for a READ. -/
def QRequest.data : QRequest → List Byte
  | .read _ _ => []
  | .write _ d _ => d

/-- A WRITE of a given line count with every byte enable set. -/
def QRequest.fullWrite (r : QRequest) (n : Nat) : Bool :=
  match r with
  | .read _ _ => false
  | .write _ d e => decide (d.length = Config.lineBytes * n) && e.all id

/-- A READ of a given line count. -/
def QRequest.readOf (r : QRequest) (n : Nat) : Bool :=
  match r with
  | .read _ m => decide (m = n)
  | .write _ _ _ => false

/-- The addresses of a request's lines (R1). -/
def QRequest.lineAddrs (r : QRequest) : List Nat := (List.range r.lines).map fun i => Machine.addrPlus r.addr (Config.lineBytes * i)

/-! ## The claim (R5 to R7) -/

/-- The 16 words of a claim line (R5). -/
def claimWords : List Word :=
  [Config.identity, Config.identityComplement, Config.formatRevision, 0, 0, 0, 0, 0, 0, 0, 0, 0, 0, 0, 0, 0]

/-- A claim line (R5). -/
def QRequest.isClaim (r : QRequest) : Bool :=
  r.fullWrite 1 && decide (r.addr.toNat % 65536 = 0) && decide (Machine.lineWords r.data = claimWords)

end Sys2Proof

namespace Sys2Proof.Machine

open Sys2Proof

/-! ## Areas (R11) -/

/-- The area a line lies in (R11). -/
inductive Area where
  | control
  | region (i : Nat)
  | unmapped
  deriving DecidableEq, Repr

/-- An address lies in the control region (R6). -/
def State.inControl (s : State) (a : Nat) : Bool :=
  match s.router.controlBase with
  | some b => decide (b.toNat ≤ a ∧ a < b.toNat + 65536)
  | none => false

/-- The area of an address (R11). -/
def State.areaOf (s : State) (a : Nat) : Area :=
  if s.inControl a then .control
  else
    match regionIndices.find? fun i => (s.region i).holds a with
    | some i => .region i
    | none => .unmapped

/-- The one area of all a request's lines; absent for a straddle (R11). -/
def State.areaOfAll (s : State) (r : QRequest) : Option Area :=
  let a := s.areaOf (addrPlus r.addr 0)
  if r.lineAddrs.all fun x => decide (s.areaOf x = a) then some a else none

/-! ## Taking commands (R169 to R173) -/

/-- The supersede counter gains one (R172, R173). -/
def countSupersede (s : State) : State := { s with cmd := { s.cmd with supersedes := satInc s.cmd.supersedes } }

/-- A command line has a queued command (R172). -/
def State.queued (s : State) (n : Nat) : Bool := s.cmd.queue.any fun c => decide (c.line = n)

/-- A command line has an answer pending that a rewrite drops: any but the DONE answer of UNCLAIM (R173). A LOCKED or BUSY answer
of UNCLAIM is dropped like any other (DESIGN CHOICE, log 38; R173 names no code). -/
def State.droppable (s : State) (n : Nat) : Bool := s.cmd.answers.any fun a => decide (a.line = n) && !a.isUnclaim

/-- The answer of a line is dropped and withdrawn from the arbiter, and the supersede counter gains one (R173). -/
def dropAnswer (n : Nat) (s : State) : State :=
  countSupersede (withdrawWaiting (.answer n)
    { s with cmd := { s.cmd with answers := s.cmd.answers.filter fun a => decide (a.line ≠ n) } })

/-- A queued entry takes newly captured words in place (R172). -/
def Captured.supersede (n : Nat) (words : List Word) (take : Nat) (c : Captured) : Captured :=
  if c.line = n then { c with words := words, take := take } else c

/-- A capture joins the command queue: in the place of a queued entry of its line, else at the tail (R171, R172). -/
def joinQueue (n : Nat) (words : List Word) (s : State) : State :=
  let queue :=
    if s.queued n then s.cmd.queue.map (Captured.supersede n words s.cmd.takes)
    else s.cmd.queue ++ [{ line := n, words := words, take := s.cmd.takes }]
  { s with cmd := { s.cmd with queue := queue, takes := s.cmd.takes + 1 } }

/-- A command is taken from line `n` (R169, R172, R173). -/
def takeCommand (n : Nat) (words : List Word) (s : State) : State :=
  if s.queued n then countSupersede (joinQueue n words s)
  else if s.droppable n then joinQueue n words (dropAnswer n s)
  else joinQueue n words s

/-- Line `n` is cancelled (R169, R172, R173). -/
def cancelCommand (n : Nat) (s : State) : State :=
  if s.queued n then
    countSupersede { s with cmd := { s.cmd with queue := s.cmd.queue.filter fun c => decide (c.line ≠ n) } }
  else if s.droppable n then dropAnswer n s
  else s

/-- The partial-command counter gains one (R170). -/
def countPartial (s : State) : State := { s with cmd := { s.cmd with partials := satInc s.cmd.partials } }

/-- The line of the control region at which a request starts (R6). -/
def State.controlLine (s : State) (r : QRequest) : Nat :=
  (r.addr.toNat - (s.router.controlBase.getD 0).toNat) / Config.lineBytes

/-- A WRITE offered to the Command Unit: taken, a cancel, or a partial command, with the class it is given (R169, R170). -/
def offerWrite (n : Nat) (r : QRequest) (s : State) : State × FwdClass :=
  if r.fullWrite 1 then
    let words := lineWords r.data
    if wordAt words 0 = 0 then (cancelCommand n s, .offered)
    else (takeCommand n words s, .command s.cmd.takes)
  else (countPartial s, .offered)

/-- A transaction wholly in the control region (R12). -/
def acceptControl (r : QRequest) (s : State) : State × FwdClass :=
  if r.isWrite ∧ s.controlLine r ≤ 15 then offerWrite (s.controlLine r) r s else (s, .plain)

/-! ## Rings and the other areas (R13, R14) -/

/-- A ring is live: its lane is enabled and names this entry (R13). -/
def State.ringLive (s : State) (i : Nat) : Bool :=
  (s.lane (s.region i).lane).enabled && decide ((s.lane (s.region i).lane).record.region = i)

/-- The transaction's offset into a region. -/
def State.regionOffset (s : State) (i : Nat) (r : QRequest) : Nat := r.addr.toNat - (s.region i).base.toNat

/-- A transaction wholly in a RING region (R13). -/
def acceptRing (i : Nat) (r : QRequest) (s : State) : State × FwdClass :=
  let l := (s.region i).lane
  let off := s.regionOffset i r
  if !s.ringLive i then (s, .plain)
  else if off % Config.slotBytes = 0 ∧ r.fullWrite 3 then
    (ingress l (off / Config.slotBytes) r.data s, .slotWrite l (off / Config.slotBytes))
  else if off % Config.slotBytes = 0 ∧ r.readOf 3 then (s, .slotRead l (off / Config.slotBytes))
  else (s.onLane l fun x => { x with strays := satInc x.strays }, .stray l)

/-- A transaction wholly in a LOG region: a WRITE counts one log intrusion (R14). -/
def acceptLog (r : QRequest) (s : State) : State × FwdClass :=
  if r.isWrite then
    ({ s with router := { s.router with logIntrusions := satInc s.router.logIntrusions } }, .logIntrusion)
  else (s, .plain)

/-- A transaction wholly in the range of one region entry (R13, R14). -/
def acceptRegion (i : Nat) (r : QRequest) (s : State) : State × FwdClass :=
  match (s.region i).role with
  | .ring => acceptRing i r s
  | .log => acceptLog r s
  | .library | .none => (s, .plain)

/-- A straddle is counted (R11). -/
def acceptStraddle (s : State) : State × FwdClass :=
  ({ s with router := { s.router with straddles := satInc s.router.straddles } }, .straddle)

/-- The class of a transaction accepted while CLAIMED, and what its acceptance does (R11 to R14). -/
def classify (r : QRequest) (s : State) : State × FwdClass :=
  match s.areaOfAll r with
  | none => acceptStraddle s
  | some .control => acceptControl r s
  | some (.region i) => acceptRegion i r s
  | some .unmapped => (s, .plain)

/-! ## Acceptance (R1) -/

/-- The request becomes a new entry at the tail of the forward queue (R1). -/
def enqueue (r : QRequest) (c : FwdClass) (s : State) : State :=
  let f : FwdEntry := { req := r, cls := c, state := .queued, abandoned := false, raw := [], out := [] }
  { s with router := { s.router with forward := s.router.forward ++ [f] } }

/-- A stray claim is counted (R7). -/
def countStrayClaim (r : QRequest) (s : State) : State :=
  if r.isClaim then { s with router := { s.router with strayClaims := satInc s.router.strayClaims } } else s

/-- A claim line makes the router CLAIMED with its address as control base (R6). -/
def claim (r : QRequest) (s : State) : State := { s with router := { s.router with controlBase := some r.addr } }

/-- A request is accepted where the forward queue has room; while UNCLAIMED or in reset it is only forwarded, but for a claim
line accepted while UNCLAIMED and out of reset (R1, R5, R6, R19). -/
def acceptRequest (r : QRequest) (s : State) : State :=
  if Config.forwardCapacity ≤ s.router.forward.length then s
  else if s.rst then enqueue r .plain s
  else if s.claimed then
    let a := classify r (countStrayClaim r s)
    enqueue r a.2 a.1
  else enqueue r .plain (if r.isClaim then claim r s else s)

/-- The meaning of Q_PORT_ACCEPT (R1). -/
def execQPortAccept (r : QRequest) (s : State) : Host.Outcome State Fault Refusal :=
  if r.wf then .next (settle s (acceptRequest r.aligned s)) else .refused .requestMalformed

/-! ## The arbiter (R16, R17) -/

/-- What the arbiter grants next (R16). -/
inductive Grant where
  | part
  | fetch (lane : Nat)
  | forward
  | nothing
  deriving DecidableEq, Repr

/-- The lookahead is a fetch on which a waiting slot read depends (R58). -/
def Look.demanded : Look → Bool
  | .empty => false
  | .fetching _ _ _ _ demand => demand
  | .full _ _ _ _ => false

/-- The lane of the demand fetch waiting at the arbiter (R16, R18). -/
def State.demandLane (s : State) : Option Nat := s.router.fetchOrder.find? fun l => (s.lane l).look.demanded

/-- A QUEUED entry (R1). -/
def FwdEntry.isQueued (f : FwdEntry) : Bool := decide (f.state = .queued)

/-- The source the arbiter grants (R16, R17). -/
def State.nextGrant (s : State) : Grant :=
  if Config.waitLimit ≤ s.router.waitCount ∧ s.router.waiting ≠ [] then .part
  else
    match s.demandLane with
    | some l => .fetch l
    | none =>
      if s.router.forward.any FwdEntry.isQueued then .forward
      else
        match s.router.fetchOrder with
        | l :: _ => .fetch l
        | [] => if s.router.waiting ≠ [] then .part else .nothing

/-- A grant to another source made while a part-originated write waits adds one to the wait count (R17). -/
def countWait (s : State) : State :=
  if s.router.waiting ≠ [] then { s with router := { s.router with waitCount := s.router.waitCount + 1 } } else s

/-- The transaction the M port carries at a grant (12.7). -/
def showM (m : MRequest) (s : State) : State := { s with router := { s.router with mPort := some m } }

/-- An M-port read under way, with the data memory gives at its grant (R2). -/
def launch (o : ReadOwner) (data : List Byte) (s : State) : State :=
  { s with router := { s.router with inFlight := s.router.inFlight ++ [{ owner := o, data := data }] } }

/-- The first entry of a list that satisfies a test, removed. -/
def removeFirst {α : Type} (test : α → Bool) : List α → List α
  | [] => []
  | a :: rest => if test a then rest else a :: removeFirst test rest

/-- The forward queue replaced. -/
def State.withForward (s : State) (fs : List FwdEntry) : State := { s with router := { s.router with forward := fs } }

/-- A WRITE reaches memory with its enables and leaves the queue; a READ reads memory and becomes GRANTED (R1, R2). -/
def grantForward (s : State) : State :=
  match s.router.forward.find? FwdEntry.isQueued with
  | none => s
  | some f =>
    match f.req with
    | .write a d e =>
      showM (.write a d e) { s.withForward (removeFirst FwdEntry.isQueued s.router.forward) with mem := s.mem.writeMasked a d e }
    | .read a n =>
      showM (.read a n) (launch .forward (s.mem.readBytes a (Config.lineBytes * n))
        (s.withForward (changeFirst FwdEntry.isQueued (fun f => { f with state := .granted }) s.router.forward)))

/-- A library fetch of one slot is granted (R16, R58, R59). -/
def grantFetch (l : Nat) (s : State) : State :=
  match (s.lane l).look with
  | .fetching key a false stale demand =>
    showM (.read a 3) (launch (.fetch l key.clip false) (s.mem.readBytes a Config.slotBytes)
      (withdrawFetch l (s.onLane l fun x => { x with look := .fetching key a true stale demand })))
  | .fetching _ _ true _ _ | .empty | .full .. => withdrawFetch l s

/-- Line `n` of the control region (R6). -/
def State.controlAddr (s : State) (n : Nat) : Word := s.router.controlBase.getD 0 + BitVec.ofNat 32 (Config.lineBytes * n)

/-- A part-originated write of a line reaches memory (R4). -/
def writeLine (a : Word) (words : List Word) (enables : List Bool) (s : State) : State :=
  showM (.write a (wordsBytes words) enables) { s with mem := s.mem.writeMasked a (wordsBytes words) enables }

/-- Every byte of a line. -/
def fullLine : List Bool := List.replicate 64 true

/-- Bytes 4..63 of a line, those of an answer (R4, R175). -/
def answerBytes : List Bool := List.replicate 4 false ++ List.replicate 60 true

/-- The line of an answer: word 0 is not written (R175). -/
def Answer.words (a : Answer) : List Word := [0, word a.code.code] ++ a.results

/-- The answer of line `n` is granted and leaves the answer-pending set (R175); UNCLAIM's DONE answer brings its effect (R178). -/
def grantAnswer (n : Nat) (s : State) : State :=
  match s.cmd.answers.find? fun a => decide (a.line = n) with
  | none => s
  | some a =>
    let s := writeLine (s.controlAddr n) a.words answerBytes s
    let s := { s with cmd := { s.cmd with answers := s.cmd.answers.filter fun b => decide (b.line ≠ n) } }
    if a.isUnclaim then unclaimEffect s else s

/-- The status line is written with its content taken now and the sequence count one on (R179). -/
def grantStatus (s : State) : State :=
  let seq := (s.cmd.statusSeq + 1) % 2 ^ 32
  writeLine (s.controlAddr 16) (s.statusItems.words seq) fullLine { s with cmd := { s.cmd with statusSeq := seq } }

/-- The log line at the head is written, as a GAP or as the oldest record (R184, R185). -/
def grantLogLine (b : Word) (c : Nat) (w : LogWrite) (s : State) : State :=
  let a := b + BitVec.ofNat 32 (Config.lineBytes * s.log.head)
  let head := (s.log.head + 1) % c
  match w with
  | .gap => writeLine a (gapWords s.lt s.log.lost) fullLine { s with log := { s.log with head := head, lost := 0, presented := none } }
  | .record =>
    match s.log.queue with
    | [] => { s with log := { s.log with presented := none } }
    | r :: rest => writeLine a r.lineOf fullLine { s with log := { s.log with head := head, queue := rest, presented := none } }

/-- The log write is granted, and the Log Writer tests at once whether to present the next (R184). -/
def grantLog (s : State) : State :=
  match s.logRing, s.log.presented with
  | some (b, c), some w => presentLog (grantLogLine b c w s)
  | some _, none | none, _ => s

/-- The oldest waiting part-originated write leaves the arbiter, and the wait count becomes 0 (R16, R17). -/
def takeWaiting (rest : List PartWrite) (s : State) : State :=
  { s with router := { s.router with waiting := rest, waitCount := 0 } }

/-- A part-originated write is granted (R16). -/
def grantPart (s : State) : State :=
  match s.router.waiting with
  | [] => s
  | .answer n :: rest => grantAnswer n (takeWaiting rest s)
  | .log :: rest => grantLog (takeWaiting rest s)
  | .status :: rest => grantStatus (takeWaiting rest s)

/-- One grant of the arbiter (R16, R17). -/
def grantStep (s : State) : State :=
  match s.nextGrant with
  | .part => grantPart s
  | .fetch l => grantFetch l (countWait s)
  | .forward => grantForward (countWait s)
  | .nothing => s

/-- The meaning of M_PORT_GRANT (R16). -/
def execMPortGrant (s : State) : Host.Outcome State Fault Refusal := .next (settle s (grantStep s))

/-! ## Arrivals (section 1.5) -/

/-- The entry's data has arrived: a slot read of a live ring is held for its procedure, any other read is READY with the data
memory gave (R1, R3); an abandoned slot read is READY at once (R27). -/
def FwdEntry.arrive (f : FwdEntry) (data : List Byte) : FwdEntry :=
  match f.cls with
  | .slotRead _ _ =>
    if f.abandoned then { f with state := .ready, raw := data, out := data } else { f with state := .arrived, raw := data }
  | .plain | .straddle | .stray _ | .logIntrusion | .slotWrite _ _ | .command _ | .offered =>
    { f with state := .ready, raw := data, out := data }

/-- A GRANTED entry (R1). -/
def FwdEntry.isGranted (f : FwdEntry) : Bool := decide (f.state = .granted)

/-- The oldest outstanding M-port read leaves the list of those under way. -/
def landed (rest : List InFlight) (s : State) : State := { s with router := { s.router with inFlight := rest } }

/-- The data of the oldest granted forwarded read arrives, where it is the next to arrive (R1, section 1.5). -/
def readArrival (s : State) : State :=
  match s.router.inFlight with
  | ⟨.forward, data⟩ :: rest =>
    (landed rest s).withForward (changeFirst FwdEntry.isGranted (fun f => f.arrive data) s.router.forward)
  | ⟨.fetch _ _ _, _⟩ :: _ | [] => s

/-- The meaning of READ_DATA_ARRIVAL (R1). -/
def execReadDataArrival (s : State) : Host.Outcome State Fault Refusal := .next (settle s (readArrival s))

/-- The lookahead is FULL. -/
def Look.isFull : Look → Bool
  | .full .. => true
  | .empty | .fetching .. => false

/-- A slot read that waits on lane `l` continues once the lane's lookahead is FULL (R18, R60, R97). -/
def continueWait (l : Nat) (s : State) : State :=
  match s.wait with
  | some w => if w.lane = l ∧ (s.lane l).look.isFull then resumeRead w s else s
  | none => s

/-- The data of the oldest granted library fetch arrives, where it is the next to arrive: discarded when a reset orphaned it
(R19), else taken by its lookahead (R60). -/
def fetchArrival (s : State) : State :=
  match s.router.inFlight with
  | ⟨.fetch l _ orphan, data⟩ :: rest =>
    if orphan then landed rest s else continueWait l (fillLook l data (landed rest s))
  | ⟨.forward, _⟩ :: _ | [] => s

/-- The meaning of FETCH_DATA_ARRIVAL (R60). -/
def execFetchDataArrival (s : State) : Host.Outcome State Fault Refusal := .next (settle s (fetchArrival s))

/-! ## Return (R3) -/

/-- A READ entry (R3). -/
def FwdEntry.isRead (f : FwdEntry) : Bool := !f.req.isWrite

/-- The oldest READ entry is returned with all its lines when it is READY, and leaves (R3). -/
def returnRead (s : State) : State :=
  match s.router.forward.find? FwdEntry.isRead with
  | none => s
  | some f =>
    if f.state = .ready then
      { s with router := { s.router with forward := removeFirst FwdEntry.isRead s.router.forward,
                                         qPort := some { addr := f.req.addr, data := f.out } } }
    else s

/-- The meaning of READ_RETURN (R3). -/
def execReadReturn (s : State) : Host.Outcome State Fault Refusal := .next (settle s (returnRead s))

end Sys2Proof.Machine
end

