-- ==== Sys2Proof/Machine/Pins.lean ====
section
/-! DEFINITION. The discrete lines and the timers: RST_N (R19, R193), BYPASS (R112 to R114, R152), the EAL line and its
filter (R145), the hold limit (R144), renewal periods (R149) and the folds of the lane clocks (R35). A timer's step acts
where its time has come, and changes nothing otherwise (log 6). -/

namespace Sys2Proof.Machine

open Sys2Proof

/-! ## RST_N (R19, R145, R193) -/

/-- RST_N is asserted: every block takes its reset values, and Local Time is 0 (R19, R193). -/
def assertReset (s : State) : State := { resetBlocks s with lt := 0, rst := true }

/-- RST_N is released: claim detection is in force, Local Time starts from 0, and a raw EAL level asserted now begins a
change mark (R19, R145, R193). -/
def releaseReset (s : State) : State := beginEal { s with rst := false }

/-- The meaning of RST_N_ASSERT (R19). -/
def execRstNAssert (s : State) : Host.Outcome State Fault Refusal :=
  .next (settle s (if s.rst then s else assertReset s))

/-- The meaning of RST_N_RELEASE (R19). -/
def execRstNRelease (s : State) : Host.Outcome State Fault Refusal :=
  .next (settle s (if s.rst then releaseReset s else s))

/-! ## BYPASS (R112 to R114, R152) -/

/-- A lane whose stack a BYPASS assertion clears: no entries, no pending requests (R112). -/
def Lane.tearDown (x : Lane) : Lane := { x.dropRequests with stack := [] }

/-- The stack of each lane of a list is cleared in turn, top first, with BYPASSED reports; its requests and lookahead are
discarded (R112). -/
def bypassLanes : List Nat → State → State
  | [], s => s
  | l :: rest, s =>
    bypassLanes rest (overtake l ((leaveAll .bypassed (s.clock l) (s.lane l).stack s).onLane l Lane.tearDown))

/-- A slot read already produced and not yet returned is returned as stored (R112). -/
def FwdEntry.asStored (f : FwdEntry) : FwdEntry := if f.state = .ready then { f with out := f.raw } else f

/-- The lanes that hold an alert entry (R152). -/
def State.alertMask (s : State) : BitVec 16 := mask16 fun l => ((s.lane l).entryOf .alert).isSome

/-- The Alert Controller at the assertion of BYPASS: the alert in effect ends with reason BYPASS, and line-pending is
cleared; no REMOVE is posted (R152). -/
def bypassAlert (mask : BitVec 16) (s : State) : State :=
  let idle := setLinePending false { s with alert := s.alert.toIdle }
  if s.alert.state = .idle then setLinePending false s
  else handRecord noLane (.alert .finish s.alert.profile s.alert.severity .bypass mask) idle

/-- The assertion of BYPASS (R112, R152). -/
def assertBypass (s : State) : State :=
  let mask := s.alertMask
  let s := bypassLanes laneNumbers { s with bypass := true }
  let s := if s.wait.isSome then releaseWait s else s
  bypassAlert mask (s.withForward (s.router.forward.map FwdEntry.asStored))

/-- The role state of an enabled lane at the release of BYPASS (R39, R114). -/
def RoleState.released (k : RoleState) : RoleState := { k with delta := 0, realign := false }

/-- The release of BYPASS on one lane: role state, and a slate insert with countdown 0 for an unhealthy feed without a
pending one (R114). -/
def Lane.releaseBypass (x : Lane) : Lane :=
  if x.enabled then
    let y : Lane := { x with roles := vmap RoleState.released x.roles }
    if (x.monitor.state = .lost ∨ x.monitor.state = .recovering) ∧ x.slateInsert = none then y.postInsert 0 else y
  else x

/-- The release of BYPASS (R114, R152). -/
def releaseBypass (s : State) : State :=
  let s := { s with bypass := false, lanes := vmap Lane.releaseBypass s.lanes }
  if s.alert.ealFiltered then lineAsserted s else s

/-- The meaning of BYPASS_ASSERT (R112). -/
def execBypassAssert (s : State) : Host.Outcome State Fault Refusal :=
  .next (settle s (if s.bypass then s else assertBypass s))

/-- The meaning of BYPASS_RELEASE (R114). -/
def execBypassRelease (s : State) : Host.Outcome State Fault Refusal :=
  .next (settle s (if s.bypass then releaseBypass s else s))

/-! ## The EAL line (R145) -/

/-- The raw level of EAL comes to stand at `level`: the change mark begins or is dropped; none is kept in reset (R145). -/
def changeRaw (level : Bool) (s : State) : State :=
  if level = s.eal then s
  else
    let s := { s with eal := level }
    if s.rst then s else beginEal s

/-- The filtered level takes the raw level (R145). -/
def takeFiltered (s : State) : State := { s with alert := { s.alert with ealFiltered := s.eal, ealMark := none } }

/-- The raw level has differed from the filtered level for 270,000 RT (R145). -/
def State.filterDue (s : State) : Bool :=
  match s.alert.ealMark with
  | some m => decide (Config.ealFilterRt ≤ rtSince s.lt m) && decide (s.eal ≠ s.alert.ealFiltered)
  | none => false

/-- The meaning of EAL_RAW_CHANGE (R145). -/
def execEalRawChange (level : Bool) (s : State) : Host.Outcome State Fault Refusal := .next (settle s (changeRaw level s))

/-- The meaning of EAL_FILTER_EXPIRY (R145 to R147, R152). -/
def execEalFilterExpiry (s : State) : Host.Outcome State Fault Refusal :=
  .next (settle s (if s.filterDue then filteredChange (takeFiltered s) else s))

/-! ## The hold limit (R144) -/

/-- An alert is in effect whose held seconds are below its profile's hold limit, and a second has passed since the hold mark
(R144). -/
def State.secondDue (s : State) : Bool :=
  decide (s.alert.state ≠ .idle) && decide (s.alert.heldSeconds < (s.alert.profileAt s.alert.profile).holdLimit) &&
    decide (Config.secondRt ≤ rtSince s.lt s.alert.holdMark)

/-- The hold mark advances by one second, and the held seconds gain one (R144). -/
def holdSecond (s : State) : State :=
  { s with alert := { s.alert with holdMark := rtPlus s.alert.holdMark Config.secondRt, heldSeconds := s.alert.heldSeconds + 1 } }

/-- The held seconds of an alert in effect have reached its hold limit (R144). -/
def State.holdExpired (s : State) : Bool :=
  decide (s.alert.state ≠ .idle) && decide ((s.alert.profileAt s.alert.profile).holdLimit ≤ s.alert.heldSeconds)

/-- The meaning of HOLD_SECOND_ELAPSED (R144). -/
def execHoldSecondElapsed (s : State) : Host.Outcome State Fault Refusal :=
  .next (settle s (if s.secondDue then holdSecond s else s))

/-- The meaning of HOLD_LIMIT_EXPIRY (R144). -/
def execHoldLimitExpiry (s : State) : Host.Outcome State Fault Refusal :=
  .next (settle s (if s.holdExpired then endAlert .expired s else s))

/-! ## Renewal periods (R149) -/

/-- A renewal period has passed in ACTIVE_CMD with no renewal taken in it (R149). -/
def State.periodDue (s : State) : Bool :=
  decide (s.alert.state = .activeCmd) &&
    decide ((s.alert.profileAt s.alert.profile).periodLength ≤ rtSince s.lt s.alert.periodStart)

/-- The expiry of a renewal period: a failure, and the period restarts one period on (R149, R150). -/
def expirePeriod (s : State) : State :=
  renewalFailure (restartPeriod (rtPlus s.alert.periodStart (s.alert.profileAt s.alert.profile).periodLength) s)

/-- The meaning of RENEWAL_PERIOD_EXPIRY (R149). -/
def execRenewalPeriodExpiry (s : State) : Host.Outcome State Fault Refusal :=
  .next (settle s (if s.periodDue then expirePeriod s else s))

/-! ## Lane clock folds (R35) -/

/-- The fold of an enabled lane's clock is due (R35). -/
def Lane.foldDue (x : Lane) (lt : Rt) : Bool := x.enabled && decide (Config.foldRt ≤ rtSince lt x.clockL)

/-- The fold: C and L advance together (R35). -/
def Lane.fold (x : Lane) : Lane :=
  { x with clockC := ptPlus x.clockC Config.foldPt, clockL := rtPlus x.clockL Config.foldRt }

/-- The meaning of LANE_CLOCK_FOLD (R35). -/
def execLaneClockFold (l : Nat) (s : State) : Host.Outcome State Fault Refusal :=
  if l < 16 then .next (settle s (if (s.lane l).foldDue s.lt then s.onLane l Lane.fold else s)) else .refused .noSuchLane

end Sys2Proof.Machine
end

