-- ==== Sys2Proof/Machine/Dispatch.lean ====
section
/-! DEFINITION. One arm per constructor of `Instr`, each one call of its meaning. -/

namespace Sys2Proof.Machine

open Sys2Proof

def exec (i : Instr) (s : State) : Host.Outcome State Fault Refusal :=
  match i with
  | .qPortAccept r => Sys2Proof.Machine.execQPortAccept r s
  | .mPortGrant => Sys2Proof.Machine.execMPortGrant s
  | .readDataArrival => Sys2Proof.Machine.execReadDataArrival s
  | .slotReadProcedure => Sys2Proof.Machine.execSlotReadProcedure s
  | .slateCountdownExpiry lane => Sys2Proof.Machine.execSlateCountdownExpiry lane s
  | .fetchDataArrival => Sys2Proof.Machine.execFetchDataArrival s
  | .readReturn => Sys2Proof.Machine.execReadReturn s
  | .regionSet => Sys2Proof.Machine.execRegionSet s
  | .laneSet => Sys2Proof.Machine.execLaneSet s
  | .laneEnable => Sys2Proof.Machine.execLaneEnable s
  | .laneDisable => Sys2Proof.Machine.execLaneDisable s
  | .laneStatus => Sys2Proof.Machine.execLaneStatus s
  | .clipSet => Sys2Proof.Machine.execClipSet s
  | .clipClear => Sys2Proof.Machine.execClipClear s
  | .place => Sys2Proof.Machine.execPlace s
  | .withdraw => Sys2Proof.Machine.execWithdraw s
  | .placementStatus => Sys2Proof.Machine.execPlacementStatus s
  | .cue => Sys2Proof.Machine.execCue s
  | .alertProfile => Sys2Proof.Machine.execAlertProfile s
  | .alertStart => Sys2Proof.Machine.execAlertStart s
  | .alertRenew => Sys2Proof.Machine.execAlertRenew s
  | .alertEnd => Sys2Proof.Machine.execAlertEnd s
  | .alertLock => Sys2Proof.Machine.execAlertLock s
  | .auditMark => Sys2Proof.Machine.execAuditMark s
  | .logAck => Sys2Proof.Machine.execLogAck s
  | .unclaim => Sys2Proof.Machine.execUnclaim s
  | .unknownCommand => Sys2Proof.Machine.execUnknownCommand s
  | .rstNAssert => Sys2Proof.Machine.execRstNAssert s
  | .rstNRelease => Sys2Proof.Machine.execRstNRelease s
  | .bypassAssert => Sys2Proof.Machine.execBypassAssert s
  | .bypassRelease => Sys2Proof.Machine.execBypassRelease s
  | .ealRawChange level => Sys2Proof.Machine.execEalRawChange level s
  | .ealFilterExpiry => Sys2Proof.Machine.execEalFilterExpiry s
  | .holdSecondElapsed => Sys2Proof.Machine.execHoldSecondElapsed s
  | .holdLimitExpiry => Sys2Proof.Machine.execHoldLimitExpiry s
  | .renewalPeriodExpiry => Sys2Proof.Machine.execRenewalPeriodExpiry s
  | .laneClockFold lane => Sys2Proof.Machine.execLaneClockFold lane s

end Sys2Proof.Machine
end

