-- ==== Sys2Proof/Machine/Ticks.lean ====
section
/-! DEFINITION. What passes with no step waiting: one REFCLK period, or none while REFCLK is stopped (R193), and what a table word does to the queue of steps. -/

namespace Sys2Proof.Machine

open Sys2Proof

/-- What passes with no step waiting: one REFCLK period, in which Local Time gains one; while RST_N is asserted it stays 0, and
while REFCLK is stopped no period passes and it holds its value (R193). -/
def tick (s : State) : State := if s.rst || !s.refclk then s else { s with lt := s.lt + 1 }

/-- The step a table word spells, put at the front of the queue. -/
def pushWord (nbits w : Nat) (s : State) : State :=
  match decodeTableWord nbits w with
  | some i => { s with pending := i :: s.pending }
  | none => s

end Sys2Proof.Machine
end

