-- ==== Sys2Proof/Machine/Step.lean ====
section
/-! DEFINITION. One step of the block: the step at the front of the queue is taken; with none waiting one REFCLK period
passes, unless REFCLK is stopped (R193, log 2). -/

namespace Sys2Proof.Machine

open Sys2Proof

/-- One step: the front of the queue is executed on the state with the queue's rest; an empty queue is one REFCLK period in
which nothing is commanded, or none while REFCLK is stopped (DESIGN CHOICE, log 2). -/
def step (s : State) : Host.Outcome State Fault Refusal :=
  match s.pending with
  | [] => .next (tick s)
  | c :: rest => exec c { s with pending := rest }

/-- The state with the step that a table word spells at the front of its queue; no word spells one (log 7). -/
def State.withFetchWord (s : State) (nbits w : Nat) : State := pushWord nbits w s

end Sys2Proof.Machine
end

