-- ==== Sys2Proof/Safety.lean ====
section
/-! DEFINITION. The terms the statements use: the laws the spec gives the whole part, as properties of a state that every step
keeps, and what a step may leave out of account. -/

namespace Sys2Proof.Machine

open Sys2Proof

/-! ## Laws of a state -/

/-- A stack, top first, whose ranks strictly fall from the top down (R93). -/
def stackOrdered (st : List Entry) : Prop := st.Pairwise fun hi lo => lo.kind.rank < hi.kind.rank

/-- The law of the stack on every lane (R93). -/
def State.StacksOk (s : State) : Prop := ∀ l : Nat, stackOrdered (s.lane l).stack

/-- Memory has its canonical form. -/
abbrev State.MemoryOk (s : State) : Prop := Memory.wf s.mem = true

/-- The bounded queues and counts of the part: the forward queue (R1), the wait count (R17), the record queue (R183). -/
def State.SizesOk (s : State) : Prop :=
  s.router.forward.length ≤ Config.forwardCapacity ∧ s.router.waitCount ≤ Config.waitLimit ∧
    s.log.queue.length ≤ Config.recordCapacity

/-- The law of the command queue: at most one entry for each of the 16 command lines (R171). -/
def State.CommandsOk (s : State) : Prop :=
  (s.cmd.queue.map Captured.line).Nodup ∧ (∀ c ∈ s.cmd.queue, c.line ≤ 15) ∧ s.cmd.queue.length ≤ 16

/-- The answer of command line `n` is due at the arbiter: its command has executed, and the host write that delivered it has been
granted, so that it is no longer in the forward queue (R175). -/
abbrev State.AnswerDue (s : State) (n : Nat) : Prop :=
  ∃ a ∈ s.cmd.answers, a.line = n ∧ ∀ f ∈ s.router.forward, f.cls ≠ .command a.take

/-- The law of what waits at the arbiter: no write twice; an answer exactly where one of a command line is due (R173, R175); the log
write exactly where the Log Writer has one presented (R184); a status line write only while CLAIMED and out of reset (R180). With it
the law of the answers that it stands on: each was delivered by an earlier take, only UNCLAIM's is marked as such, and outside its
effect no line has both a queued command and a pending answer (R171 to R173, R178). -/
def State.WaitsOk (s : State) : Prop :=
  s.router.waiting.Nodup ∧
  (∀ w ∈ s.router.waiting,
    match w with
    | .answer n => n < 16 ∧ s.AnswerDue n
    | .log => s.log.presented ≠ none
    | .status => s.router.controlBase ≠ none ∧ s.rst = false) ∧
  (∀ n, n < 16 → s.AnswerDue n → .answer n ∈ s.router.waiting) ∧ (s.log.presented ≠ none → .log ∈ s.router.waiting) ∧
  (∀ a ∈ s.cmd.answers, a.take < s.cmd.takes ∧ (a.isUnclaim = true → s.cmd.unclaiming = true)) ∧
  (∀ c ∈ s.cmd.queue, c.take < s.cmd.takes) ∧
  (s.cmd.unclaiming = false → ∀ c ∈ s.cmd.queue, ∀ a ∈ s.cmd.answers, a.line ≠ c.line)

/-- The law of the loop count: it stays within 0..31, and reaction-fired is set only while it is at the limit or above (R150). -/
def State.LoopOk (s : State) : Prop :=
  s.alert.loopCount ≤ Config.loopMax ∧
    (s.alert.reactionFired = true →
      s.alert.state ≠ .idle ∧ (s.alert.profileAt s.alert.profile).loopLimit ≤ s.alert.loopCount)

/-- The law of the BYPASS line: while it is asserted every stack is empty, no slot read waits, and every read that is READY
will be returned as stored (R113). -/
def State.BypassOk (s : State) : Prop :=
  s.bypass = true →
    (∀ l : Nat, (s.lane l).stack = []) ∧ s.wait = none ∧ ∀ f ∈ s.router.forward, f.state = .ready → f.out = f.raw

/-- The first half of the law of the slot: a slot read that is READY carries in bytes 0..3 the tag that memory gave at its own
address (R108). -/
def State.TagsOk (s : State) : Prop :=
  ∀ f ∈ s.router.forward, f.state = .ready → 4 ≤ f.raw.length → f.out.take 4 = f.raw.take 4

/-- While UNCLAIMED the part originates nothing and its counters are 0: nothing waits at the arbiter but forwarded
transactions, and every block stands at its reset values, but for the forward queue, the lines and the EAL filter (R4, R5, R20). -/
def State.UnclaimedOk (s : State) : Prop :=
  s.router.controlBase = none →
    s.router.waiting = [] ∧ s.router.fetchOrder = [] ∧ s.router.waitCount = 0 ∧ s.router.strayClaims = 0 ∧
    s.router.straddles = 0 ∧ s.router.logIntrusions = 0 ∧ s.router.regions = Router.reset.regions ∧
    s.cmd = CmdUnit.reset ∧ s.lanes = Vector.replicate 16 Lane.reset ∧ s.clips = Vector.replicate 256 Clip.undefined ∧
    s.placements = Vector.replicate 128 Placement.vacant ∧ s.wait = none ∧ s.log = LogWriter.reset ∧
    s.alert.state = .idle ∧ s.alert.profiles = AlertCtl.reset.profiles

/-- A stack entry agrees with what it plays for: placements are PROGRAMME and ADVERT entries of their own lane, profiles are
ALERT entries, the lane's slate is the SLATE entry (chapter 6). -/
def Entry.fits (s : State) (l : Nat) (e : Entry) : Prop :=
  match e.source with
  | .placement id => id < 128 ∧ (s.placement id).lane = l ∧ (e.kind = .programme ∨ e.kind = .advert)
  | .profile _ => e.kind = .alert
  | .laneSlate => e.kind = .slate

/-- Placement `id`'s entry is the top of a lane's stack. -/
def State.OnTop (s : State) (id : Nat) : Prop :=
  ∃ l e rest, (s.lane l).stack = e :: rest ∧ e.source = .placement id

/-- Placement `id`'s entry stands on a lane's stack below the top. -/
def State.BelowTop (s : State) (id : Nat) : Prop :=
  ∃ l e rest, (s.lane l).stack = e :: rest ∧ ∃ n ∈ rest, n.source = .placement id

/-- The law of placements: ON_AIR exactly when the placement's entry is the top of its lane's stack, COVERED exactly when it
stands below the top, and no placement has two entries (R87). -/
def State.PlacementsOk (s : State) : Prop :=
  (∀ l, (s.lane l).stack.Pairwise fun a b => a.source ≠ b.source) ∧
  (∀ l, ∀ e ∈ (s.lane l).stack, e.fits s l) ∧
  (∀ id, id < 128 → (s.placement id).kind = .programme ∨ (s.placement id).kind = .advert) ∧
  ∀ id, id < 128 →
    ((s.placement id).state = .onAir ↔ s.OnTop id) ∧ ((s.placement id).state = .covered ↔ s.BelowTop id)

/-- A lane that is not enabled has nothing on air and nothing pending, and its monitor is DISABLED (R26). -/
def State.DisabledOk (s : State) : Prop :=
  ∀ l : Nat, (s.lane l).enabled = false →
    (s.lane l).stack = [] ∧ (s.lane l).alertReq = none ∧ (s.lane l).slateInsert = none ∧ (s.lane l).slateRemove = none ∧
      (s.lane l).monitor.state = .disabled

/-- The laws of the stacks and the placements together (R87, R93). -/
def State.StackLaws (s : State) : Prop := s.StacksOk ∧ s.PlacementsOk

/-- The laws of what a slot read returns together (R108, R113). -/
def State.ReturnLaws (s : State) : Prop := s.TagsOk ∧ s.BypassOk

/-- The laws of the queues together: their bounds (R1, R17, R171, R183) and what waits at the arbiter (R16, R173, R175, R184). -/
def State.QueueLaws (s : State) : Prop := s.SizesOk ∧ s.CommandsOk ∧ s.WaitsOk

/-! ## What a statement leaves out of account -/

/-- The state apart from what waits at the arbiter: the waiting part-originated writes and the wait count, which the close of
every step settles (R16, R17). -/
def State.apart (s : State) : State := { s with router := { s.router with waiting := [], waitCount := 0 } }

/-- The state apart from the arbiter's waiting writes, the command queue and the answer-pending set. -/
def State.aside (s : State) : State := { s.apart with cmd := { s.cmd with queue := [], answers := [] } }

/-! ## The forward queue (R1) -/

/-- The forward queue holds fewer than 32 entries (R1). -/
abbrev State.HasRoom (s : State) : Prop := s.router.forward.length < 32

/-- The router classifies: it is CLAIMED and not in reset, and the forward queue has room (R1, R6, R19). -/
abbrev State.Classifies (s : State) : Prop := s.HasRoom ∧ s.rst = false ∧ s.router.controlBase ≠ none

/-- An entry as it joins the forward queue (R1). -/
def FwdEntry.fresh (q : QRequest) (c : FwdClass) : FwdEntry :=
  { req := q, cls := c, state := .queued, abandoned := false, raw := [], out := [] }

/-- The state with a request joined to the tail of the forward queue, under a class, and nothing else changed (R1). -/
def State.joined (s : State) (q : QRequest) (c : FwdClass) : State :=
  s.withForward (s.router.forward ++ [FwdEntry.fresh q c])

/-- Every line of a request lies in one area (R11). -/
abbrev State.WhollyIn (s : State) (q : QRequest) (a : Area) : Prop := ∀ x ∈ q.lineAddrs, s.areaOf x = a

/-- Region `i` is the live ring of lane `l` (R13). -/
abbrev State.LiveRing (s : State) (i l : Nat) : Prop :=
  (s.region i).role = .ring ∧ (s.region i).lane = l ∧ (s.lane l).enabled = true ∧ (s.lane l).record.region = i

/-- A request's offset into a region is a whole number of slots (section 1.4). -/
abbrev State.SlotAligned (s : State) (i : Nat) (q : QRequest) : Prop := s.regionOffset i q % 192 = 0

/-- A request has the shape of a slot write or a slot read (R13). -/
abbrev State.SlotShape (s : State) (i : Nat) (q : QRequest) : Prop :=
  s.SlotAligned i q ∧ (q.fullWrite 3 = true ∨ q.readOf 3 = true)

/-- The forward queue is `pre`, then `f`, then `post`, and `f` is the first of its entries in a state (R1, R3). -/
abbrev State.FirstIn (s : State) (st : FwdState) (pre : List FwdEntry) (f : FwdEntry) (post : List FwdEntry) : Prop :=
  s.router.forward = pre ++ f :: post ∧ f.state = st ∧ ∀ g ∈ pre, g.state ≠ st

/-- An entry after a reset event: only forwarded from then on, and a READ that has its data is READY with what memory gave (R19;
that one already READY returns its slot as memory gave it is the model's reading, log 11). -/
def FwdEntry.asPlain (f : FwdEntry) : FwdEntry :=
  if f.state = .arrived ∨ f.state = .ready then { f with cls := .plain, abandoned := false, state := .ready, out := f.raw }
  else { f with cls := .plain, abandoned := false }

/-- An entry once its lane `l` is disabled: a slot read of the lane whose procedure is not complete is abandoned (R27). -/
def FwdEntry.marked (l : Nat) (f : FwdEntry) : FwdEntry :=
  match f.cls with
  | .slotRead m _ => if m = l ∧ f.state ≠ .ready then { f with abandoned := true } else f
  | .plain | .straddle | .stray _ | .logIntrusion | .slotWrite _ _ | .command _ | .offered => f

/-- An entry once BYPASS is asserted: one that is READY returns its data as stored (R112). -/
def FwdEntry.unspliced (f : FwdEntry) : FwdEntry := if f.state = .ready then { f with out := f.raw } else f

/-- An M-port read under way after a reset event: the data of a library fetch will be discarded (R19). -/
def InFlight.discarded (f : InFlight) : InFlight :=
  match f.owner with
  | .forward => f
  | .fetch l clip _ => { f with owner := .fetch l clip true }

/-! ## The arbiter (R16, R17) -/

/-- The next grant goes to part-originated write `w`, with `rest` waiting behind it (R16, R17). -/
abbrev State.PartTurn (s : State) (w : PartWrite) (rest : List PartWrite) : Prop :=
  s.router.waiting = w :: rest ∧
    (8 ≤ s.router.waitCount ∨ (s.router.fetchOrder = [] ∧ ∀ f ∈ s.router.forward, f.state ≠ .queued))

/-- No part-originated write has the next grant by the wait count (R17). -/
abbrev State.NotForced (s : State) : Prop := s.router.waiting = [] ∨ s.router.waitCount < 8

/-- No demand fetch waits at the arbiter (R16). -/
abbrev State.NoDemand (s : State) : Prop := ∀ l ∈ s.router.fetchOrder, (s.lane l).look.demanded = false

/-- The next grant goes to lane `l`'s fetch: the demand fetch, or the oldest prefetch when neither a demand fetch nor a
forwarded transaction waits (R16). -/
abbrev State.FetchTurn (s : State) (l : Nat) : Prop :=
  s.NotForced ∧
    ((s.router.fetchOrder.find? fun m => (s.lane m).look.demanded) = some l ∨
      (s.NoDemand ∧ s.router.fetchOrder.head? = some l ∧ ∀ f ∈ s.router.forward, f.state ≠ .queued))

/-! ## Memory -/

/-- Address `x` is byte `j` of the bytes from `a` up, for some `j` from `lo` on that is below `n`. -/
abbrev Within (a : Word) (lo n x : Nat) : Prop := ∃ j, j < n ∧ lo ≤ j ∧ addrPlus a j = x

/-! ## Executions of commands (R174) -/

/-- The Command Unit is about to execute entry `c`, whose command code is `code`, with `rest` queued behind it (R174). -/
abbrev State.Executing (s : State) (code : Nat) (c : Captured) (rest : List Captured) : Prop :=
  s.router.controlBase ≠ none ∧ s.rst = false ∧ s.cmd.unclaiming = false ∧ s.cmd.queue = c :: rest ∧
    (wordAt c.words 0).toNat = code

/-- What an execution leaves of the Command Unit's own state: the entry has left the queue, and its line has joined the
answer-pending set with an answer code and result words, the words after the given ones 0 (R171, R174, R192). -/
abbrev State.Answered (s t : State) (c : Captured) (rest : List Captured) (code : AnswerCode) (results : List Word) : Prop :=
  t.cmd.queue = rest ∧
    t.cmd.answers = (s.cmd.answers.filter fun b => decide (b.line ≠ c.line)) ++
      [{ line := c.line, code := code, results := padWords 14 results, take := c.take, isUnclaim := t.cmd.unclaiming }]

/-- A refused command: answered with a code and result words 0, and nothing else changed (R174). -/
abbrev State.Refused (s t : State) (c : Captured) (rest : List Captured) (code : AnswerCode) : Prop :=
  s.Answered t c rest code [] ∧ t.aside = s.aside

/-- The slot a lookahead holds or fetches, if any (R58). -/
def Look.slotKey (k : Look) : Option LookKey :=
  match k with
  | .empty => none
  | .fetching key _ _ _ _ | .full key _ _ _ => some key

/-- The lookahead has asked for a fetch that is not granted (R58). -/
def Look.ungranted (k : Look) : Bool :=
  match k with
  | .fetching _ _ false _ _ => true
  | .fetching _ _ true _ _ | .full .. | .empty => false

/-- The clip of a granted fetch that a reset has left without a lookahead (R19, R66). -/
def ReadOwner.orphaned (o : ReadOwner) : Option Nat :=
  match o with
  | .fetch _ clip true => some clip
  | .forward | .fetch _ _ false => none

/-- A clip is in use: the current clip of a stack entry on some lane, or named by a lane's FETCHING or FULL lookahead (R55), or in a
granted fetch that a reset has left behind, until it arrives (R66). -/
abbrev State.InUse (s : State) (id : Nat) : Prop :=
  (∃ l, l < 16 ∧
    ((∃ e ∈ (s.lane l).stack, ∃ p ∈ e.current, e.clips[p.1]? = some id) ∨ ∃ key ∈ (s.lane l).look.slotKey, key.clip = id)) ∨
  ∃ f ∈ s.router.inFlight, f.owner.orphaned = some id

/-- A region entry as it stands is live (R9). -/
abbrev State.Live (s : State) (i : Nat) : Prop :=
  ((s.region i).role = .ring ∧ ∃ l, l < 16 ∧ (s.lane l).enabled = true ∧ (s.lane l).record.region = i) ∨
  ((s.region i).role = .library ∧ ∃ id, id < 256 ∧ s.InUse id ∧
    (s.region i).base.toNat < (s.clip id).extentEnd ∧ (s.clip id).addr.toNat < (s.region i).limit.toNat) ∨
  ((s.region i).role = .log ∧ s.log.head ≠ s.log.tail)

/-- A range shares an address with the control region or with the range of another entry (R9, order 7). -/
abbrev State.Shares (s : State) (i lo hi : Nat) : Prop :=
  (∃ b ∈ s.router.controlBase, lo < b.toNat + 65536 ∧ b.toNat < hi) ∨
  ∃ j, j < 32 ∧ j ≠ i ∧ (s.region j).role ≠ .none ∧ lo < (s.region j).limit.toNat ∧ (s.region j).base.toNat < hi

/-- Placement `id` has an entry on a stack. -/
abbrev onStackOf (st : List Entry) (id : Nat) : Prop := ∃ e ∈ st, e.source = .placement id

/-- Lane `l` has nothing that a slot read would apply, test or enter: no pending request, and no PENDING placement. -/
abbrev State.Undisturbed (s : State) (l : Nat) : Prop :=
  (s.lane l).alertReq = none ∧ (s.lane l).slateInsert = none ∧ (s.lane l).slateRemove = none ∧
    ∀ id, id < 128 → (s.placement id).state = .pending → (s.placement id).lane ≠ l

/-- The read whose procedure runs next is `f`, a slot read of lane `l` at ring index `k`, and none waits (R3, R97). -/
abbrev State.ReadRuns (s : State) (pre : List FwdEntry) (f : FwdEntry) (post : List FwdEntry) (l k : Nat) : Prop :=
  s.wait = none ∧ s.FirstIn .arrived pre f post ∧ f.cls = .slotRead l k

/-- The state with the read that stands between `pre` and `post` READY with its return data. -/
def State.readied (s : State) (pre : List FwdEntry) (f : FwdEntry) (post : List FwdEntry) (out : List Byte) : State :=
  s.withForward (pre ++ { f with state := .ready, out := out } :: post)

/-- A lane's alert request after an alert on zone mask `new` has taken effect where `old` was in effect (R140). -/
def Lane.requestAfter (x : Lane) (old new : BitVec 8) (p : Nat) : Option AlertReq :=
  if x.enabled = false then x.alertReq
  else if new.getLsbD x.record.zone then (if old.getLsbD x.record.zone then some (.replace p) else some (.insert p))
  else if old.getLsbD x.record.zone then some .remove
  else x.alertReq

/-- A lane's alert request after the alert in effect has ended (R140). -/
def Lane.requestAtEnd (x : Lane) (old : BitVec 8) : Option AlertReq :=
  if x.enabled = true ∧ (old.getLsbD x.record.zone = true ∨ x.alertReq ≠ none ∨ ∃ e ∈ x.stack, e.kind = .alert) then some .remove
  else x.alertReq

end Sys2Proof.Machine
end

