-- ==== Sys2Proof/Safety/Records.lean ====
section
/-! DEFINITION. The terms the statements use for records: what the Log Writer makes of the records an event hands over
(R183 to R185), the reports of placements (R89 to R91), missed notices (R190), and lane masks (R187). -/

namespace Sys2Proof.Machine

open Sys2Proof

/-! ## The Log Writer (R183 to R185) -/

/-- As far as the log ring goes a record may join the queue: the ring is present and not full (R182, R183). -/
def State.logOpen (s : State) : Bool :=
  match s.logRing with
  | some (_, lines) => decide ((s.log.head + 1) % lines ≠ s.log.tail)
  | none => false

/-- The Log Writer after one record, given with its lane, handed over in state `s`: the record joins the queue, stamped with
Local Time, while the queue holds fewer than 8 and the ring is present and not full, and is counted lost otherwise (R183); with
nothing presented and the ring open the next write is then presented, a GAP where records are lost, else the oldest record
(R184, R185). A write presented stays presented: a GAP that becomes due behind a presented record waits for the next line (the model's
choice, log 24). -/
def State.takes (s : State) (g : LogWriter) (r : Nat × RecordBody) : LogWriter :=
  let h :=
    if s.logOpen = true ∧ g.queue.length < 8 then
      { g with queue := g.queue ++ [{ stamp := s.lt, lane := r.1, body := r.2 }] }
    else { g with lost := satInc g.lost }
  { h with
    presented :=
      if h.presented ≠ none ∨ s.logOpen = false then h.presented
      else if 0 < h.lost then some .gap else some .record }

/-- The Log Writer after the records of one event, in the order they are handed over (R183). -/
def State.logAfter (s : State) (rs : List (Nat × RecordBody)) : LogWriter := rs.foldl s.takes s.log

/-! ## Reports of placements (R89 to R91) -/

/-- The report of a placement that ends without having entered its stack: no times, lag 0, no clip items (R90, R91). -/
def Placement.neverEntered (p : Placement) (id : Nat) (o : Outcome) : RecordBody :=
  .placement id p.kind p.trigger p.avail p.t none o 0 []

/-- The clip items of an entry that leaves its stack: each position as decided, the one playing CUT, the rest SKIPPED with 0
packets aired (R90). CUT also for a top covered at stage 2 and removed at stage 3 of the same read (the model's choice, log 42). -/
def Entry.items (e : Entry) : List ClipItem :=
  (List.range e.tally.length).map fun j =>
    let t := e.tally.getD j { aired := 0, outcome := none }
    let playing := e.current.map Prod.fst = some j
    { clip := e.clips.getD j 0
      aired := if t.outcome = none ∧ ¬ playing then 0 else t.aired
      outcome := t.outcome.getD (if playing then .cut else .skipped) }

/-- The id of the placement a stack entry plays for. -/
def Entry.placementId (e : Entry) : Option Nat :=
  match e.source with
  | .placement id => some id
  | .laneSlate | .profile _ => none

/-- The reports of the placements whose entries leave a stack, in the order given, with their outcomes and end time; slate and
alert entries go without a record (R91, R101, R102). -/
def State.reports (s : State) (o : Placement → Entry → Outcome) (endTime : Pt) (st : List Entry) : List (Nat × RecordBody) :=
  st.filterMap fun e => e.placementId.map fun id =>
    let p := s.placement id
    (p.lane, .placement id p.kind p.trigger p.avail p.t (some (p.entryTime, endTime)) (o p e) e.maxLag e.items)

/-- No placement has two of the entries (R87). -/
abbrev noTwice (st : List Entry) : Prop := st.Pairwise fun a b => a.placementId = none ∨ a.placementId ≠ b.placementId

/-- The records of the placements that end with a MISSED outcome, in order of id: a report each, and for the first of them, where
the lane's audit mark is OUT, the AUDIT record of its missed notice with the sentinel error (R91, R190). -/
def missedRecords (l : Nat) (out : Bool) : List (Nat × Placement × Outcome) → List (Nat × RecordBody)
  | [] => []
  | (id, p, o) :: rest =>
    (l, p.neverEntered id o) :: ((if out then [(l, .auditOut id p.t none (-32768) p.preRoll)] else []) ++ missedRecords l false rest)

/-- An audit error: the signed difference clamped to 32,767 either way, and the sentinel where no time was asked (R190, R191). -/
def spliceError (actual : Pt) (asked : Option Pt) : Int :=
  match asked with
  | some t => if ptDiff actual t < -32767 then -32767 else if 32767 < ptDiff actual t then 32767 else ptDiff actual t
  | none => -32768

/-! ## Lane masks (R140, R187) -/

/-- A mask holds exactly the lanes of a property, lane n at bit n. -/
abbrev MaskOf (m : BitVec 16) (p : Nat → Prop) : Prop := ∀ l, l < 16 → (m.getLsbD l = true ↔ p l)

/-- The lanes to which an alert that takes effect posts a request: enabled, with their zone in the new mask or the old (R140). -/
abbrev State.PostsOn (s : State) (old new : BitVec 8) (l : Nat) : Prop :=
  (s.lane l).enabled = true ∧ (new.getLsbD (s.lane l).record.zone = true ∨ old.getLsbD (s.lane l).record.zone = true)

/-- The lanes to which the end of an alert posts REMOVE: enabled, with their zone in its mask, or with an alert entry or request
(R140, R142). -/
abbrev State.RemovesOn (s : State) (old : BitVec 8) (l : Nat) : Prop :=
  (s.lane l).enabled = true ∧
    (old.getLsbD (s.lane l).record.zone = true ∨ (s.lane l).alertReq ≠ none ∨ ∃ e ∈ (s.lane l).stack, e.kind = .alert)

end Sys2Proof.Machine
end

