-- ==== Sys2Proof/Safety/Alerts.lean ====
section
/-! DEFINITION. What the statements say of the end of an alert: the records it hands over and the requests it leaves on the lanes
(R140, R142). -/

namespace Sys2Proof.Machine

open Sys2Proof

/-- A line alert follows the end of the alert in effect, where that end is not for the line or for BYPASS: it was no line alert,
line-pending is set and profile 0 is defined (R142). -/
abbrev State.LineFollows (s : State) : Prop :=
  s.alert.state ≠ .activeLine ∧ s.alert.linePending = true ∧ (s.alert.profileAt 0).defined = true

/-- The controller once an alert on profile `p` has taken effect at Local Time `lt`: its state, its profile and severity, hold mark and
period start at that time, held seconds and loop count 0, reaction-fired clear; line-pending, the lock, the profiles and the EAL filter
as they were (R136). -/
def AlertCtl.taken (a : AlertCtl) (state : AlertState) (p severity : Nat) (lt : Rt) : AlertCtl :=
  { a with
    state := state, profile := p, severity := severity, holdMark := lt, heldSeconds := 0, periodStart := lt, loopCount := 0
    reactionFired := false }

/-- The controller once the line alert has taken effect on profile 0, which clears line-pending (R136, R146, R147). -/
def State.onLine (s : State) : AlertCtl :=
  { s.alert.taken .activeLine 0 (s.alert.profileAt 0).severity s.lt with linePending := false }

/-- The controller `b` after the end of an alert that none follows: IDLE, with the items kept in all states, line-pending, the lock, the
profiles and the EAL filter, as in `a`; the items kept in the active states only are left open (R136, R142). -/
def AlertCtl.Ends (a b : AlertCtl) : Prop :=
  b = { a with
    state := .idle, profile := b.profile, severity := b.severity, holdMark := b.holdMark, heldSeconds := b.heldSeconds
    periodStart := b.periodStart, loopCount := b.loopCount, reactionFired := b.reactionFired }

/-- The records of the end of the alert in effect: ALERT END with the profile and severity that were in effect and the lanes of its
REMOVE requests, then, where a line alert follows in the same event, ALERT START for profile 0 with the lanes of its INSERTs
(R140, R142, R187). -/
def State.EndRecords (s : State) (reason : AlertReason) (rs : List (Nat × RecordBody)) : Prop :=
  let p0 := s.alert.profileAt 0
  ∃ removed inserted : BitVec 16,
    MaskOf removed (s.RemovesOn (s.alert.profileAt s.alert.profile).zones) ∧ MaskOf inserted (s.PostsOn 0 p0.zones) ∧
    rs = (255, .alert .finish s.alert.profile s.alert.severity reason removed) ::
      if reason ≠ .line ∧ reason ≠ .bypass ∧ s.LineFollows then [(255, .alert .start 0 p0.severity .line inserted)] else []

/-- A lane's alert request after the end of the alert in effect, where that end is not for the line or for BYPASS: the INSERT of a
line alert that follows replaces the REMOVE of the end (R140, R142). -/
def State.requestAfterEnd (s : State) (l : Nat) : Option AlertReq :=
  let x := s.lane l
  if s.LineFollows ∧ x.enabled = true ∧ (s.alert.profileAt 0).zones.getLsbD x.record.zone = true then some (.insert 0)
  else x.requestAtEnd (s.alert.profileAt s.alert.profile).zones

end Sys2Proof.Machine
end

