-- ==== Sys2Proof/Safety/Cues.lean ====
section
/-! DEFINITION. Cue messages and their intake as the rules give them, each a relation that leaves nothing of the state open
(R74, R75, R77 to R81). -/

namespace Sys2Proof.Machine

open Sys2Proof

/-! ## Intake (R77 to R81) -/

/-- The placements of lane `l` for an avail that satisfy a test, in order of id. Only a placement of trigger CUE has an avail
(DEDUCED from R70, log 13). -/
def State.cueIds (s : State) (l : Nat) (avail : Word) (test : Placement → Bool) : List Nat :=
  (List.range 128).filter fun id =>
    let p := s.placement id
    decide (p.state ≠ .vacant ∧ p.lane = l ∧ p.trigger = .cue ∧ p.avail = avail) && test p

/-- The T an OUT cue gives: its time, or for an immediate cue the lane clock if that is anchored (R78). -/
def State.askedTime (s : State) (l : Nat) (c : Cue) : Option Pt :=
  match c.time with
  | some n => some n
  | none => if (s.lane l).anchored = true then some (s.clock l) else none

/-- The late test finds a T late on lane `l` (R83). -/
abbrev State.LateOn (s : State) (l : Nat) (t : Option Pt) : Prop :=
  (s.lane l).enabled = true ∧ (s.lane l).anchored = true ∧
    ∃ n ∈ t, ptAfter (s.clock l) (ptPlus n (s.lane l).record.entryWindow) = true

/-- A placement that an OUT cue has given its T: D from a cue duration of 1 to 2^31 - 1 where take-cue-duration is set, blocked
cleared, and the late test owed where it cannot be made (R78, R83). -/
def Placement.cued (p : Placement) (c : Cue) (t : Option Pt) (testable : Bool) : Placement :=
  { p with
    state := .pending, t := t, lateCheck := !testable, blocked := false
    duration :=
      match c.duration with
      | some d => if p.takeCueDuration = true ∧ 1 ≤ d ∧ d < 2147483648 then d else p.duration
      | none => p.duration }

/-- The placements that an OUT cue moves become `f` of what they were, or, where their new T is late, end MISSED_LATE with their
reports in order of id and the first missed notice to an OUT mark; the avail joins the recent-avail list where the cue started
a placement (R38, R77, R78, R83, R91, R190). -/
def State.CueMoves (s : State) (l : Nat) (c : Cue) (ids : List Nat) (f : Placement → Placement) (recent : List Word) (t : State) :
    Prop :=
  let x := s.lane l
  let late := s.LateOn l (s.askedTime l c)
  t = { s with lanes := t.lanes, placements := t.placements, log := t.log } ∧
  (∀ m, m ≠ l → t.lane m = s.lane m) ∧
  t.lane l = { x with recent := recent, audit := if late ∧ x.audit = .out then .none else x.audit } ∧
  (∀ id, t.placement id =
    if id ∈ ids then (if late then Placement.vacant else f (s.placement id)) else s.placement id) ∧
  t.log =
    if late then s.logAfter (missedRecords l (decide (x.audit = .out)) (ids.map fun id => (id, f (s.placement id), .missedLate)))
    else s.log

/-- Intake of a cue for lane `l`, with the code of the intake case that applied: 1 STARTED, 2 MOVED, 3 REPEAT, 4 ENDED,
5 EARLY_SET, 6 UNPLACED (R77 to R81, 12.4). -/
def State.CueTaken (s : State) (l : Nat) (c : Cue) (injected : Bool) (t : State) (code : Nat) : Prop :=
  let x := s.lane l
  let armed := s.cueIds l c.avail fun p => decide (p.state = .armed)
  let pending := s.cueIds l c.avail fun p => decide (p.state = .pending)
  let waiting := s.cueIds l c.avail fun p => decide (p.state = .armed ∨ p.state = .pending)
  let onStack := s.cueIds l c.avail fun p => decide (p.state = .onAir ∨ p.state = .covered)
  let asked := s.askedTime l c
  let cued (p : Placement) := p.cued c asked (x.enabled && x.anchored)
  let moved := pending.filter fun id => decide (asked ≠ none ∧ (s.placement id).t ≠ asked)
  let unplaced (reason : UnplacedReason) : Nat × RecordBody := (l, .cueUnplaced c.type c.avail reason injected)
  let cancelled (ids : List Nat) : List (Nat × RecordBody) :=
    ids.map fun id => (l, (s.placement id).neverEntered id .cancelled)
  let recent :=
    if c.avail ∈ x.recent then x.recent
    else if 4 ≤ x.recent.length then x.recent.drop 1 ++ [c.avail] else x.recent ++ [c.avail]
  match c.type with
  | .out =>
    match armed with
    | id :: _ => s.CueMoves l c [id] (fun p => { cued p with preRoll := 0 }) recent t ∧ code = 1
    | [] =>
      if pending ≠ [] then
        if moved = [] then t = s ∧ code = 3 else s.CueMoves l c moved cued x.recent t ∧ code = 2
      else if onStack ≠ [] ∨ c.avail ∈ x.recent then t = s ∧ code = 3
      else t = { s with log := s.logAfter [unplaced .noPlacement] } ∧ code = 6
  | .into =>
    let e := c.time.getD (s.clock l)
    let none_ := onStack = [] ∧ pending = [] ∧ c.avail ∉ x.recent
    t = { s with lanes := t.lanes, placements := t.placements, log := t.log } ∧
    (∀ m, m ≠ l → t.lane m = s.lane m) ∧
    t.lane l =
      { x with
        stack := x.stack.map fun n =>
          if ∃ id ∈ onStack, n.source = .placement id then { n with endTime := some e, rule := .early } else n } ∧
    (∀ id, t.placement id =
      if id ∈ onStack then { s.placement id with rule := .early, earlyReturn := true }
      else if id ∈ pending then Placement.vacant
      else s.placement id) ∧
    t.log = s.logAfter (cancelled pending ++ if none_ then [unplaced .noPlacement] else []) ∧
    code = (if onStack ≠ [] then 5 else if pending ≠ [] then 4 else if c.avail ∈ x.recent then 3 else 6)
  | .cancel =>
    let none_ := waiting = [] ∧ onStack = [] ∧ c.avail ∉ x.recent
    t = { s with placements := t.placements, log := t.log } ∧
    (∀ id, t.placement id = if id ∈ waiting then Placement.vacant else s.placement id) ∧
    t.log =
      s.logAfter (cancelled waiting ++ onStack.map (fun _ => unplaced .tooLate) ++
        if none_ then [unplaced .noPlacement] else []) ∧
    code = (if waiting ≠ [] then 4 else if onStack ≠ [] then 6 else if c.avail ∈ x.recent then 3 else 6)

/-- A cue changed placement `id` between two states: its state, T, D, E or one of its marks (R76). -/
def State.cueChanged (s t : State) (id : Nat) : Prop :=
  let e (u : State) :=
    ((u.lane (u.placement id).lane).stack.find? fun n => decide (n.source = .placement id)).bind Entry.endTime
  (t.placement id).state ≠ (s.placement id).state ∨ (t.placement id).t ≠ (s.placement id).t ∨
    (t.placement id).duration ≠ (s.placement id).duration ∨ e t ≠ e s ∨
    (t.placement id).withdrawn ≠ (s.placement id).withdrawn ∨ (t.placement id).earlyReturn ≠ (s.placement id).earlyReturn

/-! ## In-band cues (R74, R75) -/

/-- The 18 bytes of a message read as cue `c`: marker, CRC and type right, avail id, time and duration as its flags have them
(R75, 12.3). -/
def CueMessage (m : List Byte) (c : Cue) : Prop :=
  byteAt m 0 = 0x5C ∧ m.getD 17 0 = crc8 (m.take 17) ∧
    (byteAt m 1 = 1 ∧ c.type = .out ∨ byteAt m 1 = 2 ∧ c.type = .into ∨ byteAt m 1 = 3 ∧ c.type = .cancel) ∧
    c.avail = BitVec.ofNat 32 (bigEndian m 2 4) ∧
    c.time = (if (m.getD 6 0).getLsbD 7 = true then some (BitVec.ofNat 33 (bigEndian m 7 5)) else none) ∧
    c.duration = (if (m.getD 6 0).getLsbD 6 = true then some (bigEndian m 12 5 % 2 ^ 33) else none)

/-- What a slot write's packet does at cue intake: nothing off the cue PID, and nothing without PUSI or a payload; else a payload
below 18 bytes or a message that fails its tests is a cue error, and a message that passes is taken (R74, R75). -/
def State.CuePacket (s : State) (l : Nat) (p : List Byte) (i : Insp) (t : State) : Prop :=
  let m := (p.drop i.payStart).take 18
  if (s.lane l).record.onCuePid i = false ∨ i.pusi = false ∨ i.hasPayload = false then t = s
  else
    (∀ c, 18 ≤ i.payLen → CueMessage m c → ∃ code, s.CueTaken l c false t code) ∧
      (i.payLen < 18 ∨ (∀ c, ¬ CueMessage m c) → t = s.onLane l fun x => { x with cueErrors := satInc x.cueErrors })

end Sys2Proof.Machine
end

