-- ==== Sys2Proof/Safety/Feed.lean ====
section
/-! DEFINITION. What a slot write makes of a lane's monitor and slate requests, by the tables of chapter 9 (R156 to R165, R168). -/

namespace Sys2Proof.Machine

open Sys2Proof

/-- Tag `t` is at or after a mark plus a setting in milliseconds of 27,000 RT (R154). -/
abbrev rtReached (t mark : Rt) (ms : Nat) : Prop := (t - (mark + BitVec.ofNat 32 (ms * 27000))).toNat < 2 ^ 31

/-- The continuity items of a role after a payload packet's counter, by the rows of R158. -/
def ContItem.checked (k : ContItem) (cc : Cc) : ContItem :=
  if k.seen = false then { k with lastCc := cc, seen := true }
  else if cc = k.lastCc + 1 then { k with lastCc := cc, duplicate := false }
  else if cc = k.lastCc ∧ k.duplicate = false then { k with duplicate := true }
  else { k with errors := satInc k.errors, lastCc := cc, duplicate := false }

/-- The items of a monitor after steps 1 to 4 of a slot write at index `w` with tag `t` of a packet that inspects as `i`: blank
start, anchor tracking, continuity check and rate monitor; the recovery age counts every write (R155 to R159, R163). -/
def Lane.itemsAfter (x : Lane) (w : Nat) (t : Rt) (i : Insp) : Monitor :=
  let r := x.record
  let m := x.monitor
  let anchorTag := if m.blankStart = none then t else m.anchorTag
  let rateStart := if m.blankStart = none then t else m.rateStart
  let anchor := r.isAnchor i = true
  let passed := rtReached t anchorTag r.gapLimit ∧ t ≠ anchorTag + BitVec.ofNat 32 (r.gapLimit * 27000)
  let closes := r.rateMode ≠ .off ∧ rtReached t rateStart r.rateInterval
  let count := if closes then 0 else m.rateCount
  { m with
    blankStart := some (m.blankStart.getD t)
    anchorTag := if anchor then t else anchorTag
    anchorIndex := if anchor then some w else m.anchorIndex
    anchorAge := if anchor then 0 else satInc m.anchorAge
    anchorAbsent := if anchor then false else m.anchorAbsent || decide passed
    recoveryAge := satInc m.recoveryAge
    rateStart := if closes then t else rateStart
    rateLast := if closes then m.rateCount else m.rateLast
    rateCount := if r.rateMode ≠ .off ∧ r.role i ≠ none then satInc count else count
    rateAlarm :=
      if closes then
        decide ((r.rateMode = .low ∧ m.rateCount < r.rateThreshold) ∨ (r.rateMode = .high ∧ r.rateThreshold ≤ m.rateCount))
      else m.rateAlarm
    cont :=
      match r.role i with
      | some k => if i.hasPayload = true then m.cont.set k (m.cont[k].checked i.cc) else m.cont
      | none => m.cont }

/-- A countdown from the read index of a ring of `n` slots to a marker, 0 where the marker's age is `n` or more or the value exceeds
the occupancy (R30, R164). -/
def Lane.countdownTo (x : Lane) (n marker age : Nat) : Nat :=
  let value := (marker + n - x.readIndex) % n
  if n ≤ age ∨ (x.writeIndex + n - x.readIndex) % n < value then 0 else value

/-- What a slot write makes of a lane's monitor and slate requests, with the records it hands over in step order. The moves are the
rows of R163's table: in each state, with or without the loss condition, and with its filter met or not; the move to LOST posts
an insert and the move from RECOVERING to GOOD a remove, taken with regard to what is pending (R160 to R165, R168). -/
def Lane.watched (x : Lane) (n w : Nat) (t : Rt) (i : Insp) : Lane × List RecordBody :=
  let r := x.record
  let m := x.itemsAfter w t i
  let loss := m.anchorAbsent = true ∨ (m.rateAlarm = true ∧ r.rateMode = .low ∧ r.rateAsLoss = true)
  let rate : List RecordBody := if m.rateAlarm = x.monitor.rateAlarm then [] else [.rate m.rateAlarm m.rateLast w t]
  let stays (st : MonState) : Lane := { x with monitor := { m with state := st } }
  let insertIn :=
    match m.anchorIndex with
    | some a => x.countdownTo n ((a + 1) % n) m.anchorAge
    | none => 0
  let suspect (since : Rt) : Lane × List RecordBody :=
    if rtReached t since r.lossFilter then
      ({ x with
          monitor := { m with state := .lost, filterStart := since }
          slateInsert := some { countdown := insertIn, due := false }
          slateRemove := x.slateRemove.filter fun q => decide (q.countdown < insertIn) },
        rate ++ [.monitor .lost w t (some { isRemove := false, countdown := insertIn, cancelled := false })])
    else ({ x with monitor := { m with state := .suspect, filterStart := since } }, rate)
  let recovering (recovery : Monitor) (before : List RecordBody) : Lane × List RecordBody :=
    let removeIn := x.countdownTo n recovery.recoveryIndex recovery.recoveryAge
    if rtReached t recovery.filterStart r.goodFilter then
      ({ x with
          monitor := { recovery with state := .good }
          slateInsert := none
          slateRemove := if x.slateInsert = none then some { countdown := removeIn, due := false } else x.slateRemove },
        before ++ [.monitor .good w t (some { isRemove := true, countdown := removeIn, cancelled := x.slateInsert.isSome })])
    else ({ x with monitor := { recovery with state := .recovering } }, before)
  match x.monitor.state with
  | .disabled => (stays .disabled, rate)
  | .blank =>
    if rtReached t (m.blankStart.getD t) r.blankTime then (if loss then suspect t else (stays .good, rate))
    else (stays .blank, rate)
  | .good => if loss then suspect t else (stays .good, rate)
  | .suspect => if loss then suspect m.filterStart else (stays .good, rate ++ [.monitor .good w t none])
  | .lost =>
    if loss then (stays .lost, rate)
    else recovering { m with recoveryIndex := w, recoveryAge := 0, filterStart := t } (rate ++ [.monitor .recovering w t none])
  | .recovering => if loss then (stays .lost, rate ++ [.monitor .lost w t none]) else recovering m rate

end Sys2Proof.Machine
end

