-- ==== Sys2Proof/Safety/Packets.lean ====
section
/-! DEFINITION. What a library packet rewritten for a lane must be, said of the packet alone (R57, R118, R123 to R126). -/

namespace Sys2Proof.Machine

open Sys2Proof

/-! ## The bits a rewrite leaves as stored (R123 to R125, 12.2) -/

/-- The bits of byte `j` outside the 33 value bits of a timestamp encoding at a location: the prefix and the three markers
(R125, 12.2). -/
def stampKeeps (stamp : Option (Pt × Nat)) (j : Nat) : Byte :=
  match stamp with
  | none => 0xFF
  | some (_, q) =>
    if j = q then 0xF1 else if j = q + 1 ∨ j = q + 3 then 0 else if j = q + 2 ∨ j = q + 4 then 1 else 0xFF

/-- The bits of byte `j` outside the 33 base bits of a present PCR (R124, 12.2). -/
def pcrKeeps (pcr : Option (Pt × Nat)) (j : Nat) : Byte :=
  if pcr = none then 0xFF else if 6 ≤ j ∧ j ≤ 9 then 0 else if j = 10 then 0x7F else 0xFF

/-- The bits of byte `j` outside the PID and the counter (12.2). -/
def headerKeeps (j : Nat) : Byte := if j = 1 then 0xE0 else if j = 2 then 0 else if j = 3 then 0xF0 else 0xFF

/-- The bits of byte `j` of an inspected packet that a rewrite leaves as stored (R123). -/
def Insp.keeps (i : Insp) (j : Nat) : Byte := headerKeeps j &&& pcrKeeps i.pcr j &&& stampKeeps i.pts j &&& stampKeeps i.dts j

/-! ## The rewritten packet (R118, R123) -/

/-- A timestamp moved by an offset modulo 2^33, with what goes with it kept (R118, R124, R125). -/
def movedBy (off : Pt) (stamp : Option (Pt × Nat)) : Option (Pt × Nat) := stamp.map fun t => (t.1 + off, t.2)

/-- Packet `q` is the stored packet `p`, of inspection result `i`, rewritten under a PID, a counter and a PTS offset: inspected it
shows that PID and that counter, and each of the PCR base, PTS and DTS that was present moved by the offset at its own place,
with the PCR extension and all else of the inspection as stored; and every bit outside the rewritten fields is as stored
(R118, R123 to R126). -/
def Rewritten (p : List Byte) (i : Insp) (pid : Pid) (cc : Cc) (off : Pt) (q : List Byte) : Prop :=
  q.length = p.length ∧
    (p.length = 188 → i = inspect p →
      inspect q =
        { i with pid := some pid, cc := cc, pcr := movedBy off i.pcr, pts := movedBy off i.pts, dts := movedBy off i.dts } ∧
      ∀ j, q.getD j 0 &&& i.keeps j = p.getD j 0 &&& i.keeps j)

/-- The lane role of a library packet: the role its clip's PID map pairs with its PID, where the lane uses that role (R57). -/
def LaneRecord.libraryRole (r : LaneRecord) (c : Clip) (i : Insp) : Option (Fin 4) :=
  (i.pid.bind fun pid => (c.pidMap.find? fun m => decide (m.1 = pid)).map Prod.snd).filter fun k => decide (r.roles[k] ≠ 0x1FFF)

/-! ## What a lookahead holds (R58, R60) -/

/-- A FULL lookahead holds the 192 bytes of a slot with the inspection result of its packet, and a library fetch under way
brings 192 bytes (R58, R60). -/
def State.LooksOk (s : State) : Prop :=
  (∀ (l : Nat) (key : LookKey) (slot : List Byte) (i : Insp) (damaged : Bool),
    (s.lane l).look = .full key slot i damaged → slot.length = 192 ∧ i = inspect (slot.drop 4)) ∧
  ∀ f ∈ s.router.inFlight, f.owner ≠ .forward → f.data.length = 192

end Sys2Proof.Machine
end

