-- ==== Sys2Proof/Safety/SlotRead.lean ====
section
/-! DEFINITION. The stages of the slot-read procedure as the rules give them, each a relation between the state before it and the
state after it that leaves nothing of the state open: the first stage with the per-read tests (R29, R82), requests (R98, R99),
ends (R100 to R103), entries (R86, R104), reveal and start (R105, R106), and source (R108). -/

namespace Sys2Proof.Machine

open Sys2Proof

/-! ## Stage 1 (R29, R33, R34, R82 to R84, R166) -/

/-- What the per-read tests make of a PENDING placement, from the clock the first stage leaves: T of an IMMEDIATE start is taken,
the pre-roll gains one, and with the clock anchored the placement ends when the clock is after T + entry window, by the late test
where that is owed, else by the expiry test, and owes no late test otherwise (R82 to R84). -/
def Placement.readTested (p : Placement) (clock : Pt) (anchored : Bool) (window : Nat) : Placement × Option Outcome :=
  let t := if p.t = none ∧ anchored = true then some clock else p.t
  let owed := p.lateCheck = true ∨ (p.t = none ∧ anchored = true)
  ({ p with t := t, preRoll := satInc p.preRoll, lateCheck := p.lateCheck && !anchored },
    if anchored = true ∧ ∃ n ∈ t, ptAfter clock (ptPlus n window) = true then
      some (if owed then .missedLate else if p.blocked = true then .missedBlocked else .missedNoEntry)
    else none)

/-- A slate request counted down by one at a first stage, and due once its countdown stands at 0 (R166). -/
def SlateReq.counted (q : SlateReq) : SlateReq :=
  { countdown := q.countdown - 1, due := q.due || decide (q.countdown ≤ 1) }

/-- The first stage of a slot read of lane `l` at ring index `k` whose stored packet inspects as `i`: the read index and skips,
the malformed and PTS-less counters, the lane clock with a timeline jump that moves every E, the slate countdowns, while BYPASS
is held the roles, and then the per-read tests of the lane's PENDING placements (R29, R33, R34, R39, R82, R166). -/
def State.FirstStage (s : State) (l k : Nat) (i : Insp) (one : State) : Prop :=
  let x := s.lane l
  let pts := x.record.anchorPts i
  let jump := pts.bind fun p =>
    if x.anchored = true ∧ x.record.jumpLimit < (ptDiff p (s.clock l)).natAbs then some (ptDiff p (s.clock l)) else none
  let clock := pts.getD (s.clock l)
  let anchored := x.anchored || pts.isSome
  let tested id := (s.placement id).readTested clock anchored x.record.entryWindow
  let pending id := (s.placement id).state = .pending ∧ (s.placement id).lane = l
  let missed := (List.range 128).filterMap fun id =>
    if pending id then (tested id).2.map fun o => (id, (tested id).1, o) else none
  one = { s with lanes := one.lanes, placements := one.placements, log := one.log } ∧
  (∀ m, m ≠ l → one.lane m = s.lane m) ∧
  one.lane l =
    { x with
      readIndex := (k + 1) % s.ringSlots l
      readSkips := if k = x.readIndex then x.readSkips else satInc x.readSkips
      malformed := if i.malformed = true then satInc x.malformed else x.malformed
      ptsLess :=
        if i.malformed = false ∧ x.record.isAnchor i = true ∧ i.pusi = true ∧ i.pts = none then satInc x.ptsLess else x.ptsLess
      clockC := pts.getD x.clockC
      clockL := if pts = none then x.clockL else s.lt
      anchored := anchored
      stack := x.stack.map fun e => { e with endTime := e.endTime.map fun t => t + BitVec.ofInt 33 (jump.getD 0) }
      roles :=
        match x.record.role i with
        | some r =>
          if s.bypass = true ∧ i.hasPayload = true then x.roles.set r { x.roles[r] with outLast := i.cc } else x.roles
        | none => x.roles
      slateInsert := x.slateInsert.map SlateReq.counted
      slateRemove := x.slateRemove.map SlateReq.counted
      audit := if missed ≠ [] ∧ x.audit = .out then .none else x.audit } ∧
  (∀ id, id < 128 →
    one.placement id =
      if pending id then (if (tested id).2 = none then (tested id).1 else Placement.vacant) else s.placement id) ∧
  one.log =
    s.logAfter ((match jump with | some d => [(l, .timelineJump d)] | none => []) ++ missedRecords l (decide (x.audit = .out)) missed)

/-! ## Stage 2 (R95, R98, R99) -/

/-- A stack entry as it is made: nothing played, and for a placement a tally of unplayed positions (R94, R95). -/
def Entry.new (kind : Kind) (source : Source) (clips : List Nat) (endTime : Option Pt) (rule : ReturnRule) : Entry :=
  { kind := kind, source := source, clips := clips, current := none, nextIdx := 0, started := false, ptsOffset := 0
    tagOffset := 0, endTime := endTime, rule := rule, endRequested := false, hasBeenTop := false, aired := false
    interrupted := false, returning := false
    tally :=
      match kind with
      | .slate | .alert => []
      | .programme | .advert => List.replicate clips.length { aired := 0, outcome := none }
    maxLag := 0 }

/-- The lane's alert request restarts the alert entry that stands on its stack (R98, R105). -/
abbrev State.Restarts (s : State) (l : Nat) : Prop :=
  (∃ q ∈ (s.lane l).alertReq, q ≠ .remove) ∧ ∃ e ∈ (s.lane l).stack, e.kind = .alert

/-- A stack after the lane's alert request: an INSERT or REPLACE makes an alert entry at the top, or turns the one that stands
there to its profile with the end request cleared; a REMOVE requests the end of the one that stands there (R98). -/
def State.afterAlert (s : State) (l : Nat) : List Entry :=
  let st := (s.lane l).stack
  match (s.lane l).alertReq with
  | none => st
  | some (.insert p) | some (.replace p) =>
    let clips := (s.alert.profileAt p).clips
    if ∃ e ∈ st, e.kind = .alert then
      st.map fun e => if e.kind = .alert then { e with source := .profile p, clips := clips, endRequested := false } else e
    else Entry.new .alert (.profile p) clips none .atEnd :: st
  | some .remove => st.map fun e => if e.kind = .alert then { e with endRequested := true } else e

/-- A stack after a due slate insert: the end request of a slate entry is cleared, else a slate entry is made at the bottom where
the lane has a slate clip (R99). -/
def Lane.afterInsert (x : Lane) (st : List Entry) : List Entry :=
  if ∃ e ∈ st, e.kind = .slate then st.map fun e => if e.kind = .slate then { e with endRequested := false } else e
  else
    match x.record.slateClip with
    | some c => st ++ [Entry.new .slate .laneSlate [c] none .atEnd]
    | none => st

/-- Stage 2: the lane's alert request is applied and cleared, then a due slate insert, then a due slate remove, which requests
the end of a slate entry (R98, R99). -/
def State.Requests (one : State) (l : Nat) (two : State) : Prop :=
  let x := one.lane l
  let insertDue := ∃ q ∈ x.slateInsert, q.due = true
  let removeDue := ∃ q ∈ x.slateRemove, q.due = true
  let st₁ := one.afterAlert l
  let st₂ := if insertDue then x.afterInsert st₁ else st₁
  let st₃ := if removeDue then st₂.map fun e => if e.kind = .slate then { e with endRequested := true } else e else st₂
  two = one.setLane l
    { x with
      alertReq := none, stack := st₃
      slateInsert := if insertDue then none else x.slateInsert
      slateRemove := if removeDue then none else x.slateRemove }

/-! ## Stage 3 (R89, R100 to R103) -/

/-- A placement entry whose list is exhausted (R94). -/
def Entry.listDone (e : Entry) : Bool :=
  decide (e.kind ≠ .slate ∧ e.kind ≠ .alert ∧ e.current = none ∧ e.clips.length ≤ e.nextIdx)

/-- An entry has reached its end (R100). -/
def Entry.ended (e : Entry) (anchored : Bool) (clock : Pt) : Bool :=
  if e.kind = .slate ∨ e.kind = .alert then e.endRequested
  else decide ((anchored = true ∧ ∃ t ∈ e.endTime, ptAtOrAfter clock t = true) ∨ (e.rule = .early ∧ e.listDone = true))

/-- The outcome of a placement whose entry leaves the stack at the ends stage (R89). -/
def outcomeOf (covered : Bool) (p : Placement) (e : Entry) : Outcome :=
  if p.withdrawn = true then .withdrawn
  else if p.earlyReturn = true then .earlyReturn
  else if covered = true then (if e.aired = true then .preempted else .coveredOut)
  else if e.listDone = true then .complete else .truncated

/-- Stage 3, at a slot whose anchor RAP, if it holds one, has PTS `rap`: covered entries that have ended are removed and reported
in stack order; a top that has ended is popped with an entry beneath it, returns to the base at a return point, with realign set
on every role and an IN mark measured, and is returning otherwise; a popped top and a covered entry are reported in order of
placement id (R91, R100 to R103, R191). -/
def State.Ends (two : State) (l : Nat) (clock : Pt) (rap : Option Pt) (three : State) : Prop :=
  let x := two.lane l
  match x.stack with
  | [] => three = two
  | e :: below =>
    let ended (n : Entry) := n.ended x.anchored clock
    let gone := below.filter ended
    let kept := below.filter fun n => !ended n
    let returns := ended e = true ∧ kept = [] ∧ (rap ≠ none ∨ x.monitor.state = .lost)
    let leaves := ended e = true ∧ (kept ≠ [] ∨ returns)
    let measured := returns ∧ x.audit = .into
    three = { two with lanes := three.lanes, placements := three.placements, log := three.log } ∧
    (∀ m, m ≠ l → three.lane m = two.lane m) ∧
    three.lane l =
      { x with
        stack := if leaves then kept else { e with returning := ended e } :: kept
        roles := if returns then vmap (fun k => { k with realign := true }) x.roles else x.roles
        audit := if measured then .none else x.audit } ∧
    (∀ id, three.placement id =
      if onStackOf (gone ++ if leaves then [e] else []) id then Placement.vacant else two.placement id) ∧
    let covered := two.reports (outcomeOf true) clock gone
    let top := if leaves then two.reports (outcomeOf false) clock [e] else []
    let topFirst := ∃ id ∈ e.placementId, ∀ n ∈ gone, ∀ m ∈ n.placementId, id < m
    three.log =
      two.logAfter ((if topFirst then top ++ covered else covered ++ top) ++
        (if measured then
          [(l, .auditIn e.kind rap.isSome e.endTime (rap.getD clock) (spliceError (rap.getD clock) e.endTime))]
        else []))

/-! ## Stage 4 (R85 to R87, R104) -/

/-- Placement `id` is eligible: PENDING on the lane with T known, at an anchor RAP at or after T, or, with the monitor LOST or a
slate entry on the stack, with the anchored clock at or after T (R85). -/
def State.canEnter (s : State) (l : Nat) (clock : Pt) (rap : Option Pt) (id : Nat) : Prop :=
  let x := s.lane l
  (s.placement id).state = .pending ∧ (s.placement id).lane = l ∧
    ∃ t ∈ (s.placement id).t,
      (∃ p ∈ rap, ptAtOrAfter p t = true) ∨
        ((x.monitor.state = .lost ∨ ∃ e ∈ x.stack, e.kind = .slate) ∧ x.anchored = true ∧ ptAtOrAfter clock t = true)

/-- The ids of one kind that are eligible, lowest first (R85). -/
def State.offers (s : State) (l : Nat) (clock : Pt) (rap : Option Pt) (kind : Kind) (ids : List Nat) : Prop :=
  ids.Pairwise (· < ·) ∧ ∀ id, id ∈ ids ↔ id < 128 ∧ (s.placement id).kind = kind ∧ s.canEnter l clock rap id

/-- The start time of an entering placement: the PTS of an anchor RAP at or after T, else the lane clock (R104). -/
def Placement.startAt (p : Placement) (clock : Pt) (rap : Option Pt) : Pt :=
  match rap with
  | some r => if ∃ t ∈ p.t, ptAtOrAfter r t = true then r else clock
  | none => clock

/-- An entry in its place by rank on a stack given top first (R93). -/
def placed (e : Entry) (st : List Entry) : List Entry :=
  (st.takeWhile fun n => decide (e.kind.rank ≤ n.kind.rank)) ++
    e :: st.dropWhile fun n => decide (e.kind.rank ≤ n.kind.rank)

/-- Stage 4: of the eligible placements of each rank the lowest id enters where no entry of its rank stands on the stack, with
entry time S and E = S + D, and every other one is blocked; the first entry notice is measured by an OUT mark; and then the
placements of the stack are ON_AIR at its top and COVERED below it (R86, R87, R104, R190). -/
def State.Entries (three : State) (l : Nat) (clock : Pt) (rap : Option Pt) (four : State) : Prop :=
  let x := three.lane l
  ∃ adverts programmes, three.offers l clock rap .advert adverts ∧ three.offers l clock rap .programme programmes ∧
    let enters (kind : Kind) (ids : List Nat) := if ∃ e ∈ x.stack, e.kind = kind then none else ids.head?
    let advert := enters .advert adverts
    let programme := enters .programme programmes
    let start id := (three.placement id).startAt clock rap
    let entry (kind : Kind) id :=
      Entry.new kind (.placement id) (three.placement id).clips (some (start id + BitVec.ofNat 33 (three.placement id).duration))
        (three.placement id).rule
    let join (kind : Kind) (o : Option Nat) (st : List Entry) :=
      match o with
      | some id => placed (entry kind id) st
      | none => st
    let st := join .programme programme (join .advert advert x.stack)
    let entered := advert.toList ++ programme.toList
    four = { three with lanes := four.lanes, placements := four.placements, log := four.log } ∧
    (∀ m, m ≠ l → four.lane m = three.lane m) ∧
    four.lane l = { x with stack := st, audit := if entered ≠ [] ∧ x.audit = .out then .none else x.audit } ∧
    (∀ id, id < 128 →
      let p := three.placement id
      let q : Placement :=
        if id ∈ entered then
          { p with entryTime := start id, lateCheck := false, blocked := false, withdrawn := false, earlyReturn := false }
        else if id ∈ adverts ∨ id ∈ programmes then { p with blocked := true }
        else p
      four.placement id =
        { q with
          state := if onStackOf st.tail id then .covered else if onStackOf (st.take 1) id then .onAir else q.state }) ∧
    four.log =
      three.logAfter (match entered with
        | id :: _ =>
          let p := three.placement id
          if x.audit = .out then [(l, .auditOut id p.t (some (start id)) (spliceError (start id) p.t) p.preRoll)] else []
        | [] => [])

/-! ## The lookahead (R56, R58, R59, R61 to R63) -/

/-- The list index after `j`, wrapping in the looped list of a slate or alert entry (R58). -/
def Entry.after (e : Entry) (j : Nat) : Nat :=
  if e.kind = .slate ∨ e.kind = .alert then (j + 1) % e.clips.length else j + 1

/-- The lookahead key of a list index and packet of an entry, where its list holds a clip there (R58). -/
def Entry.keyAt (e : Entry) (j k : Nat) : Option LookKey :=
  (e.clips[j]?).map fun id => { source := e.source, index := j, clip := id, packet := k }

/-- The key of an entry's next position: its current clip and packet, else its next index and packet 0 (R58). -/
def Entry.wanted (e : Entry) : Option LookKey :=
  match e.current with
  | some (j, k) => e.keyAt j k
  | none => e.keyAt e.nextIdx 0

/-- A lane's lookahead replaced. -/
def State.looking (s : State) (l : Nat) (k : Look) : State := s.setLane l { s.lane l with look := k }

/-- A lane's stack replaced. -/
def State.stacking (s : State) (l : Nat) (st : List Entry) : State := s.setLane l { s.lane l with stack := st }

/-- Lane `l` has no fetch waiting at the arbiter. -/
def State.unasked (s : State) (l : Nat) : State :=
  { s with router := { s.router with fetchOrder := s.router.fetchOrder.filter fun m => decide (m ≠ l) } }

/-- The lookahead overtaken: a held slot and a request not granted are dropped, a granted fetch is stale (R61). -/
def State.overtaken (s : State) (l : Nat) : State :=
  match (s.lane l).look with
  | .empty => s
  | .full .. => s.looking l .empty
  | .fetching _ _ false _ _ => (s.looking l .empty).unasked l
  | .fetching key a true _ _ => s.looking l (.fetching key a true true false)

/-- A fetch of a slot requested for lane `l`, as a demand fetch or as a prefetch (R16, R59, R62). -/
def State.asking (s : State) (l : Nat) (key : LookKey) (demand : Bool) : State :=
  let s' := s.looking l (.fetching key ((s.clip key.clip).addr + BitVec.ofNat 32 (192 * key.packet)) false false demand)
  { s' with router := { s'.router with fetchOrder := s'.router.fetchOrder ++ [l] } }

/-- A lookahead that holds or fetches another slot than the top's next position is overtaken; a stale one stands until its data
arrives (R61). -/
def State.matched (s : State) (l : Nat) (e : Entry) : State :=
  match (s.lane l).look with
  | .empty => s
  | .fetching _ _ true true _ => s
  | .fetching key _ _ _ _ | .full key _ _ _ => if e.wanted = some key then s else s.overtaken l

/-- A slot read waits for the next slot of the top `e`: a fetch under way becomes its demand fetch, and from EMPTY one is
requested (R18, R62, R63). -/
def State.demanding (s : State) (l : Nat) (e : Entry) : State :=
  match (s.lane l).look, e.wanted with
  | .fetching key a granted stale _, _ => s.looking l (.fetching key a granted stale true)
  | .empty, some key => s.asking l key true
  | .empty, none | .full .., _ => s

/-- The prefetch test: an enabled lane with an EMPTY lookahead, BYPASS not held, requests the next slot of its top entry's current
clip, or slot 0 of its next clip where one has started before and that one is defined; where a slot read waits for it the request
is its demand fetch (R59, R60). -/
def State.prefetched (s : State) (l : Nat) (demand : Bool) : State :=
  match (s.lane l).stack with
  | [] => s
  | e :: _ =>
    if (s.lane l).enabled = true ∧ s.bypass = false ∧ (s.lane l).look = .empty then
      match e.wanted with
      | some key =>
        if (e.current ≠ none ∧ key.packet < (s.clip key.clip).count) ∨
            (e.current = none ∧ e.started = true ∧ (s.clip key.clip).defined = true) then s.asking l key demand
        else s
      | none => s
    else s

/-- The turn of an entry's next clip: from its next index on `n` positions hold undefined clips, MISSING in the tally; then either
a defined clip becomes current at packet 0, or the list has been walked past its end, or a looped list once round (R56). -/
def Entry.Turned (defined : Nat → Bool) (e e' : Entry) : Prop :=
  let looped := e.kind = .slate ∨ e.kind = .alert
  let at_ (m : Nat) := if looped ∧ m ≠ 0 then (e.nextIdx + m) % e.clips.length else e.nextIdx + m
  ∃ n, n ≤ e.clips.length ∧ (∀ m, m < n → ∃ id, e.clips[at_ m]? = some id ∧ defined id = false) ∧
    let skipped : Entry :=
      { e with
        nextIdx := at_ n
        tally := (List.range n).foldl (fun tl m => tl.modify (at_ m) fun t => { t with outcome := some .missing }) e.tally }
    if n < e.clips.length ∧ ∃ id, e.clips[at_ n]? = some id ∧ defined id = true then
      e' = { skipped with current := some (at_ n, 0), started := true }
    else (n = e.clips.length ∨ e.clips[at_ n]? = none) ∧ e' = skipped

/-! ## Stages 5 and 6 (R62 to R65, R105, R106, R108 to R110, R117 to R128) -/

/-- What a slot read comes to: its slot returned, or a wait on the lookahead (R97). -/
inductive Served where
  | returns (slot : List Byte)
  | waits (w : WaitingRead)
  deriving DecidableEq, Repr

/-- The slot read in hand: its lane, its stored slot, and the lane clock as stage 1 left it (R97, R117). -/
structure ReadAt where
  lane : Nat
  slot : List Byte
  clock : Pt

/-- The inspection result of the stored packet. -/
def ReadAt.insp (r : ReadAt) : Insp := inspect (r.slot.drop 4)

/-- The slot with the null packet under its own tag (R51, R108). -/
def ReadAt.null (r : ReadAt) : List Byte := r.slot.take 4 ++ ([0x47, 0x1F, 0xFF, 0x10] ++ List.replicate 184 0xFF)

/-- The current clip of an entry ends with an outcome: the position is decided, and play goes on at the index after it
(R64, R65, R105). -/
def Entry.decided (e : Entry) (o : ClipOutcome) : Entry :=
  match e.current with
  | some (j, _) =>
    { e with current := none, nextIdx := e.after j, tally := e.tally.modify j fun t => { t with outcome := some o } }
  | none => e

/-- An entry covered: its current clip PREEMPTED, interrupted and no longer returning (R105). -/
def Entry.covered (e : Entry) : Entry := { e.decided .preempted with interrupted := true, returning := false }

/-- The held packet of the top `e` is due at tag `t`: at or after its stored tag moved by the tag offset (R119). -/
abbrev Entry.dueAt (e : Entry) (held : List Byte) (t : Rt) : Prop := (t - (slotTag held + e.tagOffset)).toNat < 2 ^ 31

/-- A due packet is drawn from the top `e` of a stack: it goes out rewritten under the role its clip's PID map gives it on the
lane, numbered one on from the role's last where it has a payload, or as the null packet where the map gives none; its position
advances, the lag, the tally and the aired flag follow, and the clip is AIRED when its packets are used up (R57, R64, R110, R119,
R121, R123, R127). -/
def State.Draws (s : State) (r : ReadAt) (e : Entry) (below : List Entry) (held : List Byte) (i : Insp) (t : State)
    (out : List Byte) : Prop :=
  let x := s.lane r.lane
  let lag := (slotTag r.slot - (slotTag held + e.tagOffset)).toNat
  let clip := s.clip ((e.current.bind fun c => e.clips[c.1]?).getD 0)
  let role := x.record.libraryRole clip i
  let drawn : Entry :=
    match e.current with
    | none => e
    | some (j, k) =>
      let played : Entry :=
        { e with
          current := some (j, k + 1), maxLag := max e.maxLag lag, aired := e.aired || role.isSome
          tally := if role = none then e.tally else e.tally.modify j fun n => { n with aired := n.aired + 1 } }
      if k + 1 = clip.count then played.decided .aired else played
  match role with
  | none => t = s.setLane r.lane { x with stack := drawn :: below, look := .empty } ∧ out = r.null
  | some p =>
    let cc := if i.hasPayload = true then x.roles[p].outLast + 1 else x.roles[p].outLast
    t = s.setLane r.lane
      { x with stack := drawn :: below, look := .empty, roles := x.roles.set p { x.roles[p] with outLast := cc } } ∧
    ∃ q, Rewritten (held.drop 4) i x.record.roles[p] cc e.ptsOffset q ∧ out = r.slot.take 4 ++ q

/-- A slot that needs a packet, with a current clip on the top entry `e`, consults the lookahead: a damaged slot ends the clip
DAMAGED and a packet not yet due is kept, both returning the null packet, a due one is drawn, and without the slot the read waits
(R62, R65, R108, R119). -/
def State.Consults (s : State) (r : ReadAt) (e : Entry) (below : List Entry) (t : State) (v : Served) : Prop :=
  let s := s.matched r.lane e
  match (s.lane r.lane).look with
  | .full _ held i damaged =>
    if damaged = true then t = (s.stacking r.lane (e.decided .damaged :: below)).looking r.lane .empty ∧ v = .returns r.null
    else if e.dueAt held (slotTag r.slot) then ∃ out, s.Draws r e below held i t out ∧ v = .returns out
    else t = s ∧ v = .returns r.null
  | .fetching .. | .empty => t = s.demanding r.lane e ∧ v = .waits { lane := r.lane, starting := false, clock := r.clock }

/-- A clip that has just become current on the top entry `e` needs its slot 0: without it the read waits; damaged, the clip ends
DAMAGED and the slot returns the null packet; else its offsets are set, from the start time and the tags of the slot and of
slot 0, and the slot is served from it. A slot on the pass-list is returned as stored either way (R63, R65, R108, R117). -/
def State.Begins (s : State) (r : ReadAt) (start : Pt) (e : Entry) (below : List Entry) (t : State) (v : Served) : Prop :=
  let passes := (s.lane r.lane).record.passes r.insp
  let s := s.matched r.lane e
  match (s.lane r.lane).look with
  | .full _ slot0 _ damaged =>
    if damaged = true then
      t = (s.stacking r.lane (e.decided .damaged :: below)).looking r.lane .empty ∧
        v = .returns (if passes = true then r.slot else r.null)
    else
      let e' : Entry :=
        { e with
          ptsOffset := start - (s.clip ((e.current.bind fun c => e.clips[c.1]?).getD 0)).firstPts
          tagOffset := slotTag r.slot - slotTag slot0 }
      if passes = true then t = s.stacking r.lane (e' :: below) ∧ v = .returns r.slot
      else (s.stacking r.lane (e' :: below)).Consults r e' below t v
  | .fetching .. | .empty => t = s.demanding r.lane e ∧ v = .waits { lane := r.lane, starting := true, clock := start }

/-- Stage 6, by the first row of R108 that applies: a slot on the pass-list as stored; with the base on top the stored packet,
renumbered where it is of a role; with an entry on top the null packet where its list is exhausted, the packet of its current
clip, or a clip's turn at its next position (R108, R109, R128). -/
def State.Serves (s : State) (r : ReadAt) (t : State) (v : Served) : Prop :=
  let x := s.lane r.lane
  let i := r.insp
  if x.record.passes i = true then t = s ∧ v = .returns r.slot
  else
    match x.stack with
    | [] =>
      match x.record.role i with
      | none => t = s ∧ v = .returns r.slot
      | some p =>
        let delta := if x.roles[p].realign = true ∧ i.hasPayload = true then x.roles[p].outLast + 1 - i.cc else x.roles[p].delta
        let outLast := if i.hasPayload = true then i.cc + delta else x.roles[p].outLast
        let realign := x.roles[p].realign && !i.hasPayload
        t = s.setLane r.lane { x with roles := x.roles.set p { outLast := outLast, delta := delta, realign := realign } } ∧
        v = .returns (r.slot.take 4 ++ setCc (r.slot.drop 4) (i.cc + delta))
    | e :: below =>
      if e.listDone = true then t = s ∧ v = .returns r.null
      else if e.current ≠ none then s.Consults r e below t v
      else
        ∃ e', e.Turned (fun id => (s.clip id).defined) e' ∧
          let s' := s.stacking r.lane (e' :: below)
          if e'.current = none then t = s' ∧ v = .returns r.null else s'.Begins r r.clock e' below t v

/-- The top differs between the start of stage 2, in state `one`, and the end of stage 4 (R105). -/
abbrev State.TopChanges (one four : State) (l : Nat) : Prop :=
  one.Restarts l ∨ (one.lane l).stack.head?.map Entry.source ≠ (four.lane l).stack.head?.map Entry.source

/-- The stack once the old top has its due: covered if it still stands there, while a restarted alert entry plays from clip 0
(R105, R106). -/
def State.settledTop (one four : State) (l : Nat) : List Entry :=
  let st := (four.lane l).stack
  if one.Restarts l then
    match st with
    | [] => []
    | e :: below => { e with current := none, nextIdx := 0 } :: below
  else st.map fun e => if (one.lane l).stack.head?.map Entry.source = some e.source then e.covered else e

/-- Placement `id` entered at the entries stage that found state `three`: it was eligible, with no entry of its rank on the stack
and no lower id of its rank eligible (R86, R104). -/
abbrev State.EntersNow (three : State) (l : Nat) (clock : Pt) (rap : Option Pt) (id : Nat) : Prop :=
  let kind := (three.placement id).kind
  id < 128 ∧ (kind = .advert ∨ kind = .programme) ∧ three.canEnter l clock rap id ∧
    (¬ ∃ e ∈ (three.lane l).stack, e.kind = kind) ∧
    ∀ j, j < id → (three.placement j).kind = kind → ¬ three.canEnter l clock rap j

/-- Stages 5 and 6. With the top unchanged the slot is served. A change of top gives the old top its due and overtakes the
lookahead; the new top, if it is an entry whose list is not exhausted, takes a clip's turn with the entry time of a placement that
entered at this read, else the lane clock, as start time, and then the slot is served (R105, R106, R108). -/
def State.Reveals (one three four : State) (r : ReadAt) (t : State) (v : Served) : Prop :=
  let entered := three.EntersNow r.lane r.clock ((three.lane r.lane).record.anchorRap r.insp)
  if ¬ one.TopChanges four r.lane then four.Serves r t v
  else
    let s := (four.stacking r.lane (one.settledTop four r.lane)).overtaken r.lane
    match one.settledTop four r.lane with
    | [] => s.Serves r t v
    | old :: below =>
      let e : Entry := { old with hasBeenTop := true }
      if e.listDone = true then (s.stacking r.lane (e :: below)).Serves r t v
      else
        ∃ e', e.Turned (fun id => (s.clip id).defined) e' ∧
          let s' := s.stacking r.lane (e' :: below)
          if e'.current = none then s'.Serves r t v
          else
            ∃ start, (∀ id, e.source = .placement id → entered id → start = (four.placement id).entryTime) ∧
              ((∀ id, e.source = .placement id → ¬ entered id) → start = r.clock) ∧ s'.Begins r start e' below t v

/-! ## The whole procedure (R97) -/

/-- Stages 1 to 4 of the read `r` at ring index `k`, one state after each. -/
def State.Staged (s : State) (r : ReadAt) (k : Nat) (one two three four : State) : Prop :=
  let rap := (s.lane r.lane).record.anchorRap r.insp
  s.FirstStage r.lane k r.insp one ∧ r.clock = one.clock r.lane ∧ one.Requests r.lane two ∧ two.Ends r.lane r.clock rap three ∧
    three.Entries r.lane r.clock rap four

/-- The end of the procedure of the read `f`, which stands in the forward queue between `pre` and `post`: READY with its slot,
with the prefetch test made, or waiting (R59, R64, R97, R108). -/
def State.Finishes (s : State) (pre : List FwdEntry) (f : FwdEntry) (post : List FwdEntry) (l : Nat) (v : Served) (t : State) :
    Prop :=
  match v with
  | .returns out => t.apart = (({ s.readied pre f post out with wait := none } : State).prefetched l false).apart
  | .waits w => t.apart = ({ s with wait := some w } : State).apart

end Sys2Proof.Machine
end

