-- ==== Sys2Proof/Safety/Status.lean ====
section
/-! DEFINITION. The result words of LANE-STATUS and PLACEMENT-STATUS, field by field as the table of 12.4 lays them out. -/

namespace Sys2Proof.Machine

open Sys2Proof

/-- A line word whose fields are given by their lowest bit, width and value; every other bit is 0 (R192). -/
def packed (fields : List (Nat × Nat × Nat)) : Word :=
  BitVec.ofNat 32 ((fields.map fun f => f.2.2 % 2 ^ f.2.1 * 2 ^ f.1).sum)

/-- The index of the current clip, and 0xFF for none: without a current clip, without a top entry, or off the stack (12.4; the
last two are the model's reading, log 18). -/
def clipPlace (e : Option Entry) : Nat :=
  match e.bind Entry.current with
  | some (j, _) => j
  | none => 0xFF

/-- The result words of LANE-STATUS for lane `l` (R30, R176, 12.4). -/
def State.laneReport (s : State) (l : Nat) : List Word :=
  let x := s.lane l
  let top := x.stack.head?
  let clock := if x.enabled = true then s.clock l else x.clockC
  let ring := s.region x.record.region
  let slots := (ring.limit.toNat - ring.base.toNat) / 192
  let occupancy := if x.enabled = true then (x.writeIndex + slots - x.readIndex) % slots else 0
  let look :=
    match x.look with
    | .empty => 0
    | .fetching .. => 1
    | .full .. => 2
  let monitor :=
    match x.monitor.state with
    | .disabled => 0
    | .blank => 1
    | .good => 2
    | .suspect => 3
    | .lost => 4
    | .recovering => 5
  let kind (i : Nat) :=
    match x.stack[i]? with
    | none => 0
    | some e =>
      match e.kind with
      | .slate => 1
      | .programme => 2
      | .advert => 3
      | .alert => 4
  let countdown (q : Option SlateReq) := (q.map SlateReq.countdown).getD 0
  [packed [(0, 1, x.enabled.toNat), (1, 1, x.record.isSet.toNat), (2, 1, x.anchored.toNat), (3, 1, (top.any Entry.returning).toNat),
      (8, 2, look), (16, 3, monitor), (24, 1, x.monitor.rateAlarm.toNat), (25, 1, x.slateInsert.isSome.toNat),
      (26, 1, x.slateRemove.isSome.toNat)],
    packed [(0, 16, x.writeIndex), (16, 16, x.readIndex)], packed [(0, 16, occupancy), (16, 16, x.monitor.anchorAge)],
    packed [(0, 32, clock.toNat)],
    packed [(0, 1, clock.toNat / 2 ^ 32), (8, 4, kind 0), (12, 4, kind 1), (16, 4, kind 2), (20, 4, kind 3), (24, 8, clipPlace top)],
    packed [(0, 32, (top.map Entry.maxLag).getD 0)], packed [(0, 16, x.strays), (16, 16, x.writeSkips)],
    packed [(0, 16, x.readSkips), (16, 16, x.malformed)], packed [(0, 16, x.ptsLess), (16, 16, x.cueErrors)],
    packed [(0, 16, x.monitor.cont[0].errors), (16, 16, x.monitor.cont[1].errors)],
    packed [(0, 16, x.monitor.cont[2].errors), (16, 16, x.monitor.cont[3].errors)], packed [(0, 32, x.monitor.rateLast)],
    packed [(0, 16, countdown x.slateInsert), (16, 16, countdown x.slateRemove)]]

/-- The result words of PLACEMENT-STATUS for placement `id`, with E, the current clip and the packets aired from its stack entry
(R73, 12.4). -/
def State.placementReport (s : State) (id : Nat) : List Word :=
  let p := s.placement id
  let e := (s.lane p.lane).stack.find? fun n => decide (n.source = .placement id)
  let state :=
    match p.state with
    | .vacant => 0
    | .armed => 1
    | .pending => 2
    | .onAir => 3
    | .covered => 4
  let kind :=
    match p.kind with
    | .slate => 1
    | .programme => 2
    | .advert => 3
    | .alert => 4
  let trigger :=
    match p.trigger with
    | .cue => 0
    | .time => 1
    | .immediate => 2
  let rule :=
    match p.rule with
    | .atEnd => 0
    | .early => 1
  let t := (p.t.getD 0).toNat
  let endTime := ((e.bind Entry.endTime).getD 0).toNat
  let aired := (e.map fun n => (n.tally.map TallyItem.aired).sum).getD 0
  [packed [(0, 3, state), (8, 1, p.t.isSome.toNat), (9, 1, p.lateCheck.toNat), (10, 1, p.blocked.toNat),
      (11, 1, p.withdrawn.toNat), (12, 1, p.earlyReturn.toNat), (16, 8, clipPlace e)],
    packed [(0, 8, p.lane), (8, 8, kind), (16, 8, trigger), (24, 8, rule)], p.avail, packed [(0, 32, p.scheduled.toNat)],
    packed [(0, 1, p.scheduled.toNat / 2 ^ 32), (8, 1, p.takeCueDuration.toNat), (16, 8, p.clips.length)],
    packed [(0, 32, p.duration)], packed [(0, 16, p.clips.getD 0 0), (16, 16, p.clips.getD 1 0)],
    packed [(0, 16, p.clips.getD 2 0), (16, 16, p.clips.getD 3 0)], packed [(0, 16, p.clips.getD 4 0), (16, 16, p.clips.getD 5 0)],
    packed [(0, 32, t)], packed [(0, 1, t / 2 ^ 32), (1, 1, p.entryTime.toNat / 2 ^ 32), (2, 1, endTime / 2 ^ 32), (16, 16, p.preRoll)],
    packed [(0, 32, p.entryTime.toNat)], packed [(0, 32, endTime)], packed [(0, 32, aired)]]

end Sys2Proof.Machine
end

