-- ==== Sys2Proof/Safety/Lines.lean ====
section
/-! DEFINITION. The lines the part writes of itself, field by field as the tables of 12.5 and 12.6 lay them out: the status line, the
records of the log, and the GAP record. -/

namespace Sys2Proof.Machine

open Sys2Proof

/-! ## The status line (R179, 12.5) -/

/-- Alert states (12.5). -/
def AlertState.number : AlertState → Nat
  | .idle => 0
  | .activeCmd => 1
  | .activeLine => 2
  | .activeLatched => 3

/-- Word 4 of the status line: alert state, profile and severity, 0 in IDLE, and lock (R137, 12.5). -/
def AlertCtl.laid (a : AlertCtl) : Word :=
  packed [(0, 2, a.state.number), (8, 2, if a.state = .idle then 0 else a.profile), (16, 3, if a.state = .idle then 0 else a.severity),
    (24, 1, a.lock.toNat)]

/-- The fields of a mask of the 16 lanes whose bit for lane 0 is bit `lo` (12.5). -/
def laneFields (lo : Nat) (p : Nat → Bool) : List (Nat × Nat × Nat) := (List.range 16).map fun l => (lo + l, 1, (p l).toNat)

/-- The 16 words of the status line with a sequence count (R179, 12.5). -/
def State.statusLaid (s : State) (seq : Nat) : List Word :=
  [0x1C5A0016, 1, packed [(0, 1, s.router.controlBase.isSome.toNat)], packed [(0, 32, seq)], s.alert.laid,
    packed [(0, 1, s.bypass.toNat), (1, 1, s.alert.ealFiltered.toNat)],
    packed [(0, 16, s.log.head), (16, 16, s.log.tail)], packed [(0, 16, s.log.lost)],
    packed (laneFields 0 (fun l => (s.lane l).enabled) ++
      laneFields 16 fun l => decide ((s.lane l).enabled = true ∧ (s.lane l).monitor.state = .lost)),
    packed [(0, 16, s.router.strayClaims), (16, 16, s.router.straddles)],
    packed [(0, 16, s.router.logIntrusions), (16, 16, s.cmd.partials)], packed [(0, 16, s.cmd.supersedes)], 0, 0, 0, 0]

/-- Every item the status line carries, other than the sequence count, is the same in two states (R180). -/
def State.sameItems (s t : State) : Prop :=
  (s.router.controlBase.isSome = t.router.controlBase.isSome ∧ s.alert.laid = t.alert.laid ∧ s.bypass = t.bypass ∧
    s.alert.ealFiltered = t.alert.ealFiltered) ∧
  (s.log.head = t.log.head ∧ s.log.tail = t.log.tail ∧ s.log.lost = t.log.lost) ∧
  (∀ l, l < 16 → (s.lane l).enabled = (t.lane l).enabled ∧
    ((s.lane l).enabled = true → ((s.lane l).monitor.state = .lost ↔ (t.lane l).monitor.state = .lost))) ∧
  s.router.strayClaims = t.router.strayClaims ∧ s.router.straddles = t.router.straddles ∧
  s.router.logIntrusions = t.router.logIntrusions ∧ s.cmd.partials = t.cmd.partials ∧ s.cmd.supersedes = t.cmd.supersedes

/-! ## Log records (R187, 12.6) -/

/-- Placement kinds and entry kinds, in the codes of PLACE and LANE-STATUS (12.4, 12.6). -/
def Kind.number : Kind → Nat
  | .slate => 1
  | .programme => 2
  | .advert => 3
  | .alert => 4

/-- Triggers, in the codes of PLACE (12.4, 12.6). -/
def Trigger.number : Trigger → Nat
  | .cue => 0
  | .time => 1
  | .immediate => 2

/-- Outcomes of a placement (12.6). -/
def Outcome.number : Outcome → Nat
  | .complete => 1
  | .truncated => 2
  | .earlyReturn => 3
  | .preempted => 4
  | .coveredOut => 5
  | .missedLate => 6
  | .missedNoEntry => 7
  | .missedBlocked => 8
  | .cancelled => 9
  | .withdrawn => 10
  | .bypassed => 11
  | .abandoned => 12

/-- Clip outcomes (12.6). -/
def ClipOutcome.number : ClipOutcome → Nat
  | .aired => 1
  | .damaged => 2
  | .missing => 3
  | .preempted => 4
  | .cut => 5
  | .skipped => 6

/-- Cue types (12.3, 12.6). -/
def CueType.number : CueType → Nat
  | .out => 1
  | .into => 2
  | .cancel => 3

/-- Reasons of CUE_UNPLACED (12.6). -/
def UnplacedReason.number : UnplacedReason → Nat
  | .noPlacement => 1
  | .tooLate => 2

/-- Alert actions (12.6). -/
def AlertAction.number : AlertAction → Nat
  | .start => 1
  | .replace => 2
  | .finish => 3

/-- Alert reasons (12.6). -/
def AlertReason.number : AlertReason → Nat
  | .command => 1
  | .line => 2
  | .expired => 3
  | .renewal => 4
  | .bypass => 5

/-- Reactions fired, in the codes of ALERT-RENEW (12.4, 12.6). -/
def Reaction.number : Reaction → Nat
  | .warn => 1
  | .release => 2
  | .latch => 3

/-- Monitor states, in the codes of LANE-STATUS (12.4, 12.6). -/
def MonState.number : MonState → Nat
  | .disabled => 0
  | .blank => 1
  | .good => 2
  | .suspect => 3
  | .lost => 4
  | .recovering => 5

/-- Low word of a time value that a record carries; 0 where it is absent. -/
def timeLow (t : Option Pt) : Word := packed [(0, 32, (t.getD 0).toNat)]

/-- Bit 32 of a time value that a record carries; 0 where it is absent. -/
def timeTop (t : Option Pt) : Nat := (t.getD 0).toNat / 2 ^ 32

/-- The word of a clip item: packets aired, and the clip outcome; 0 past the items (12.6). -/
def itemLaid (i : Option ClipItem) : Word :=
  match i with
  | none => 0
  | some c => packed [(0, 24, c.aired), (24, 4, c.outcome.number)]

/-- The clip id of an item; 0 past the items. -/
def itemId (i : Option ClipItem) : Nat := (i.map ClipItem.clip).getD 0

/-- Words 2 to 15 of a PLACEMENT record (12.6). -/
def placementLaid (id : Nat) (kind : Kind) (trigger : Trigger) (avail : Word) (t : Option Pt) (times : Option (Pt × Pt))
    (outcome : Outcome) (maxLag : Nat) (items : List ClipItem) : List Word :=
  let asked := if trigger = .cue then none else t
  let entered := times.map Prod.fst
  let ended := times.map Prod.snd
  [packed [(0, 8, id), (8, 8, kind.number), (16, 8, trigger.number), (24, 8, outcome.number)],
    if trigger = .cue then avail else timeLow asked,
    packed [(0, 1, timeTop asked), (1, 1, asked.isSome.toNat), (2, 1, times.isSome.toNat), (8, 1, timeTop entered),
      (9, 1, timeTop ended), (16, 8, items.length)],
    timeLow entered, timeLow ended, packed [(0, 32, maxLag)],
    itemLaid items[0]?, itemLaid items[1]?, itemLaid items[2]?, itemLaid items[3]?, itemLaid items[4]?, itemLaid items[5]?,
    packed [(0, 8, itemId items[0]?), (8, 8, itemId items[1]?), (16, 8, itemId items[2]?), (24, 8, itemId items[3]?)],
    packed [(0, 8, itemId items[4]?), (8, 8, itemId items[5]?)]]

/-- Words 2 to 15 of a SUPERVISION record: what, new state or alarm level, request posted with what it cancelled, count compared,
slot index, tag, and the countdown of the request (12.6). -/
def supervisionLaid (what level : Nat) (posted : Option PostedSlate) (count slot : Nat) (tag : Rt) : List Word :=
  let request :=
    match posted with
    | none => 0
    | some p => if p.isRemove = true then 2 else 1
  [packed [(0, 8, what), (8, 8, level), (16, 8, request), (24, 1, (posted.any PostedSlate.cancelled).toNat)],
    packed [(0, 32, count)], packed [(0, 32, slot)], tag, packed [(0, 32, (posted.map PostedSlate.countdown).getD 0)],
    0, 0, 0, 0, 0, 0, 0, 0, 0]

/-- Words 2 to 15 of an AUDIT record: edge, placement id, entry kind, at anchor RAP, which times are present; error, time asked, time
measured, pre-roll (12.6). -/
def auditLaid (edge id kind : Nat) (atRap : Bool) (error : Int) (asked actual : Option Pt) (preRoll : Nat) : List Word :=
  [packed [(0, 8, edge), (8, 8, id), (16, 8, kind), (24, 1, atRap.toNat), (25, 1, actual.isSome.toNat), (26, 1, asked.isSome.toNat)],
    BitVec.ofInt 32 error, timeLow asked, packed [(0, 32, timeTop asked)], timeLow actual, packed [(0, 32, timeTop actual)],
    packed [(0, 32, preRoll)], 0, 0, 0, 0, 0, 0, 0]

/-- Kind code and words 2 to 15 of a record (12.6). -/
def RecordBody.laid (b : RecordBody) : Nat × List Word :=
  match b with
  | .placement id kind trigger avail t times outcome maxLag items =>
    (1, placementLaid id kind trigger avail t times outcome maxLag items)
  | .cueUnplaced type avail reason injected =>
    (2, [packed [(0, 8, type.number), (8, 8, reason.number), (16, 1, injected.toNat)], avail, 0, 0, 0, 0, 0, 0, 0, 0, 0, 0, 0, 0])
  | .alert action profile severity reason lanes =>
    (3, [packed [(0, 8, action.number), (8, 8, profile), (16, 8, severity), (24, 8, reason.number)],
      packed (laneFields 0 fun l => lanes.getLsbD l), 0, 0, 0, 0, 0, 0, 0, 0, 0, 0, 0, 0])
  | .renewal profile loopCount reaction =>
    (4, [packed [(0, 8, profile), (8, 8, loopCount), (16, 8, reaction.number)], 0, 0, 0, 0, 0, 0, 0, 0, 0, 0, 0, 0, 0])
  | .monitor state slot tag posted =>
    (5, supervisionLaid 1 state.number posted 0 slot tag)
  | .rate alarm count slot tag => (5, supervisionLaid 2 alarm.toNat none count slot tag)
  | .timelineJump d => (6, [BitVec.ofInt 32 d, BitVec.ofInt 32 (d / 2 ^ 32), 0, 0, 0, 0, 0, 0, 0, 0, 0, 0, 0, 0])
  | .auditOut id t s error preRoll => (7, auditLaid 1 id 0 false error t s preRoll)
  | .auditIn kind atRap e returned error => (7, auditLaid 2 0xFF kind.number atRap error e (some returned) 0)

/-- The 16 words of a record: kind and lane, the LT stamp, and the words of its kind (R187, 12.6). -/
def Record.laid (r : Record) : List Word := packed [(0, 8, r.body.laid.1), (8, 8, r.lane)] :: r.stamp :: r.body.laid.2

/-- The 16 words of a GAP record: its kind with lane 255, Local Time at the grant, and the lost count (R185, R187, 12.6). -/
def gapLaid (lt : Rt) (lost : Nat) : List Word :=
  [packed [(0, 8, 8), (8, 8, 255)], lt, packed [(0, 32, lost)], 0, 0, 0, 0, 0, 0, 0, 0, 0, 0, 0, 0, 0]

end Sys2Proof.Machine
end

