-- ==== Sys2Proof/Safety/Waits.lean ====
section
/-! DEFINITION. What a step makes of the part-originated writes that wait at the arbiter: which of them leave, and which join, in
which order (R16, R173, R175, R180, R184). -/

namespace Sys2Proof.Machine

open Sys2Proof

/-- The step from `s` to `t` makes the status line due: an item it carries has changed, and the part is CLAIMED and not in reset
(R180). -/
def State.StatusDue (s t : State) : Prop := t.router.controlBase ≠ none ∧ t.rst = false ∧ ¬ s.sameItems t

/-- The writes that join in the step from `s` to `t` behind those that `kept` their places: the answers due, lowest command line first,
then the presented log write, then the status line write if it is due, each unless it waits already (R16, R175, R180, R184). -/
def State.Joins (s t : State) (kept joined : List PartWrite) : Prop :=
  ∃ (lines : List Nat) (status : List PartWrite),
    joined = lines.map PartWrite.answer ++ (if t.log.presented ≠ none ∧ .log ∉ kept then [.log] else []) ++ status ∧
    (lines.Pairwise (· < ·) ∧ ∀ n, n ∈ lines ↔ n < 16 ∧ t.AnswerDue n ∧ .answer n ∉ kept) ∧
    (s.StatusDue t → .status ∉ kept → status = [.status]) ∧ (¬ (s.StatusDue t ∧ .status ∉ kept) → status = [])

/-- What waits after the step from `s` to `t`: the writes that waited, in their order, without those that leave, and behind them those
that join. A write leaves only when it is granted, when its answer is dropped, when a REGION-SET withdraws the log write, or when the
part is reset (R10, R16, R19, R20, R173, R184). -/
def State.WaitsOn (s t : State) : Prop :=
  ∃ kept joined,
    t.router.waiting = kept ++ joined ∧ kept.Sublist s.router.waiting ∧ s.Joins t kept joined ∧
    ∀ w ∈ s.router.waiting, w ∉ kept →
      t.router.controlBase = none ∨ (s.pending.head? = some .mPortGrant ∧ ∃ rest, s.PartTurn w rest) ∨
        (∃ n, w = .answer n ∧ ¬ t.AnswerDue n) ∨ (w = .log ∧ s.pending.head? = some .regionSet)

end Sys2Proof.Machine
end

