-- ==== Sys2Proof/Certificates/Slice0/Obligations.lean ====
section
/-! DEFINITION. The statements for the provers. A statement about a step concludes that `exec` answers a next state and says
what that state holds; `apart` and `aside` (Safety.lean) leave out what the close of every step settles, and for a command the
command queue and the answers, of which `Answered` speaks. `logAfter` (Safety/Records.lean) is the Log Writer after the records of
an event, each queued or counted lost (R183); that a write once presented stays presented there is the model's choice (log 24). -/

open Sys2Proof Sys2Proof.Machine

/-! ## Steps, reset -/

/-- A step with a command at the front of the queue is that command's effect on the state with the queue's rest. -/
def Obligations.StepTakesFront : Prop :=
  ∀ (c : Instr) (rest : List Instr) (s : State), step { s with pending := c :: rest } = exec c { s with pending := rest }

/-- With no step waiting one REFCLK period passes (the model's choice, log 2): Local Time gains one, and stays as it is while
RST_N is held; while REFCLK is stopped it holds its value (R193). -/
def Obligations.IdleStepIsOneTick : Prop :=
  ∀ s : State, s.pending = [] →
    step s = .next { s with lt := if s.rst = true ∨ s.refclk = false then s.lt else s.lt + 1 }

/-- Every step that can be presented at all completes, also one whose time has not come or whose event cannot take place (the
model's choice, logs 6 and 8); a request that is none and a lane that does not exist are refused (the model's choice, log 31). -/
def Obligations.StepsCompleteOrRefuse : Prop :=
  ∀ (i : Instr) (s : State),
    (i.wf = true → ∃ t, exec i s = .next t) ∧
    (∀ r, i = .qPortAccept r → r.wf = false → exec i s = .refused .requestMalformed) ∧
    (∀ l, 15 < l → i = .slateCountdownExpiry l ∨ i = .laneClockFold l → exec i s = .refused .noSuchLane)

/-- What RST_N leaves, where the rules give the value (R1, R6, R8, R15, R19, R20, R21, R26, R31, R32, R36, R38, R52, R58, R68,
R69, R75, R93, R96, R134, R153, R154, R155, R181, R182, R183, R189, R193). -/
def Obligations.ResetValues : Prop :=
  (State.reset.lt = 0 ∧ State.reset.router.controlBase = none ∧ State.reset.router.forward = [] ∧
    State.reset.router.inFlight = [] ∧ State.reset.router.waiting = [] ∧ State.reset.router.fetchOrder = [] ∧
    State.reset.router.waitCount = 0 ∧ State.reset.router.strayClaims = 0 ∧ State.reset.router.straddles = 0 ∧
    State.reset.router.logIntrusions = 0) ∧
  (∀ i, i < 32 → State.reset.region i = { role := .none, base := 0, limit := 0, lane := 0 }) ∧
  (State.reset.cmd.queue = [] ∧ State.reset.cmd.answers = [] ∧ State.reset.cmd.partials = 0 ∧
    State.reset.cmd.supersedes = 0 ∧ State.reset.cmd.statusSeq = 0) ∧
  (∀ l, l < 16 →
    let x := State.reset.lane l
    x.enabled = false ∧ x.writeIndex = 0 ∧ x.readIndex = 0 ∧ x.clockC = 0 ∧ x.clockL = 0 ∧ x.anchored = false ∧
    x.roles = Vector.replicate 4 { outLast := 0, delta := 0, realign := false } ∧ x.recent = [] ∧ x.strays = 0 ∧
    x.writeSkips = 0 ∧ x.readSkips = 0 ∧ x.malformed = 0 ∧ x.ptsLess = 0 ∧ x.cueErrors = 0 ∧ x.stack = [] ∧
    x.alertReq = none ∧ x.slateInsert = none ∧ x.slateRemove = none ∧ x.look = .empty ∧ x.audit = .none ∧
    (x.monitor.state = .disabled ∧ x.monitor.blankStart = none ∧ x.monitor.anchorIndex = none ∧ x.monitor.anchorAge = 0 ∧
      x.monitor.recoveryAge = 0 ∧ x.monitor.anchorAbsent = false ∧ x.monitor.rateAlarm = false ∧ x.monitor.rateCount = 0 ∧
      x.monitor.rateLast = 0 ∧
      ∀ r : Fin 4, x.monitor.cont[r].seen = false ∧ x.monitor.cont[r].duplicate = false ∧ x.monitor.cont[r].errors = 0) ∧
    x.record.isSet = false ∧ x.record.zone = 0 ∧ x.record.region = 0 ∧
    x.record.roles = Vector.replicate 4 0x1FFF ∧ x.record.passList = [] ∧ x.record.cuePid = 0x1FFF ∧
    x.record.entryWindow = 0 ∧ x.record.jumpLimit = 9000 ∧ x.record.slateClip = none ∧ x.record.gapLimit = 500 ∧
    x.record.lossFilter = 200 ∧ x.record.goodFilter = 1000 ∧ x.record.blankTime = 2000 ∧ x.record.rateInterval = 100 ∧
    x.record.rateThreshold = 0 ∧ x.record.rateMode = .off ∧ x.record.rateAsLoss = false) ∧
  (∀ id, id < 256 → State.reset.clip id = { defined := false, addr := 0, count := 0, firstPts := 0, pidMap := [] }) ∧
  (∀ id, id < 128 →
    let p := State.reset.placement id
    p.state = .vacant ∧ p.lane = 0 ∧ p.kind = .advert ∧ p.trigger = .immediate ∧ p.avail = 0 ∧ p.scheduled = 0 ∧
    p.duration = 1 ∧ p.takeCueDuration = false ∧ p.rule = .atEnd ∧ p.clips = [] ∧ p.t = none ∧ p.lateCheck = false ∧
    p.blocked = false ∧ p.preRoll = 0 ∧ p.entryTime = 0 ∧ p.withdrawn = false ∧ p.earlyReturn = false) ∧
  (State.reset.alert.state = .idle ∧ State.reset.alert.loopCount = 0 ∧ State.reset.alert.reactionFired = false ∧
    State.reset.alert.linePending = false ∧ State.reset.alert.lock = false ∧ State.reset.alert.ealFiltered = false ∧
    State.reset.alert.profile = 0 ∧ State.reset.alert.severity = 0 ∧ State.reset.alert.heldSeconds = 0 ∧
    State.reset.alert.holdMark = 0 ∧ State.reset.alert.periodStart = 0 ∧
    ∀ p, p < 4 → State.reset.alert.profileAt p =
      { defined := false, zones := 0, severity := 1, clips := [], holdLimit := 1, period := 10, lockedFraction := 0,
        loopLimit := 2, reaction := .warn }) ∧
  (State.reset.log.head = 0 ∧ State.reset.log.tail = 0 ∧ State.reset.log.queue = [] ∧ State.reset.log.lost = 0 ∧
    State.reset.log.presented = none)

/-- The state after reset has every law that every step keeps (R20, R26, R58, R60, R87, R93, R108, R113, R150, R171, R183). -/
def Obligations.ResetKeepsLaws : Prop :=
  State.reset.MemoryOk ∧ State.reset.StackLaws ∧ State.reset.QueueLaws ∧ State.reset.LoopOk ∧ State.reset.ReturnLaws ∧
    State.reset.UnclaimedOk ∧ State.reset.DisabledOk ∧ State.reset.LooksOk

/-! ## Laws that every step keeps -/

/-- Every step keeps the canonical form of memory. -/
def Obligations.StepKeepsMemory : Prop := ∀ s t : State, s.MemoryOk → step s = .next t → t.MemoryOk

/-- Every step keeps the order of every stack (R93). -/
def Obligations.StepKeepsStackOrder : Prop := ∀ s t : State, s.StacksOk → step s = .next t → t.StacksOk

/-- Every step keeps the law of placements: ON_AIR exactly at the top of its lane's stack, COVERED exactly below it, one entry
at most (R87), together with the order of the stacks (R93). -/
def Obligations.StepKeepsPlacements : Prop := ∀ s t : State, s.StackLaws → step s = .next t → t.StackLaws

/-- Every step keeps the bounds of the queues: 32 forward entries (R1), a wait count of 8 (R17), one queued command for each of
the 16 lines (R171), 8 queued records (R183); and what waits at the arbiter: no write twice, an answer exactly where one is due, its
command executed and its host write granted (R175), the log write exactly where one is presented (R184), the status line write only
while CLAIMED and out of reset (R180). The writes that wait keep their order and leave only when granted, when a rewrite drops their
answer (R173), when a REGION-SET of the LOG entry withdraws the log write (R10), or at a reset (R19, R20); behind them join, in this
order, the answers newly due, lowest line first, the log write newly presented, and the status line write where the step changed an
item it carries (R16, R180). The host write that delivered a superseding command is its own write (the model's choice, log 28). -/
def Obligations.StepKeepsQueues : Prop :=
  ∀ s t : State, s.QueueLaws → step s = .next t → t.QueueLaws ∧ s.WaitsOn t

/-- Every step keeps the law of the loop count (R150). -/
def Obligations.StepKeepsLoopCount : Prop := ∀ s t : State, s.LoopOk → step s = .next t → t.LoopOk

/-- Every step keeps the tag half of the law of the slot (R108) and the law of the BYPASS line (R113), and what a FULL lookahead
holds: the 192 bytes of a slot with the inspection result of its packet (R58, R60). The pass-list half of the law of the slot is
stated with the slot reads. -/
def Obligations.StepKeepsReturns : Prop :=
  (∀ s t : State, s.ReturnLaws → step s = .next t → t.ReturnLaws) ∧
    ∀ s t : State, s.LooksOk → step s = .next t → t.LooksOk

/-- While UNCLAIMED every step leaves the part at its reset values and originating nothing (R4, R5, R20). -/
def Obligations.StepKeepsUnclaimed : Prop := ∀ s t : State, s.UnclaimedOk → step s = .next t → t.UnclaimedOk

/-- Every step leaves a disabled lane with nothing on air and nothing pending (R26). -/
def Obligations.StepKeepsDisabled : Prop := ∀ s t : State, s.DisabledOk → step s = .next t → t.DisabledOk

/-! ## Q_PORT_ACCEPT (chapter 1) -/

/-- With 32 entries present a request is not accepted and changes nothing; with room it joins the tail as presented, its six low
address bits taken as zero, and while UNCLAIMED or in reset it is only forwarded, unless it is a claim line (R1, R5, R19). -/
def Obligations.AcceptHoldsOrForwards : Prop :=
  ∀ (s : State) (r : QRequest), r.wf = true →
    (32 ≤ s.router.forward.length → ∃ t, exec (.qPortAccept r) s = .next t ∧ t.apart = s.apart) ∧
    (s.HasRoom → s.rst = true ∨ (s.router.controlBase = none ∧ r.aligned.isClaim = false) →
      ∃ t, exec (.qPortAccept r) s = .next t ∧ t.apart = (s.joined r.aligned .plain).apart ∧
        r.aligned.addr.toNat = r.addr.toNat / 64 * 64 ∧ r.aligned.lines = r.lines ∧ r.aligned.data = r.data)

/-- A claim line accepted while UNCLAIMED makes its address the control base, is forwarded, and makes a status line write
wait (R5, R6). -/
def Obligations.AcceptClaimLine : Prop :=
  ∀ (s : State) (a : Word), s.HasRoom → s.rst = false → s.router.controlBase = none → a.toNat % 65536 = 0 →
    let q := QRequest.write a
      (wordsBytes [0x1C5A0016, 0xE3A5FFE9, 1, 0, 0, 0, 0, 0, 0, 0, 0, 0, 0, 0, 0, 0]) (List.replicate 64 true)
    ∃ t, exec (.qPortAccept q) s = .next t ∧ t.router.controlBase = some a ∧ PartWrite.status ∈ t.router.waiting ∧
      t.apart = ((({ s with router := { s.router with controlBase := some a } } : State)).joined q .plain).apart

/-- Accepted while CLAIMED: a straddle, a host write into the LOG region and a stray of a live ring are forwarded and counted, a
claim line is counted and leaves the control base (R7, R11, R13, R14, R15, R31). -/
def Obligations.AcceptCounts : Prop :=
  ∀ (s : State) (r : QRequest), r.wf = true → s.Classifies →
    let q := r.aligned
    ((∃ x ∈ q.lineAddrs, ∃ y ∈ q.lineAddrs, s.areaOf x ≠ s.areaOf y) →
      ∃ t, exec (.qPortAccept r) s = .next t ∧
        t.apart = ((({ s with router := { s.router with straddles := satInc s.router.straddles } } : State)).joined q
          .straddle).apart) ∧
    (∀ i, q.isWrite = true → s.WhollyIn q (.region i) → (s.region i).role = .log →
      ∃ t, exec (.qPortAccept r) s = .next t ∧
        t.apart = ((countStrayClaim q
          ({ s with router := { s.router with logIntrusions := satInc s.router.logIntrusions } } : State)).joined q
          .logIntrusion).apart) ∧
    (∀ i l, s.LiveRing i l → s.WhollyIn q (.region i) → ¬ s.SlotShape i q →
      ∃ t, exec (.qPortAccept r) s = .next t ∧
        t.apart = (((countStrayClaim q s).onLane l fun x => { x with strays := satInc x.strays }).joined q (.stray l)).apart) ∧
    (q.isClaim = true →
      ∃ t, exec (.qPortAccept r) s = .next t ∧ t.router.controlBase = s.router.controlBase ∧
        t.router.strayClaims = satInc s.router.strayClaims ∧ t.mem = s.mem ∧
        ∃ c, t.router.forward = s.router.forward ++ [FwdEntry.fresh q c])

/-- Accepted while CLAIMED: reads and free lines of the control region, unmapped space, LIBRARY regions, reads of the LOG region
and rings that are not live are only forwarded; a slot read of a live ring is forwarded under its class (R12, R13, R14). -/
def Obligations.AcceptForwards : Prop :=
  ∀ (s : State) (r : QRequest), r.wf = true → s.Classifies →
    let q := r.aligned
    ((s.WhollyIn q .control → q.isWrite = false ∨ 16 ≤ s.controlLine q →
        ∃ t, exec (.qPortAccept r) s = .next t ∧ t.apart = ((countStrayClaim q s).joined q .plain).apart) ∧
      (s.WhollyIn q .unmapped →
        ∃ t, exec (.qPortAccept r) s = .next t ∧ t.apart = ((countStrayClaim q s).joined q .plain).apart)) ∧
    (∀ i, s.WhollyIn q (.region i) →
      ((s.region i).role = .library ∨ ((s.region i).role = .log ∧ q.isWrite = false) ∨
          ((s.region i).role = .ring ∧ ¬ s.LiveRing i (s.region i).lane) →
        ∃ t, exec (.qPortAccept r) s = .next t ∧ t.apart = ((countStrayClaim q s).joined q .plain).apart) ∧
      (∀ l, s.LiveRing i l → s.SlotAligned i q → q.readOf 3 = true →
        ∃ t, exec (.qPortAccept r) s = .next t ∧
          t.apart = (s.joined q (.slotRead l (s.regionOffset i q / 192))).apart))

/-- A slot write of a live ring is forwarded as written, and the lane's write index follows it, counting a skip where it came at
another index (R13, R28). Then its packet goes to cue intake, where a packet on the cue PID is a cue, a cue error or nothing
(R74, R75, R77 to R81), and then to the monitor: blank start, anchor items, continuity check, rate interval, the moves of the
monitor and the slate requests they post with their countdowns, whose records are handed over in step order (R156 to R165, R168).
With a packet not on the cue PID nothing of the lane changes but its write index, its write skips, its monitor and its slate
requests. A cue finds only placements of trigger CUE, and the recovery age counts every write (the model's readings, logs 13
and 23); a placement that ends MISSED hands over its report and then its AUDIT record (the model's choice, log 40). -/
def Obligations.AcceptSlotWrite : Prop :=
  ∀ (s : State) (r : QRequest) (i l : Nat), r.wf = true → s.Classifies → s.LiveRing i l →
    s.WhollyIn r.aligned (.region i) → s.SlotAligned i r.aligned → r.aligned.fullWrite 3 = true →
    let q := r.aligned
    let w := s.regionOffset i q / 192
    let n := ((s.region i).limit.toNat - (s.region i).base.toNat) / 192
    let packet := inspect (q.data.drop 4)
    let followed := s.onLane l fun x =>
      { x with writeIndex := (w + 1) % n, writeSkips := if w = x.writeIndex then x.writeSkips else satInc x.writeSkips }
    ∃ t taken x records, exec (.qPortAccept r) s = .next t ∧
      (followed.CuePacket l (q.data.drop 4) packet taken ∧
        (taken.lane l).watched n w (slotTag q.data) packet = (x, records) ∧
        t.apart = (((({ taken with log := taken.logAfter (records.map fun b => (l, b)) } : State)).setLane l x).joined q
          (.slotWrite l w)).apart) ∧
      t.router.forward = s.router.forward ++ [FwdEntry.fresh q (.slotWrite l w)] ∧
      (t.lane l).writeIndex = (w + 1) % n ∧
      (t.lane l).writeSkips = (if w = (s.lane l).writeIndex then (s.lane l).writeSkips else satInc (s.lane l).writeSkips) ∧
      (∀ m, m ≠ l → t.lane m = s.lane m) ∧
      (t.mem = s.mem ∧ t.clips = s.clips ∧ t.alert = s.alert ∧ t.wait = s.wait ∧ t.cmd = s.cmd ∧ t.lt = s.lt ∧
        t.router.regions = s.router.regions ∧ t.router.controlBase = s.router.controlBase ∧
        t.router.inFlight = s.router.inFlight ∧ t.router.fetchOrder = s.router.fetchOrder) ∧
      (if (s.lane l).record.isAnchor packet then
          (t.lane l).monitor.anchorTag = slotTag q.data ∧ (t.lane l).monitor.anchorIndex = some w ∧
            (t.lane l).monitor.anchorAge = 0 ∧ (t.lane l).monitor.anchorAbsent = false
        else
          (t.lane l).monitor.anchorIndex = (s.lane l).monitor.anchorIndex ∧
            (t.lane l).monitor.anchorAge = satInc (s.lane l).monitor.anchorAge) ∧
      ((s.lane l).record.onCuePid packet = false →
        t.placements = s.placements ∧
        t.lane l =
          { s.lane l with
            writeIndex := (t.lane l).writeIndex, writeSkips := (t.lane l).writeSkips, monitor := (t.lane l).monitor,
            slateInsert := (t.lane l).slateInsert, slateRemove := (t.lane l).slateRemove })

/-- A command is taken from a full-line write of a command line whose word 0 is not 0: its 16 words are captured in the place of
the line's queued command, which it supersedes, else at the tail, where it drops the line's answer if one is pending and is not
UNCLAIM's DONE answer (R169, R171, R172, R173). By the model's choice a superseding entry takes a new take number, so that its
answer waits for its own write (log 28), a take on the line of UNCLAIM's DONE answer counts no supersede (log 15), and a LOCKED or
BUSY answer of UNCLAIM is dropped like any other (log 38). -/
def Obligations.AcceptTakesCommand : Prop :=
  ∀ (s : State) (r : QRequest), r.wf = true → s.Classifies →
    let q := r.aligned
    let n := s.controlLine q
    let words := lineWords q.data
    s.WhollyIn q .control → n ≤ 15 → q.fullWrite 1 = true → wordAt words 0 ≠ 0 →
    ∃ t, exec (.qPortAccept r) s = .next t ∧
      t.aside = ((countStrayClaim q
        ({ s with cmd := { s.cmd with takes := s.cmd.takes + 1, supersedes := t.cmd.supersedes } } : State)).joined q
        (.command s.cmd.takes)).aside ∧
      (if ∃ c ∈ s.cmd.queue, c.line = n then
          t.cmd.queue = (s.cmd.queue.map fun c =>
            if c.line = n then { line := n, words := words, take := s.cmd.takes } else c) ∧
          t.cmd.answers = s.cmd.answers ∧ t.cmd.supersedes = satInc s.cmd.supersedes
        else
          t.cmd.queue = s.cmd.queue ++ [{ line := n, words := words, take := s.cmd.takes }] ∧
          if ∃ a ∈ s.cmd.answers, a.line = n ∧ a.isUnclaim = false then
            t.cmd.answers = (s.cmd.answers.filter fun a => decide (a.line ≠ n)) ∧
            t.cmd.supersedes = satInc s.cmd.supersedes
          else t.cmd.answers = s.cmd.answers ∧ t.cmd.supersedes = s.cmd.supersedes)

/-- A full-line write whose word 0 is 0 cancels: it removes the line's queued command, else drops its pending answer, and counts
a supersede for either (R169, R172, R173); any other write that starts on a command line is a partial command, counted and
otherwise only forwarded (R170). By the model's choice a cancel on the line of UNCLAIM's DONE answer counts no supersede (log 15),
and a LOCKED or BUSY answer of UNCLAIM is dropped like any other (log 38). -/
def Obligations.AcceptCancelsOrCounts : Prop :=
  ∀ (s : State) (r : QRequest), r.wf = true → s.Classifies →
    let q := r.aligned
    let n := s.controlLine q
    s.WhollyIn q .control → n ≤ 15 → q.isWrite = true →
    (q.fullWrite 1 = true → wordAt (lineWords q.data) 0 = 0 →
      ∃ t, exec (.qPortAccept r) s = .next t ∧
        t.aside = ((({ s with cmd := { s.cmd with supersedes := t.cmd.supersedes } } : State)).joined q .offered).aside ∧
        (if ∃ c ∈ s.cmd.queue, c.line = n then
            t.cmd.queue = (s.cmd.queue.filter fun c => decide (c.line ≠ n)) ∧ t.cmd.answers = s.cmd.answers ∧
              t.cmd.supersedes = satInc s.cmd.supersedes
          else
            t.cmd.queue = s.cmd.queue ∧
            if ∃ a ∈ s.cmd.answers, a.line = n ∧ a.isUnclaim = false then
              t.cmd.answers = (s.cmd.answers.filter fun a => decide (a.line ≠ n)) ∧
              t.cmd.supersedes = satInc s.cmd.supersedes
            else t.cmd.answers = s.cmd.answers ∧ t.cmd.supersedes = s.cmd.supersedes)) ∧
    (q.fullWrite 1 = false →
      ∃ t, exec (.qPortAccept r) s = .next t ∧
        t.apart = ((({ s with cmd := { s.cmd with partials := satInc s.cmd.partials } } : State)).joined q .offered).apart)

/-! ## M_PORT_GRANT (sections 1.1, 1.5) -/

/-- The oldest QUEUED entry, a WRITE, is granted: memory takes its enabled bytes and no other, and the entry leaves
(R1, R2, R16). -/
def Obligations.GrantForwardWrite : Prop :=
  ∀ (s : State) (pre post : List FwdEntry) (f : FwdEntry) (a : Word) (d : List Byte) (e : List Bool),
    s.MemoryOk → s.NotForced → s.NoDemand → s.FirstIn .queued pre f post → f.req = .write a d e → d.length ≤ 256 →
    ∃ t, exec .mPortGrant s = .next t ∧
      t.apart = ({ s with
        mem := t.mem
        router := { s.router with forward := pre ++ post, mPort := some (.write a d e) } } : State).apart ∧
      (∀ j, j < d.length → e[j]? = some true → t.mem.read (addrPlus a j) = d.getD j 0) ∧
      (∀ x, (∀ j, j < d.length → e[j]? = some true → addrPlus a j ≠ x) → t.mem.read x = s.mem.read x)

/-- The oldest QUEUED entry, a READ, is granted: it becomes GRANTED, and its data is what memory holds at the grant
(R1, R2, R16). -/
def Obligations.GrantForwardRead : Prop :=
  ∀ (s : State) (pre post : List FwdEntry) (f : FwdEntry) (a : Word) (n : Nat),
    s.NotForced → s.NoDemand → s.FirstIn .queued pre f post → f.req = .read a n →
    let data := (List.range (64 * n)).map fun j => s.mem.read (addrPlus a j)
    ∃ t, exec .mPortGrant s = .next t ∧
      t.apart = ({ s with router := { s.router with
        forward := pre ++ { f with state := .granted } :: post
        inFlight := s.router.inFlight ++ [{ owner := .forward, data := data }]
        mPort := some (.read a n) } } : State).apart

/-- An answer is granted: bytes 4 to 63 of its command line take the answer code and the result words, byte 0 to 3 and all other
memory stay, and its line leaves the answer-pending set (R4, R16, R175). -/
def Obligations.GrantAnswer : Prop :=
  ∀ (s : State) (b : Word) (n : Nat) (rest : List PartWrite) (a : Answer),
    s.MemoryOk → s.router.controlBase = some b → s.PartTurn (.answer n) rest →
    (s.cmd.answers.find? fun x => decide (x.line = n)) = some a → a.isUnclaim = false → a.results.length = 14 →
    let line := b + BitVec.ofNat 32 (64 * n)
    let bytes := wordsBytes ([0, BitVec.ofNat 32 a.code.code] ++ a.results)
    ∃ t, exec .mPortGrant s = .next t ∧
      t.apart = ({ s with
        mem := t.mem
        cmd := { s.cmd with answers := s.cmd.answers.filter fun x => decide (x.line ≠ n) }
        router := { s.router with
          mPort := some (.write line bytes (List.replicate 4 false ++ List.replicate 60 true)) } } : State).apart ∧
      (∀ j, 4 ≤ j → j < 64 → t.mem.read (addrPlus line j) = bytes.getD j 0) ∧
      (∀ x, ¬ Within line 4 64 x → t.mem.read x = s.mem.read x)

/-- The DONE answer of UNCLAIM is granted and reaches bytes 4 to 63 of its line, and UNCLAIM takes effect: every block at its
reset values; of what is in the memory path a QUEUED or GRANTED entry stands as it was and a read that has its data is READY with
what memory gave, all only forwarded from then on, and the data of a fetch will be discarded; Local Time, the lines and memory but
for the answer untouched (R4, R19, R20, R145, R153, R175, R178, R181). That a read already READY returns its slot as memory gave
it, and one ARRIVED becomes READY at once, is the model's reading (log 11); that a clip is in use from then on while a granted
fetch of it has not arrived, and no other clip is (R66), its choice between the rules (log 36). -/
def Obligations.GrantUnclaimAnswer : Prop :=
  ∀ (s : State) (b : Word) (n : Nat) (rest : List PartWrite) (a : Answer),
    s.router.controlBase = some b → s.PartTurn (.answer n) rest →
    (s.cmd.answers.find? fun x => decide (x.line = n)) = some a → a.isUnclaim = true → a.results.length = 14 →
    let line := b + BitVec.ofNat 32 (64 * n)
    let bytes := wordsBytes ([0, BitVec.ofNat 32 a.code.code] ++ a.results)
    ∃ t, exec .mPortGrant s = .next t ∧
      (t.router.controlBase = none ∧ t.router.waiting = [] ∧ t.router.fetchOrder = [] ∧ t.router.waitCount = 0 ∧
        t.router.strayClaims = 0 ∧ t.router.straddles = 0 ∧ t.router.logIntrusions = 0 ∧
        t.router.regions = State.reset.router.regions) ∧
      (t.cmd.queue = [] ∧ t.cmd.answers = [] ∧ t.cmd.partials = 0 ∧ t.cmd.supersedes = 0 ∧ t.cmd.statusSeq = 0) ∧
      (t.lanes = State.reset.lanes ∧ t.clips = State.reset.clips ∧ t.placements = State.reset.placements ∧
        t.wait = none ∧ t.log = State.reset.log) ∧
      t.alert = { State.reset.alert with ealMark := if s.eal then some s.lt else none } ∧
      (t.router.forward = s.router.forward.map FwdEntry.asPlain ∧
        t.router.inFlight = s.router.inFlight.map InFlight.discarded) ∧
      (∀ id, t.clipInUse id = true ↔ ∃ f ∈ s.router.inFlight, ∃ l orphan, f.owner = .fetch l id orphan) ∧
      (t.lt = s.lt ∧ t.refclk = s.refclk ∧ t.rst = s.rst ∧ t.bypass = s.bypass ∧ t.eal = s.eal ∧ t.pending = s.pending) ∧
      t.router.mPort = some (.write line bytes (List.replicate 4 false ++ List.replicate 60 true)) ∧
      (s.MemoryOk → ∀ j, 4 ≤ j → j < 64 → t.mem.read (addrPlus line j) = bytes.getD j 0) ∧
      (∀ x, ¬ Within line 4 64 x → t.mem.read x = s.mem.read x)

/-- The status line is granted: line 16 of the control region takes its 16 words as they stand at the grant, laid out field by field
by the table of 12.5 (Safety/Lines.lean), with the sequence count one on, and nothing else changes (R4, R16, R179). -/
def Obligations.GrantStatusLine : Prop :=
  ∀ (s : State) (b : Word) (rest : List PartWrite),
    s.MemoryOk → s.router.controlBase = some b → s.PartTurn .status rest →
    let line := b + 1024
    let seq := (s.cmd.statusSeq + 1) % 2 ^ 32
    let bytes := wordsBytes (s.statusLaid seq)
    ∃ t, exec .mPortGrant s = .next t ∧
      t.apart = ({ s with
        mem := t.mem
        cmd := { s.cmd with statusSeq := seq }
        router := { s.router with mPort := some (.write line bytes (List.replicate 64 true)) } } : State).apart ∧
      (∀ j, j < 64 → t.mem.read (addrPlus line j) = bytes.getD j 0) ∧
      (∀ x, ¬ Within line 0 64 x → t.mem.read x = s.mem.read x)

/-- A log write is granted at the line of the head: the write that was presented, the oldest queued record, which leaves the queue, or
a GAP with Local Time and the lost count as they stand at the grant, which becomes 0, each laid out field by field by the table of 12.6
(Safety/Lines.lean); the head goes one on, and the next write is presented at once where there is one and the ring is not full, a GAP
where records are lost (R184, R185, R187). By the model's choice a record that was presented before a record was lost is written as it
was presented, before the GAP that has become due meanwhile, where the plain words of R185 let a due GAP go ahead of every queued
record (log 24); that reading also stands behind what every other statement says of the write presented. -/
def Obligations.GrantLogLine : Prop :=
  ∀ (s : State) (base : Word) (c : Nat) (w : LogWrite) (rest : List PartWrite) (r : Record) (queue : List Record),
    s.MemoryOk → s.logRing = some (base, c) → s.log.presented = some w → s.PartTurn .log rest →
    (w = .record → s.log.queue = r :: queue) → (w = .gap → s.log.queue = queue) →
    let line := base + BitVec.ofNat 32 (64 * s.log.head)
    let bytes := wordsBytes (if w = .gap then gapLaid s.lt s.log.lost else r.laid)
    let head := (s.log.head + 1) % c
    let lost := if w = .gap then 0 else s.log.lost
    let next := if (head + 1) % c = s.log.tail then none else if 0 < lost then some LogWrite.gap
      else if queue = [] then none else some LogWrite.record
    ∃ t, exec .mPortGrant s = .next t ∧
      t.apart = ({ s with
        mem := t.mem
        log := { s.log with head := head, queue := queue, lost := lost, presented := next }
        router := { s.router with mPort := some (.write line bytes (List.replicate 64 true)) } } : State).apart ∧
      (∀ j, j < 64 → t.mem.read (addrPlus line j) = bytes.getD j 0) ∧
      (∀ x, ¬ Within line 0 64 x → t.mem.read x = s.mem.read x)

/-- A library fetch is granted: three lines are read as memory holds them at the grant, and the lookahead's fetch is marked
granted (R16, R18, R58, R59). -/
def Obligations.GrantFetch : Prop :=
  ∀ (s : State) (l : Nat) (key : LookKey) (a : Word) (stale demand : Bool),
    s.FetchTurn l → (s.lane l).look = .fetching key a false stale demand →
    let data := (List.range 192).map fun j => s.mem.read (addrPlus a j)
    ∃ t, exec .mPortGrant s = .next t ∧
      t.apart = (({ s with router := { s.router with
            fetchOrder := s.router.fetchOrder.filter fun m => decide (m ≠ l)
            inFlight := s.router.inFlight ++ [{ owner := .fetch l key.clip false, data := data }]
            mPort := some (.read a 3) } } : State).onLane l fun x =>
        { x with look := .fetching key a true stale demand }).apart

/-- The wait count: a grant to another source while a part-originated write waits adds one, and the writes that wait keep their places;
at 8 the oldest waiting write is granted whatever else waits, and so it is where nothing else waits: it leaves, those behind it keep
their order, and the count is 0; and with none waiting the count is 0 (R16, R17). With the DONE answer of UNCLAIM granted none waits
any more (R20, R178). -/
def Obligations.GrantCountsWaits : Prop :=
  ∀ s : State, ∃ t, exec .mPortGrant s = .next t ∧
    (s.router.waiting ≠ [] → s.router.waitCount < 8 →
      s.router.fetchOrder ≠ [] ∨ (∃ f ∈ s.router.forward, f.state = .queued) →
      t.router.waitCount = s.router.waitCount + 1 ∧ ∃ more, t.router.waiting = s.router.waiting ++ more) ∧
    (s.router.waiting ≠ [] → 8 ≤ s.router.waitCount → ∃ w rest, s.PartTurn w rest) ∧
    (∀ w rest, s.PartTurn w rest →
      let unclaims := ∃ n a, w = .answer n ∧ (s.cmd.answers.find? fun x => decide (x.line = n)) = some a ∧ a.isUnclaim = true
      t.router.waitCount = 0 ∧ t.router.inFlight.length = s.router.inFlight.length ∧
        t.router.forward.length = s.router.forward.length ∧ (unclaims → t.router.waiting = []) ∧
        (¬ unclaims → ∃ more, t.router.waiting = rest ++ more)) ∧
    (t.router.waiting = [] → t.router.waitCount = 0)

/-! ## Arrivals and returns (sections 1.1, 1.5) -/

/-- The data of the oldest granted forwarded read arrives: a slot read that is not abandoned becomes ARRIVED, any other read
READY with what memory gave (R1, R3). That an abandoned slot read is READY at the arrival of its data is the model's reading of
R27 (log 12). -/
def Obligations.ReadArrives : Prop :=
  ∀ (s : State) (pre post : List FwdEntry) (f : FwdEntry) (data : List Byte) (rest : List InFlight),
    s.router.inFlight = { owner := .forward, data := data } :: rest → s.FirstIn .granted pre f post →
    let held := (∃ l k, f.cls = .slotRead l k) ∧ f.abandoned = false
    ∃ t, exec .readDataArrival s = .next t ∧
      (held → t.apart = ({ s with router := { s.router with
        inFlight := rest
        forward := pre ++ { f with state := .arrived, raw := data } :: post } } : State).apart) ∧
      (¬ held → t.apart = ({ s with router := { s.router with
        inFlight := rest
        forward := pre ++ { f with state := .ready, raw := data, out := data } :: post } } : State).apart)

/-- The data of the oldest granted fetch arrives. It is discarded when a reset orphaned it (R19), or when an overtake made it stale,
with the prefetch test made at once, whose request is a demand fetch where a slot read of the lane waits (R18, R59, R60). Else it
is held FULL with its inspection result, damaged where its sync byte is not 0x47 or no one LIBRARY region holds its 192 bytes
(R60), and a slot read of the lane that waits for it goes on from the point where it waited: with the start of the clip at the
start time kept, or with the slot's packet from the lookahead, to its end as for any slot read (R18, R62 to R65, R97, R108). -/
def Obligations.FetchArrives : Prop :=
  ∀ (s : State) (l clip : Nat) (orphan : Bool) (data : List Byte) (rest : List InFlight),
    s.router.inFlight = { owner := .fetch l clip orphan, data := data } :: rest →
    let s' : State := { s with router := { s.router with inFlight := rest } }
    let Damaged (a : Word) : Prop := byteAt data 4 ≠ 0x47 ∨
      ¬ ∃ r ∈ s.router.regions.toList, r.role = .library ∧ r.base.toNat ≤ a.toNat ∧ a.toNat + 192 ≤ r.limit.toNat
    (orphan = true → ∃ t, exec .fetchDataArrival s = .next t ∧ t.apart = s'.apart) ∧
    (∀ key a demand, orphan = false → (s.lane l).look = .fetching key a true false demand →
      (∀ w, s.wait = some w → w.lane ≠ l) →
      ∃ t damaged, exec .fetchDataArrival s = .next t ∧
        t.apart = (s'.onLane l fun x => { x with look := .full key data (inspect (data.drop 4)) damaged }).apart ∧
        (damaged = true ↔ Damaged a)) ∧
    (∀ key a demand w pre f post e below, orphan = false → (s.lane l).look = .fetching key a true false demand →
      s.wait = some w → w.lane = l → s.FirstIn .arrived pre f post → (s.lane l).stack = e :: below →
      (w.starting = true → e.current ≠ none) →
      let read : ReadAt := { lane := l, slot := f.raw, clock := w.clock }
      ∃ t damaged six v, exec .fetchDataArrival s = .next t ∧ (damaged = true ↔ Damaged a) ∧
        (let held := s'.looking l (.full key data (inspect (data.drop 4)) damaged)
          if w.starting = true then held.Begins read w.clock e below six v else held.Consults read e below six v) ∧
        six.Finishes pre f post l v t) ∧
    (∀ key a demand, orphan = false → (s.lane l).look = .fetching key a true true demand →
      ∃ t, exec .fetchDataArrival s = .next t ∧
        t.apart = ((s'.looking l .empty).prefetched l (decide (∃ w ∈ s.wait, w.lane = l))).apart ∧
        t.mem = s.mem ∧ t.router.forward = s.router.forward ∧ t.wait = s.wait ∧
        t.router.inFlight = rest ∧ t.lane l = { s.lane l with look := (t.lane l).look } ∧
        (∀ k d i g, (t.lane l).look ≠ .full k d i g) ∧ ∀ m, m ≠ l → t.lane m = s.lane m)

/-- The oldest READ entry is returned with all its lines when it is READY, and leaves; while it is not, nothing is returned
(R3). -/
def Obligations.ReadReturns : Prop :=
  ∀ (s : State) (pre post : List FwdEntry) (f : FwdEntry),
    s.router.forward = pre ++ f :: post → (∀ g ∈ pre, g.req.isWrite = true) → f.req.isWrite = false →
    ∃ t, exec .readReturn s = .next t ∧
      (f.state = .ready → t.apart = ({ s with router := { s.router with
        forward := pre ++ post
        qPort := some { addr := f.req.addr, data := f.out } } } : State).apart) ∧
      (f.state ≠ .ready → t.apart = s.apart)

/-! ## SLOT_READ_PROCEDURE and SLATE_COUNTDOWN_EXPIRY (chapters 6, 7, 9) -/

/-- An abandoned slot read, and one of a lane that is not enabled, runs no stage: it is returned as memory gave it and touches
nothing (R27). While BYPASS is held the first stage runs, with the per-read tests, the read index follows, and the stored slot is
returned (R29, R33, R34, R39, R82 to R84, R113, R166). A placement that ends MISSED hands over its report and then its AUDIT record
(the model's choice, log 40). -/
def Obligations.SlotReadAsStored : Prop :=
  ∀ (s : State) (pre post : List FwdEntry) (f : FwdEntry) (l k : Nat), s.ReadRuns pre f post l k →
    (f.abandoned = true ∨ (s.lane l).enabled = false →
      ∃ t, exec .slotReadProcedure s = .next t ∧ t.apart = (s.readied pre f post f.raw).apart) ∧
    (f.abandoned = false → (s.lane l).enabled = true → s.bypass = true →
      ∃ t one, exec .slotReadProcedure s = .next t ∧
        (s.FirstStage l k (inspect (f.raw.drop 4)) one ∧ t.apart = (one.readied pre f post f.raw).apart) ∧
        t.router.forward = pre ++ { f with state := .ready, out := f.raw } :: post ∧ t.wait = none ∧ t.mem = s.mem ∧
        (t.lane l).readIndex = (k + 1) % s.ringSlots l ∧
        (t.lane l).readSkips = (if k = (s.lane l).readIndex then (s.lane l).readSkips else satInc (s.lane l).readSkips) ∧
        (∀ m, m ≠ l → t.lane m = s.lane m))

/-- A slot read runs its stages one after the other: the first stage with the per-read tests (R29, R33, R34, R82 to R84), requests
(R98, R99), ends (R100 to R103), entries (R86, R104); where these leave no entry on the stack, the old top has its due and the base
serves the slot (R105, R108, R128). In particular, with the base on top and nothing pending on the lane, the slot is returned as
stored, but that a packet of a role carries the renumbered counter, with delta chosen afresh by the first payload packet after a
return to the base; its read index follows, and an anchor packet with PUSI and a PTS sets the lane clock. By the model's
choice two covered placements that end at one stage 3 are reported in stack order, as R101 has it, the AUDIT record of a return
follows the reports (log 37), one that ends MISSED hands over its report and then its AUDIT record (log 40), a returning top beneath
which a placement enters stays marked (log 41), and a top that an alert covers at stage 2 and that ends at stage 3 of the same read is
reported with its clip CUT (log 42). -/
def Obligations.SlotReadOnBase : Prop :=
  ∀ (s : State) (pre post : List FwdEntry) (f : FwdEntry) (l k : Nat), s.ReadRuns pre f post l k →
    f.abandoned = false → (s.lane l).enabled = true → s.bypass = false →
    (noTwice (s.lane l).stack →
      ∃ r one two three four, r.lane = l ∧ r.slot = f.raw ∧ s.Staged r k one two three four ∧
        ((four.lane l).stack = [] →
          ∃ t six v, exec .slotReadProcedure s = .next t ∧ one.Reveals three four r six v ∧ six.Finishes pre f post l v t)) ∧
    ((s.lane l).stack = [] → s.Undisturbed l →
    let x := s.lane l
    let p := f.raw.drop 4
    let i := inspect p
    ∃ t out, exec .slotReadProcedure s = .next t ∧
      t.router.forward = pre ++ { f with state := .ready, out := out } :: post ∧
      (t.wait = none ∧ t.mem = s.mem ∧ t.placements = s.placements ∧ t.clips = s.clips ∧ t.alert = s.alert ∧
        ∀ m, m ≠ l → t.lane m = s.lane m) ∧
      ((t.lane l).readIndex = (k + 1) % s.ringSlots l ∧
        (t.lane l).readSkips = (if k = x.readIndex then x.readSkips else satInc x.readSkips) ∧
        (t.lane l).stack = [] ∧ (t.lane l).look = x.look ∧ (t.lane l).writeIndex = x.writeIndex) ∧
      (match x.record.anchorPts i with
        | some c => (t.lane l).clockC = c ∧ (t.lane l).clockL = s.lt ∧ (t.lane l).anchored = true
        | none => (t.lane l).clockC = x.clockC ∧ (t.lane l).clockL = x.clockL ∧ (t.lane l).anchored = x.anchored) ∧
      (if x.record.passes i then out = f.raw ∧ (t.lane l).roles = x.roles
        else
          match x.record.role i with
          | none => out = f.raw ∧ (t.lane l).roles = x.roles
          | some r =>
            let delta := if x.roles[r].realign ∧ i.hasPayload then x.roles[r].outLast + 1 - i.cc else x.roles[r].delta
            out = f.raw.take 4 ++ setCc p (i.cc + delta) ∧
              (t.lane l).roles = x.roles.set r
                { outLast := if i.hasPayload then i.cc + delta else x.roles[r].outLast, delta := delta,
                  realign := x.roles[r].realign && !i.hasPayload }))

/-- A slot read whose stages 1 to 4 leave an entry on top reveals it (a change of top gives the old top its due, overtakes the
lookahead and gives the new one a clip's turn with its offsets), and serves the slot: the pass-list as stored, the null packet of
an exhausted list, a clip's turn, or the lookahead, which it waits for where it is EMPTY or FETCHING, by a demand fetch; a due
packet is drawn and the entry's position, tally, lag, aired flag and clip outcome follow (R18, R56, R57, R61 to R65, R105, R106,
R108 to R110, R117 to R128). In particular, with the lane's only entry playing a clip, its next packet held undamaged, and a stored
packet that neither moves the clock nor stands on the pass-list: before the due time the slot carries the null packet and the
packet is kept; from it on it is drawn, rewritten under the role the clip's PID map gives it, or as the null packet where it
gives none. By the model's choice two covered placements that end at one stage 3 are reported in stack order, as R101 has it
(log 37), one that ends MISSED hands over its report and then its AUDIT record (log 40), a returning top beneath which a placement
enters stays marked (log 41), and a top that an alert covers at stage 2 and that ends at stage 3 of the same read is reported with its
clip CUT (log 42). -/
def Obligations.SlotReadDraws : Prop :=
  (∀ (s : State) (pre post : List FwdEntry) (f : FwdEntry) (l k : Nat),
    s.ReadRuns pre f post l k → f.abandoned = false → (s.lane l).enabled = true → s.bypass = false → noTwice (s.lane l).stack →
    ∃ r one two three four, r.lane = l ∧ r.slot = f.raw ∧ s.Staged r k one two three four ∧
      ((four.lane l).stack ≠ [] →
        ∃ t six v, exec .slotReadProcedure s = .next t ∧ one.Reveals three four r six v ∧ six.Finishes pre f post l v t)) ∧
  ∀ (s : State) (pre post : List FwdEntry) (f : FwdEntry) (l k : Nat) (e : Entry) (key : LookKey) (held : List Byte) (i : Insp),
    s.ReadRuns pre f post l k → f.abandoned = false → (s.lane l).enabled = true → s.bypass = false →
    (s.lane l).stack = [e] → e.current ≠ none → e.nextKey = some key → (s.lane l).look = .full key held i false →
    s.Undisturbed l → e.reachedEnd (s.lane l).anchored (s.clock l) = false →
    (s.lane l).record.anchorPts (inspect (f.raw.drop 4)) = none → (s.lane l).record.passes (inspect (f.raw.drop 4)) = false →
    let x := s.lane l
    ∃ t out, exec .slotReadProcedure s = .next t ∧
      t.router.forward = pre ++ { f with state := .ready, out := out } :: post ∧ t.wait = none ∧ t.mem = s.mem ∧
      (∀ m, m ≠ l → t.lane m = s.lane m) ∧
      (if rtAtOrAfter (slotTag f.raw) (slotTag held + e.tagOffset) then
          (match mappedRole x.record (s.clip (e.currentClip.getD 0)) i with
            | none => out = f.raw.take 4 ++ nullPacket ∧ (t.lane l).roles = x.roles
            | some r =>
              let cc := if i.hasPayload then x.roles[r].outLast + 1 else x.roles[r].outLast
              out = f.raw.take 4 ++ rewritePacket (held.drop 4) i x.record.roles[r] cc e.ptsOffset ∧
                (t.lane l).roles = x.roles.set r { x.roles[r] with outLast := cc }) ∧
            ∀ d g n, (t.lane l).look ≠ .full key d g n
        else
          out = f.raw.take 4 ++ nullPacket ∧ (t.lane l).roles = x.roles ∧ (t.lane l).look = x.look)

/-- The slate requests of an enabled lane whose countdown stands at 0 become due, and nothing else changes (R166). That this step
makes the due mark is the model's reading (log 10), and that it changes nothing on a lane not enabled its choice (log 8). -/
def Obligations.SlateCountdownExpires : Prop :=
  ∀ (s : State) (l : Nat), l < 16 →
    ∃ t, exec (.slateCountdownExpiry l) s = .next t ∧
      ((s.lane l).enabled = false → t.apart = s.apart) ∧
      ((s.lane l).enabled = true →
        t.apart = (s.onLane l fun x =>
          { x with slateInsert := (t.lane l).slateInsert, slateRemove := (t.lane l).slateRemove }).apart ∧
        (t.lane l).slateInsert = ((s.lane l).slateInsert.map fun q => if q.countdown = 0 then { q with due := true } else q) ∧
        (t.lane l).slateRemove = ((s.lane l).slateRemove.map fun q => if q.countdown = 0 then { q with due := true } else q))

/-! ## The host's commands (chapter 10) -/

/-- REGION-SET: the first refusal of its table that applies, else DONE and the entry takes the new content (R9); a change that
touches the LOG entry gives the log ring head and tail 0, withdraws a waiting log write, and presents it anew, as a GAP where records
are lost, if there is a ring (R10, R182, R184), also where that entry's content is unchanged (the model's reading, log 22). A LIBRARY
entry is live through a clip in use by the conditions of R55, and by R66 after a reset (the model's choice between the rules,
log 36). -/
def Obligations.RegionSetAnswers : Prop :=
  ∀ (s : State) (c : Captured) (rest : List Captured), s.Executing 0x01 c rest →
    let a := regionArgs c.words
    let size := a.limit.toNat - a.base.toNat
    let code : AnswerCode :=
      if 31 < a.index ∨ 3 < numAt c.words 5 then .range
      else if a.role ≠ some .none ∧
          (a.base.toNat % 64 ≠ 0 ∨ a.limit.toNat % 64 ≠ 0 ∨ a.limit.toNat ≤ a.base.toNat) then .range
      else if a.role = some .ring ∧ (15 < a.lane ∨ size % 192 ≠ 0 ∨ size / 192 < 16 ∨ 65535 < size / 192) then .range
      else if a.role = some .log ∧ (size / 64 < 16 ∨ 65536 < size / 64) then .range
      else if a.role = some .log ∧ ∃ j : Nat, j < 32 ∧ j ≠ a.index ∧ (s.region j).role = .log then .range
      else if s.Live a.index then .busy
      else if a.role ≠ some .none ∧ s.Shares a.index a.base.toNat a.limit.toNat then .overlap
      else .done
    ∃ t, exec .regionSet s = .next t ∧ s.Answered t c rest code [] ∧ (code ≠ .done → t.aside = s.aside) ∧
      (code = .done →
        (a.role = some .none → t.region a.index = { role := .none, base := 0, limit := 0, lane := 0 }) ∧
        (a.role ≠ some .none →
          some (t.region a.index).role = a.role ∧ (t.region a.index).base = a.base ∧ (t.region a.index).limit = a.limit ∧
            (a.role = some .ring → (t.region a.index).lane = a.lane)) ∧
        (∀ j, j ≠ a.index → t.region j = s.region j) ∧
        t.aside = ({ s with router := { s.router with regions := t.router.regions }, log := t.log } : State).aside ∧
        (if (s.region a.index).role = .log ∨ a.role = some .log then
            t.log.head = 0 ∧ t.log.tail = 0 ∧ t.log.queue = s.log.queue ∧ t.log.lost = s.log.lost ∧
              (t.log.presented =
                if t.logOpen = false ∨ (s.log.lost = 0 ∧ s.log.queue = []) then none
                else if 0 < s.log.lost then some .gap else some .record) ∧
              ∃ more, t.router.waiting = (s.router.waiting.filter fun w => decide (w ≠ .log)) ++ more
          else t.log = s.log))

/-- LANE-SET: the first refusal of its table that applies, else DONE and the record takes the new content with its set flag,
nothing else changed (R22, R154). -/
def Obligations.LaneSetAnswers : Prop :=
  ∀ (s : State) (c : Captured) (rest : List Captured), s.Executing 0x02 c rest →
    let a := laneArgs c.words
    let code : AnswerCode :=
      if 15 < a.lane ∨ 7 < a.zone ∨ 31 < a.region then .range
      else if (∃ p ∈ a.cuePid :: (a.roles ++ a.pass), 0x1FFF < p) ∨ a.roles.getD 0 0x1FFF = 0x1FFF ∨
          ¬ (a.roles.filter fun p => decide (p ≠ 0x1FFF)).Nodup then .range
      else if 8 < a.passCount ∨ ¬ a.pass.Nodup ∨ 0x1FFF ∈ a.pass ∨ (∃ p ∈ a.roles, p ≠ 0x1FFF ∧ p ∈ a.pass) then .range
      else if a.cuePid ≠ 0x1FFF ∧ (a.cuePid ∈ a.roles ∨ a.cuePid ∈ a.pass) then .range
      else if 900000 < a.entryWindow ∨ a.jumpLimit < 9000 ∨ 900000 < a.jumpLimit then .range
      else if a.slateClip ≠ 0xFFFF ∧ 255 < a.slateClip then .range
      else if a.gapLimit < 10 ∨ 2000 < a.gapLimit ∨ 10000 < a.lossFilter ∨ 10000 < a.goodFilter ∨ 10000 < a.blankTime ∨
          a.rateInterval < 10 ∨ 1000 < a.rateInterval ∨ 2 < a.rateMode then .range
      else if (s.lane a.lane).enabled = true then .busy
      else if s.alert.lock = true ∧ a.zone ≠ (s.lane a.lane).record.zone then .locked
      else .done
    ∃ t, exec .laneSet s = .next t ∧ s.Answered t c rest code [] ∧ (code ≠ .done → t.aside = s.aside) ∧
      (code = .done →
        t.aside = (s.onLane a.lane fun x => { x with record := (t.lane a.lane).record }).aside ∧
        let r := (t.lane a.lane).record
        (r.isSet = true ∧ r.zone = a.zone ∧ r.region = a.region ∧ r.passList = a.pass.map (BitVec.ofNat 13) ∧
          r.roles.toList = a.roles.map (BitVec.ofNat 13) ∧ r.cuePid = BitVec.ofNat 13 a.cuePid) ∧
        (r.entryWindow = a.entryWindow ∧ r.jumpLimit = a.jumpLimit ∧
          r.slateClip = (if a.slateClip = 0xFFFF then none else some a.slateClip)) ∧
        (r.gapLimit = a.gapLimit ∧ r.lossFilter = a.lossFilter ∧ r.goodFilter = a.goodFilter ∧ r.blankTime = a.blankTime ∧
          r.rateInterval = a.rateInterval ∧ r.rateThreshold = a.rateThreshold ∧ r.rateAsLoss = a.rateAsLoss ∧
          (r.rateMode = .off ↔ a.rateMode = 0) ∧ (r.rateMode = .low ↔ a.rateMode = 1)))

/-- LANE-ENABLE: the first refusal of its table that applies, else DONE and the lane starts clean, with its monitor BLANK and the
monitor's items at the values R155 gives, and an INSERT of the alert in effect where its zone is covered (R23, R24, R75, R141,
R155). -/
def Obligations.LaneEnableAnswers : Prop :=
  ∀ (s : State) (c : Captured) (rest : List Captured), s.Executing 0x03 c rest →
    let l := numAt c.words 2
    let ring := s.region (s.lane l).record.region
    let code : AnswerCode :=
      if 15 < l then .range
      else if (s.lane l).enabled = true then .busy
      else if (s.lane l).record.isSet = false then .notReady
      else if ring.role ≠ .ring ∨ ring.lane ≠ l then .notReady
      else .done
    ∃ t, exec .laneEnable s = .next t ∧ s.Answered t c rest code [] ∧ (code ≠ .done → t.aside = s.aside) ∧
      (code = .done →
        t.aside = (s.onLane l fun x =>
          { x with
            enabled := true, writeIndex := 0, readIndex := 0, clockC := 0, clockL := s.lt, anchored := false
            roles := Vector.replicate 4 { outLast := 0, delta := 0, realign := false }, recent := []
            strays := 0, writeSkips := 0, readSkips := 0, malformed := 0, ptsLess := 0, cueErrors := 0
            monitor := (t.lane l).monitor
            alertReq :=
              if s.alert.state ≠ .idle ∧ (s.alert.profileAt s.alert.profile).zones.getLsbD x.record.zone = true then
                some (.insert s.alert.profile)
              else x.alertReq }).aside ∧
        let m := (t.lane l).monitor
        m.state = .blank ∧ m.blankStart = none ∧ m.anchorIndex = none ∧ m.anchorAge = 0 ∧ m.recoveryAge = 0 ∧
          m.anchorAbsent = false ∧ m.rateAlarm = false ∧ m.rateCount = 0 ∧ m.rateLast = 0 ∧
          ∀ r : Fin 4, m.cont[r].seen = false ∧ m.cont[r].duplicate = false ∧ m.cont[r].errors = 0)

/-- LANE-DISABLE: RANGE above lane 15; DONE with no effect on a lane not enabled; else DONE and the lane is torn down: its
placements end, with an ABANDONED report each, top first, its requests are discarded, its lookahead is dropped, its fetch withdrawn
from the arbiter if it was not granted, or left stale, its monitor is DISABLED, and its slot reads not yet complete are abandoned;
nothing else changes (R26, R27, R66, R90, R91). A read of the lane that waits is
READY at once with its slot as memory gave it (the model's reading of R27, log 12). -/
def Obligations.LaneDisableAnswers : Prop :=
  ∀ (s : State) (c : Captured) (rest : List Captured), s.Executing 0x04 c rest →
    let l := numAt c.words 2
    ∃ t, exec .laneDisable s = .next t ∧ s.Answered t c rest (if 15 < l then .range else .done) [] ∧
      (15 < l ∨ (s.lane l).enabled = false → t.aside = s.aside) ∧
      ((s.lane l).enabled = true →
        t.lane l =
          { s.lane l with
            enabled := false, stack := [], alertReq := none, slateInsert := none, slateRemove := none
            monitor := { (s.lane l).monitor with state := .disabled }
            look :=
              match (s.lane l).look with
              | .fetching key a true _ _ => .fetching key a true true false
              | .fetching _ _ false _ _ | .full .. | .empty => .empty } ∧
        (∀ m, m ≠ l → t.lane m = s.lane m) ∧
        (∀ id, id < 128 →
          t.placement id = if onStackOf (s.lane l).stack id then Placement.vacant else s.placement id) ∧
        t.aside = ({ s with
          lanes := t.lanes, placements := t.placements, wait := t.wait, log := t.log
          router := { s.router with
            forward := t.router.forward
            fetchOrder :=
              if (s.lane l).look.ungranted = true then s.router.fetchOrder.filter fun m => decide (m ≠ l)
              else s.router.fetchOrder } } : State).aside ∧
        (noTwice (s.lane l).stack → t.log = s.logAfter (s.reports (fun _ _ => .abandoned) (s.clock l) (s.lane l).stack)) ∧
        (((∀ w, s.wait = some w → w.lane ≠ l) → t.router.forward = s.router.forward.map (FwdEntry.marked l) ∧ t.wait = s.wait) ∧
          ∀ w pre f post, s.wait = some w → w.lane = l → s.FirstIn .arrived pre f post →
            t.router.forward =
              pre.map (FwdEntry.marked l) ++ { f.marked l with state := .ready, out := f.raw } :: post.map (FwdEntry.marked l)) ∧
        (t.router.forward.map FwdEntry.req = s.router.forward.map FwdEntry.req ∧
          ∀ f ∈ t.router.forward, ∀ k, f.cls = .slotRead l k → f.state = .ready ∨ f.abandoned = true) ∧
        (∀ w, t.wait = some w → w.lane ≠ l))

/-- LANE-STATUS and PLACEMENT-STATUS: RANGE beyond the last lane or id, else DONE with the words that report the lane or the
placement as it stands, laid out field by field by the table of 12.4 (Safety/Status.lean); neither changes anything (R30, R73,
R176). That the clip index is 0xFF also without a top entry, and for a placement off the stack, is the model's reading (log 18). -/
def Obligations.StatusCommandsReport : Prop :=
  ∀ (s : State) (c : Captured) (rest : List Captured),
    let n := numAt c.words 2
    (s.Executing 0x05 c rest → ∃ t, exec .laneStatus s = .next t ∧ t.aside = s.aside ∧
      if 15 < n then s.Answered t c rest .range [] else s.Answered t c rest .done (s.laneReport n)) ∧
    (s.Executing 0x22 c rest → ∃ t, exec .placementStatus s = .next t ∧ t.aside = s.aside ∧
      if 127 < n then s.Answered t c rest .range [] else s.Answered t c rest .done (s.placementReport n))

/-- CLIP-SET: the first refusal of its table that applies, else DONE and the entry is defined with the new content; then the prefetch
test of each lane, lowest first, whose request is a demand fetch where a slot read of the lane waits, changes its lookahead and the
order of the fetches that wait; nothing else changes (R16, R53, R55, R59, R60). A clip is in use by the conditions of R55, and by R66
after a reset (the model's choice between the rules, log 36). -/
def Obligations.ClipSetAnswers : Prop :=
  ∀ (s : State) (c : Captured) (rest : List Captured), s.Executing 0x10 c rest →
    let a := clipArgs c.words
    let code : AnswerCode :=
      if 255 < a.id ∨ a.count = 0 ∨ 16777215 < a.count ∨ 2 ^ 33 ≤ a.firstPts ∨ a.pairCount = 0 ∨ 4 < a.pairCount then .range
      else if (∃ p ∈ a.pairs, 0x1FFF ≤ p.1 ∨ 3 < p.2) ∨ ¬ (a.pairs.map Prod.fst).Nodup ∨
          ¬ (a.pairs.map Prod.snd).Nodup then .range
      else if a.addr.toNat % 64 ≠ 0 then .range
      else if ¬ ∃ r ∈ s.router.regions.toList, r.role = .library ∧ r.base.toNat ≤ a.addr.toNat ∧
          a.addr.toNat + 192 * a.count ≤ r.limit.toNat then .notReady
      else if s.InUse a.id then .inUse
      else .done
    ∃ t, exec .clipSet s = .next t ∧ s.Answered t c rest code [] ∧ (code ≠ .done → t.aside = s.aside) ∧
      (code = .done →
        ((t.clip a.id).defined = true ∧ (t.clip a.id).addr = a.addr ∧ (t.clip a.id).count = a.count ∧
          (t.clip a.id).firstPts.toNat = a.firstPts ∧
          (t.clip a.id).pidMap.map (fun p => (p.1.toNat, p.2.val)) = a.pairs) ∧
        (∀ id, id ≠ a.id → t.clip id = s.clip id) ∧
        (∀ l, t.lane l = { s.lane l with look := (t.lane l).look }) ∧
        t.aside = ((List.range 16).foldl (fun u l => u.prefetched l (decide (∃ w ∈ s.wait, w.lane = l)))
          (s.setClip a.id (t.clip a.id))).aside)

/-- CLIP-CLEAR: the first refusal of its table that applies, else DONE and the entry is undefined with the values of an undefined
entry; nothing else changes (R54, R55). A clip is in use by the conditions of R55, and by R66 after a reset (the model's choice
between the rules, log 36). -/
def Obligations.ClipClearAnswers : Prop :=
  ∀ (s : State) (c : Captured) (rest : List Captured), s.Executing 0x11 c rest →
    let id := numAt c.words 2
    let code : AnswerCode :=
      if 255 < id then .range
      else if (s.clip id).defined = false then .noEntry
      else if s.InUse id then .inUse
      else .done
    ∃ t, exec .clipClear s = .next t ∧ s.Answered t c rest code [] ∧ (code ≠ .done → t.aside = s.aside) ∧
      (code = .done →
        t.aside = (s.setClip id { defined := false, addr := 0, count := 0, firstPts := 0, pidMap := [] }).aside)

/-- PLACE: the first refusal of its table that applies, else DONE and the placement takes the content and leaves EMPTY by its
trigger; a TIME placement already past its window on an anchored lane ends at once: its MISSED_LATE report is handed over, queued
or counted lost, and where the lane's audit mark is OUT also the AUDIT record of the missed notice, which clears the mark (R70,
R71, R83, R91, R183, R190). The scheduled time of another trigger is kept modulo 2^33 (the model's choice, log 17), and
the report goes before the AUDIT record (its choice, log 40). -/
def Obligations.PlaceAnswers : Prop :=
  ∀ (s : State) (c : Captured) (rest : List Captured), s.Executing 0x20 c rest →
    let a := placeArgs c.words
    let x := s.lane a.lane
    let time := BitVec.ofNat 33 a.scheduled
    let testable := a.trigger = some .time ∧ x.enabled = true ∧ x.anchored = true
    let code : AnswerCode :=
      if 127 < a.id ∨ 15 < a.lane ∨ a.kind = none ∨ a.trigger = none ∨ a.rule = none then .range
      else if a.duration = 0 ∨ 2 ^ 31 ≤ a.duration ∨ (a.trigger = some .time ∧ 2 ^ 33 ≤ a.scheduled) then .range
      else if a.clipCount = 0 ∨ 6 < a.clipCount ∨ ∃ id ∈ a.clips, 255 < id then .range
      else if (s.placement a.id).state ≠ .vacant then .busy
      else .done
    ∃ t, exec .place s = .next t ∧ s.Answered t c rest code [] ∧ (code ≠ .done → t.aside = s.aside) ∧
      (code = .done →
        if testable ∧ ptAfter (s.clock a.lane) (ptPlus time x.record.entryWindow) = true then
          t.placement a.id = Placement.vacant ∧ (∀ id, id ≠ a.id → t.placement id = s.placement id) ∧
            (∀ m, m ≠ a.lane → t.lane m = s.lane m) ∧
            t.lane a.lane = { x with audit := if x.audit = .out then .none else x.audit } ∧
            (∀ kind, a.kind = some kind →
              t.log = s.logAfter
                ((a.lane, .placement a.id kind .time a.avail (some time) none .missedLate 0 []) ::
                  if x.audit = .out then [(a.lane, .auditOut a.id (some time) none (-32768) 0)] else [])) ∧
            t.aside = ({ s with placements := t.placements, lanes := t.lanes, log := t.log } : State).aside
        else
          t.aside = (s.setPlacement a.id (t.placement a.id)).aside ∧
          let p := t.placement a.id
          (p.lane = a.lane ∧ some p.kind = a.kind ∧ some p.trigger = a.trigger ∧ some p.rule = a.rule ∧ p.avail = a.avail ∧
            p.scheduled = time ∧ p.duration = a.duration ∧ p.takeCueDuration = a.takeCueDuration ∧ p.clips = a.clips) ∧
          (p.state = (if a.trigger = some .cue then .armed else .pending) ∧
            p.t = (if a.trigger = some .time then some time else none) ∧ p.preRoll = 0 ∧ p.blocked = false ∧
            (p.lateCheck = true ↔ a.trigger = some .time ∧ ¬ (x.enabled = true ∧ x.anchored = true)) ∧
            p.withdrawn = false ∧ p.earlyReturn = false))

/-- WITHDRAW: RANGE above id 127, NO_ENTRY for an EMPTY id; a waiting placement ends, its WITHDRAWN report handed over; one on the
stack is marked and its E becomes the lane clock, once (R72, R88, R91). -/
def Obligations.WithdrawAnswers : Prop :=
  ∀ (s : State) (c : Captured) (rest : List Captured), s.Executing 0x21 c rest →
    let id := numAt c.words 2
    let p := s.placement id
    let code : AnswerCode := if 127 < id then .range else if p.state = .vacant then .noEntry else .done
    ∃ t, exec .withdraw s = .next t ∧ s.Answered t c rest code [] ∧ (code ≠ .done → t.aside = s.aside) ∧
      (p.state = .armed ∨ p.state = .pending →
        t.aside = ({ s.setPlacement id Placement.vacant with log := t.log } : State).aside ∧
          t.log = s.logAfter [(p.lane, p.neverEntered id .withdrawn)]) ∧
      (p.state = .onAir ∨ p.state = .covered → p.withdrawn = true → t.aside = s.aside) ∧
      (p.state = .onAir ∨ p.state = .covered → p.withdrawn = false →
        t.aside = ((s.onLane p.lane fun x =>
            { x with stack := x.stack.map fun e =>
                if e.source = .placement id then { e with endTime := some (s.clock p.lane) } else e }).setPlacement id
          { p with withdrawn := true }).aside)

/-- CUE: RANGE and NOT_READY in order, else DONE and the cue goes to intake as an injected one, whose case and the placements it
changed the result words give (R76 to R81). An OUT starts the lowest ARMED placement for its avail, or moves the PENDING ones whose
T differs, taking its duration where that is set, or is a repeat, or, found nowhere, is answered UNPLACED with a record (R77, R78,
R83, R91); a CANCEL ends the waiting placements for its avail and gives one TOO_LATE record for each on the stack (R80); an IN ends
the PENDING ones, and writes E and the early return of those on the stack (R79, R88). A cue finds only placements whose trigger is
CUE (the model's reading of R70 and R77, log 13), and one that ends MISSED hands over its report and then its AUDIT record (its
choice, log 40). -/
def Obligations.CueAnswers : Prop :=
  ∀ (s : State) (c : Captured) (rest : List Captured), s.Executing 0x23 c rest →
    let a := cueArgs c.words
    let x := s.lane a.lane
    let code : AnswerCode :=
      if 15 < a.lane ∨ a.type = none ∨ (∃ n ∈ a.time, 2 ^ 33 ≤ n) ∨ (∃ n ∈ a.duration, 2 ^ 33 ≤ n) then .range
      else if x.enabled = false then .notReady
      else .done
    let time := match a.time with
      | some n => some (BitVec.ofNat 33 n)
      | none => if x.anchored then some (s.clock a.lane) else none
    let late := x.anchored = true ∧ ∃ n ∈ time, ptAfter (s.clock a.lane) (ptPlus n x.record.entryWindow) = true
    ∃ t results, exec .cue s = .next t ∧ s.Answered t c rest code results ∧
      (code ≠ .done → results = [] ∧ t.aside = s.aside) ∧
      (code = .done →
        (t.mem = s.mem ∧ t.clips = s.clips ∧ t.alert = s.alert ∧ t.wait = s.wait ∧
          t.router.forward = s.router.forward ∧ (∀ m, m ≠ a.lane → t.lane m = s.lane m) ∧
          ∀ id, (s.placement id).isFor a.lane a.avail = false → t.placement id = s.placement id) ∧
        (∀ type, a.type = some type →
          let cue : Cue := { type := type, avail := a.avail, time := a.time.map (BitVec.ofNat 33), duration := a.duration }
          let taken : State := { s with cmd := { s.cmd with queue := rest } }
          ∃ after n w₀ w₁ w₂ w₃, taken.CueTaken a.lane cue true after n ∧ t.aside = after.aside ∧
            results = [BitVec.ofNat 32 n, w₀, w₁, w₂, w₃] ∧
            ∀ j, j < 32 → (w₀.getLsbD j = true ↔ s.cueChanged after j) ∧ (w₁.getLsbD j = true ↔ s.cueChanged after (32 + j)) ∧
              (w₂.getLsbD j = true ↔ s.cueChanged after (64 + j)) ∧ (w₃.getLsbD j = true ↔ s.cueChanged after (96 + j))) ∧
        (∀ id, id < 128 → a.type = some .out →
          (s.placement id).isFor a.lane a.avail = true → (s.placement id).state = .armed →
          (∀ j, j < id → (s.placement j).isFor a.lane a.avail = true → (s.placement j).state ≠ .armed) →
          results.head? = some 1 ∧
          (t.lane a.lane).recent =
            (if a.avail ∈ x.recent then x.recent
              else if 4 ≤ x.recent.length then x.recent.drop 1 ++ [a.avail] else x.recent ++ [a.avail]) ∧
          (late → t.placement id = Placement.vacant) ∧
          (¬ late → (t.placement id).state = .pending ∧ (t.placement id).t = time ∧ (t.placement id).preRoll = 0 ∧
            (t.placement id).blocked = false)) ∧
        (a.type = some .out → a.avail ∉ x.recent →
          (∀ id, id < 128 → (s.placement id).isFor a.lane a.avail = false) →
          results = [6, 0, 0, 0, 0] ∧ t.aside = ({ s with log := t.log } : State).aside) ∧
        (∀ id, id < 128 → (s.placement id).isFor a.lane a.avail = true →
          (a.type = some .cancel → ((s.placement id).state = .armed ∨ (s.placement id).state = .pending →
              t.placement id = Placement.vacant) ∧
            ((s.placement id).state = .onAir ∨ (s.placement id).state = .covered → t.placement id = s.placement id)) ∧
          (a.type = some .into → ((s.placement id).state = .pending → t.placement id = Placement.vacant) ∧
            ((s.placement id).state = .armed → t.placement id = s.placement id) ∧
            ((s.placement id).state = .onAir ∨ (s.placement id).state = .covered →
              t.placement id = { s.placement id with rule := .early, earlyReturn := true }))))

/-- ALERT-PROFILE: the first refusal of its table that applies, else DONE and the profile is defined with the new content; profile
0 defined with line-pending set in IDLE without BYPASS starts the line alert, with the items of R136, its requests to the
lanes and its ALERT START record handed to the Log Writer, which word 2 notes (R135, R136, R140, R146, R183, R184, R187). By the model's
choice a record presented stays presented where that hand-over makes a GAP due (log 24). -/
def Obligations.AlertProfileAnswers : Prop :=
  ∀ (s : State) (c : Captured) (rest : List Captured), s.Executing 0x30 c rest →
    let a := profileArgs c.words
    let code : AnswerCode :=
      if 3 < a.profile ∨ 2 ^ 8 ≤ a.zones ∨ a.severity = 0 ∨ 7 < a.severity ∨ a.clipCount = 0 ∨ 4 < a.clipCount ∨
          (∃ id ∈ a.clips, 255 < id) ∨ a.holdLimit = 0 ∨ 7200 < a.holdLimit ∨ a.period < 10 ∨ 1000 < a.period ∨
          15 < a.lockedFraction ∨ a.loopLimit < 2 ∨ 31 < a.loopLimit ∨ a.reaction = none then .range
      else if s.alert.lock = true then .locked
      else if s.alert.state ≠ .idle ∧ a.profile = s.alert.profile then .busy
      else .done
    let starts := a.profile = 0 ∧ s.alert.state = .idle ∧ s.alert.linePending = true ∧ s.bypass = false
    ∃ t results, exec .alertProfile s = .next t ∧ s.Answered t c rest code results ∧
      (code ≠ .done → results = [] ∧ t.aside = s.aside) ∧
      (code = .done →
        t.alert.profileAt a.profile =
          { defined := true, zones := BitVec.ofNat 8 a.zones, severity := a.severity, clips := a.clips,
            holdLimit := a.holdLimit, period := a.period, lockedFraction := a.lockedFraction, loopLimit := a.loopLimit,
            reaction := a.reaction.getD .warn } ∧
        (∀ p, p ≠ a.profile → t.alert.profileAt p = s.alert.profileAt p) ∧
        (¬ starts → results = [0] ∧
          t.aside = ({ s with alert := { s.alert with profiles := t.alert.profiles } } : State).aside) ∧
        (starts → results = [1] ∧
          t.alert = { s.alert.taken .activeLine 0 a.severity s.lt with profiles := t.alert.profiles, linePending := false } ∧
          (∀ l, t.lane l = { s.lane l with alertReq := (s.lane l).requestAfter 0 (BitVec.ofNat 8 a.zones) 0 }) ∧
          (∃ mask, MaskOf mask (s.PostsOn 0 (BitVec.ofNat 8 a.zones)) ∧
            t.log = s.logAfter [(255, .alert .start 0 a.severity .line mask)]) ∧
          t.aside = ({ s with alert := t.alert, lanes := t.lanes, log := t.log } : State).aside))

/-- ALERT-START: the first refusal of its table that applies, else DONE and the alert takes effect in ACTIVE_CMD, from IDLE or as
a replacement, with a request to each enabled lane of the old mask or the new, which the ALERT record names (R136, R138, R139,
R140, R187). -/
def Obligations.AlertStartAnswers : Prop :=
  ∀ (s : State) (c : Captured) (rest : List Captured), s.Executing 0x31 c rest →
    let p := numAt c.words 2
    let code : AnswerCode :=
      if 3 < p then .range
      else if s.bypass = true then .bypass
      else if (s.alert.profileAt p).defined = false then .notReady
      else if s.alert.state ≠ .idle ∧ (s.alert.profileAt p).severity < s.alert.severity then .lower
      else .done
    let new := (s.alert.profileAt p).zones
    let old := if s.alert.state = .idle then 0 else (s.alert.profileAt s.alert.profile).zones
    ∃ t results, exec .alertStart s = .next t ∧ s.Answered t c rest code results ∧
      (code ≠ .done → results = [] ∧ t.aside = s.aside) ∧
      (code = .done →
        t.alert =
          { s.alert.taken .activeCmd p (s.alert.profileAt p).severity s.lt with
            linePending := if s.alert.state = .activeLine then true else s.alert.linePending } ∧
        (∀ l, t.lane l = { s.lane l with alertReq := (s.lane l).requestAfter old new p }) ∧
        t.aside = ({ s with alert := t.alert, lanes := t.lanes, log := t.log } : State).aside ∧
        ∃ mask : BitVec 16, results = [t.alert.laid, packed (laneFields 0 fun l => mask.getLsbD l)] ∧
          t.log = s.logAfter [(255, .alert (if s.alert.state = .idle then .start else .replace) p
            (s.alert.profileAt p).severity .command mask)] ∧
          ∀ l, l < 16 → (mask.getLsbD l = true ↔ (s.lane l).enabled = true ∧
            (new.getLsbD (s.lane l).record.zone = true ∨ old.getLsbD (s.lane l).record.zone = true)))

/-- ALERT-RENEW: refused in IDLE and under a line alert, without effect when latched (reported with e 0 and the kept count: the
model's choice, log 19); in ACTIVE_CMD a renewal inside the locked window is a failure, any other a success, the period
restarts, and a crossing of the loop limit fires the profile's reaction: WARN and LATCH with a RENEWAL record, RELEASE with
the end of the alert, its records and requests, and the line alert that may follow, with its items (R136, R140, R142, R148, R150,
R187). -/
def Obligations.AlertRenewAnswers : Prop :=
  ∀ (s : State) (c : Captured) (rest : List Captured), s.Executing 0x32 c rest →
    let q := s.alert.profileAt s.alert.profile
    let e := (s.lt - s.alert.periodStart).toNat
    let early := e < q.period * q.lockedFraction * 16875
    let failed := min (s.alert.loopCount + 2) 31
    let crossing := q.loopLimit ≤ failed ∧ s.alert.reactionFired = false
    let judged (count : Nat) (fired : Bool) (st : AlertState) : AlertCtl :=
      { s.alert with periodStart := s.lt, loopCount := count, reactionFired := fired, state := st }
    ∃ t, exec .alertRenew s = .next t ∧
      (s.alert.state = .idle → s.Refused t c rest .noAlert) ∧
      (s.alert.state = .activeLine → s.Refused t c rest .lineHeld) ∧
      (s.alert.state = .activeLatched → s.Answered t c rest .done [3, 0, word s.alert.loopCount] ∧ t.aside = s.aside) ∧
      (s.alert.state = .activeCmd → ¬ early →
        s.Answered t c rest .done [2, word e, word (s.alert.loopCount - 1)] ∧
        t.aside = ({ s with
          alert := judged (s.alert.loopCount - 1)
            (s.alert.reactionFired && decide (q.loopLimit ≤ s.alert.loopCount - 1)) .activeCmd } : State).aside) ∧
      (s.alert.state = .activeCmd → early → ¬ crossing →
        s.Answered t c rest .done [1, word e, word failed] ∧
        t.aside = ({ s with alert := judged failed s.alert.reactionFired .activeCmd } : State).aside) ∧
      (s.alert.state = .activeCmd → early → crossing →
        (q.reaction = .warn → s.Answered t c rest .done [257, word e, word failed] ∧
          t.log = s.logAfter [(255, .renewal s.alert.profile failed .warn)] ∧
          t.aside = ({ s with alert := judged failed true .activeCmd, log := t.log } : State).aside) ∧
        (q.reaction = .latch → s.Answered t c rest .done [769, word e, word failed] ∧
          t.log = s.logAfter [(255, .renewal s.alert.profile failed .latch)] ∧
          t.aside = ({ s with alert := judged failed true .activeLatched, log := t.log } : State).aside) ∧
        (q.reaction = .release → s.Answered t c rest .done [513, word e, word failed] ∧
          (∃ records, s.EndRecords .renewal records ∧ t.log = s.logAfter records) ∧
          (∀ l, t.lane l = { s.lane l with alertReq := s.requestAfterEnd l }) ∧
          t.aside = ({ s with alert := t.alert, lanes := t.lanes, log := t.log } : State).aside ∧
          (s.LineFollows → t.alert = s.onLine) ∧ (¬ s.LineFollows → s.alert.Ends t.alert)))

/-- ALERT-END: refused in IDLE and under a line alert; else the command alert ends with REMOVE to its lanes, and a pending line
alert on a defined profile 0 starts in the same event, with its items, its INSERTs replacing those; ALERT END and then ALERT START are
handed over; the items kept in every state stay (R136, R140, R142, R143, R187). -/
def Obligations.AlertEndAnswers : Prop :=
  ∀ (s : State) (c : Captured) (rest : List Captured), s.Executing 0x33 c rest →
    let old := (s.alert.profileAt s.alert.profile).zones
    let p0 := s.alert.profileAt 0
    let follows := s.alert.linePending = true ∧ p0.defined = true
    ∃ t, exec .alertEnd s = .next t ∧
      (s.alert.state = .idle → s.Refused t c rest .noAlert) ∧
      (s.alert.state = .activeLine → s.Refused t c rest .lineHeld) ∧
      (s.alert.state = .activeCmd ∨ s.alert.state = .activeLatched →
        (∃ mask : BitVec 16,
          s.Answered t c rest .done [BitVec.ofNat 32 (mask.toNat + if follows then 65536 else 0)] ∧
            ∀ l, l < 16 → (mask.getLsbD l = true ↔ (s.lane l).enabled = true ∧
              (old.getLsbD (s.lane l).record.zone = true ∨ (s.lane l).holdsAlert = true))) ∧
        (¬ follows → s.alert.Ends t.alert ∧
          ∀ l, t.lane l = { s.lane l with alertReq := (s.lane l).requestAtEnd old }) ∧
        (follows → t.alert = s.onLine ∧
          ∀ l, t.lane l =
            { s.lane l with
              alertReq :=
                if (s.lane l).enabled = true ∧ p0.zones.getLsbD (s.lane l).record.zone = true then some (.insert 0)
                else (s.lane l).requestAtEnd old }) ∧
        (∃ records, s.EndRecords .command records ∧ t.log = s.logAfter records) ∧
        t.aside = ({ s with alert := t.alert, lanes := t.lanes, log := t.log } : State).aside)

/-- ALERT-LOCK is answered DONE in every state and sets the lock, which refuses every ALERT-PROFILE in range, a LANE-SET that
changes a zone, and every UNCLAIM (R151). -/
def Obligations.AlertLockLocks : Prop :=
  ∀ (s : State) (c : Captured) (rest : List Captured),
    (s.Executing 0x34 c rest →
      ∃ t, exec .alertLock s = .next t ∧ s.Answered t c rest .done [] ∧
        t.aside = ({ s with alert := { s.alert with lock := true } } : State).aside) ∧
    (s.alert.lock = true →
      (s.Executing 0x30 c rest → (profileArgs c.words).inRange = true →
        ∃ t, exec .alertProfile s = .next t ∧ s.Refused t c rest .locked) ∧
      (s.Executing 0x02 c rest → (laneArgs c.words).inRange = true → (s.lane (laneArgs c.words).lane).enabled = false →
        (laneArgs c.words).zone ≠ (s.lane (laneArgs c.words).lane).record.zone →
        ∃ t, exec .laneSet s = .next t ∧ s.Refused t c rest .locked) ∧
      (s.Executing 0x7F c rest → ∃ t, exec .unclaim s = .next t ∧ s.Refused t c rest .locked))

/-- The Log Writer's commands. AUDIT-MARK: RANGE for a lane above 15 or an edge that is none of the three, else DONE and the
lane's mark becomes the edge given, BOTH kept as OUT; the result word gives the edge kept, the reduction and the replacement of
an earlier mark (R189). LOG-ACK: NOT_READY without a ring, RANGE for a tail beyond the head along the ring, else DONE with the
new tail and the head; a line freed for a waiting record or a due GAP has its write presented at once (R184, R186). -/
def Obligations.LogCommandsAnswer : Prop :=
  ∀ (s : State) (c : Captured) (rest : List Captured),
    (s.Executing 0x40 c rest →
      let l := numAt c.words 2
      let edge := numAt c.words 3
      ∃ t, exec .auditMark s = .next t ∧
        (15 < l ∨ edge = 0 ∨ 3 < edge → s.Refused t c rest .range) ∧
        (l ≤ 15 → 1 ≤ edge → edge ≤ 3 →
          s.Answered t c rest .done
            [BitVec.ofNat 32 ((if edge = 2 then 2 else 1) + (if edge = 3 then 256 else 0) +
              if (s.lane l).audit = .none then 0 else 512)] ∧
          t.aside = (s.onLane l fun x => { x with audit := if edge = 2 then .into else .out }).aside)) ∧
    (s.Executing 0x41 c rest →
      let n := numAt c.words 2
      ∃ t, exec .logAck s = .next t ∧
        (s.logRing = none → s.Refused t c rest .notReady) ∧
        (∀ base lines, s.logRing = some (base, lines) →
          (lines ≤ n ∨ (s.log.head + lines - s.log.tail) % lines < (n + lines - s.log.tail) % lines →
            s.Refused t c rest .range) ∧
          (n < lines → (n + lines - s.log.tail) % lines ≤ (s.log.head + lines - s.log.tail) % lines →
            s.Answered t c rest .done [BitVec.ofNat 32 n, BitVec.ofNat 32 s.log.head] ∧
            t.aside = ({ s with log := { s.log with tail := n, presented := t.log.presented } } : State).aside ∧
            t.log.presented =
              (if s.log.presented ≠ none then s.log.presented
                else if (s.log.head + 1) % lines = n then none
                else if 0 < s.log.lost then some .gap
                else if s.log.queue = [] then none else some .record))))

/-- UNCLAIM: LOCKED under the lock, BUSY with an alert in effect, else DONE, after which nothing has changed but that no further
command executes until its effect (R177, R178). That a command's step then completes and changes nothing is the model's reading
(log 7). -/
def Obligations.UnclaimAnswers : Prop :=
  ∀ (s : State) (c : Captured) (rest : List Captured), s.Executing 0x7F c rest →
    ∃ t, exec .unclaim s = .next t ∧
      (s.alert.lock = true → s.Refused t c rest .locked) ∧
      (s.alert.lock = false → s.alert.state ≠ .idle → s.Refused t c rest .busy) ∧
      (s.alert.lock = false → s.alert.state = .idle →
        s.Answered t c rest .done [] ∧ t.cmd.unclaiming = true ∧
        t.aside = ({ s with cmd := { s.cmd with unclaiming := true } } : State).aside ∧
        (∀ i : Instr, i ∈ [Instr.regionSet, .laneSet, .laneEnable, .laneDisable, .laneStatus, .clipSet, .clipClear, .place,
            .withdraw, .placementStatus, .cue, .alertProfile, .alertStart, .alertRenew, .alertEnd, .alertLock, .auditMark,
            .logAck, .unclaim, .unknownCommand] → ∃ u, exec i t = .next u ∧ u.apart = t.apart))

/-- A code that names no command is answered UNKNOWN, with every result word 0 and nothing changed (R174). -/
def Obligations.UnknownCodeAnswers : Prop :=
  ∀ (s : State) (c : Captured) (rest : List Captured) (code : Nat), s.Executing code c rest →
    code ∉ [0x01, 0x02, 0x03, 0x04, 0x05, 0x10, 0x11, 0x20, 0x21, 0x22, 0x23, 0x30, 0x31, 0x32, 0x33, 0x34, 0x40, 0x41, 0x7F] →
    ∃ t, exec .unknownCommand s = .next t ∧ s.Refused t c rest .unknown

/-! ## Lines and timers (R19, R35, R112 to R114, R144 to R149, R152) -/

/-- RST_N: its assertion puts every block at its reset values and Local Time at 0; of what is in the memory path a QUEUED or
GRANTED entry stands as it was and a read that has its data is READY with what memory gave, all only forwarded from then on, and
the data of a fetch will be discarded (R19, R153, R181, R193). Its release ends the reset, and a raw EAL level that differs from
the filtered level begins a change mark (R145). By the model's choice a level that stands already changes nothing (log 8); that a
read already READY returns its slot as memory gave it, and one ARRIVED becomes READY at once, is its reading (log 11); that a clip
is in use from then on while a granted fetch of it has not arrived, and no other clip is (R66), its choice between the rules
(log 36). -/
def Obligations.ResetLineActs : Prop :=
  ∀ s : State,
    (s.rst = false → ∃ t, exec .rstNAssert s = .next t ∧
      (t.rst = true ∧ t.lt = 0 ∧ t.refclk = s.refclk ∧ t.mem = s.mem ∧ t.bypass = s.bypass ∧ t.eal = s.eal ∧
        t.pending = s.pending) ∧
      (t.cmd = State.reset.cmd ∧ t.lanes = State.reset.lanes ∧ t.clips = State.reset.clips ∧
        t.placements = State.reset.placements ∧ t.wait = none ∧ t.alert = State.reset.alert ∧ t.log = State.reset.log) ∧
      (t.router.controlBase = none ∧ t.router.waiting = [] ∧ t.router.fetchOrder = [] ∧ t.router.waitCount = 0 ∧
        t.router.strayClaims = 0 ∧ t.router.straddles = 0 ∧ t.router.logIntrusions = 0 ∧
        t.router.regions = State.reset.router.regions) ∧
      (t.router.forward = s.router.forward.map FwdEntry.asPlain ∧
        t.router.inFlight = s.router.inFlight.map InFlight.discarded) ∧
      (∀ id, t.clipInUse id = true ↔ ∃ f ∈ s.router.inFlight, ∃ l orphan, f.owner = .fetch l id orphan)) ∧
    (s.rst = true → ∃ t, exec .rstNAssert s = .next t ∧ t.apart = s.apart) ∧
    (s.rst = true → ∃ t, exec .rstNRelease s = .next t ∧
      t.apart = ({ s with
        rst := false
        alert := { s.alert with ealMark := if s.eal = s.alert.ealFiltered then none else some s.lt } } : State).apart) ∧
    (s.rst = false → ∃ t, exec .rstNRelease s = .next t ∧ t.apart = s.apart)

/-- The assertion of BYPASS: every stack is cleared and its placements end, with a BYPASSED report each, lane by lane and top first,
every pending request and lookahead is dropped, a fetch not granted withdrawn from the arbiter, a waiting read becomes READY with its
own slot as stored and every read that is READY returns its slot as stored, an alert in effect ends with an ALERT END record that names
the lanes that held an alert entry, line-pending clears, and nothing else changes (R66, R90, R91, R112, R136, R152). Asserted already,
it changes nothing (the model's choice, log 8). -/
def Obligations.BypassAsserts : Prop :=
  ∀ s : State,
    (s.bypass = true → ∃ t, exec .bypassAssert s = .next t ∧ t.apart = s.apart) ∧
    (s.bypass = false → ∃ t, exec .bypassAssert s = .next t ∧ t.bypass = true ∧ t.wait = none ∧
      (∀ l, l < 16 → t.lane l =
        { s.lane l with
          stack := [], alertReq := none, slateInsert := none, slateRemove := none
          look :=
            match (s.lane l).look with
            | .fetching key a true _ _ => .fetching key a true true false
            | .fetching _ _ false _ _ | .full .. | .empty => .empty }) ∧
      (∀ id, id < 128 →
        t.placement id = if ∃ l : Nat, l < 16 ∧ onStackOf (s.lane l).stack id then Placement.vacant else s.placement id) ∧
      ((s.wait = none → t.router.forward = s.router.forward.map FwdEntry.unspliced) ∧
        ∀ w pre f post, s.wait = some w → s.FirstIn .arrived pre f post →
          t.router.forward =
            pre.map FwdEntry.unspliced ++ { f with state := .ready, out := f.raw } :: post.map FwdEntry.unspliced) ∧
      (t.router.forward.map FwdEntry.req = s.router.forward.map FwdEntry.req ∧
        ∀ f ∈ t.router.forward, f.state = .ready → f.out = f.raw) ∧
      (noTwice ((List.range 16).flatMap fun l => (s.lane l).stack) →
        ∃ mask, MaskOf mask (fun l => ∃ e ∈ (s.lane l).stack, e.kind = .alert) ∧
          t.log = s.logAfter
            (((List.range 16).flatMap fun l => s.reports (fun _ _ => .bypassed) (s.clock l) (s.lane l).stack) ++
              if s.alert.state = .idle then [] else [(255, .alert .finish s.alert.profile s.alert.severity .bypass mask)])) ∧
      (if s.alert.state = .idle then t.alert = { s.alert with linePending := false }
        else ({ s.alert with linePending := false } : AlertCtl).Ends t.alert) ∧
      t.apart = ({ s with
        bypass := true, lanes := t.lanes, placements := t.placements, wait := none, alert := t.alert, log := t.log
        router := { s.router with
          forward := t.router.forward
          fetchOrder := s.router.fetchOrder.filter fun m => !(s.lane m).look.ungranted } } : State).apart)

/-- The release of BYPASS: every enabled lane's deltas become 0 and its realign flags clear, a lane LOST or RECOVERING without a
pending insert is posted one with countdown 0, and the filtered EAL level is taken afresh, a line alert that starts taking its items
and handing over its ALERT START record; nothing else changes (R39, R114, R136, R146, R152, R165). Released already, it changes
nothing (the model's choice, log 8). -/
def Obligations.BypassReleases : Prop :=
  ∀ s : State,
    (s.bypass = false → ∃ t, exec .bypassRelease s = .next t ∧ t.apart = s.apart) ∧
    (s.bypass = true → ∃ t, exec .bypassRelease s = .next t ∧ t.bypass = false ∧
      (∀ l, (s.lane l).enabled = false → t.lane l = s.lane l) ∧
      (∀ l, (s.lane l).enabled = true →
        let x := s.lane l
        let posts := (x.monitor.state = .lost ∨ x.monitor.state = .recovering) ∧ x.slateInsert = none
        t.lane l =
          { x with
            roles := (t.lane l).roles, alertReq := (t.lane l).alertReq
            slateInsert := if posts then some { countdown := 0, due := false } else x.slateInsert
            slateRemove := if posts then none else x.slateRemove } ∧
        ∀ r : Fin 4, (t.lane l).roles[r] = { x.roles[r] with delta := 0, realign := false }) ∧
      (s.alert.ealFiltered = false → t.alert = s.alert ∧ t.log = s.log ∧ ∀ l, (t.lane l).alertReq = (s.lane l).alertReq) ∧
      (s.alert.ealFiltered = true → s.alert.state = .idle →
        if (s.alert.profileAt 0).defined = true then
          t.alert = s.onLine ∧
            (∃ mask, MaskOf mask (s.PostsOn 0 (s.alert.profileAt 0).zones) ∧
              t.log = s.logAfter [(255, .alert .start 0 (s.alert.profileAt 0).severity .line mask)]) ∧
            ∀ l, (t.lane l).alertReq = (s.lane l).requestAfter 0 (s.alert.profileAt 0).zones 0
        else
          t.alert = { s.alert with linePending := true } ∧ t.log = s.log ∧ ∀ l, (t.lane l).alertReq = (s.lane l).alertReq) ∧
      t.apart = ({ s with bypass := false, lanes := t.lanes, alert := t.alert, log := t.log } : State).apart)

/-- The EAL line. A raw level that comes to differ from the filtered level begins a change mark, one that returns to it drops the
mark, and in reset none is kept. A raw level that has differed for 270,000 RT becomes the filtered level; unless BYPASS is held
the controller takes the filtered assertion or deassertion, by its state and profile 0, with the ALERT record of the start,
replacement or end (R145, R146, R147, R152, R187). A level given that stands already (log 8), and an expiry whose time has not come
(log 6), change nothing by the model's choice. -/
def Obligations.EalLineFilters : Prop :=
  ∀ s : State,
    let due := ∃ m ∈ s.alert.ealMark, 270000 ≤ (s.lt - m).toNat ∧ s.eal ≠ s.alert.ealFiltered
    let p0 := s.alert.profileAt 0
    let takes := p0.defined = true ∧ (s.alert.state = .idle ∨ s.alert.severity ≤ p0.severity)
    let old := if s.alert.state = .idle then 0 else (s.alert.profileAt s.alert.profile).zones
    let filtered : AlertCtl := { s.alert with ealFiltered := s.eal, ealMark := none }
    (∀ level, ∃ t, exec (.ealRawChange level) s = .next t ∧
      (level = s.eal → t.apart = s.apart) ∧
      (level ≠ s.eal → t.apart = ({ s with
        eal := level
        alert := { s.alert with
          ealMark := if s.rst = true then s.alert.ealMark
            else if level = s.alert.ealFiltered then none else some s.lt } } : State).apart)) ∧
    ∃ t, exec .ealFilterExpiry s = .next t ∧
      (¬ due → t.apart = s.apart) ∧
      (due → s.bypass = true → t.apart = ({ s with alert := filtered } : State).apart) ∧
      (due → s.bypass = false → s.eal = true → ¬ takes →
        t.apart = ({ s with alert := { filtered with linePending := true } } : State).apart) ∧
      (due → s.bypass = false → s.eal = true → takes →
        t.alert = { filtered.taken .activeLine 0 p0.severity s.lt with linePending := false } ∧
        (∀ l, t.lane l = { s.lane l with alertReq := (s.lane l).requestAfter old p0.zones 0 }) ∧
        (∃ mask, MaskOf mask (s.PostsOn old p0.zones) ∧
          t.log = s.logAfter [(255, .alert (if s.alert.state = .idle then .start else .replace) 0 p0.severity .line mask)]) ∧
        t.apart = ({ s with alert := t.alert, lanes := t.lanes, log := t.log } : State).apart) ∧
      (due → s.bypass = false → s.eal = false → s.alert.state ≠ .activeLine →
        t.apart = ({ s with alert := { filtered with linePending := false } } : State).apart) ∧
      (due → s.bypass = false → s.eal = false → s.alert.state = .activeLine →
        ({ filtered with linePending := false } : AlertCtl).Ends t.alert ∧
        (∀ l, t.lane l = { s.lane l with alertReq := (s.lane l).requestAtEnd old }) ∧
        (∃ records, s.EndRecords .line records ∧ t.log = s.logAfter records) ∧
        t.apart = ({ s with alert := t.alert, lanes := t.lanes, log := t.log } : State).apart)

/-- The hold limit: in an active state each 27,000,000 RT from the hold mark add a held second, and at the limit the alert ends, its
records handed over, a pending line alert with its items following a command alert's end (R136, R140, R142, R144, R187). That no held
second is added at the limit is the model's reading (log 21), and that a step whose time has not come changes nothing its choice (log 6). -/
def Obligations.HoldLimitRuns : Prop :=
  ∀ s : State,
    let q := s.alert.profileAt s.alert.profile
    let second := s.alert.state ≠ .idle ∧ s.alert.heldSeconds < q.holdLimit ∧ 27000000 ≤ (s.lt - s.alert.holdMark).toNat
    let expired := s.alert.state ≠ .idle ∧ q.holdLimit ≤ s.alert.heldSeconds
    let follows := s.alert.state ≠ .activeLine ∧ s.alert.linePending = true ∧ (s.alert.profileAt 0).defined = true
    (∃ t, exec .holdSecondElapsed s = .next t ∧
      (second → t.apart = ({ s with alert := { s.alert with
        holdMark := s.alert.holdMark + 27000000
        heldSeconds := s.alert.heldSeconds + 1 } } : State).apart) ∧
      (¬ second → t.apart = s.apart)) ∧
    (∃ t, exec .holdLimitExpiry s = .next t ∧
      (¬ expired → t.apart = s.apart) ∧
      (expired →
        t.apart = ({ s with alert := t.alert, lanes := t.lanes, log := t.log } : State).apart ∧
        (¬ follows → s.alert.Ends t.alert ∧
          ∀ l, t.lane l = { s.lane l with alertReq := (s.lane l).requestAtEnd q.zones }) ∧
        (∃ records, s.EndRecords .expired records ∧ t.log = s.logAfter records) ∧
        (∀ l, t.lane l = { s.lane l with alertReq := s.requestAfterEnd l }) ∧
        (follows → t.alert = s.onLine)))

/-- A renewal period that passes in ACTIVE_CMD is a failure: the period restarts one period on, the loop count gains two up to
31, and a crossing of the loop limit fires the profile's reaction: WARN and LATCH with a RENEWAL record, RELEASE with the end of
the alert, its records and requests, and the line alert that may follow, with its items (R136, R140, R142, R149, R150, R187). A step
whose time has not come changes nothing (the model's choice, log 6). -/
def Obligations.RenewalPeriodExpires : Prop :=
  ∀ s : State,
    let q := s.alert.profileAt s.alert.profile
    let due := s.alert.state = .activeCmd ∧ q.period * 270000 ≤ (s.lt - s.alert.periodStart).toNat
    let failed := min (s.alert.loopCount + 2) 31
    let crossing := q.loopLimit ≤ failed ∧ s.alert.reactionFired = false
    let judged (fired : Bool) (st : AlertState) : AlertCtl :=
      { s.alert with
        periodStart := s.alert.periodStart + BitVec.ofNat 32 (q.period * 270000)
        loopCount := failed, reactionFired := fired, state := st }
    ∃ t, exec .renewalPeriodExpiry s = .next t ∧
      (¬ due → t.apart = s.apart) ∧
      (due → ¬ crossing → t.apart = ({ s with alert := judged s.alert.reactionFired .activeCmd } : State).apart) ∧
      (due → crossing → q.reaction = .warn →
        t.log = s.logAfter [(255, .renewal s.alert.profile failed .warn)] ∧
        t.apart = ({ s with alert := judged true .activeCmd, log := t.log } : State).apart) ∧
      (due → crossing → q.reaction = .latch →
        t.log = s.logAfter [(255, .renewal s.alert.profile failed .latch)] ∧
        t.apart = ({ s with alert := judged true .activeLatched, log := t.log } : State).apart) ∧
      (due → crossing → q.reaction = .release →
        (s.LineFollows → t.alert = s.onLine) ∧ (¬ s.LineFollows → s.alert.Ends t.alert) ∧
        (∃ records, s.EndRecords .renewal records ∧ t.log = s.logAfter records) ∧
        (∀ l, t.lane l = { s.lane l with alertReq := s.requestAfterEnd l }) ∧
        t.apart = ({ s with alert := t.alert, lanes := t.lanes, log := t.log } : State).apart)

/-- The fold of an enabled lane's clock: C and L advance together once 1,258,291,200 RT have elapsed, which leaves the current
value unchanged; a disabled lane's clock is not folded (R35). That a fold not due changes nothing, and that one acts at or past its
time, is the model's choice (log 6). -/
def Obligations.LaneClockFolds : Prop :=
  ∀ (s : State) (l : Nat), l < 16 →
    let x := s.lane l
    let due := x.enabled = true ∧ 1258291200 ≤ (s.lt - x.clockL).toNat
    ∃ t, exec (.laneClockFold l) s = .next t ∧
      (due → t.apart = (s.onLane l fun x => { x with clockC := x.clockC + 4194304, clockL := x.clockL + 1258291200 }).apart) ∧
      (¬ due → t.apart = s.apart) ∧ t.clock l = s.clock l
end

