-- ==== Sys2Proof/Laws/State.lean ====
section
/-! SUPPORT. The small lemmas of the updates of State: one per field per update, and reading a table after writing it. -/

namespace Sys2Proof.Machine

open Sys2Proof

/-! ## One lemma per field per update -/

/-! ### setLane -/

@[simp] theorem State.setLane_lt (s : State) (l : Nat) (x : Lane) : (s.setLane l x).lt = s.lt := rfl
@[simp] theorem State.setLane_rst (s : State) (l : Nat) (x : Lane) : (s.setLane l x).rst = s.rst := rfl
@[simp] theorem State.setLane_refclk (s : State) (l : Nat) (x : Lane) : (s.setLane l x).refclk = s.refclk := rfl
@[simp] theorem State.setLane_bypass (s : State) (l : Nat) (x : Lane) : (s.setLane l x).bypass = s.bypass := rfl
@[simp] theorem State.setLane_eal (s : State) (l : Nat) (x : Lane) : (s.setLane l x).eal = s.eal := rfl
@[simp] theorem State.setLane_router (s : State) (l : Nat) (x : Lane) : (s.setLane l x).router = s.router := rfl
@[simp] theorem State.setLane_cmd (s : State) (l : Nat) (x : Lane) : (s.setLane l x).cmd = s.cmd := rfl
@[simp] theorem State.setLane_lanes (s : State) (l : Nat) (x : Lane) : (s.setLane l x).lanes = s.lanes.setIfInBounds l x := rfl
@[simp] theorem State.setLane_clips (s : State) (l : Nat) (x : Lane) : (s.setLane l x).clips = s.clips := rfl
@[simp] theorem State.setLane_placements (s : State) (l : Nat) (x : Lane) : (s.setLane l x).placements = s.placements := rfl
@[simp] theorem State.setLane_wait (s : State) (l : Nat) (x : Lane) : (s.setLane l x).wait = s.wait := rfl
@[simp] theorem State.setLane_alert (s : State) (l : Nat) (x : Lane) : (s.setLane l x).alert = s.alert := rfl
@[simp] theorem State.setLane_log (s : State) (l : Nat) (x : Lane) : (s.setLane l x).log = s.log := rfl
@[simp] theorem State.setLane_mem (s : State) (l : Nat) (x : Lane) : (s.setLane l x).mem = s.mem := rfl
@[simp] theorem State.setLane_pending (s : State) (l : Nat) (x : Lane) : (s.setLane l x).pending = s.pending := rfl

/-! ### onLane -/

@[simp] theorem State.onLane_lt (s : State) (l : Nat) (f : Lane → Lane) : (s.onLane l f).lt = s.lt := rfl
@[simp] theorem State.onLane_rst (s : State) (l : Nat) (f : Lane → Lane) : (s.onLane l f).rst = s.rst := rfl
@[simp] theorem State.onLane_refclk (s : State) (l : Nat) (f : Lane → Lane) : (s.onLane l f).refclk = s.refclk := rfl
@[simp] theorem State.onLane_bypass (s : State) (l : Nat) (f : Lane → Lane) : (s.onLane l f).bypass = s.bypass := rfl
@[simp] theorem State.onLane_eal (s : State) (l : Nat) (f : Lane → Lane) : (s.onLane l f).eal = s.eal := rfl
@[simp] theorem State.onLane_router (s : State) (l : Nat) (f : Lane → Lane) : (s.onLane l f).router = s.router := rfl
@[simp] theorem State.onLane_cmd (s : State) (l : Nat) (f : Lane → Lane) : (s.onLane l f).cmd = s.cmd := rfl
@[simp] theorem State.onLane_lanes (s : State) (l : Nat) (f : Lane → Lane) : (s.onLane l f).lanes = s.lanes.setIfInBounds l (f (s.lane l)) := rfl
@[simp] theorem State.onLane_clips (s : State) (l : Nat) (f : Lane → Lane) : (s.onLane l f).clips = s.clips := rfl
@[simp] theorem State.onLane_placements (s : State) (l : Nat) (f : Lane → Lane) : (s.onLane l f).placements = s.placements := rfl
@[simp] theorem State.onLane_wait (s : State) (l : Nat) (f : Lane → Lane) : (s.onLane l f).wait = s.wait := rfl
@[simp] theorem State.onLane_alert (s : State) (l : Nat) (f : Lane → Lane) : (s.onLane l f).alert = s.alert := rfl
@[simp] theorem State.onLane_log (s : State) (l : Nat) (f : Lane → Lane) : (s.onLane l f).log = s.log := rfl
@[simp] theorem State.onLane_mem (s : State) (l : Nat) (f : Lane → Lane) : (s.onLane l f).mem = s.mem := rfl
@[simp] theorem State.onLane_pending (s : State) (l : Nat) (f : Lane → Lane) : (s.onLane l f).pending = s.pending := rfl

/-! ### setClip -/

@[simp] theorem State.setClip_lt (s : State) (i : Nat) (c : Clip) : (s.setClip i c).lt = s.lt := rfl
@[simp] theorem State.setClip_rst (s : State) (i : Nat) (c : Clip) : (s.setClip i c).rst = s.rst := rfl
@[simp] theorem State.setClip_refclk (s : State) (i : Nat) (c : Clip) : (s.setClip i c).refclk = s.refclk := rfl
@[simp] theorem State.setClip_bypass (s : State) (i : Nat) (c : Clip) : (s.setClip i c).bypass = s.bypass := rfl
@[simp] theorem State.setClip_eal (s : State) (i : Nat) (c : Clip) : (s.setClip i c).eal = s.eal := rfl
@[simp] theorem State.setClip_router (s : State) (i : Nat) (c : Clip) : (s.setClip i c).router = s.router := rfl
@[simp] theorem State.setClip_cmd (s : State) (i : Nat) (c : Clip) : (s.setClip i c).cmd = s.cmd := rfl
@[simp] theorem State.setClip_lanes (s : State) (i : Nat) (c : Clip) : (s.setClip i c).lanes = s.lanes := rfl
@[simp] theorem State.setClip_clips (s : State) (i : Nat) (c : Clip) : (s.setClip i c).clips = s.clips.setIfInBounds i c := rfl
@[simp] theorem State.setClip_placements (s : State) (i : Nat) (c : Clip) : (s.setClip i c).placements = s.placements := rfl
@[simp] theorem State.setClip_wait (s : State) (i : Nat) (c : Clip) : (s.setClip i c).wait = s.wait := rfl
@[simp] theorem State.setClip_alert (s : State) (i : Nat) (c : Clip) : (s.setClip i c).alert = s.alert := rfl
@[simp] theorem State.setClip_log (s : State) (i : Nat) (c : Clip) : (s.setClip i c).log = s.log := rfl
@[simp] theorem State.setClip_mem (s : State) (i : Nat) (c : Clip) : (s.setClip i c).mem = s.mem := rfl
@[simp] theorem State.setClip_pending (s : State) (i : Nat) (c : Clip) : (s.setClip i c).pending = s.pending := rfl

/-! ### setPlacement -/

@[simp] theorem State.setPlacement_lt (s : State) (i : Nat) (p : Placement) : (s.setPlacement i p).lt = s.lt := rfl
@[simp] theorem State.setPlacement_rst (s : State) (i : Nat) (p : Placement) : (s.setPlacement i p).rst = s.rst := rfl
@[simp] theorem State.setPlacement_refclk (s : State) (i : Nat) (p : Placement) : (s.setPlacement i p).refclk = s.refclk := rfl
@[simp] theorem State.setPlacement_bypass (s : State) (i : Nat) (p : Placement) : (s.setPlacement i p).bypass = s.bypass := rfl
@[simp] theorem State.setPlacement_eal (s : State) (i : Nat) (p : Placement) : (s.setPlacement i p).eal = s.eal := rfl
@[simp] theorem State.setPlacement_router (s : State) (i : Nat) (p : Placement) : (s.setPlacement i p).router = s.router := rfl
@[simp] theorem State.setPlacement_cmd (s : State) (i : Nat) (p : Placement) : (s.setPlacement i p).cmd = s.cmd := rfl
@[simp] theorem State.setPlacement_lanes (s : State) (i : Nat) (p : Placement) : (s.setPlacement i p).lanes = s.lanes := rfl
@[simp] theorem State.setPlacement_clips (s : State) (i : Nat) (p : Placement) : (s.setPlacement i p).clips = s.clips := rfl
@[simp] theorem State.setPlacement_placements (s : State) (i : Nat) (p : Placement) : (s.setPlacement i p).placements = s.placements.setIfInBounds i p := rfl
@[simp] theorem State.setPlacement_wait (s : State) (i : Nat) (p : Placement) : (s.setPlacement i p).wait = s.wait := rfl
@[simp] theorem State.setPlacement_alert (s : State) (i : Nat) (p : Placement) : (s.setPlacement i p).alert = s.alert := rfl
@[simp] theorem State.setPlacement_log (s : State) (i : Nat) (p : Placement) : (s.setPlacement i p).log = s.log := rfl
@[simp] theorem State.setPlacement_mem (s : State) (i : Nat) (p : Placement) : (s.setPlacement i p).mem = s.mem := rfl
@[simp] theorem State.setPlacement_pending (s : State) (i : Nat) (p : Placement) : (s.setPlacement i p).pending = s.pending := rfl

/-! ### onPlacement -/

@[simp] theorem State.onPlacement_lt (s : State) (i : Nat) (f : Placement → Placement) : (s.onPlacement i f).lt = s.lt := rfl
@[simp] theorem State.onPlacement_rst (s : State) (i : Nat) (f : Placement → Placement) : (s.onPlacement i f).rst = s.rst := rfl
@[simp] theorem State.onPlacement_refclk (s : State) (i : Nat) (f : Placement → Placement) : (s.onPlacement i f).refclk = s.refclk := rfl
@[simp] theorem State.onPlacement_bypass (s : State) (i : Nat) (f : Placement → Placement) : (s.onPlacement i f).bypass = s.bypass := rfl
@[simp] theorem State.onPlacement_eal (s : State) (i : Nat) (f : Placement → Placement) : (s.onPlacement i f).eal = s.eal := rfl
@[simp] theorem State.onPlacement_router (s : State) (i : Nat) (f : Placement → Placement) : (s.onPlacement i f).router = s.router := rfl
@[simp] theorem State.onPlacement_cmd (s : State) (i : Nat) (f : Placement → Placement) : (s.onPlacement i f).cmd = s.cmd := rfl
@[simp] theorem State.onPlacement_lanes (s : State) (i : Nat) (f : Placement → Placement) : (s.onPlacement i f).lanes = s.lanes := rfl
@[simp] theorem State.onPlacement_clips (s : State) (i : Nat) (f : Placement → Placement) : (s.onPlacement i f).clips = s.clips := rfl
@[simp] theorem State.onPlacement_placements (s : State) (i : Nat) (f : Placement → Placement) : (s.onPlacement i f).placements = s.placements.setIfInBounds i (f (s.placement i)) := rfl
@[simp] theorem State.onPlacement_wait (s : State) (i : Nat) (f : Placement → Placement) : (s.onPlacement i f).wait = s.wait := rfl
@[simp] theorem State.onPlacement_alert (s : State) (i : Nat) (f : Placement → Placement) : (s.onPlacement i f).alert = s.alert := rfl
@[simp] theorem State.onPlacement_log (s : State) (i : Nat) (f : Placement → Placement) : (s.onPlacement i f).log = s.log := rfl
@[simp] theorem State.onPlacement_mem (s : State) (i : Nat) (f : Placement → Placement) : (s.onPlacement i f).mem = s.mem := rfl
@[simp] theorem State.onPlacement_pending (s : State) (i : Nat) (f : Placement → Placement) : (s.onPlacement i f).pending = s.pending := rfl

/-! ### withForward -/

@[simp] theorem State.withForward_lt (s : State) (fs : List FwdEntry) : (s.withForward fs).lt = s.lt := rfl
@[simp] theorem State.withForward_rst (s : State) (fs : List FwdEntry) : (s.withForward fs).rst = s.rst := rfl
@[simp] theorem State.withForward_refclk (s : State) (fs : List FwdEntry) : (s.withForward fs).refclk = s.refclk := rfl
@[simp] theorem State.withForward_bypass (s : State) (fs : List FwdEntry) : (s.withForward fs).bypass = s.bypass := rfl
@[simp] theorem State.withForward_eal (s : State) (fs : List FwdEntry) : (s.withForward fs).eal = s.eal := rfl
@[simp] theorem State.withForward_router (s : State) (fs : List FwdEntry) : (s.withForward fs).router = { s.router with forward := fs } := rfl
@[simp] theorem State.withForward_cmd (s : State) (fs : List FwdEntry) : (s.withForward fs).cmd = s.cmd := rfl
@[simp] theorem State.withForward_lanes (s : State) (fs : List FwdEntry) : (s.withForward fs).lanes = s.lanes := rfl
@[simp] theorem State.withForward_clips (s : State) (fs : List FwdEntry) : (s.withForward fs).clips = s.clips := rfl
@[simp] theorem State.withForward_placements (s : State) (fs : List FwdEntry) : (s.withForward fs).placements = s.placements := rfl
@[simp] theorem State.withForward_wait (s : State) (fs : List FwdEntry) : (s.withForward fs).wait = s.wait := rfl
@[simp] theorem State.withForward_alert (s : State) (fs : List FwdEntry) : (s.withForward fs).alert = s.alert := rfl
@[simp] theorem State.withForward_log (s : State) (fs : List FwdEntry) : (s.withForward fs).log = s.log := rfl
@[simp] theorem State.withForward_mem (s : State) (fs : List FwdEntry) : (s.withForward fs).mem = s.mem := rfl
@[simp] theorem State.withForward_pending (s : State) (fs : List FwdEntry) : (s.withForward fs).pending = s.pending := rfl

/-! ### unqueue -/

@[simp] theorem State.unqueue_lt (s : State) (rest : List Captured) : (s.unqueue rest).lt = s.lt := rfl
@[simp] theorem State.unqueue_rst (s : State) (rest : List Captured) : (s.unqueue rest).rst = s.rst := rfl
@[simp] theorem State.unqueue_refclk (s : State) (rest : List Captured) : (s.unqueue rest).refclk = s.refclk := rfl
@[simp] theorem State.unqueue_bypass (s : State) (rest : List Captured) : (s.unqueue rest).bypass = s.bypass := rfl
@[simp] theorem State.unqueue_eal (s : State) (rest : List Captured) : (s.unqueue rest).eal = s.eal := rfl
@[simp] theorem State.unqueue_router (s : State) (rest : List Captured) : (s.unqueue rest).router = s.router := rfl
@[simp] theorem State.unqueue_cmd (s : State) (rest : List Captured) : (s.unqueue rest).cmd = { s.cmd with queue := rest } := rfl
@[simp] theorem State.unqueue_lanes (s : State) (rest : List Captured) : (s.unqueue rest).lanes = s.lanes := rfl
@[simp] theorem State.unqueue_clips (s : State) (rest : List Captured) : (s.unqueue rest).clips = s.clips := rfl
@[simp] theorem State.unqueue_placements (s : State) (rest : List Captured) : (s.unqueue rest).placements = s.placements := rfl
@[simp] theorem State.unqueue_wait (s : State) (rest : List Captured) : (s.unqueue rest).wait = s.wait := rfl
@[simp] theorem State.unqueue_alert (s : State) (rest : List Captured) : (s.unqueue rest).alert = s.alert := rfl
@[simp] theorem State.unqueue_log (s : State) (rest : List Captured) : (s.unqueue rest).log = s.log := rfl
@[simp] theorem State.unqueue_mem (s : State) (rest : List Captured) : (s.unqueue rest).mem = s.mem := rfl
@[simp] theorem State.unqueue_pending (s : State) (rest : List Captured) : (s.unqueue rest).pending = s.pending := rfl

/-! ### showM -/

@[simp] theorem State.showM_lt (s : State) (m : MRequest) : (showM m s).lt = s.lt := rfl
@[simp] theorem State.showM_rst (s : State) (m : MRequest) : (showM m s).rst = s.rst := rfl
@[simp] theorem State.showM_refclk (s : State) (m : MRequest) : (showM m s).refclk = s.refclk := rfl
@[simp] theorem State.showM_bypass (s : State) (m : MRequest) : (showM m s).bypass = s.bypass := rfl
@[simp] theorem State.showM_eal (s : State) (m : MRequest) : (showM m s).eal = s.eal := rfl
@[simp] theorem State.showM_router (s : State) (m : MRequest) : (showM m s).router = { s.router with mPort := some m } := rfl
@[simp] theorem State.showM_cmd (s : State) (m : MRequest) : (showM m s).cmd = s.cmd := rfl
@[simp] theorem State.showM_lanes (s : State) (m : MRequest) : (showM m s).lanes = s.lanes := rfl
@[simp] theorem State.showM_clips (s : State) (m : MRequest) : (showM m s).clips = s.clips := rfl
@[simp] theorem State.showM_placements (s : State) (m : MRequest) : (showM m s).placements = s.placements := rfl
@[simp] theorem State.showM_wait (s : State) (m : MRequest) : (showM m s).wait = s.wait := rfl
@[simp] theorem State.showM_alert (s : State) (m : MRequest) : (showM m s).alert = s.alert := rfl
@[simp] theorem State.showM_log (s : State) (m : MRequest) : (showM m s).log = s.log := rfl
@[simp] theorem State.showM_mem (s : State) (m : MRequest) : (showM m s).mem = s.mem := rfl
@[simp] theorem State.showM_pending (s : State) (m : MRequest) : (showM m s).pending = s.pending := rfl

/-! ### launch -/

@[simp] theorem State.launch_lt (s : State) (o : ReadOwner) (d : List Byte) : (launch o d s).lt = s.lt := rfl
@[simp] theorem State.launch_rst (s : State) (o : ReadOwner) (d : List Byte) : (launch o d s).rst = s.rst := rfl
@[simp] theorem State.launch_refclk (s : State) (o : ReadOwner) (d : List Byte) : (launch o d s).refclk = s.refclk := rfl
@[simp] theorem State.launch_bypass (s : State) (o : ReadOwner) (d : List Byte) : (launch o d s).bypass = s.bypass := rfl
@[simp] theorem State.launch_eal (s : State) (o : ReadOwner) (d : List Byte) : (launch o d s).eal = s.eal := rfl
@[simp] theorem State.launch_router (s : State) (o : ReadOwner) (d : List Byte) : (launch o d s).router = { s.router with inFlight := s.router.inFlight ++ [{ owner := o, data := d }] } := rfl
@[simp] theorem State.launch_cmd (s : State) (o : ReadOwner) (d : List Byte) : (launch o d s).cmd = s.cmd := rfl
@[simp] theorem State.launch_lanes (s : State) (o : ReadOwner) (d : List Byte) : (launch o d s).lanes = s.lanes := rfl
@[simp] theorem State.launch_clips (s : State) (o : ReadOwner) (d : List Byte) : (launch o d s).clips = s.clips := rfl
@[simp] theorem State.launch_placements (s : State) (o : ReadOwner) (d : List Byte) : (launch o d s).placements = s.placements := rfl
@[simp] theorem State.launch_wait (s : State) (o : ReadOwner) (d : List Byte) : (launch o d s).wait = s.wait := rfl
@[simp] theorem State.launch_alert (s : State) (o : ReadOwner) (d : List Byte) : (launch o d s).alert = s.alert := rfl
@[simp] theorem State.launch_log (s : State) (o : ReadOwner) (d : List Byte) : (launch o d s).log = s.log := rfl
@[simp] theorem State.launch_mem (s : State) (o : ReadOwner) (d : List Byte) : (launch o d s).mem = s.mem := rfl
@[simp] theorem State.launch_pending (s : State) (o : ReadOwner) (d : List Byte) : (launch o d s).pending = s.pending := rfl

/-! ### landed -/

@[simp] theorem State.landed_lt (s : State) (r : List InFlight) : (landed r s).lt = s.lt := rfl
@[simp] theorem State.landed_rst (s : State) (r : List InFlight) : (landed r s).rst = s.rst := rfl
@[simp] theorem State.landed_refclk (s : State) (r : List InFlight) : (landed r s).refclk = s.refclk := rfl
@[simp] theorem State.landed_bypass (s : State) (r : List InFlight) : (landed r s).bypass = s.bypass := rfl
@[simp] theorem State.landed_eal (s : State) (r : List InFlight) : (landed r s).eal = s.eal := rfl
@[simp] theorem State.landed_router (s : State) (r : List InFlight) : (landed r s).router = { s.router with inFlight := r } := rfl
@[simp] theorem State.landed_cmd (s : State) (r : List InFlight) : (landed r s).cmd = s.cmd := rfl
@[simp] theorem State.landed_lanes (s : State) (r : List InFlight) : (landed r s).lanes = s.lanes := rfl
@[simp] theorem State.landed_clips (s : State) (r : List InFlight) : (landed r s).clips = s.clips := rfl
@[simp] theorem State.landed_placements (s : State) (r : List InFlight) : (landed r s).placements = s.placements := rfl
@[simp] theorem State.landed_wait (s : State) (r : List InFlight) : (landed r s).wait = s.wait := rfl
@[simp] theorem State.landed_alert (s : State) (r : List InFlight) : (landed r s).alert = s.alert := rfl
@[simp] theorem State.landed_log (s : State) (r : List InFlight) : (landed r s).log = s.log := rfl
@[simp] theorem State.landed_mem (s : State) (r : List InFlight) : (landed r s).mem = s.mem := rfl
@[simp] theorem State.landed_pending (s : State) (r : List InFlight) : (landed r s).pending = s.pending := rfl

/-! ### enqueue -/

@[simp] theorem State.enqueue_lt (s : State) (r : QRequest) (c : FwdClass) : (enqueue r c s).lt = s.lt := rfl
@[simp] theorem State.enqueue_rst (s : State) (r : QRequest) (c : FwdClass) : (enqueue r c s).rst = s.rst := rfl
@[simp] theorem State.enqueue_refclk (s : State) (r : QRequest) (c : FwdClass) : (enqueue r c s).refclk = s.refclk := rfl
@[simp] theorem State.enqueue_bypass (s : State) (r : QRequest) (c : FwdClass) : (enqueue r c s).bypass = s.bypass := rfl
@[simp] theorem State.enqueue_eal (s : State) (r : QRequest) (c : FwdClass) : (enqueue r c s).eal = s.eal := rfl
@[simp] theorem State.enqueue_cmd (s : State) (r : QRequest) (c : FwdClass) : (enqueue r c s).cmd = s.cmd := rfl
@[simp] theorem State.enqueue_lanes (s : State) (r : QRequest) (c : FwdClass) : (enqueue r c s).lanes = s.lanes := rfl
@[simp] theorem State.enqueue_clips (s : State) (r : QRequest) (c : FwdClass) : (enqueue r c s).clips = s.clips := rfl
@[simp] theorem State.enqueue_placements (s : State) (r : QRequest) (c : FwdClass) : (enqueue r c s).placements = s.placements := rfl
@[simp] theorem State.enqueue_wait (s : State) (r : QRequest) (c : FwdClass) : (enqueue r c s).wait = s.wait := rfl
@[simp] theorem State.enqueue_alert (s : State) (r : QRequest) (c : FwdClass) : (enqueue r c s).alert = s.alert := rfl
@[simp] theorem State.enqueue_log (s : State) (r : QRequest) (c : FwdClass) : (enqueue r c s).log = s.log := rfl
@[simp] theorem State.enqueue_mem (s : State) (r : QRequest) (c : FwdClass) : (enqueue r c s).mem = s.mem := rfl
@[simp] theorem State.enqueue_pending (s : State) (r : QRequest) (c : FwdClass) : (enqueue r c s).pending = s.pending := rfl

/-! ### completeRead -/

@[simp] theorem State.completeRead_lt (s : State) (d : List Byte) : (completeRead d s).lt = s.lt := rfl
@[simp] theorem State.completeRead_rst (s : State) (d : List Byte) : (completeRead d s).rst = s.rst := rfl
@[simp] theorem State.completeRead_refclk (s : State) (d : List Byte) : (completeRead d s).refclk = s.refclk := rfl
@[simp] theorem State.completeRead_bypass (s : State) (d : List Byte) : (completeRead d s).bypass = s.bypass := rfl
@[simp] theorem State.completeRead_eal (s : State) (d : List Byte) : (completeRead d s).eal = s.eal := rfl
@[simp] theorem State.completeRead_cmd (s : State) (d : List Byte) : (completeRead d s).cmd = s.cmd := rfl
@[simp] theorem State.completeRead_lanes (s : State) (d : List Byte) : (completeRead d s).lanes = s.lanes := rfl
@[simp] theorem State.completeRead_clips (s : State) (d : List Byte) : (completeRead d s).clips = s.clips := rfl
@[simp] theorem State.completeRead_placements (s : State) (d : List Byte) : (completeRead d s).placements = s.placements := rfl
@[simp] theorem State.completeRead_wait (s : State) (d : List Byte) : (completeRead d s).wait = none := rfl
@[simp] theorem State.completeRead_alert (s : State) (d : List Byte) : (completeRead d s).alert = s.alert := rfl
@[simp] theorem State.completeRead_log (s : State) (d : List Byte) : (completeRead d s).log = s.log := rfl
@[simp] theorem State.completeRead_mem (s : State) (d : List Byte) : (completeRead d s).mem = s.mem := rfl
@[simp] theorem State.completeRead_pending (s : State) (d : List Byte) : (completeRead d s).pending = s.pending := rfl

/-! ### withdrawFetch -/

@[simp] theorem State.withdrawFetch_lt (s : State) (l : Nat) : (withdrawFetch l s).lt = s.lt := rfl
@[simp] theorem State.withdrawFetch_rst (s : State) (l : Nat) : (withdrawFetch l s).rst = s.rst := rfl
@[simp] theorem State.withdrawFetch_refclk (s : State) (l : Nat) : (withdrawFetch l s).refclk = s.refclk := rfl
@[simp] theorem State.withdrawFetch_bypass (s : State) (l : Nat) : (withdrawFetch l s).bypass = s.bypass := rfl
@[simp] theorem State.withdrawFetch_eal (s : State) (l : Nat) : (withdrawFetch l s).eal = s.eal := rfl
@[simp] theorem State.withdrawFetch_cmd (s : State) (l : Nat) : (withdrawFetch l s).cmd = s.cmd := rfl
@[simp] theorem State.withdrawFetch_lanes (s : State) (l : Nat) : (withdrawFetch l s).lanes = s.lanes := rfl
@[simp] theorem State.withdrawFetch_clips (s : State) (l : Nat) : (withdrawFetch l s).clips = s.clips := rfl
@[simp] theorem State.withdrawFetch_placements (s : State) (l : Nat) : (withdrawFetch l s).placements = s.placements := rfl
@[simp] theorem State.withdrawFetch_wait (s : State) (l : Nat) : (withdrawFetch l s).wait = s.wait := rfl
@[simp] theorem State.withdrawFetch_alert (s : State) (l : Nat) : (withdrawFetch l s).alert = s.alert := rfl
@[simp] theorem State.withdrawFetch_log (s : State) (l : Nat) : (withdrawFetch l s).log = s.log := rfl
@[simp] theorem State.withdrawFetch_mem (s : State) (l : Nat) : (withdrawFetch l s).mem = s.mem := rfl
@[simp] theorem State.withdrawFetch_pending (s : State) (l : Nat) : (withdrawFetch l s).pending = s.pending := rfl

/-! ### withdrawWaiting -/

@[simp] theorem State.withdrawWaiting_lt (s : State) (w : PartWrite) : (withdrawWaiting w s).lt = s.lt := rfl
@[simp] theorem State.withdrawWaiting_rst (s : State) (w : PartWrite) : (withdrawWaiting w s).rst = s.rst := rfl
@[simp] theorem State.withdrawWaiting_refclk (s : State) (w : PartWrite) : (withdrawWaiting w s).refclk = s.refclk := rfl
@[simp] theorem State.withdrawWaiting_bypass (s : State) (w : PartWrite) : (withdrawWaiting w s).bypass = s.bypass := rfl
@[simp] theorem State.withdrawWaiting_eal (s : State) (w : PartWrite) : (withdrawWaiting w s).eal = s.eal := rfl
@[simp] theorem State.withdrawWaiting_cmd (s : State) (w : PartWrite) : (withdrawWaiting w s).cmd = s.cmd := rfl
@[simp] theorem State.withdrawWaiting_lanes (s : State) (w : PartWrite) : (withdrawWaiting w s).lanes = s.lanes := rfl
@[simp] theorem State.withdrawWaiting_clips (s : State) (w : PartWrite) : (withdrawWaiting w s).clips = s.clips := rfl
@[simp] theorem State.withdrawWaiting_placements (s : State) (w : PartWrite) : (withdrawWaiting w s).placements = s.placements := rfl
@[simp] theorem State.withdrawWaiting_wait (s : State) (w : PartWrite) : (withdrawWaiting w s).wait = s.wait := rfl
@[simp] theorem State.withdrawWaiting_alert (s : State) (w : PartWrite) : (withdrawWaiting w s).alert = s.alert := rfl
@[simp] theorem State.withdrawWaiting_log (s : State) (w : PartWrite) : (withdrawWaiting w s).log = s.log := rfl
@[simp] theorem State.withdrawWaiting_mem (s : State) (w : PartWrite) : (withdrawWaiting w s).mem = s.mem := rfl
@[simp] theorem State.withdrawWaiting_pending (s : State) (w : PartWrite) : (withdrawWaiting w s).pending = s.pending := rfl

/-! ### takeWaiting -/

@[simp] theorem State.takeWaiting_lt (s : State) (r : List PartWrite) : (takeWaiting r s).lt = s.lt := rfl
@[simp] theorem State.takeWaiting_rst (s : State) (r : List PartWrite) : (takeWaiting r s).rst = s.rst := rfl
@[simp] theorem State.takeWaiting_refclk (s : State) (r : List PartWrite) : (takeWaiting r s).refclk = s.refclk := rfl
@[simp] theorem State.takeWaiting_bypass (s : State) (r : List PartWrite) : (takeWaiting r s).bypass = s.bypass := rfl
@[simp] theorem State.takeWaiting_eal (s : State) (r : List PartWrite) : (takeWaiting r s).eal = s.eal := rfl
@[simp] theorem State.takeWaiting_router (s : State) (r : List PartWrite) : (takeWaiting r s).router = { s.router with waiting := r, waitCount := 0 } := rfl
@[simp] theorem State.takeWaiting_cmd (s : State) (r : List PartWrite) : (takeWaiting r s).cmd = s.cmd := rfl
@[simp] theorem State.takeWaiting_lanes (s : State) (r : List PartWrite) : (takeWaiting r s).lanes = s.lanes := rfl
@[simp] theorem State.takeWaiting_clips (s : State) (r : List PartWrite) : (takeWaiting r s).clips = s.clips := rfl
@[simp] theorem State.takeWaiting_placements (s : State) (r : List PartWrite) : (takeWaiting r s).placements = s.placements := rfl
@[simp] theorem State.takeWaiting_wait (s : State) (r : List PartWrite) : (takeWaiting r s).wait = s.wait := rfl
@[simp] theorem State.takeWaiting_alert (s : State) (r : List PartWrite) : (takeWaiting r s).alert = s.alert := rfl
@[simp] theorem State.takeWaiting_log (s : State) (r : List PartWrite) : (takeWaiting r s).log = s.log := rfl
@[simp] theorem State.takeWaiting_mem (s : State) (r : List PartWrite) : (takeWaiting r s).mem = s.mem := rfl
@[simp] theorem State.takeWaiting_pending (s : State) (r : List PartWrite) : (takeWaiting r s).pending = s.pending := rfl

/-! ### apart -/

@[simp] theorem State.apart_lt (s : State) : (s.apart).lt = s.lt := rfl
@[simp] theorem State.apart_rst (s : State) : (s.apart).rst = s.rst := rfl
@[simp] theorem State.apart_refclk (s : State) : (s.apart).refclk = s.refclk := rfl
@[simp] theorem State.apart_bypass (s : State) : (s.apart).bypass = s.bypass := rfl
@[simp] theorem State.apart_eal (s : State) : (s.apart).eal = s.eal := rfl
@[simp] theorem State.apart_router (s : State) : (s.apart).router = { s.router with waiting := [], waitCount := 0 } := rfl
@[simp] theorem State.apart_cmd (s : State) : (s.apart).cmd = s.cmd := rfl
@[simp] theorem State.apart_lanes (s : State) : (s.apart).lanes = s.lanes := rfl
@[simp] theorem State.apart_clips (s : State) : (s.apart).clips = s.clips := rfl
@[simp] theorem State.apart_placements (s : State) : (s.apart).placements = s.placements := rfl
@[simp] theorem State.apart_wait (s : State) : (s.apart).wait = s.wait := rfl
@[simp] theorem State.apart_alert (s : State) : (s.apart).alert = s.alert := rfl
@[simp] theorem State.apart_log (s : State) : (s.apart).log = s.log := rfl
@[simp] theorem State.apart_mem (s : State) : (s.apart).mem = s.mem := rfl
@[simp] theorem State.apart_pending (s : State) : (s.apart).pending = s.pending := rfl

/-! ### aside -/

@[simp] theorem State.aside_lt (s : State) : (s.aside).lt = s.lt := rfl
@[simp] theorem State.aside_rst (s : State) : (s.aside).rst = s.rst := rfl
@[simp] theorem State.aside_refclk (s : State) : (s.aside).refclk = s.refclk := rfl
@[simp] theorem State.aside_bypass (s : State) : (s.aside).bypass = s.bypass := rfl
@[simp] theorem State.aside_eal (s : State) : (s.aside).eal = s.eal := rfl
@[simp] theorem State.aside_router (s : State) : (s.aside).router = { s.router with waiting := [], waitCount := 0 } := rfl
@[simp] theorem State.aside_cmd (s : State) : (s.aside).cmd = { s.cmd with queue := [], answers := [] } := rfl
@[simp] theorem State.aside_lanes (s : State) : (s.aside).lanes = s.lanes := rfl
@[simp] theorem State.aside_clips (s : State) : (s.aside).clips = s.clips := rfl
@[simp] theorem State.aside_placements (s : State) : (s.aside).placements = s.placements := rfl
@[simp] theorem State.aside_wait (s : State) : (s.aside).wait = s.wait := rfl
@[simp] theorem State.aside_alert (s : State) : (s.aside).alert = s.alert := rfl
@[simp] theorem State.aside_log (s : State) : (s.aside).log = s.log := rfl
@[simp] theorem State.aside_mem (s : State) : (s.aside).mem = s.mem := rfl
@[simp] theorem State.aside_pending (s : State) : (s.aside).pending = s.pending := rfl

/-! ## Reading a table after writing it -/

theorem State.lane_setLane_self (s : State) {l : Nat} (x : Lane) (h : l < 16) : (s.setLane l x).lane l = x := by
  simp [State.lane, h]

theorem State.lane_setLane_ne (s : State) {l m : Nat} (x : Lane) (h : l ≠ m) : (s.setLane l x).lane m = s.lane m := by
  simp only [State.lane, State.setLane_lanes, Vector.getElem?_setIfInBounds, h, ↓reduceIte]

theorem State.lane_of_le (s : State) {l : Nat} (h : 16 ≤ l) : s.lane l = Lane.reset := by
  simp [State.lane, h]

theorem State.lane_onLane_self (s : State) {l : Nat} (f : Lane → Lane) (h : l < 16) : (s.onLane l f).lane l = f (s.lane l) :=
  s.lane_setLane_self _ h

theorem State.lane_onLane_ne (s : State) {l m : Nat} (f : Lane → Lane) (h : l ≠ m) : (s.onLane l f).lane m = s.lane m :=
  s.lane_setLane_ne _ h

theorem State.clip_setClip_self (s : State) {i : Nat} (c : Clip) (h : i < 256) : (s.setClip i c).clip i = c := by
  simp [State.clip, h]

theorem State.clip_setClip_ne (s : State) {i j : Nat} (c : Clip) (h : i ≠ j) : (s.setClip i c).clip j = s.clip j := by
  simp only [State.clip, State.setClip_clips, Vector.getElem?_setIfInBounds, h, ↓reduceIte]

theorem State.placement_setPlacement_self (s : State) {i : Nat} (p : Placement) (h : i < 128) :
    (s.setPlacement i p).placement i = p := by
  simp [State.placement, h]

theorem State.placement_setPlacement_ne (s : State) {i j : Nat} (p : Placement) (h : i ≠ j) :
    (s.setPlacement i p).placement j = s.placement j := by
  simp only [State.placement, State.setPlacement_placements, Vector.getElem?_setIfInBounds, h, ↓reduceIte]

theorem State.placement_of_le (s : State) {i : Nat} (h : 128 ≤ i) : s.placement i = Placement.vacant := by
  simp [State.placement, h]

/-! ## Reads that an update does not touch -/

@[simp] theorem State.lane_setPlacement (s : State) (i : Nat) (p : Placement) (l : Nat) : (s.setPlacement i p).lane l = s.lane l := rfl
@[simp] theorem State.lane_setClip (s : State) (i : Nat) (c : Clip) (l : Nat) : (s.setClip i c).lane l = s.lane l := rfl
@[simp] theorem State.placement_setLane (s : State) (l : Nat) (x : Lane) (i : Nat) : (s.setLane l x).placement i = s.placement i := rfl
@[simp] theorem State.clip_setLane (s : State) (l : Nat) (x : Lane) (i : Nat) : (s.setLane l x).clip i = s.clip i := rfl

end Sys2Proof.Machine
end

