-- ==== Sys2Proof/Laws/Settle.lean ====
section
/-! SUPPORT. What the close of a step can do: it changes the waiting part-originated writes and the wait count, and nothing
else (R16, R17). -/

namespace Sys2Proof.Machine

open Sys2Proof

/-- Two states agree but for the waiting writes and the wait count. -/
theorem State.apart_eq_iff {s t : State} :
    t.apart = s.apart ↔
      t = { s with router := { s.router with waiting := t.router.waiting, waitCount := t.router.waitCount } } := by
  constructor
  · intro h
    have he : t = { t.apart with router := { t.apart.router with waiting := t.router.waiting, waitCount := t.router.waitCount } } :=
      rfl
    rw [h] at he
    exact he
  · intro h
    rw [h]
    rfl

@[simp] theorem State.apart_apart (s : State) : s.apart.apart = s.apart := rfl

@[simp] theorem joinWaiting_apart (w : PartWrite) (s : State) : (joinWaiting w s).apart = s.apart := by
  unfold joinWaiting
  split <;> rfl

@[simp] theorem joinAnswers_apart (ns : List Nat) (s : State) : (joinAnswers ns s).apart = s.apart := by
  induction ns generalizing s with
  | nil => rfl
  | cons n rest ih =>
    simp only [joinAnswers, ih]
    split <;> simp

@[simp] theorem joinLog_apart (s : State) : (joinLog s).apart = s.apart := by
  unfold joinLog
  split <;> simp

@[simp] theorem joinStatus_apart (b s : State) : (joinStatus b s).apart = s.apart := by
  unfold joinStatus
  split <;> simp

@[simp] theorem settleWaitCount_apart (s : State) : (settleWaitCount s).apart = s.apart := by
  unfold settleWaitCount
  split <;> rfl

/-- The close of a step changes the waiting writes and the wait count, and nothing else. -/
@[simp] theorem settle_apart (b s : State) : (settle b s).apart = s.apart := by
  simp [settle]

/-- The close of a step, as an update. -/
theorem settle_eq (b s : State) :
    settle b s = { s with router := { s.router with
      waiting := (settle b s).router.waiting
      waitCount := (settle b s).router.waitCount } } :=
  State.apart_eq_iff.1 (settle_apart b s)

@[simp] theorem settle_lt (b s : State) : (settle b s).lt = s.lt := by rw [settle_eq]
@[simp] theorem settle_rst (b s : State) : (settle b s).rst = s.rst := by rw [settle_eq]
@[simp] theorem settle_refclk (b s : State) : (settle b s).refclk = s.refclk := by rw [settle_eq]
@[simp] theorem settle_bypass (b s : State) : (settle b s).bypass = s.bypass := by rw [settle_eq]
@[simp] theorem settle_eal (b s : State) : (settle b s).eal = s.eal := by rw [settle_eq]
@[simp] theorem settle_cmd (b s : State) : (settle b s).cmd = s.cmd := by rw [settle_eq]
@[simp] theorem settle_lanes (b s : State) : (settle b s).lanes = s.lanes := by rw [settle_eq]
@[simp] theorem settle_clips (b s : State) : (settle b s).clips = s.clips := by rw [settle_eq]
@[simp] theorem settle_placements (b s : State) : (settle b s).placements = s.placements := by rw [settle_eq]
@[simp] theorem settle_wait (b s : State) : (settle b s).wait = s.wait := by rw [settle_eq]
@[simp] theorem settle_alert (b s : State) : (settle b s).alert = s.alert := by rw [settle_eq]
@[simp] theorem settle_log (b s : State) : (settle b s).log = s.log := by rw [settle_eq]
@[simp] theorem settle_mem (b s : State) : (settle b s).mem = s.mem := by rw [settle_eq]
@[simp] theorem settle_pending (b s : State) : (settle b s).pending = s.pending := by rw [settle_eq]
@[simp] theorem settle_controlBase (b s : State) : (settle b s).router.controlBase = s.router.controlBase := by rw [settle_eq]
@[simp] theorem settle_forward (b s : State) : (settle b s).router.forward = s.router.forward := by rw [settle_eq]
@[simp] theorem settle_inFlight (b s : State) : (settle b s).router.inFlight = s.router.inFlight := by rw [settle_eq]
@[simp] theorem settle_fetchOrder (b s : State) : (settle b s).router.fetchOrder = s.router.fetchOrder := by rw [settle_eq]
@[simp] theorem settle_strayClaims (b s : State) : (settle b s).router.strayClaims = s.router.strayClaims := by rw [settle_eq]
@[simp] theorem settle_straddles (b s : State) : (settle b s).router.straddles = s.router.straddles := by rw [settle_eq]
@[simp] theorem settle_logIntrusions (b s : State) : (settle b s).router.logIntrusions = s.router.logIntrusions := by
  rw [settle_eq]
@[simp] theorem settle_regions (b s : State) : (settle b s).router.regions = s.router.regions := by rw [settle_eq]
@[simp] theorem settle_lane (b s : State) (l : Nat) : (settle b s).lane l = s.lane l := by simp [State.lane]
@[simp] theorem settle_placement (b s : State) (i : Nat) : (settle b s).placement i = s.placement i := by simp [State.placement]
@[simp] theorem settle_clip (b s : State) (i : Nat) : (settle b s).clip i = s.clip i := by simp [State.clip]
@[simp] theorem settle_region (b s : State) (i : Nat) : (settle b s).region i = s.region i := by simp [State.region]
@[simp] theorem settle_clock (b s : State) (l : Nat) : (settle b s).clock l = s.clock l := by simp [State.clock]

@[simp] theorem settle_aside (b s : State) : (settle b s).aside = s.aside := by
  simp [State.aside]

/-! ## What waits only grows -/

theorem joinWaiting_subset (w : PartWrite) (s : State) : s.router.waiting <+: (joinWaiting w s).router.waiting := by
  unfold joinWaiting
  split
  · exact List.prefix_refl _
  · exact List.prefix_append _ _

theorem mem_joinWaiting (w : PartWrite) (s : State) : w ∈ (joinWaiting w s).router.waiting := by
  unfold joinWaiting
  split
  · assumption
  · simp

theorem joinAnswers_subset (ns : List Nat) (s : State) : s.router.waiting <+: (joinAnswers ns s).router.waiting := by
  induction ns generalizing s with
  | nil => exact List.prefix_refl _
  | cons n rest ih =>
    simp only [joinAnswers]
    refine List.IsPrefix.trans ?_ (ih _)
    split
    · exact joinWaiting_subset _ _
    · exact List.prefix_refl _

theorem joinLog_subset (s : State) : s.router.waiting <+: (joinLog s).router.waiting := by
  unfold joinLog
  split
  · exact joinWaiting_subset _ _
  · exact List.prefix_refl _

theorem joinStatus_subset (b s : State) : s.router.waiting <+: (joinStatus b s).router.waiting := by
  unfold joinStatus
  split
  · exact joinWaiting_subset _ _
  · exact List.prefix_refl _

theorem settleWaitCount_waiting (s : State) : (settleWaitCount s).router.waiting = s.router.waiting := by
  unfold settleWaitCount
  split <;> rfl

/-- A write that waits still waits, in its place, after the close of a step. -/
theorem settle_subset (b s : State) : s.router.waiting <+: (settle b s).router.waiting := by
  rw [settle, settleWaitCount_waiting]
  generalize commandLines = ns
  exact ((joinAnswers_subset ns s).trans (joinLog_subset _)).trans (joinStatus_subset b _)

/-- With nothing waiting after the close of a step the wait count is 0 (R17). -/
theorem settle_waitCount_of_nil (b s : State) (h : (settle b s).router.waiting = []) : (settle b s).router.waitCount = 0 := by
  revert h
  simp only [settle, settleWaitCount]
  split
  · intro; rfl
  · intro h; contradiction

/-- With something waiting the close of a step leaves the wait count (R17). -/
theorem settle_waitCount_of_ne (b s : State) (h : s.router.waiting ≠ []) : (settle b s).router.waitCount = s.router.waitCount := by
  have hp : (settle b s).router.waiting ≠ [] := fun hn => by
    have := settle_subset b s
    rw [hn, List.prefix_nil] at this
    exact h this
  have key : ∀ u : State, (settleWaitCount u).router.waiting ≠ [] → (settleWaitCount u).router.waitCount = u.router.waitCount := by
    intro u hu
    unfold settleWaitCount at hu ⊢
    split
    · rename_i h0; simp [h0] at hu
    · rfl
  have h1 : ∀ (w : PartWrite) (u : State), (joinWaiting w u).router.waitCount = u.router.waitCount := by
    intro w u; unfold joinWaiting; split <;> rfl
  have h2 : ∀ (ns : List Nat) (u : State), (joinAnswers ns u).router.waitCount = u.router.waitCount := by
    intro ns
    induction ns with
    | nil => intro u; rfl
    | cons n rest ih => intro u; simp only [joinAnswers, ih]; split <;> simp [h1]
  have h3 : ∀ u : State, (joinLog u).router.waitCount = u.router.waitCount := by
    intro u; unfold joinLog; split <;> simp [h1]
  have h4 : ∀ u : State, (joinStatus b u).router.waitCount = u.router.waitCount := by
    intro u; unfold joinStatus; split <;> simp [h1]
  rw [settle, key _ (by simpa [settle] using hp), h4, h3, h2]

end Sys2Proof.Machine
end

