-- ==== Sys2Proof/Laws/Ops.lean ====
section
/-! SUPPORT. What the shared operations can do, said once: the Log Writer's hand-over changes the log and nothing else, the end
of a placement changes the log and that placement, an execution of a command is its body and its answer, and what is in
use after a reset. -/

namespace Sys2Proof.Machine

open Sys2Proof

/-! ## The Log Writer (R183, R184) -/

/-- Presenting a log write changes what is presented, and nothing else. -/
theorem presentLog_eq (s : State) : presentLog s = { s with log := { s.log with presented := (presentLog s).log.presented } } := by
  unfold presentLog
  split
  · rfl
  · split <;> rfl

/-- A hand-over changes the log and nothing else. -/
theorem handRecord_eq (l : Nat) (b : RecordBody) (s : State) : handRecord l b s = { s with log := (handRecord l b s).log } := by
  unfold handRecord
  split
  · rw [loseRecord, presentLog_eq]
  · split
    · rw [loseRecord, presentLog_eq]
    · rw [presentLog_eq]

/-- Several hand-overs change the log and nothing else. -/
theorem handRecords_eq (l : Nat) (bs : List RecordBody) (s : State) :
    handRecords l bs s = { s with log := (handRecords l bs s).log } := by
  induction bs generalizing s with
  | nil => rfl
  | cons b rest ih =>
    rw [handRecords, ih, handRecord_eq]

/-- Without a ring a record is lost and counted (R183). -/
theorem handRecord_of_no_ring (l : Nat) (b : RecordBody) (s : State) (h : s.logRing = none) :
    (handRecord l b s).log.lost = satInc s.log.lost ∧ (handRecord l b s).log.queue = s.log.queue := by
  unfold handRecord
  rw [h]
  simp only [loseRecord]
  rw [presentLog_eq]
  exact ⟨rfl, rfl⟩

/-! ## The end of a placement (R89 to R91) -/

/-- The end of a placement changes the log and empties that placement, and nothing else. -/
theorem endPlacement_eq (id : Nat) (o : Outcome) (e : Option Entry) (t : Pt) (s : State) :
    endPlacement id o e t s = { s.setPlacement id Placement.vacant with log := (endPlacement id o e t s).log } := by
  unfold endPlacement
  rw [handRecord_eq]
  rfl

/-- An entry that leaves a stack changes the log and its placement, and nothing else. -/
theorem leaveStack_eq (e : Entry) (o : Placement → Outcome) (t : Pt) (s : State) :
    leaveStack e o t s =
      { s with log := (leaveStack e o t s).log, placements := (leaveStack e o t s).placements } := by
  unfold leaveStack
  split
  · rw [endPlacement_eq]; rfl
  · rfl
  · rfl

/-- The entries of a torn down stack change the log and their placements, and nothing else. -/
theorem leaveAll_eq (o : Outcome) (t : Pt) (st : List Entry) (s : State) :
    leaveAll o t st s = { s with log := (leaveAll o t st s).log, placements := (leaveAll o t st s).placements } := by
  induction st generalizing s with
  | nil => rfl
  | cons e rest ih =>
    rw [leaveAll, ih, leaveStack_eq]

/-! ## Executions (R174) -/

/-- The oldest queued command, its code named by the row's test, is executed: its body on the queue's rest, and its answer. -/
theorem execute_of_executing {s : State} {code : Nat} {c : Captured} {rest : List Captured} (h : s.Executing code c rest)
    (test : Nat → Bool) (ht : test code = true) (body : List Word → State → Reply) :
    execute test body s = joinAnswer c (body c.words (s.unqueue rest)) := by
  obtain ⟨hb, hr, hu, hq, hc⟩ := h
  have hcl : s.claimed = true := by
    unfold State.claimed
    cases hb' : s.router.controlBase with
    | none => exact absurd hb' hb
    | some b => rfl
  simp [execute, hq, State.executes, hcl, hr, hu, numAt, hc, ht]

/-- An answer changes the answer-pending set, and nothing else. -/
theorem joinAnswer_aside (c : Captured) (r : Reply) : (joinAnswer c r).aside = r.state.aside := rfl

/-- An execution leaves its answer, whatever its body did with the rest. -/
theorem answered_of_joinAnswer {s : State} {c : Captured} {rest : List Captured} {r : Reply} (b : State)
    (hq : r.state.cmd.queue = rest) (ha : r.state.cmd.answers = s.cmd.answers) :
    s.Answered (settle b (joinAnswer c r)) c rest r.code r.results := by
  simp [State.Answered, joinAnswer, hq, ha]

/-- The queue's rest in its place leaves everything else. -/
theorem unqueue_aside (s : State) (rest : List Captured) : (s.unqueue rest).aside = s.aside := rfl

/-! ## Clips in use (R55, R66) -/

theorem InFlight.fetches_iff (f : InFlight) (id : Nat) : f.fetches id = true ↔ f.owner.orphaned = some id := by
  unfold InFlight.fetches ReadOwner.orphaned
  rcases f.owner with _ | ⟨_, _, _ | _⟩ <;> simp

theorem InFlight.toOrphan_fetches (f : InFlight) (id : Nat) :
    f.toOrphan.fetches id = true ↔ ∃ l orphan, f.owner = .fetch l id orphan := by
  obtain ⟨o, d⟩ := f
  cases o <;> simp [toOrphan, fetches]

theorem Look.names_iff (k : Look) (id : Nat) : k.names id = true ↔ ∃ key ∈ k.slotKey, key.clip = id := by
  unfold Look.names Look.slotKey
  cases k <;> simp

theorem Lane.uses_iff (x : Lane) (id : Nat) :
    x.uses id = true ↔ (∃ e ∈ x.stack, ∃ p ∈ e.current, e.clips[p.1]? = some id) ∨ ∃ key ∈ x.look.slotKey, key.clip = id := by
  simp only [Lane.uses, Bool.or_eq_true, List.any_eq_true, decide_eq_true_eq, Look.names_iff, Entry.currentClip,
    Option.bind_eq_some_iff, Option.mem_def]

/-- The clip-in-use test is R55's two conditions and R66's. -/
theorem clipInUse_iff (s : State) (id : Nat) : s.clipInUse id = true ↔ s.InUse id := by
  simp only [State.clipInUse, State.InUse, Bool.or_eq_true, List.any_eq_true, Lane.uses_iff, InFlight.fetches_iff, laneNumbers,
    List.mem_range]

/-- After a reset event a clip is in use exactly while a granted fetch of it has not arrived. -/
theorem resetBlocks_clipInUse (s : State) (id : Nat) :
    (resetBlocks s).clipInUse id = true ↔ ∃ f ∈ s.router.inFlight, ∃ l orphan, f.owner = .fetch l id orphan := by
  have hlane : ∀ l, (resetBlocks s).lane l = Lane.reset := by
    intro l
    by_cases h : l < 16
    · simp [State.lane, resetBlocks, h]
    · simp [State.lane, Vector.getElem?_eq_none (Nat.le_of_not_lt h)]
  have huse : Lane.reset.uses id = false := rfl
  have hnone : (laneNumbers.any fun l => ((resetBlocks s).lane l).uses id) = false := by simp [hlane, huse]
  have hfly : (resetBlocks s).router.inFlight = s.router.inFlight.map InFlight.toOrphan := rfl
  simp only [State.clipInUse, hnone, hfly, Bool.false_or, List.any_map, List.any_eq_true, Function.comp_apply,
    InFlight.toOrphan_fetches]

end Sys2Proof.Machine
end

