-- ==== Sys2Proof/Laws/Records.lean ====
section
/-! SUPPORT. What a hand-over of records makes of the Log Writer, said once for one record, for several, and for the steps that end
placements and alerts (R89 to R91, R142, R183 to R185). -/

namespace Sys2Proof.Machine

open Sys2Proof

/-! ## The Log Writer after records (R183 to R185) -/

@[simp] theorem takes_head (s : State) (g : LogWriter) (r : Nat × RecordBody) : (s.takes g r).head = g.head := by
  unfold State.takes; simp only; split <;> rfl

@[simp] theorem takes_tail (s : State) (g : LogWriter) (r : Nat × RecordBody) : (s.takes g r).tail = g.tail := by
  unfold State.takes; simp only; split <;> rfl

@[simp] theorem logAfter_nil (s : State) : s.logAfter [] = s.log := rfl

theorem foldl_takes_head (s : State) (g : LogWriter) (rs : List (Nat × RecordBody)) : (rs.foldl s.takes g).head = g.head := by
  induction rs generalizing g with
  | nil => rfl
  | cons r rest ih => simp [ih]

theorem foldl_takes_tail (s : State) (g : LogWriter) (rs : List (Nat × RecordBody)) : (rs.foldl s.takes g).tail = g.tail := by
  induction rs generalizing g with
  | nil => rfl
  | cons r rest ih => simp [ih]

/-- Records move neither the head nor the tail. -/
@[simp] theorem logAfter_head (s : State) (rs : List (Nat × RecordBody)) : (s.logAfter rs).head = s.log.head :=
  foldl_takes_head s s.log rs

@[simp] theorem logAfter_tail (s : State) (rs : List (Nat × RecordBody)) : (s.logAfter rs).tail = s.log.tail :=
  foldl_takes_tail s s.log rs

theorem satInc_pos (n : Nat) : 0 < satInc n := by
  unfold satInc
  split
  · omega
  · rename_i h
    have : Config.counterMax = 65535 := rfl
    omega

/-- One record handed over: the log takes it, and nothing else changes. -/
theorem handRecord_after (l : Nat) (b : RecordBody) (s : State) :
    handRecord l b s = { s with log := s.logAfter [(l, b)] } := by
  unfold handRecord loseRecord presentLog State.logAfter State.takes State.logOpen LogWriter.full
  simp only [List.foldl_cons, List.foldl_nil]
  have hr : ∀ g : LogWriter, State.logRing { s with log := g } = s.logRing := fun _ => rfl
  cases h : s.logRing with
  | none => simp [hr, h]
  | some p =>
    obtain ⟨base, c⟩ := p
    have hc : Config.recordCapacity = 8 := rfl
    by_cases hf : (s.log.head + 1) % c = s.log.tail
    · simp [hr, h, hf]
    · by_cases hq : s.log.queue.length < 8
      · simp only [hf, decide_false, Bool.false_eq_true, hc, false_or, Nat.not_le.2 hq, if_false, hr, h]
        by_cases hp : s.log.presented = none <;> simp [hp, hf, hq]
        split <;> rfl
      · have hq' : 8 ≤ s.log.queue.length := Nat.not_lt.1 hq
        have h0 := satInc_pos s.log.lost
        simp only [hf, decide_false, Bool.false_eq_true, hc, false_or, hq', if_true, hr, h]
        by_cases hp : s.log.presented = none <;> simp [hp, hf, hq, h0]

/-- A state with its log replaced. -/
def State.logged (s : State) (g : LogWriter) : State := { s with log := g }

@[simp] theorem State.logged_lane (s : State) (g : LogWriter) (l : Nat) : (s.logged g).lane l = s.lane l := rfl
@[simp] theorem State.logged_placement (s : State) (g : LogWriter) (i : Nat) : (s.logged g).placement i = s.placement i := rfl
@[simp] theorem State.logged_clock (s : State) (g : LogWriter) (l : Nat) : (s.logged g).clock l = s.clock l := rfl
@[simp] theorem State.logged_log (s : State) (g : LogWriter) : (s.logged g).log = g := rfl
@[simp] theorem State.logged_lt (s : State) (g : LogWriter) : (s.logged g).lt = s.lt := rfl
@[simp] theorem State.logged_bypass (s : State) (g : LogWriter) : (s.logged g).bypass = s.bypass := rfl
@[simp] theorem State.logged_setLane (s : State) (g : LogWriter) (l : Nat) (x : Lane) :
    (s.logged g).setLane l x = (s.setLane l x).logged g := rfl
@[simp] theorem State.logged_logged (s : State) (g h : LogWriter) : (s.logged g).logged h = s.logged h := rfl

/-- One record handed over, as an update. -/
theorem handRecord_logged (l : Nat) (b : RecordBody) (s : State) : handRecord l b s = s.logged (s.logAfter [(l, b)]) :=
  handRecord_after l b s

/-- State `t` has the log of `s` after records, and the ring and Local Time of `s`. -/
def Handed (s t : State) (rs : List (Nat × RecordBody)) : Prop :=
  t.log = s.logAfter rs ∧ t.lt = s.lt ∧ t.router.regions = s.router.regions

theorem Handed.takes_eq {s t : State} {rs : List (Nat × RecordBody)} (h : Handed s t rs) : t.takes = s.takes := by
  obtain ⟨hl, ht, hr⟩ := h
  have hring : t.logRing = s.logRing := by simp [State.logRing, hr]
  have ho : t.logOpen = s.logOpen := by simp [State.logOpen, hring, hl]
  funext g r
  simp [State.takes, ho, ht]

theorem Handed.refl (s : State) : Handed s s [] := ⟨rfl, rfl, rfl⟩

/-- Hand-overs of two parts of an event follow each other. -/
theorem Handed.trans {s t u : State} {a b : List (Nat × RecordBody)} (h : Handed s t a) (k : Handed t u b) : Handed s u (a ++ b) := by
  refine ⟨?_, k.2.1.trans h.2.1, k.2.2.trans h.2.2⟩
  rw [k.1, State.logAfter, h.takes_eq, h.1, State.logAfter, State.logAfter, List.foldl_append]

/-- The log after the records of a later part. -/
theorem Handed.logAfter_eq {s t : State} {a : List (Nat × RecordBody)} (h : Handed s t a) (b : List (Nat × RecordBody)) :
    t.logAfter b = s.logAfter (a ++ b) := by
  rw [State.logAfter, h.takes_eq, h.1, State.logAfter, State.logAfter, List.foldl_append]

theorem Handed.record (l : Nat) (b : RecordBody) (s : State) : Handed s (handRecord l b s) [(l, b)] := by
  rw [handRecord_after]
  exact ⟨rfl, rfl, rfl⟩

/-- What keeps the log, the ring and Local Time hands nothing over. -/
theorem Handed.of_eq {s t : State} (hl : t.log = s.log) (ht : t.lt = s.lt) (hr : t.router.regions = s.router.regions) :
    Handed s t [] := ⟨hl, ht, hr⟩

/-- A later change that keeps the log, the ring and Local Time. -/
theorem Handed.congr {s t u : State} {rs : List (Nat × RecordBody)} (h : Handed s t rs) (hl : u.log = t.log) (ht : u.lt = t.lt)
    (hr : u.router.regions = t.router.regions) : Handed s u rs :=
  ⟨hl.trans h.1, ht.trans h.2.1, hr.trans h.2.2⟩

/-- The records of one event handed over: the log takes them in order, and nothing else changes. -/
theorem handRecords_after (l : Nat) (bs : List RecordBody) (s : State) :
    handRecords l bs s = { s with log := s.logAfter (bs.map fun b => (l, b)) } := by
  have hh : Handed s (handRecords l bs s) (bs.map fun b => (l, b)) := by
    induction bs generalizing s with
    | nil => exact Handed.refl s
    | cons b rest ih =>
      rw [handRecords]
      exact (Handed.record l b s).trans (ih _)
  rw [handRecords_eq, hh.1]

/-! ## Reports (R89 to R91) -/

theorem clipItems_eq (e : Entry) : e.clipItems = e.items := by
  unfold Entry.clipItems Entry.items
  apply List.ext_getElem
  · simp
  · intro j h₁ h₂
    have hj : j < e.tally.length := by simpa using h₂
    simp only [List.getElem_map, List.getElem_zipIdx, Nat.zero_add, List.getElem_range, List.getD_eq_getElem?_getD,
      List.getElem?_eq_getElem hj, Option.getD_some, Entry.clipItem]
    cases e.tally[j].outcome <;> simp
    split <;> simp_all

/-- The report of a placement that never entered. -/
theorem placementReport_none (id : Nat) (p : Placement) (o : Outcome) (t : Pt) :
    placementReport id p o none t = p.neverEntered id o := rfl

/-- A placement ends: its report is handed over and it is EMPTY. -/
theorem endPlacement_after (id : Nat) (o : Outcome) (e : Option Entry) (t : Pt) (s : State) :
    endPlacement id o e t s =
      { s.setPlacement id Placement.vacant with
        log := s.logAfter [((s.placement id).lane, placementReport id (s.placement id) o e t)] } := by
  rw [endPlacement, handRecord_after]
  rfl

theorem Handed.endPlacement (id : Nat) (o : Outcome) (e : Option Entry) (t : Pt) (s : State) :
    Handed s (endPlacement id o e t s) [((s.placement id).lane, placementReport id (s.placement id) o e t)] := by
  rw [endPlacement_after]
  exact ⟨rfl, rfl, rfl⟩

/-- The state after placements leave: EMPTY where their entries stand in a list. -/
theorem setPlacement_placement (s : State) (id : Nat) (p : Placement) (j : Nat) :
    (s.setPlacement id p).placement j = if j = id ∧ id < 128 then p else s.placement j := by
  simp only [State.placement, State.setPlacement]
  by_cases h : id < 128
  · by_cases hj : j = id
    · subst hj
      simp [h]
    · rw [Vector.getElem?_setIfInBounds]
      simp [hj, Ne.symm hj]
  · rw [Vector.getElem?_setIfInBounds]
    by_cases hj : id = j
    · subst hj
      simp [h]
    · simp [hj, h]

theorem placement_of_le (s : State) (id : Nat) (h : 128 ≤ id) : s.placement id = Placement.vacant := by
  simp [State.placement, Vector.getElem?_eq_none h]

/-- An EMPTY placement reads as EMPTY at every number. -/
theorem setPlacement_vacant (s : State) (id j : Nat) :
    (s.setPlacement id Placement.vacant).placement j = if j = id then Placement.vacant else s.placement j := by
  rw [setPlacement_placement]
  by_cases hj : j = id
  · subst hj
    by_cases h : j < 128
    · simp [h]
    · simp [h, placement_of_le s j (Nat.not_lt.1 h)]
  · simp [hj]

theorem onStackOf_iff (st : List Entry) (id : Nat) : onStackOf st id ↔ ∃ e ∈ st, e.placementId = some id := by
  have : ∀ e : Entry, e.source = .placement id ↔ e.placementId = some id := by
    intro e
    unfold Entry.placementId
    cases e.source <;> simp
  simp [onStackOf, this]

/-- Entries leave a stack with the outcomes a rule gives them: their placements are EMPTY and reported in order. -/
theorem leave_list (o : Placement → Entry → Outcome) (endTime : Pt) (go : List Entry → State → State)
    (h0 : ∀ s, go [] s = s)
    (h1 : ∀ e rest s, go (e :: rest) s = go rest (leaveStack e (fun p => o p e) endTime s))
    (st : List Entry) (s : State) (hn : noTwice st) :
    go st s = { s with placements := (go st s).placements, log := s.logAfter (s.reports o endTime st) } ∧
      ∀ id, (go st s).placement id = if onStackOf st id then Placement.vacant else s.placement id := by
  suffices hs : ∀ (st : List Entry) (s : State), noTwice st →
      (go st s = { s with placements := (go st s).placements, log := (go st s).log } ∧
        Handed s (go st s) (s.reports o endTime st)) ∧
      ∀ id, (go st s).placement id = if onStackOf st id then Placement.vacant else s.placement id by
    obtain ⟨⟨ha, hb⟩, hc⟩ := hs st s hn
    refine ⟨?_, hc⟩
    rw [← hb.1]
    exact ha
  intro st
  induction st with
  | nil =>
    intro s _
    rw [h0]
    exact ⟨⟨rfl, Handed.refl s⟩, fun id => by simp [onStackOf]⟩
  | cons e rest ih =>
    intro s hn
    obtain ⟨hne, hn'⟩ := List.pairwise_cons.1 hn
    rw [h1]
    cases hs : e.source with
    | placement pid =>
      have hp : e.placementId = some pid := by simp [Entry.placementId, hs]
      have hl : leaveStack e (fun p => o p e) endTime s =
          Machine.endPlacement pid (o (s.placement pid) e) (some e) endTime s := by simp [leaveStack, hs]
      rw [hl]
      obtain ⟨⟨ha, hb⟩, hc⟩ := ih (Machine.endPlacement pid (o (s.placement pid) e) (some e) endTime s) hn'
      have hout : ¬ onStackOf rest pid := by
        rw [onStackOf_iff]
        rintro ⟨n, hn1, hn2⟩
        rcases hne n hn1 with h | h
        · simp [hp] at h
        · exact h (by rw [hp, hn2])
      have hpl : ∀ j, (Machine.endPlacement pid (o (s.placement pid) e) (some e) endTime s).placement j =
          if j = pid then Placement.vacant else s.placement j := by
        intro j
        rw [endPlacement_after]
        exact setPlacement_vacant s pid j
      have hrep : (Machine.endPlacement pid (o (s.placement pid) e) (some e) endTime s).reports o endTime rest =
          s.reports o endTime rest := by
        unfold State.reports
        apply List.filterMap_congr
        intro n hn1
        cases hnp : n.placementId with
        | none => rfl
        | some j =>
          have hj : j ≠ pid := by
            rintro rfl
            exact hout ((onStackOf_iff _ _).2 ⟨n, hn1, hnp⟩)
          simp only [Option.map_some, hpl, hj, if_false]
      refine ⟨⟨?_, ?_⟩, ?_⟩
      · rw [ha, endPlacement_after]; rfl
      · have := (Handed.endPlacement pid (o (s.placement pid) e) (some e) endTime s).trans hb
        rw [hrep] at this
        have hr : s.reports o endTime (e :: rest) =
            [((s.placement pid).lane, placementReport pid (s.placement pid) (o (s.placement pid) e) (some e) endTime)] ++
              s.reports o endTime rest := by
          simp [State.reports, hp, placementReport, clipItems_eq]
        rw [hr]
        exact this
      · intro id
        rw [hc, hpl]
        by_cases hid : id = pid
        · subst hid
          have : onStackOf (e :: rest) id := ⟨e, List.mem_cons_self .., hs⟩
          simp [this]
        · have : onStackOf (e :: rest) id ↔ onStackOf rest id := by
            simp [onStackOf, hs, Ne.symm hid]
          simp only [this, hid, if_false]
    | laneSlate =>
      have hp : e.placementId = none := by simp [Entry.placementId, hs]
      have hl : leaveStack e (fun p => o p e) endTime s = s := by simp [leaveStack, hs]
      rw [hl]
      obtain ⟨⟨ha, hb⟩, hc⟩ := ih s hn'
      refine ⟨⟨ha, ?_⟩, ?_⟩
      · simpa [State.reports, hp] using hb
      · intro id
        rw [hc]
        simp [onStackOf, hs]
    | profile q =>
      have hp : e.placementId = none := by simp [Entry.placementId, hs]
      have hl : leaveStack e (fun p => o p e) endTime s = s := by simp [leaveStack, hs]
      rw [hl]
      obtain ⟨⟨ha, hb⟩, hc⟩ := ih s hn'
      refine ⟨⟨ha, ?_⟩, ?_⟩
      · simpa [State.reports, hp] using hb
      · intro id
        rw [hc]
        simp [onStackOf, hs]

/-- A torn down stack: its placements are EMPTY, with one outcome whatever their marks, and reported top first (R26, R89,
R112). -/
theorem leaveAll_after (o : Outcome) (t : Pt) (st : List Entry) (s : State) (hn : noTwice st) :
    leaveAll o t st s = { s with placements := (leaveAll o t st s).placements, log := s.logAfter (s.reports (fun _ _ => o) t st) } ∧
      ∀ id, (leaveAll o t st s).placement id = if onStackOf st id then Placement.vacant else s.placement id :=
  leave_list (fun _ _ => o) t (leaveAll o t) (fun _ => rfl) (fun _ _ _ => rfl) st s hn

end Sys2Proof.Machine
end

