-- ==== Sys2Proof/Laws/Alerts.lean ====
section
/-! SUPPORT. What the start, the replacement and the end of an alert do, said once (R138 to R142). -/

namespace Sys2Proof.Machine

open Sys2Proof

/-! ## Lane masks (R187) -/

theorem mask16_iff (p : Nat → Bool) : MaskOf (mask16 p) fun l => p l = true := by
  intro l hl
  have hfold : ∀ (ids : List Nat) (m : BitVec 16), (∀ i ∈ ids, i < 16) →
      (ids.foldl (fun m l => if p l then m ||| BitVec.ofNat 16 (2 ^ l) else m) m).getLsbD l =
        (m.getLsbD l || decide (l ∈ ids ∧ p l = true)) := by
    intro ids
    induction ids with
    | nil => intro m _; simp
    | cons i rest ih =>
      intro m hi
      rw [List.foldl_cons, ih _ fun j hj => hi j (List.mem_cons_of_mem _ hj)]
      have hbit : ∀ i, i < 16 → (BitVec.ofNat 16 (2 ^ i)).getLsbD l = decide (i = l) := by
        intro i h16
        rw [BitVec.getLsbD_ofNat, Nat.testBit_two_pow]
        simp [hl]
      by_cases hp : p i = true
      · rw [if_pos hp, BitVec.getLsbD_or, hbit i (hi i (List.mem_cons_self ..))]
        by_cases hil : i = l
        · subst hil; simp [hp]
        · simp [hil, Ne.symm hil]
      · rw [if_neg hp]
        by_cases hil : l = i
        · subst hil; simp [hp]
        · simp [hil]
  unfold mask16
  rw [hfold _ _ fun i hi => List.mem_range.1 hi]
  simp [hl]

theorem postedMask_iff (s : State) (q : Lane → Option AlertReq) : MaskOf (s.postedMask q) fun l => (q (s.lane l)).isSome = true :=
  mask16_iff _

/-! ## Requests (R140) -/

theorem lane_vmap (s : State) (f : Lane → Lane) (hf : f Lane.reset = Lane.reset) (l : Nat) :
    ({ s with lanes := vmap f s.lanes } : State).lane l = f (s.lane l) := by
  by_cases hl : l < 16
  · simp [State.lane, vmap, hl]
  · have h := Nat.not_lt.1 hl
    rw [State.lane_of_le _ h, State.lane_of_le _ h, hf]

theorem post_eq (x : Lane) (r : Option AlertReq) : x.post r = { x with alertReq := r.or x.alertReq } := by
  cases r <;> rfl

theorem requestFor_eq (x : Lane) (old new : BitVec 8) (p : Nat) :
    x.post (x.requestFor old new p) = { x with alertReq := x.requestAfter old new p } := by
  rw [post_eq]
  refine congrArg (fun r => { x with alertReq := r }) ?_
  unfold Lane.requestFor Lane.requestAfter Lane.inZones
  by_cases he : x.enabled = true <;> by_cases hn : new.getLsbD x.record.zone = true <;>
    by_cases ho : old.getLsbD x.record.zone = true <;> simp [he, hn, ho]

theorem requestFor_isSome (x : Lane) (old new : BitVec 8) (p : Nat) :
    (x.requestFor old new p).isSome = true ↔
      x.enabled = true ∧ (new.getLsbD x.record.zone = true ∨ old.getLsbD x.record.zone = true) := by
  unfold Lane.requestFor Lane.inZones
  by_cases he : x.enabled = true <;> by_cases hn : new.getLsbD x.record.zone = true <;>
    by_cases ho : old.getLsbD x.record.zone = true <;> simp [he, hn, ho]

theorem holdsAlert_iff (x : Lane) : x.holdsAlert = true ↔ x.alertReq ≠ none ∨ ∃ e ∈ x.stack, e.kind = .alert := by
  unfold Lane.holdsAlert Lane.entryOf
  rw [Bool.or_eq_true, List.find?_isSome, Option.isSome_iff_ne_none]
  simp only [decide_eq_true_eq]
  exact Or.comm

theorem removeFor_iff (x : Lane) (old : BitVec 8) :
    (x.enabled && (x.inZones old || x.holdsAlert)) = true ↔
      x.enabled = true ∧ (old.getLsbD x.record.zone = true ∨ x.alertReq ≠ none ∨ ∃ e ∈ x.stack, e.kind = .alert) := by
  rw [Bool.and_eq_true, Bool.or_eq_true, holdsAlert_iff]
  rfl

theorem removeFor_eq (x : Lane) (old : BitVec 8) : x.post (x.removeFor old) = { x with alertReq := x.requestAtEnd old } := by
  unfold Lane.removeFor Lane.requestAtEnd
  by_cases h : x.enabled = true ∧ (old.getLsbD x.record.zone = true ∨ x.alertReq ≠ none ∨ ∃ e ∈ x.stack, e.kind = .alert)
  · rw [if_pos ((removeFor_iff x old).2 h), if_pos h]
    rfl
  · rw [if_neg (fun hh => h ((removeFor_iff x old).1 hh)), if_neg h]
    rfl

theorem removeFor_isSome (x : Lane) (old : BitVec 8) :
    (x.removeFor old).isSome = true ↔
      x.enabled = true ∧ (old.getLsbD x.record.zone = true ∨ x.alertReq ≠ none ∨ ∃ e ∈ x.stack, e.kind = .alert) := by
  unfold Lane.removeFor
  rw [← removeFor_iff x old]
  split <;> simp_all

theorem zonesInEffect_eq (a : AlertCtl) : a.zonesInEffect = if a.state = .idle then 0 else (a.profileAt a.profile).zones := rfl

/-! ## Taking effect (R138 to R140) -/

/-- An alert takes effect (R136, R138 to R140). -/
theorem beginAlert_after (st : AlertState) (p : Nat) (reason : AlertReason) (s : State) :
    let old := s.alert.zonesInEffect
    let new := (s.alert.profileAt p).zones
    let t := beginAlert st p reason s
    ∃ mask, mask = s.postedMask (s.alert.requests p) ∧ MaskOf mask (s.PostsOn old new) ∧
      t = { s with
        lanes := t.lanes
        log := s.logAfter [(255, .alert s.alert.action p (s.alert.profileAt p).severity reason mask)]
        alert := { s.alert.takeEffect st p s.lt with linePending := s.alert.pendingAfter st } } ∧
      ∀ l, t.lane l = { s.lane l with alertReq := (s.lane l).requestAfter old new p } := by
  intro old new t
  refine ⟨_, rfl, fun l hl => ?_, ?_, fun l => ?_⟩
  · rw [postedMask_iff s _ l hl]
    exact requestFor_isSome _ _ _ _
  · have ht : t = beginAlert st p reason s := rfl
    clear_value t
    subst ht
    unfold beginAlert
    rw [handRecord_after]
    rfl
  · have ht : t = beginAlert st p reason s := rfl
    rw [ht]
    unfold beginAlert
    rw [handRecord_after]
    have := lane_vmap s (fun x => x.post (s.alert.requests p x)) (by
      simp [AlertCtl.requests, Lane.requestFor, Lane.reset, Lane.post]) l
    refine Eq.trans ?_ (this.trans (requestFor_eq _ _ _ _))
    rfl

/-! ## Ending (R140, R142) -/

/-- The alert in effect ends (R140, R142). -/
theorem finishAlert_after (reason : AlertReason) (s : State) (hs : s.alert.state ≠ .idle) :
    let old := (s.alert.profileAt s.alert.profile).zones
    let t := finishAlert reason s
    ∃ mask, mask = s.removalMask ∧ MaskOf mask (s.RemovesOn old) ∧
      t = { s with
        lanes := t.lanes
        log := s.logAfter [(255, .alert .finish s.alert.profile s.alert.severity reason mask)]
        alert := s.alert.toIdle } ∧
      ∀ l, t.lane l = { s.lane l with alertReq := (s.lane l).requestAtEnd old } := by
  intro old t
  have hz : s.alert.zonesInEffect = old := by rw [zonesInEffect_eq, if_neg hs]
  refine ⟨_, rfl, fun l hl => ?_, ?_, fun l => ?_⟩
  · unfold State.removalMask
    rw [postedMask_iff s _ l hl]
    unfold AlertCtl.removals
    rw [hz]
    exact removeFor_isSome _ _
  · have ht : t = finishAlert reason s := rfl
    clear_value t
    subst ht
    unfold finishAlert
    rw [handRecord_after]
    rfl
  · have ht : t = finishAlert reason s := rfl
    rw [ht]
    unfold finishAlert
    rw [handRecord_after]
    have := lane_vmap s (fun x => x.post (s.alert.removals x)) (by
      simp [AlertCtl.removals, Lane.removeFor, Lane.reset, Lane.post]) l
    refine Eq.trans ?_ (this.trans ?_)
    · rfl
    · unfold AlertCtl.removals
      rw [hz]
      exact removeFor_eq _ _

theorem lineFollows_iff (s : State) (reason : AlertReason) :
    s.lineFollows reason = true ↔ reason ≠ .line ∧ reason ≠ .bypass ∧ s.LineFollows := by
  unfold State.lineFollows
  simp [and_assoc]

/-- The alert in effect ends, and a pending line alert may follow (R140, R142). -/
theorem endAlert_after (reason : AlertReason) (s : State) (hs : s.alert.state ≠ .idle) :
    let t := endAlert reason s
    let follows := reason ≠ .line ∧ reason ≠ .bypass ∧ s.LineFollows
    t = { s with alert := t.alert, lanes := t.lanes, log := t.log } ∧
      (∃ records, s.EndRecords reason records ∧ t.log = s.logAfter records) ∧
      (t.alert =
        if follows then
          { s.alert with
            state := .activeLine, profile := 0, severity := (s.alert.profileAt 0).severity, holdMark := s.lt, heldSeconds := 0
            periodStart := s.lt, loopCount := 0, reactionFired := false, linePending := false }
        else s.alert.toIdle) ∧
      ∀ l, t.lane l =
        { s.lane l with
          alertReq :=
            if follows ∧ (s.lane l).enabled = true ∧ (s.alert.profileAt 0).zones.getLsbD (s.lane l).record.zone = true then
              some (.insert 0)
            else (s.lane l).requestAtEnd (s.alert.profileAt s.alert.profile).zones } := by
  intro t follows
  have ht : t = if s.lineFollows reason = true then beginLine (finishAlert reason s) else finishAlert reason s := rfl
  clear_value t
  obtain ⟨m₁, -, hm₁, h1, hl1⟩ := finishAlert_after reason s hs
  generalize finishAlert reason s = u at ht h1 hl1
  have halert : u.alert = s.alert.toIdle := by rw [h1]
  have hprof : u.alert.profileAt = s.alert.profileAt := by rw [halert]; rfl
  have hlog : Handed s u [(255, .alert .finish s.alert.profile s.alert.severity reason m₁)] := by
    rw [h1]; exact ⟨rfl, rfl, rfl⟩
  by_cases hf : follows
  · rw [if_pos ((lineFollows_iff s reason).2 hf)] at ht
    obtain ⟨m₂, -, hm₂, h2, hl2⟩ := beginAlert_after .activeLine 0 .line u
    have hz : u.alert.zonesInEffect = 0 := by rw [halert]; rfl
    have hact : u.alert.action = .start := by rw [halert]; rfl
    rw [hz, hprof] at hm₂ hl2
    rw [hprof, hact] at h2
    have hb : beginLine u = beginAlert .activeLine 0 .line u := rfl
    rw [hb] at ht
    rw [← ht] at h2 hl2
    have hm₂' : MaskOf m₂ (s.PostsOn 0 (s.alert.profileAt 0).zones) := by
      intro l hl
      rw [hm₂ l hl]
      unfold State.PostsOn
      rw [hl1 l]
    refine ⟨?_, ⟨_, ⟨m₁, m₂, hm₁, hm₂', rfl⟩, ?_⟩, ?_, fun l => ?_⟩
    · rw [h2, h1]
    · rw [if_pos hf, h2, hlog.logAfter_eq]
      rfl
    · rw [if_pos hf, h2, halert]
      have : u.lt = s.lt := by rw [h1]
      rw [this]
      rfl
    · rw [hl2 l, hl1 l]
      unfold Lane.requestAfter
      have h0 : ∀ n, (0 : BitVec 8).getLsbD n = false := fun n => BitVec.getLsbD_zero
      by_cases he : (s.lane l).enabled = true
      · by_cases hzn : (s.alert.profileAt 0).zones.getLsbD (s.lane l).record.zone = true
        · simp [hf, he, hzn]
        · simp [hf, he, hzn]
      · simp [hf, he]
  · rw [if_neg (fun h => hf ((lineFollows_iff s reason).1 h))] at ht
    subst ht
    obtain ⟨m₂, hm₂⟩ : ∃ m₂ : BitVec 16, MaskOf m₂ (s.PostsOn 0 (s.alert.profileAt 0).zones) := by
      obtain ⟨m, -, hm, -⟩ := beginAlert_after .activeLine 0 .line t
      have hz : t.alert.zonesInEffect = 0 := by rw [halert]; rfl
      rw [hz, hprof] at hm
      refine ⟨m, fun l hl => ?_⟩
      rw [hm l hl]
      unfold State.PostsOn
      rw [hl1 l]
    refine ⟨?_, ⟨_, ⟨m₁, m₂, hm₁, hm₂, rfl⟩, ?_⟩, ?_, fun l => ?_⟩
    · rw [h1]
    · rw [if_neg hf]
      exact hlog.1
    · rw [if_neg hf, halert]
    · rw [hl1 l]
      simp [hf]

/-! ## The items of the controller (R136) -/

theorem takeEffect_taken (a : AlertCtl) (st : AlertState) (p : Nat) (lt : Rt) :
    a.takeEffect st p lt = a.taken st p (a.profileAt p).severity lt := rfl

theorem toIdle_ends (a : AlertCtl) : a.Ends a.toIdle := rfl

/-- The items after an end for the host, the hold limit or a reaction: those of the line alert that follows, or those kept in every
state (R136, R142). -/
theorem endAlert_items (reason : AlertReason) (s : State) (hs : s.alert.state ≠ .idle) (hl : reason ≠ .line) (hb : reason ≠ .bypass) :
    (s.LineFollows → (endAlert reason s).alert = s.onLine) ∧ (¬ s.LineFollows → s.alert.Ends (endAlert reason s).alert) := by
  obtain ⟨-, -, ha, -⟩ := endAlert_after reason s hs
  constructor <;> intro h
  · rw [ha, if_pos ⟨hl, hb, h⟩] <;> rfl
  · rw [ha, if_neg (fun hh => h hh.2.2)]
    exact toIdle_ends _

end Sys2Proof.Machine
end

