-- ==== Sys2Proof/Laws/Missed.lean ====
section
/-! SUPPORT. What a round over the placements of a lane does, each kept changed or ended with a MISSED outcome: the placements, the
reports in order of id, and the lane's audit mark (R82 to R84, R91, R190). -/

namespace Sys2Proof.Machine

open Sys2Proof

/-- A placement changed, and ended where it has a MISSED outcome. -/
def judged (id : Nat) (r : Placement × Option Outcome) (s : State) : State :=
  match r.2 with
  | none => s.setPlacement id r.1
  | some o => endMissed id o (s.setPlacement id r.1)

/-- The placements of a round that end, with their outcomes, in order. -/
def missesOf (s : State) (test : Placement → Prop) [DecidablePred test] (f : Placement → Placement × Option Outcome)
    (ids : List Nat) : List (Nat × Placement × Outcome) :=
  ids.filterMap fun id =>
    if test (s.placement id) then (f (s.placement id)).2.map fun o => (id, (f (s.placement id)).1, o) else none

theorem missedRecords_append (l : Nat) (out : Bool) (a b : List (Nat × Placement × Outcome)) :
    missedRecords l out (a ++ b) = missedRecords l out a ++ missedRecords l (out && a.isEmpty) b := by
  induction a generalizing out with
  | nil => simp [missedRecords]
  | cons x rest ih =>
    obtain ⟨id, p, o⟩ := x
    simp [missedRecords, ih]

theorem setLane_eq_self (s : State) (l : Nat) (x : Lane) (h : s.lane l = x) : s.setLane l x = s := by
  subst h
  cases s
  simp only [State.setLane, State.lane, State.mk.injEq, true_and, and_true]
  apply Vector.ext
  intro j hj
  rw [Vector.getElem_setIfInBounds]
  split
  · subst_vars; simp [hj]
  · rfl

/-- One placement of a round. -/
theorem judged_after (l id : Nat) (hid : id < 128) (hl : l < 16) (s : State) (r : Placement × Option Outcome) (hr : r.1.lane = l) :
    let out := decide ((s.lane l).audit = .out)
    let m := (r.2.map fun o => (id, r.1, o)).toList
    judged id r s = { s with lanes := (judged id r s).lanes, placements := (judged id r s).placements, log := (judged id r s).log } ∧
    Handed s (judged id r s) (missedRecords l out m) ∧
    (∀ j, j ≠ l → (judged id r s).lane j = s.lane j) ∧
    (judged id r s).lane l =
      { s.lane l with audit := if r.2.isSome = true ∧ (s.lane l).audit = .out then .none else (s.lane l).audit } ∧
    ∀ j, (judged id r s).placement j = if j = id then (if r.2 = none then r.1 else Placement.vacant) else s.placement j := by
  obtain ⟨p, o⟩ := r
  subst hr
  cases o with
  | none =>
    refine ⟨rfl, Handed.of_eq rfl rfl rfl, fun _ _ => rfl, ?_, ?_⟩
    · simp [judged]
    · intro j
      simp only [judged, setPlacement_placement]
      by_cases hj : j = id <;> simp [hj, hid]
  | some o =>
    have hp : (s.setPlacement id p).placement id = p := s.placement_setPlacement_self p hid
    have hpl : ∀ j, ((s.setPlacement id p).setPlacement id Placement.vacant).placement j =
        if j = id then Placement.vacant else s.placement j := by
      intro j
      rw [setPlacement_vacant]
      by_cases hj : j = id
      · simp [hj]
      · simp only [hj, if_false, setPlacement_placement, false_and]
    obtain ⟨ps, hps⟩ : ∃ ps, ((s.setPlacement id p).setPlacement id Placement.vacant).placements = ps := ⟨_, rfl⟩
    have hended : ∀ g, ({ (s.setPlacement id p).setPlacement id Placement.vacant with log := g } : State) =
        { s with placements := ps, log := g } := by
      intro g; rw [← hps]; rfl
    have hpl' : ∀ g j, ({ s with placements := ps, log := g } : State).placement j =
        if j = id then Placement.vacant else s.placement j := by
      intro g j; rw [← hps]; exact hpl j
    by_cases ha : (s.lane p.lane).audit = .out
    · have he : judged id (p, some o) s =
          ({ s with placements := ps, log := s.logAfter (missedRecords p.lane true [(id, p, o)]) } : State).onLane p.lane
            fun x => { x with audit := .none } := by
        rw [← hended]
        simp only [judged, endMissed, hp, endPlacement_after, auditMissed]
        rw [if_pos (by exact ha), handRecord_after]
        have hh : Handed s ({ (s.setPlacement id p).setPlacement id Placement.vacant with
            log := State.logAfter (s.setPlacement id p) [(p.lane, placementReport id p o none 0)] } : State)
            [(p.lane, placementReport id p o none 0)] := ⟨rfl, rfl, rfl⟩
        rw [hh.logAfter_eq]
        rfl
      rw [he]
      clear he
      generalize hg : s.logAfter (missedRecords p.lane true [(id, p, o)]) = g
      refine ⟨rfl, ⟨?_, rfl, rfl⟩, fun j hj => State.lane_setLane_ne _ _ (Ne.symm hj), ?_, fun j => ?_⟩
      · simp only [ha, decide_true, Option.map_some, Option.toList_some]
        exact hg.symm
      · refine (State.lane_setLane_self _ _ hl).trans ?_
        simp only [Option.isSome_some, ha, and_self, if_true]
        rfl
      · exact (hpl' g j).trans (by simp)
    · have he : judged id (p, some o) s =
          { s with placements := ps, log := s.logAfter (missedRecords p.lane false [(id, p, o)]) } := by
        rw [← hended]
        simp only [judged, endMissed, hp, endPlacement_after, auditMissed]
        rw [if_neg (by exact ha)]
        rfl
      rw [he]
      clear he
      generalize hg : s.logAfter (missedRecords p.lane false [(id, p, o)]) = g
      refine ⟨rfl, ⟨?_, rfl, rfl⟩, fun j hj => rfl, ?_, fun j => ?_⟩
      · simp only [ha, decide_false, Option.map_some, Option.toList_some]
        exact hg.symm
      · simp only [ha, and_false, if_false]
        rfl
      · exact (hpl' g j).trans (by simp)

/-- A round over placements, given by its equations: what it does to the placements, the lane's audit mark and the log. -/
theorem judged_list (l : Nat) (hl : l < 16) (base : State) (test : Placement → Prop) [DecidablePred test]
    (htest : ∀ p, test p → p.lane = l) (f : Placement → Placement × Option Outcome) (hf : ∀ p, (f p).1.lane = p.lane)
    (go : List Nat → State → State) (h0 : ∀ s, go [] s = s) (one : Nat → State → State)
    (h1 : ∀ id rest s, go (id :: rest) s = go rest (one id s))
    (ids : List Nat) (hn : ids.Nodup) (hids : ∀ id ∈ ids, id < 128)
    (hone : ∀ id s, id ∈ ids → s.placement id = base.placement id → s.lt = base.lt →
      (∃ a, s.lane l = { base.lane l with audit := a }) →
      one id s = if test (s.placement id) then judged id (f (s.placement id)) s else s)
    (s : State) (hlt : s.lt = base.lt) (hlane : ∃ a, s.lane l = { base.lane l with audit := a })
    (hbase : ∀ id ∈ ids, s.placement id = base.placement id) :
    go ids s = { s with lanes := (go ids s).lanes, placements := (go ids s).placements, log := (go ids s).log } ∧
    Handed s (go ids s) (missedRecords l (decide ((s.lane l).audit = .out)) (missesOf s test f ids)) ∧
    (∀ m, m ≠ l → (go ids s).lane m = s.lane m) ∧
    (go ids s).lane l =
      { s.lane l with audit := if missesOf s test f ids ≠ [] ∧ (s.lane l).audit = .out then .none else (s.lane l).audit } ∧
    ∀ j, (go ids s).placement j =
      if j ∈ ids ∧ test (s.placement j) then (if (f (s.placement j)).2 = none then (f (s.placement j)).1 else Placement.vacant)
      else s.placement j := by
  induction ids generalizing s with
  | nil =>
    rw [h0]
    refine ⟨rfl, Handed.refl s, fun _ _ => rfl, ?_, ?_⟩
    · simp [missesOf]
    · simp
  | cons id rest ih =>
    obtain ⟨hnot, hn'⟩ := List.nodup_cons.1 hn
    have hid : id < 128 := hids id (List.mem_cons_self ..)
    have hrest : ∀ j ∈ rest, j < 128 := fun j hj => hids j (List.mem_cons_of_mem _ hj)
    have hone' : ∀ j u, j ∈ rest → u.placement j = base.placement j → u.lt = base.lt →
        (∃ a, u.lane l = { base.lane l with audit := a }) →
        one j u = if test (u.placement j) then judged j (f (u.placement j)) u else u :=
      fun j u hj => hone j u (List.mem_cons_of_mem _ hj)
    have hbase' : ∀ j ∈ rest, s.placement j = base.placement j := fun j hj => hbase j (List.mem_cons_of_mem _ hj)
    rw [h1, hone id s (List.mem_cons_self ..) (hbase id (List.mem_cons_self ..)) hlt hlane]
    by_cases ht : test (s.placement id)
    · rw [if_pos ht]
      obtain ⟨a1, a2, a3, a4, a5⟩ := judged_after l id hid hl s (f (s.placement id)) ((hf _).trans (htest _ ht))
      revert a1 a2 a3 a4 a5
      generalize judged id (f (s.placement id)) s = t
      intro a1 a2 a3 a4 a5
      have hlt' : t.lt = base.lt := by rw [a1]; exact hlt
      have hlane' : ∃ a, t.lane l = { base.lane l with audit := a } := by
        obtain ⟨a, ha⟩ := hlane
        exact ⟨_, by rw [a4, ha]⟩
      have hne : ∀ j ∈ rest, t.placement j = s.placement j := by
        intro j hj
        rw [a5, if_neg]
        rintro rfl
        exact hnot hj
      obtain ⟨b1, b2, b3, b4, b5⟩ := ih hn' hrest hone' t hlt' hlane' fun j hj => (hne j hj).trans (hbase' j hj)
      have hm : missesOf t test f rest = missesOf s test f rest := by
        unfold missesOf
        apply List.filterMap_congr
        intro j hj
        rw [hne j hj]
      have hsplit : missesOf s test f (id :: rest) =
          ((f (s.placement id)).2.map fun o => (id, (f (s.placement id)).1, o)).toList ++ missesOf s test f rest := by
        unfold missesOf
        rw [List.filterMap_cons]
        simp only [ht, if_true]
        cases (f (s.placement id)).2 <;> simp
      rw [hm] at b2 b4
      refine ⟨?_, ?_, ?_, ?_, ?_⟩
      · rw [b1, a1]
      · rw [hsplit, missedRecords_append]
        have : decide ((t.lane l).audit = .out) =
            (decide ((s.lane l).audit = .out) &&
              ((f (s.placement id)).2.map fun o => (id, (f (s.placement id)).1, o)).toList.isEmpty) := by
          rw [a4]
          cases (f (s.placement id)).2 <;> by_cases hA : (s.lane l).audit = .out <;> simp [hA]
        rw [← this]
        exact a2.trans b2
      · intro m hm'
        rw [b3 m hm', a3 m hm']
      · rw [b4, a4, hsplit]
        cases (f (s.placement id)).2 <;> by_cases hA : (s.lane l).audit = .out <;> simp [hA]
      · intro j
        rw [b5]
        by_cases hj : j = id
        · subst hj
          simp only [hnot, false_and, if_false, a5, if_true, List.mem_cons, true_or, ht, and_self]
        · rw [a5, if_neg hj]
          simp [hj]
    · rw [if_neg ht]
      obtain ⟨b1, b2, b3, b4, b5⟩ := ih hn' hrest hone' s hlt hlane hbase'
      have hsplit : missesOf s test f (id :: rest) = missesOf s test f rest := by
        unfold missesOf
        rw [List.filterMap_cons]
        simp [ht]
      rw [hsplit]
      refine ⟨b1, b2, b3, b4, ?_⟩
      intro j
      rw [b5]
      by_cases hj : j = id
      · subst hj; simp [ht]
      · simp [hj]

end Sys2Proof.Machine
end

