-- ==== Sys2Proof/Laws/StageOne.lean ====
section
/-! SUPPORT. What the first stage of a slot read and the per-read tests after it do (R29, R33, R34, R39, R82 to R84, R166). -/

namespace Sys2Proof.Machine

open Sys2Proof

theorem placement_congr {s t : State} (h : t.placements = s.placements) : t.placement = s.placement := by
  funext id; simp [State.placement, h]

theorem lane_congr {s t : State} (h : t.lanes = s.lanes) : t.lane = s.lane := by
  funext l; simp [State.lane, h]

/-! ## The per-read tests (R82 to R84) -/

@[simp] theorem setPlacement_twice (s : State) (id : Nat) (p q : Placement) :
    (s.setPlacement id p).setPlacement id q = s.setPlacement id q := by
  simp only [State.setPlacement]
  congr 1
  apply Vector.ext
  intro j hj
  simp only [Vector.getElem_setIfInBounds]
  split <;> rfl

theorem setPlacement_self (s : State) (id : Nat) (p : Placement) (h : s.placement id = p) : s.setPlacement id p = s := by
  subst h
  cases s
  simp only [State.setPlacement, State.placement, State.mk.injEq, true_and, and_true]
  apply Vector.ext
  intro j hj
  rw [Vector.getElem_setIfInBounds]
  split
  · subst_vars; simp [hj]
  · rfl

/-- The late test of a PENDING placement on an enabled lane. -/
theorem lateTest_judged (id : Nat) (s : State) (he : (s.lane (s.placement id).lane).enabled = true)
    (hp : (s.placement id).state = .pending) :
    let p := s.placement id
    let x := s.lane p.lane
    lateTest id s =
      if p.lateCheck = true ∧ x.anchored = true then
        match p.t with
        | none => s
        | some t =>
          if ptAfter (s.clock p.lane) (ptPlus t x.record.entryWindow) = true then endMissed id .missedLate s
          else s.setPlacement id { p with lateCheck := false }
      else s := by
  unfold lateTest
  by_cases ha : (s.lane (s.placement id).lane).anchored = true <;> by_cases hc : (s.placement id).lateCheck = true <;>
    cases ht : (s.placement id).t <;> simp [hp, ht, Lane.canTest, he, ha, hc, State.windowPassed, State.onPlacement]

/-- The per-read tests of one placement. -/
theorem perReadTest_judged (l id : Nat) (hid : id < 128) (s : State) (he : (s.lane l).enabled = true) :
    perReadTest l id s =
      if (s.placement id).state = .pending ∧ (s.placement id).lane = l then
        judged id ((s.placement id).readTested (s.clock l) (s.lane l).anchored (s.lane l).record.entryWindow) s
      else s := by
  unfold perReadTest
  simp only
  split
  · rename_i hc
    obtain ⟨hp, hl⟩ := hc
    subst hl
    generalize hq : s.placement id = p at *
    -- the state once T is taken and the pre-roll counted
    have h1 : (takeT id s).onPlacement id (fun p => { p with preRoll := satInc p.preRoll }) =
        s.setPlacement id
          { p with
            t := if p.t = none ∧ (s.lane p.lane).anchored = true then some (s.clock p.lane) else p.t
            lateCheck := if p.t = none ∧ (s.lane p.lane).anchored = true then true else p.lateCheck
            preRoll := satInc p.preRoll } := by
      unfold takeT
      simp only [hq]
      split
      · simp only [State.onPlacement, hq, State.placement_setPlacement_self s _ hid, setPlacement_twice]
      · simp only [State.onPlacement, hq]
    rw [h1]
    clear h1
    set n : Placement :=
      { p with
        t := if p.t = none ∧ (s.lane p.lane).anchored = true then some (s.clock p.lane) else p.t
        lateCheck := if p.t = none ∧ (s.lane p.lane).anchored = true then true else p.lateCheck
        preRoll := satInc p.preRoll } with hn
    have hnp : ∀ q, (s.setPlacement id q).placement id = q := fun q => s.placement_setPlacement_self q hid
    have hlane : ∀ q, (s.setPlacement id q).lane = s.lane := fun _ => rfl
    have hclock : ∀ q, (s.setPlacement id q).clock = s.clock := fun _ => rfl
    have hnl : n.lane = p.lane := rfl
    have hns : n.state = .pending := hp
    have hlate := lateTest_judged id (s.setPlacement id n) (by rw [hnp, hlane, hnl]; exact he) (by rw [hnp, hns])
    simp only [hnp, hlane, hclock, hnl] at hlate
    rw [hlate]
    clear hlate
    have hexp : ∀ q : Placement, q.state = .pending → q.lane = p.lane →
        expiryTest id (s.setPlacement id q) =
          if (s.lane p.lane).anchored = true then
            match q.t with
            | none => s.setPlacement id q
            | some t =>
              if ptAfter (s.clock p.lane) (ptPlus t (s.lane p.lane).record.entryWindow) = true then
                endMissed id (if q.blocked = true then .missedBlocked else .missedNoEntry) (s.setPlacement id q)
              else s.setPlacement id q
          else s.setPlacement id q := by
      intro q hqs hql
      unfold expiryTest
      by_cases ha : (s.lane p.lane).anchored = true <;> cases ht : q.t <;>
        simp [ht, hnp, hqs, hql, Lane.canTest, he, ha, State.windowPassed, hclock]
    have hgone : ∀ (o : Outcome) (q : Placement), expiryTest id (endMissed id o (s.setPlacement id q)) =
        endMissed id o (s.setPlacement id q) := by
      intro o q
      have : (endMissed id o (s.setPlacement id q)).placement id = Placement.vacant := by
        have hh : ∀ u : State, (auditMissed id q u).placement id = u.placement id := by
          intro u
          unfold auditMissed
          split
          · rw [handRecord_after]; rfl
          · rfl
        unfold endMissed
        rw [hnp, hh, endPlacement_after]
        exact State.placement_setPlacement_self _ _ hid
      simp [expiryTest, this, Placement.vacant]
    cases ha : (s.lane p.lane).anchored with
    | false =>
      have : n = { p with preRoll := satInc p.preRoll } := by simp [hn, ha]
      simp only [Bool.false_eq_true, and_false, if_false, hexp n hns hnl, ha, judged, Placement.readTested]
      simp [this]
    | true =>
      have hnt : n.t = if p.t = none then some (s.clock p.lane) else p.t := by simp [hn, ha]
      have hnc : n.lateCheck = if p.t = none then true else p.lateCheck := by simp [hn, ha]
      have hsome : ∃ t, n.t = some t := by
        rw [hnt]
        cases p.t <;> simp
      obtain ⟨t, ht⟩ := hsome
      have hr : p.readTested (s.clock p.lane) true (s.lane p.lane).record.entryWindow =
          ({ n with lateCheck := false },
            if ptAfter (s.clock p.lane) (ptPlus t (s.lane p.lane).record.entryWindow) = true then
              some (if n.lateCheck = true then .missedLate else if p.blocked = true then .missedBlocked else .missedNoEntry)
            else none) := by
        have e1 : (if p.t = none then some (s.clock p.lane) else p.t) = some t := by rw [← hnt, ht]
        simp only [Placement.readTested, and_true, e1, Option.mem_def, Option.some.injEq, exists_eq_left', true_and, hnc]
        have e2 : (p.lateCheck = true ∨ p.t = none) ↔ ((if p.t = none then true else p.lateCheck) = true) := by
          by_cases h : p.t = none <;> simp [h]
        simp only [e2, Bool.not_true, Bool.and_false, Prod.mk.injEq, and_true]
        simp [hn, ha, e1]
      rw [hr]
      clear hr
      obtain ⟨m, hm⟩ : ∃ m : Placement, { n with lateCheck := false } = m := ⟨_, rfl⟩
      have hmt : m.t = some t := by rw [← hm]; exact ht
      have hms : m.state = .pending := by rw [← hm]; exact hns
      have hml : m.lane = p.lane := by rw [← hm]
      have hmb : m.blocked = p.blocked := by rw [← hm]
      have hsame : endMissed id .missedLate (s.setPlacement id n) = endMissed id .missedLate (s.setPlacement id m) := by
        rw [← hm]
        simp only [endMissed, endPlacement_after, auditMissed, hnp, setPlacement_twice]
        rfl
      have hnm : n.lateCheck = false → n = m := by
        intro h
        rw [← hm, ← h]
      rw [hm]
      clear_value n
      simp only [and_true, ht]
      cases hlc : n.lateCheck with
      | true =>
        by_cases hw : ptAfter (s.clock p.lane) (ptPlus t (s.lane p.lane).record.entryWindow) = true
        · simp only [if_true, if_pos hw, judged]
          rw [hgone, hsame]
        · simp only [if_true, if_neg hw, judged, setPlacement_twice]
          rw [hexp m hms hml]
          simp only [ha, if_true, hmt, if_neg hw]
      | false =>
        rw [hnm hlc] at *
        simp only [Bool.false_eq_true, if_false]
        rw [hexp m hms hml]
        simp only [ha, if_true, hmt, hmb]
        by_cases hw : ptAfter (s.clock p.lane) (ptPlus t (s.lane p.lane).record.entryWindow) = true
        · simp only [if_pos hw, judged]
        · simp only [if_neg hw, judged]
  · rfl

/-- The per-read tests of a lane. -/
theorem perReadTests_after (l : Nat) (hl : l < 16) (s : State) (he : (s.lane l).enabled = true) :
    let t := perReadTests l placementIds s
    let x := s.lane l
    let test (p : Placement) : Prop := p.state = .pending ∧ p.lane = l
    let f (p : Placement) := p.readTested (s.clock l) x.anchored x.record.entryWindow
    let missed := missesOf s test f (List.range 128)
    t = { s with lanes := t.lanes, placements := t.placements, log := t.log } ∧
    t.log = s.logAfter (missedRecords l (decide (x.audit = .out)) missed) ∧
    (∀ m, m ≠ l → t.lane m = s.lane m) ∧
    t.lane l = { x with audit := if missed ≠ [] ∧ x.audit = .out then .none else x.audit } ∧
    ∀ id, id < 128 → t.placement id =
      if test (s.placement id) then (if (f (s.placement id)).2 = none then (f (s.placement id)).1 else Placement.vacant)
      else s.placement id := by
  intro t x test f missed
  obtain ⟨h1, h2, h3, h4, h5⟩ := judged_list l hl s test (fun _ h => h.2) f (fun _ => rfl) (perReadTests l) (fun _ => rfl)
    (perReadTest l) (fun _ _ _ => rfl) (List.range 128) List.nodup_range (fun id hid => List.mem_range.1 hid)
    (by
      rintro id u hid - hlt ⟨a, ha⟩
      rw [perReadTest_judged l id (List.mem_range.1 hid) u (by rw [ha]; exact he)]
      have hc : u.clock l = s.clock l := by
        simp only [State.clock, ha, hlt]
        rfl
      have hf : f = fun p => p.readTested (u.clock l) (u.lane l).anchored (u.lane l).record.entryWindow := by
        funext p
        rw [hc, ha]
      rw [hf])
    s rfl ⟨(s.lane l).audit, rfl⟩ (fun _ _ => rfl)
  refine ⟨h1, h2.1, h3, h4, ?_⟩
  intro id hid
  refine (h5 id).trans ?_
  simp only [List.mem_range, hid, true_and]

/-! ## The first stage (R29, R33, R34, R39, R166) -/

theorem clockAt_anchored (x : Lane) (lt : Rt) (p : Pt) : (x.anchorAt lt p).clockAt lt = p := by
  simp [Lane.clockAt, Lane.anchorAt, ptPlus, rtSince]

theorem tickSlate_expire (x : Lane) :
    x.tickSlate.expireSlate =
      { x with slateInsert := x.slateInsert.map SlateReq.counted, slateRemove := x.slateRemove.map SlateReq.counted } := by
  have : ∀ q : SlateReq, q.tick.expire = q.counted := by
    intro q
    simp only [SlateReq.tick, SlateReq.expire, SlateReq.counted]
    by_cases h : q.countdown ≤ 1
    · have : q.countdown - 1 = 0 := by omega
      simp [h, this]
    · have : q.countdown - 1 ≠ 0 := by omega
      simp [h, this]
  simp only [Lane.tickSlate, Lane.expireSlate, Option.map_map, Function.comp_def, this]

theorem countRead_eq (x : Lane) (i : Insp) :
    x.countRead i =
      { x with
        malformed := if i.malformed = true then satInc x.malformed else x.malformed
        ptsLess :=
          if i.malformed = false ∧ x.record.isAnchor i = true ∧ i.pusi = true ∧ i.pts = none then satInc x.ptsLess
          else x.ptsLess } := by
  unfold Lane.countRead
  cases hm : i.malformed <;> cases ha : x.record.isAnchor i <;> cases hp : i.pusi <;> cases ht : i.pts <;> simp

theorem moveEnds_zero (x : Lane) : x.moveEnds 0 = x := by
  have : (fun e : Entry => ({ e with endTime := e.endTime.map fun t => t + BitVec.ofInt 33 0 } : Entry)) = id := by
    funext e
    cases h : e.endTime <;> simp <;> cases e <;> simp_all
  simp only [Lane.moveEnds, this, List.map_id]

theorem setLane_twice (s : State) (l : Nat) (x y : Lane) : (s.setLane l x).setLane l y = s.setLane l y := by
  simp only [State.setLane]
  congr 1
  apply Vector.ext
  intro j hj
  simp only [Vector.getElem_setIfInBounds]
  split <;> rfl

/-- A lane once the clock update of a slot read is made (R33, R34). -/
def Lane.clockRead (x : Lane) (i : Insp) (lt : Rt) : Lane :=
  let pts := x.record.anchorPts i
  let moved := x.moveEnds ((pts.bind fun p => x.jumpOf lt p).getD 0)
  { moved with
    clockC := pts.getD x.clockC, clockL := if pts = none then x.clockL else lt, anchored := x.anchored || pts.isSome }

/-- The record of a timeline jump (R34). -/
def jumpRecord (l : Nat) (jump : Option Int) : List (Nat × RecordBody) :=
  match jump with
  | some d => [(l, .timelineJump d)]
  | none => []

/-- The clock update of a slot read on a lane: the lane, and a jump's record. -/
theorem updateClock_after (l : Nat) (hl : l < 16) (i : Insp) (s : State) (x : Lane) :
    updateClock l i (s.setLane l x) =
      (s.setLane l (x.clockRead i s.lt)).logged
        (s.logAfter (jumpRecord l ((x.record.anchorPts i).bind fun p => x.jumpOf s.lt p))) := by
  unfold updateClock Lane.clockRead
  rw [State.lane_setLane_self _ _ hl]
  cases hp : x.record.anchorPts i with
  | none =>
    simp only [Option.bind_none, Option.getD_none, if_true, Option.isSome_none, Bool.or_false, moveEnds_zero]
    rfl
  | some p =>
    simp only [State.setLane_lt, Option.bind_some, Option.getD_some, Option.isSome_some, Bool.or_true, reduceCtorEq, if_false]
    cases hj : x.jumpOf s.lt p with
    | none =>
      simp only [Option.getD_none, moveEnds_zero, State.onLane, State.lane_setLane_self _ _ hl, setLane_twice]
      rfl
    | some d =>
      simp only [Option.getD_some, handRecord_logged, State.onLane, State.lane_setLane_self _ _ hl, setLane_twice,
        State.logged_lane, State.logged_setLane]
      rfl

/-- A lane once the first stage of a slot read is made, up to the per-read tests (R29, R33, R34, R39, R166). -/
def Lane.firstRead (x : Lane) (n k : Nat) (i : Insp) (lt : Rt) (bypass : Bool) : Lane :=
  let y := ((x.followRead n k).countRead i).clockRead i lt
  (if bypass then y.bypassRole i else y).tickSlate.expireSlate

theorem countRead_record (x : Lane) (i : Insp) : (x.countRead i).record = x.record := by rw [countRead_eq]
theorem countRead_jumpOf (x : Lane) (i : Insp) (lt : Rt) (p : Pt) : (x.countRead i).jumpOf lt p = x.jumpOf lt p := by
  rw [countRead_eq]; rfl

theorem firstRead_eq (x : Lane) (n k : Nat) (i : Insp) (lt : Rt) (bypass : Bool) :
    let pts := x.record.anchorPts i
    let jump := pts.bind fun p => x.jumpOf lt p
    x.firstRead n k i lt bypass =
      { x with
        readIndex := (k + 1) % n
        readSkips := if k = x.readIndex then x.readSkips else satInc x.readSkips
        malformed := if i.malformed = true then satInc x.malformed else x.malformed
        ptsLess :=
          if i.malformed = false ∧ x.record.isAnchor i = true ∧ i.pusi = true ∧ i.pts = none then satInc x.ptsLess
          else x.ptsLess
        clockC := pts.getD x.clockC
        clockL := if pts = none then x.clockL else lt
        anchored := x.anchored || pts.isSome
        stack := x.stack.map fun e => { e with endTime := e.endTime.map fun t => t + BitVec.ofInt 33 (jump.getD 0) }
        roles :=
          match x.record.role i with
          | some r =>
            if bypass = true ∧ i.hasPayload = true then x.roles.set r { x.roles[r] with outLast := i.cc } else x.roles
          | none => x.roles
        slateInsert := x.slateInsert.map SlateReq.counted
        slateRemove := x.slateRemove.map SlateReq.counted } := by
  intro pts jump
  have hj : (x.followRead n k).jumpOf lt = x.jumpOf lt := rfl
  have hrec : (x.followRead n k).record = x.record := rfl
  unfold Lane.firstRead Lane.clockRead
  simp only [tickSlate_expire, hrec, countRead_eq]
  have hrole : ∀ z : Lane, z.bypassRole i =
      { z with roles :=
        match z.record.role i with
        | some r => if i.hasPayload = true then z.roles.set r { z.roles[r] with outLast := i.cc } else z.roles
        | none => z.roles } := by
    intro z
    unfold Lane.bypassRole
    cases z.record.role i with
    | none => rfl
    | some r => cases i.hasPayload <;> rfl
  cases bypass with
  | false =>
    simp only [Bool.false_eq_true, false_and, if_false]
    cases x.record.role i <;> rfl
  | true =>
    simp only [if_true, true_and, hrole]
    rfl

/-- The first stage: the lane up to the tests, a jump's record, and the per-read tests. -/
theorem stageOne_eq (l k : Nat) (hl : l < 16) (i : Insp) (s : State) :
    let x := s.lane l
    stageOne l k i s =
      perReadTests l placementIds
        ((s.setLane l (x.firstRead (s.ringSlots l) k i s.lt s.bypass)).logged
          (s.logAfter (jumpRecord l ((x.record.anchorPts i).bind fun p => x.jumpOf s.lt p)))) := by
  intro x
  unfold stageOne Lane.firstRead
  simp only [State.onLane, updateClock_after l hl, countRead_record, countRead_jumpOf]
  have hb : ∀ (y : Lane) (g : LogWriter), ((s.setLane l y).logged g).bypass = s.bypass := fun _ _ => rfl
  simp only [hb]
  cases s.bypass <;>
    simp only [if_true, Bool.false_eq_true, if_false, State.logged_lane, State.logged_setLane, State.lane_setLane_self _ _ hl,
      setLane_twice] <;> rfl

/-- The first stage of a slot read of an enabled lane, as the rules give it (R29, R33, R34, R39, R82, R166). -/
theorem stageOne_first (l k : Nat) (i : Insp) (s : State) (he : (s.lane l).enabled = true) :
    s.FirstStage l k i (stageOne l k i s) := by
  have hl : l < 16 := by
    by_contra h
    rw [State.lane_of_le s (Nat.not_lt.1 h)] at he
    simp [Lane.reset] at he
  have h1 := stageOne_eq l k hl i s
  simp only at h1
  rw [h1]
  clear h1
  have hf := firstRead_eq (s.lane l) (s.ringSlots l) k i s.lt s.bypass
  simp only at hf
  generalize hjd : (((s.lane l).record.anchorPts i).bind fun p => (s.lane l).jumpOf s.lt p) = jump at hf ⊢
  generalize hy : (s.lane l).firstRead (s.ringSlots l) k i s.lt s.bypass = y at hf ⊢
  generalize hg : s.logAfter (jumpRecord l jump) = g
  have hyl : ((s.setLane l y).logged g).lane l = y := by
    rw [State.logged_lane, State.lane_setLane_self _ _ hl]
  have hye : y.enabled = true := by rw [hf]; exact he
  have hyr : y.record = (s.lane l).record := by rw [hf]
  have hya : y.anchored = ((s.lane l).anchored || ((s.lane l).record.anchorPts i).isSome) := by rw [hf]
  have hyu : y.audit = (s.lane l).audit := by rw [hf]
  have hyc : ((s.setLane l y).logged g).clock l = ((s.lane l).record.anchorPts i).getD (s.clock l) := by
    rw [State.clock, hyl, State.logged_lt, State.setLane_lt, hf]
    cases hp : (s.lane l).record.anchorPts i with
    | none => rfl
    | some p => simp [Lane.clockAt, ptPlus, rtSince]
  have hpl : ∀ id, ((s.setLane l y).logged g).placement id = s.placement id := fun _ => rfl
  obtain ⟨h1, h2, h3, h4, h5⟩ := perReadTests_after l hl ((s.setLane l y).logged g) (by rw [hyl]; exact hye)
  revert h1 h2 h3 h4 h5
  generalize perReadTests l placementIds ((s.setLane l y).logged g) = t
  simp only [hyl, hyc, hyr, hya, hyu, hpl]
  intro h1 h2 h3 h4 h5
  have hm : ∀ (f : Placement → Placement × Option Outcome) (ids : List Nat),
      missesOf ((s.setLane l y).logged g) (fun p => p.state = .pending ∧ p.lane = l) f ids =
        missesOf s (fun p => p.state = .pending ∧ p.lane = l) f ids := fun _ _ => rfl
  rw [hm] at h2 h4
  refine ⟨?_, ?_, ?_, ?_, ?_⟩
  · rw [h1]; rfl
  · intro m hm'
    rw [h3 m hm', State.logged_lane, State.lane_setLane_ne _ _ (Ne.symm hm')]
  · rw [h4, hf, ← hjd]
    rfl
  · exact h5
  · have hh : Handed s ((s.setLane l y).logged g) (jumpRecord l jump) := ⟨hg.symm, rfl, rfl⟩
    rw [h2, hh.logAfter_eq, ← hjd]
    rfl

end Sys2Proof.Machine
end

