-- ==== Sys2Proof/Laws/Cues.lean ====
section
/-! SUPPORT. What the intake of a cue does, in the terms of the statements (R74, R75, R77 to R81, R83). -/

namespace Sys2Proof.Machine

open Sys2Proof

theorem idsFor_eq (s : State) (l : Nat) (a : Word) (test : Placement → Bool) : s.idsFor l a test = s.cueIds l a test := by
  have h : s.idsFor l a = s.cueIds l a := rfl
  rw [h]

theorem outTime_eq (s : State) (l : Nat) (c : Cue) : s.outTime l c = s.askedTime l c := rfl

theorem onStack_test : Placement.onStack = fun p => decide (p.state = .onAir ∨ p.state = .covered) := by
  funext p
  unfold Placement.onStack
  exact Eq.refl _

theorem waits_test : Placement.waits = fun p => decide (p.state = .armed ∨ p.state = .pending) := by
  funext p
  unfold Placement.waits
  exact Eq.refl _

theorem idsFor_nodup (s : State) (l : Nat) (a : Word) (test : Placement → Bool) : (s.cueIds l a test).Nodup :=
  List.nodup_range.filter _

theorem mem_cueIds (s : State) (l : Nat) (a : Word) (test : Placement → Bool) (id : Nat) :
    id ∈ s.cueIds l a test ↔
      id < 128 ∧ ((s.placement id).state ≠ .vacant ∧ (s.placement id).lane = l ∧ (s.placement id).trigger = .cue ∧
        (s.placement id).avail = a) ∧ test (s.placement id) = true := by
  simp [State.cueIds]

/-! ## Cues that start or move placements (R77, R78, R83) -/

/-- The late test of a placement that has just taken its T from a cue. -/
theorem lateTest_cued (id : Nat) (hid : id < 128) (u : State) (q : Placement) (hs : q.state = .pending) (hc : q.lateCheck = true)
    (ht : ((u.lane q.lane).enabled && (u.lane q.lane).anchored) = true → q.t ≠ none) :
    lateTest id (u.setPlacement id q) =
      judged id
        ({ q with lateCheck := !((u.lane q.lane).enabled && (u.lane q.lane).anchored) },
          if u.LateOn q.lane q.t then some .missedLate else none) u := by
  have hnp : ∀ q, (u.setPlacement id q).placement id = q := fun q => u.placement_setPlacement_self q hid
  have hlane : (u.setPlacement id q).lane = u.lane := rfl
  have hclock : (u.setPlacement id q).clock = u.clock := rfl
  unfold lateTest
  simp only [hnp, hlane, Lane.canTest]
  cases hcan : ((u.lane q.lane).enabled && (u.lane q.lane).anchored) with
  | false =>
    have hlate : ¬ u.LateOn q.lane q.t := by
      rintro ⟨h1, h2, -⟩
      rw [h1, h2] at hcan
      simp at hcan
    rw [if_neg (by simp), if_neg hlate]
    simp only [judged, Bool.not_false]
    rw [← hc]
  | true =>
    obtain ⟨n, hn⟩ := Option.ne_none_iff_exists'.1 (ht hcan)
    have he := (Bool.and_eq_true_iff.1 hcan).1
    have ha := (Bool.and_eq_true_iff.1 hcan).2
    have hlate : u.LateOn q.lane q.t ↔ ptAfter (u.clock q.lane) (ptPlus n (u.lane q.lane).record.entryWindow) = true := by
      simp only [State.LateOn, he, ha, hn, Option.mem_def, Option.some.injEq, exists_eq_left', true_and]
    rw [if_pos ⟨hs, hc, rfl⟩]
    have hsame : endMissed id .missedLate (u.setPlacement id q) =
        endMissed id .missedLate (u.setPlacement id { q with lateCheck := false }) := by
      simp only [endMissed, endPlacement_after, auditMissed, hnp, setPlacement_twice]
      rfl
    split
    · rename_i h; rw [hn] at h; simp at h
    · rename_i m h
      rw [hn] at h
      have hmn : m = n := (Option.some.inj h).symm
      subst hmn
      simp only [State.windowPassed, hclock, hlane, Bool.not_true]
      by_cases hw : ptAfter (u.clock q.lane) (ptPlus m (u.lane q.lane).record.entryWindow) = true
      · rw [if_pos hw, if_pos (hlate.2 hw), hsame]
        simp only [judged]
      · rw [if_neg hw, if_neg (fun h => hw (hlate.1 h))]
        simp only [judged, State.onPlacement, hnp, setPlacement_twice]

/-- Placements moved by an OUT cue one after the other, given by the equations of their round. -/
theorem moves_after (l : Nat) (hl : l < 16) (c : Cue) (s : State) (g f : Placement → Placement)
    (ids : List Nat) (hne : ids ≠ []) (hn : ids.Nodup) (hids : ∀ id ∈ ids, id < 128 ∧ (s.placement id).lane = l)
    (hgl : ∀ id ∈ ids, (g (s.placement id)).lane = l) (hgs : ∀ id ∈ ids, (g (s.placement id)).state = .pending)
    (hgc : ∀ id ∈ ids, (g (s.placement id)).lateCheck = true) (hgt : ∀ id ∈ ids, (g (s.placement id)).t = s.askedTime l c)
    (hfl : ∀ p, (f p).lane = p.lane)
    (hfg : ∀ id ∈ ids, f (s.placement id) =
      { g (s.placement id) with lateCheck := !((s.lane l).enabled && (s.lane l).anchored) })
    (go : List Nat → State → State) (h0 : ∀ s, go [] s = s)
    (h1 : ∀ id rest s, go (id :: rest) s = go rest (lateTest id (s.onPlacement id g))) (recent : List Word) :
    ((go ids s).lane l).recent = (s.lane l).recent ∧
      s.CueMoves l c ids f recent ((go ids s).onLane l fun x => { x with recent := recent }) := by
  set late := s.LateOn l (s.askedTime l c) with hlate
  have hask : (s.lane l).anchored = true → s.askedTime l c ≠ none := by
    intro ha
    unfold State.askedTime
    cases c.time <;> simp [ha]
  obtain ⟨r1, r2, r3, r4, r5⟩ := judged_list l hl s (fun p => p.lane = l) (fun _ h => h)
    (fun p => (f p, if late then some .missedLate else none)) (fun p => hfl p) go h0
    (fun id s => lateTest id (s.onPlacement id g)) h1 ids hn (fun id h => (hids id h).1)
    (by
      rintro id u hid hpu hlt ⟨a, ha⟩
      have hlid := (hids id hid).2
      have hpl : (u.placement id).lane = l := by rw [hpu]; exact hlid
      rw [if_pos hpl]
      have hq : u.onPlacement id g = u.setPlacement id (g (s.placement id)) := by
        unfold State.onPlacement
        rw [hpu]
      rw [hq, lateTest_cued id (hids id hid).1 u _ (hgs id hid) (hgc id hid)
        (by
          rw [hgl id hid, hgt id hid, ha]
          intro h
          exact hask (Bool.and_eq_true_iff.1 h).2), hgl id hid, hgt id hid]
      have hL : u.LateOn l (s.askedTime l c) ↔ late := by
        have hc : u.clock l = s.clock l := by
          simp only [State.clock, ha, hlt]
          rfl
        unfold State.LateOn
        rw [hc, ha]
      have hen : (u.lane l).enabled = (s.lane l).enabled := by rw [ha]
      have han : (u.lane l).anchored = (s.lane l).anchored := by rw [ha]
      have hif : (if u.LateOn l (s.askedTime l c) then some Outcome.missedLate else none) =
          if late then some Outcome.missedLate else none := by
        by_cases h : late
        · rw [if_pos h, if_pos (hL.2 h)]
        · rw [if_neg h, if_neg (fun hh => h (hL.1 hh))]
      rw [hif, hen, han, hpu, hfg id hid]
      simp only [hgl id hid, hgt id hid])
    s rfl ⟨(s.lane l).audit, rfl⟩ (fun _ _ => rfl)
  revert r1 r2 r3 r4 r5
  generalize go ids s = t
  intro r1 r2 r3 r4 r5
  have hm : missesOf s (fun p => p.lane = l) (fun p => (f p, if late then some .missedLate else none)) ids =
      if late then ids.map fun id => (id, f (s.placement id), Outcome.missedLate) else [] := by
    unfold missesOf
    by_cases h : late
    · simp only [if_pos h]
      rw [← List.filterMap_eq_map]
      apply List.filterMap_congr
      intro id hid
      simp [(hids id hid).2]
    · rw [if_neg h]
      simp [h]
  rw [hm] at r2 r4
  have hnil : (if late then ids.map fun id => (id, f (s.placement id), Outcome.missedLate) else []) ≠ [] ↔ late := by
    by_cases h : late <;> simp [h, hne]
  refine ⟨by rw [r4], ?_⟩
  unfold State.CueMoves
  refine ⟨?_, ?_, ?_, ?_, ?_⟩
  · rw [r1]; rfl
  · intro m hm'
    rw [State.lane_onLane_ne _ _ (Ne.symm hm')]
    exact r3 m hm'
  · rw [State.lane_onLane_self _ _ hl, r4]
    simp only [hnil]
    rfl
  · intro id
    refine (r5 id).trans ?_
    by_cases hid : id ∈ ids
    · rw [if_pos ⟨hid, (hids id hid).2⟩, if_pos hid]
      by_cases h : late
      · simp only [if_pos h, reduceCtorEq, if_false]
        exact (if_pos h).symm
      · simp only [if_neg h, if_true]
        exact (if_neg h).symm
    · rw [if_neg (fun h => hid h.1), if_neg hid]
  · have := r2.1
    refine this.trans ?_
    by_cases h : late
    · simp only [if_pos h]
      exact (if_pos h).symm
    · simp only [if_neg h]
      exact (if_neg h).symm

theorem cueDuration_eq (p : Placement) (c : Cue) :
    cueDuration p c =
      match c.duration with
      | some d => if p.takeCueDuration = true ∧ 1 ≤ d ∧ d < 2147483648 then d else p.duration
      | none => p.duration := by
  unfold cueDuration
  rfl

/-- A cue that starts a placement (R77 case 1). -/
theorem startPlacement_moves (l : Nat) (hl : l < 16) (c : Cue) (s : State) (id : Nat) (hid : id < 128)
    (hp : (s.placement id).lane = l) (recent : List Word) :
    ((startPlacement id (s.outTime l c) c s).lane l).recent = (s.lane l).recent ∧
    s.CueMoves l c [id]
      (fun p => { p.cued c (s.askedTime l c) ((s.lane l).enabled && (s.lane l).anchored) with preRoll := 0 }) recent
      ((startPlacement id (s.outTime l c) c s).onLane l fun x => { x with recent := recent }) := by
  exact (moves_after l hl c s
    (fun p => { p with
      state := .pending, t := s.askedTime l c, duration := cueDuration p c, preRoll := 0, lateCheck := true, blocked := false })
    (fun p => { p.cued c (s.askedTime l c) ((s.lane l).enabled && (s.lane l).anchored) with preRoll := 0 })
    [id] (by simp) (by simp) (by simp [hid, hp]) (by simp [hp]) (by simp) (by simp) (by simp) (fun _ => rfl)
    (by
      intro j _
      simp only [Placement.cued, cueDuration_eq] <;> cases c.duration <;> rfl)
    (fun ids s' => match ids with
      | [] => s'
      | _ => ids.foldl (fun u j => lateTest j (u.onPlacement j fun p =>
        { p with
          state := .pending, t := s.askedTime l c, duration := cueDuration p c, preRoll := 0, lateCheck := true
          blocked := false })) s')
    (fun _ => rfl) (fun id rest u => by cases rest <;> rfl) recent)

/-- A cue that moves PENDING placements (R77 case 2). -/
theorem movePlacements_moves (l : Nat) (hl : l < 16) (c : Cue) (s : State) (ids : List Nat) (hne : ids ≠ []) (hn : ids.Nodup)
    (hids : ∀ id ∈ ids, id < 128 ∧ (s.placement id).lane = l) (hp : ∀ id ∈ ids, (s.placement id).state = .pending) :
    s.CueMoves l c ids (fun p => p.cued c (s.askedTime l c) ((s.lane l).enabled && (s.lane l).anchored)) (s.lane l).recent
      (movePlacements (s.outTime l c) c ids s) := by
  have h := moves_after l hl c s
    (fun p => { p with t := s.askedTime l c, duration := cueDuration p c, lateCheck := true, blocked := false })
    (fun p => p.cued c (s.askedTime l c) ((s.lane l).enabled && (s.lane l).anchored)) ids hne hn hids
    (fun id h => (hids id h).2) hp (fun _ _ => rfl) (fun _ _ => rfl) (fun _ => rfl)
    (by
      intro id hid
      have := hp id hid
      simp only [Placement.cued, cueDuration_eq, ← this] <;> cases c.duration <;> rfl)
    (movePlacements (s.outTime l c) c) (fun _ => rfl) (fun _ _ _ => rfl) (s.lane l).recent
  have hr : ((movePlacements (s.outTime l c) c ids s).lane l).recent = (s.lane l).recent := h.1
  have hsame : (movePlacements (s.outTime l c) c ids s).onLane l (fun x => { x with recent := (s.lane l).recent }) =
      movePlacements (s.outTime l c) c ids s := by
    unfold State.onLane
    rw [← hr]
    exact setLane_eq_self _ l _ rfl
  rw [hsame] at h
  exact h.2

/-- Intake of an OUT cue, as the rules give it (R77, R78, R81). -/
theorem intakeOut_taken (l : Nat) (hl : l < 16) (c : Cue) (inj : Bool) (s : State) (hc : c.type = .out) :
    s.CueTaken l c inj (intakeOut l c inj s).1 (intakeOut l c inj s).2.code := by
  unfold State.CueTaken intakeOut
  simp only [hc, idsFor_eq]
  have ha := mem_cueIds s l c.avail (fun p => decide (p.state = .armed))
  cases harm : s.cueIds l c.avail fun p => decide (p.state = .armed) with
  | cons id rest =>
    rw [harm] at ha
    have hid := (ha id).1 (List.mem_cons_self ..)
    obtain ⟨h1, h2⟩ := startPlacement_moves l hl c s id hid.1 hid.2.1.2.1 (joinRecent c.avail (s.lane l).recent)
    refine ⟨?_, rfl⟩
    have hon : ((startPlacement id (s.outTime l c) c s).onLane l fun x => { x with recent := joinRecent c.avail x.recent }) =
        (startPlacement id (s.outTime l c) c s).onLane l fun x => { x with recent := joinRecent c.avail (s.lane l).recent } := by
      unfold State.onLane
      simp only [h1]
    simp only [hon]
    exact h2
  | nil =>
    simp only
    have hp := mem_cueIds s l c.avail (fun p => decide (p.state = .pending))
    have hpn := idsFor_nodup s l c.avail (fun p => decide (p.state = .pending))
    obtain ⟨pending, hpd⟩ : ∃ q, s.cueIds l c.avail (fun p => decide (p.state = .pending)) = q := ⟨_, rfl⟩
    rw [hpd] at hp hpn
    simp only [hpd]
    have hmoved : (pending.filter fun id => (s.outTime l c).isSome && decide ((s.placement id).t ≠ s.outTime l c)) =
        pending.filter fun id => decide (s.askedTime l c ≠ none ∧ (s.placement id).t ≠ s.askedTime l c) := by
      congr 1
      funext id
      rw [outTime_eq]
      cases s.askedTime l c <;> simp
    rw [hmoved]
    by_cases hpe : pending = []
    · simp only [hpe, ne_eq, not_true_eq_false, if_false]
      simp only [onStack_test]
      by_cases hos : (s.cueIds l c.avail fun p => decide (p.state = .onAir ∨ p.state = .covered)) = []
      · simp only [hos, not_true_eq_false, if_false, false_or]
        unfold repeatOrUnplaced
        by_cases hrec : c.avail ∈ (s.lane l).recent
        · rw [if_pos hrec, if_pos hrec]
          exact ⟨rfl, rfl⟩
        · rw [if_neg hrec, if_neg hrec]
          refine ⟨?_, rfl⟩
          simp only [cueUnplaced, handRecord_after, hc]
      · simp only [hos, not_false_eq_true, if_true, true_or]
        exact ⟨by trivial, by trivial⟩
    · simp only [hpe, ne_eq, not_false_eq_true, if_true]
      by_cases hm : (pending.filter fun id => decide (s.askedTime l c ≠ none ∧ (s.placement id).t ≠ s.askedTime l c)) = []
      · simp only [ne_eq] at hm
        rw [if_pos hm, if_pos hm]
        exact ⟨rfl, rfl⟩
      · have hmm := hm
        simp only [ne_eq] at hmm
        rw [if_neg hmm, if_neg hmm]
        refine ⟨?_, rfl⟩
        have hin : ∀ id ∈ pending.filter (fun id => decide (s.askedTime l c ≠ none ∧ (s.placement id).t ≠ s.askedTime l c)),
            id ∈ pending := fun id h => (List.mem_filter.1 h).1
        exact movePlacements_moves l hl c s _ hm (hpn.filter _)
          (fun id h => ⟨((hp id).1 (hin id h)).1, ((hp id).1 (hin id h)).2.1.2.1⟩)
          (fun id h => of_decide_eq_true ((hp id).1 (hin id h)).2.2)

/-! ## Cues that end placements (R79, R80) -/

/-- The cancelled reports of a list of placements. -/
def cancelledRecords (s : State) (l : Nat) (ids : List Nat) : List (Nat × RecordBody) :=
  ids.map fun id => (l, (s.placement id).neverEntered id .cancelled)

theorem cancelAll_after (l : Nat) (ids : List Nat) (hn : ids.Nodup) (s : State) (hp : ∀ id ∈ ids, (s.placement id).lane = l) :
    cancelAll ids s = { s with placements := (cancelAll ids s).placements, log := s.logAfter (cancelledRecords s l ids) } ∧
      ∀ id, (cancelAll ids s).placement id = if id ∈ ids then Placement.vacant else s.placement id := by
  suffices hs : ∀ (ids : List Nat) (s : State), ids.Nodup → (∀ id ∈ ids, (s.placement id).lane = l) →
      (cancelAll ids s = { s with placements := (cancelAll ids s).placements, log := (cancelAll ids s).log } ∧
        Handed s (cancelAll ids s) (cancelledRecords s l ids)) ∧
      ∀ id, (cancelAll ids s).placement id = if id ∈ ids then Placement.vacant else s.placement id by
    obtain ⟨⟨ha, hb⟩, hc⟩ := hs ids s hn hp
    refine ⟨?_, hc⟩
    rw [← hb.1]
    exact ha
  clear hn hp
  intro ids
  induction ids with
  | nil => intro s _ _; exact ⟨⟨rfl, Handed.refl s⟩, fun id => by simp [cancelAll]⟩
  | cons id rest ih =>
    intro s hn hp
    obtain ⟨hnot, hn'⟩ := List.nodup_cons.1 hn
    have hpl : ∀ j, (endPlacement id .cancelled none 0 s).placement j = if j = id then Placement.vacant else s.placement j := by
      intro j
      rw [endPlacement_after]
      exact setPlacement_vacant s id j
    have hne : ∀ j ∈ rest, j ≠ id := fun j hj he => hnot (he ▸ hj)
    have hrest : ∀ j ∈ rest, (endPlacement id .cancelled none 0 s).placement j = s.placement j := by
      intro j hj
      rw [hpl, if_neg (hne j hj)]
    obtain ⟨⟨ha, hb⟩, hc⟩ := ih (endPlacement id .cancelled none 0 s) hn'
      (fun j hj => by rw [hrest j hj]; exact hp j (List.mem_cons_of_mem _ hj))
    have hrec : cancelledRecords (endPlacement id .cancelled none 0 s) l rest = cancelledRecords s l rest := by
      unfold cancelledRecords
      apply List.map_congr_left
      intro j hj
      rw [hrest j hj]
    rw [hrec] at hb
    refine ⟨⟨?_, ?_⟩, fun j => ?_⟩
    · rw [cancelAll, ha, endPlacement_after]; rfl
    · have h := (Handed.endPlacement id .cancelled none 0 s).trans hb
      rw [placementReport_none, hp id (List.mem_cons_self ..)] at h
      exact h
    · rw [cancelAll, hc, hpl]
      by_cases hj : j = id
      · subst hj; simp
      · simp [hj]

theorem tooLateAll_after (l : Nat) (c : Cue) (inj : Bool) (ids : List Nat) (s : State) :
    tooLateAll l c inj ids s = { s with log := s.logAfter (ids.map fun _ => (l, .cueUnplaced c.type c.avail .tooLate inj)) } := by
  have hh : ∀ (ids : List Nat) (s : State),
      tooLateAll l c inj ids s = { s with log := (tooLateAll l c inj ids s).log } ∧
        Handed s (tooLateAll l c inj ids s) (ids.map fun _ => (l, .cueUnplaced c.type c.avail .tooLate inj)) := by
    intro ids
    induction ids with
    | nil => intro s; exact ⟨rfl, Handed.refl s⟩
    | cons id rest ih =>
      intro s
      obtain ⟨h1, h2⟩ := ih (cueUnplaced l c .tooLate inj s)
      refine ⟨?_, (Handed.record l _ s).trans h2⟩
      rw [tooLateAll, h1, cueUnplaced, handRecord_after]
  rw [(hh ids s).1, (hh ids s).2.1]

/-- Intake of a CANCEL cue, as the rules give it (R80, R81). -/
theorem intakeCancel_taken (l : Nat) (c : Cue) (inj : Bool) (s : State) (hc : c.type = .cancel) :
    s.CueTaken l c inj (intakeCancel l c inj s).1 (intakeCancel l c inj s).2.code := by
  unfold State.CueTaken intakeCancel
  simp only [hc, idsFor_eq]
  have hw := mem_cueIds s l c.avail (fun p => decide (p.state = .armed ∨ p.state = .pending))
  have hwn := idsFor_nodup s l c.avail (fun p => decide (p.state = .armed ∨ p.state = .pending))
  simp only [onStack_test, waits_test]
  obtain ⟨waiting, hwd⟩ : ∃ q, (s.cueIds l c.avail fun p => decide (p.state = .armed ∨ p.state = .pending)) = q := ⟨_, rfl⟩
  rw [hwd] at hw hwn
  obtain ⟨onStack, hod⟩ : ∃ q, (s.cueIds l c.avail fun p => decide (p.state = .onAir ∨ p.state = .covered)) = q := ⟨_, rfl⟩
  simp only [hwd, hod]
  obtain ⟨h1, h2⟩ := cancelAll_after l waiting hwn s (fun id h => ((hw id).1 h).2.1.2.1)
  have h3 := tooLateAll_after l c inj onStack (cancelAll waiting s)
  have hh : Handed s (cancelAll waiting s) (cancelledRecords s l waiting) := by
    rw [h1]; exact ⟨rfl, rfl, rfl⟩
  rw [hh.logAfter_eq] at h3
  have hafter : ∀ extra : List (Nat × RecordBody), extra = [] →
      let t := tooLateAll l c inj onStack (cancelAll waiting s)
      t = { s with placements := t.placements, log := t.log } ∧
      (∀ id, t.placement id = if id ∈ waiting then Placement.vacant else s.placement id) ∧
      t.log = s.logAfter ((cancelledRecords s l waiting) ++ (onStack.map fun _ => (l, .cueUnplaced c.type c.avail .tooLate inj)) ++ extra) := by
    intro extra he t
    have ht : t = tooLateAll l c inj onStack (cancelAll waiting s) := rfl
    rw [h3] at ht
    refine ⟨?_, ?_, ?_⟩
    · rw [ht, h1]
    · intro id
      rw [ht]
      exact h2 id
    · rw [ht, he, List.append_nil]
  by_cases hwe : waiting = []
  · by_cases hos : onStack = []
    · simp only [hwe, hos, ne_eq, not_true_eq_false, if_false, true_and]
      unfold repeatOrUnplaced
      by_cases hrec : c.avail ∈ (s.lane l).recent
      · rw [if_pos hrec]
        simp only [hrec, not_true_eq_false, if_false, if_true, List.map_nil, List.append_nil, logAfter_nil]
        exact ⟨by trivial, fun id => by simp, by trivial, by trivial⟩
      · rw [if_neg hrec]
        simp only [hrec, not_false_eq_true, if_true, if_false, List.map_nil, List.nil_append, cueUnplaced, handRecord_after, hc]
        exact ⟨by trivial, fun id => by simp; rfl, by trivial, by trivial⟩
    · have := hafter [] rfl
      simp only [hc] at this
      simp only [hwe, hos, ne_eq, not_true_eq_false, not_false_eq_true, if_false, if_true, true_and, false_and] at this ⊢
      exact ⟨this.1, this.2.1, this.2.2, rfl⟩
  · have := hafter [] rfl
    simp only [hc] at this
    simp only [hwe, ne_eq, not_false_eq_true, if_true, false_and, if_false] at this ⊢
    exact ⟨this.1, this.2.1, this.2.2, rfl⟩

/-- The entries of the placements named get E and the return rule EARLY (R79). -/
def earlyEntry (ids : List Nat) (e : Pt) (n : Entry) : Entry :=
  if ∃ id ∈ ids, n.source = .placement id then { n with endTime := some e, rule := .early } else n

theorem earlyEntry_nil (e : Pt) (n : Entry) : earlyEntry [] e n = n := by simp [earlyEntry]

theorem earlyEntry_source (ids : List Nat) (e : Pt) (n : Entry) : (earlyEntry ids e n).source = n.source := by
  unfold earlyEntry
  split <;> rfl

theorem earlyEntry_cons (id : Nat) (ids : List Nat) (e : Pt) (n : Entry) :
    earlyEntry ids e (earlyEntry [id] e n) = earlyEntry (id :: ids) e n := by
  have hs := earlyEntry_source [id] e n
  by_cases h1 : n.source = .placement id
  · have : earlyEntry [id] e n = { n with endTime := some e, rule := .early } := by simp [earlyEntry, h1]
    rw [this]
    unfold earlyEntry
    rw [if_pos (⟨id, List.mem_cons_self .., h1⟩ : ∃ j ∈ id :: ids, n.source = .placement j)]
    split <;> rfl
  · have : earlyEntry [id] e n = n := by simp [earlyEntry, h1]
    rw [this]
    unfold earlyEntry
    simp [h1]

/-- An IN cue on a placement of the lane's stack (R79). -/
theorem setEarly_after (l : Nat) (hl : l < 16) (id : Nat) (e : Pt) (s : State) (hp : (s.placement id).lane = l) :
    setEarly id e s =
      (s.setLane l { s.lane l with stack := (s.lane l).stack.map (earlyEntry [id] e) }).setPlacement id
        { s.placement id with rule := .early, earlyReturn := true } := by
  unfold setEarly writeEnd
  rw [hp]
  have h : ((s.onLane l fun x => x.onSource (.placement id) fun n => { n with endTime := some e }).onLane l
      fun x => x.onSource (.placement id) fun n => { n with rule := .early }) =
      s.setLane l { s.lane l with stack := (s.lane l).stack.map (earlyEntry [id] e) } := by
    unfold State.onLane
    rw [State.lane_setLane_self _ _ hl, setLane_twice]
    congr 1
    unfold Lane.onSource
    simp only [List.map_map]
    congr 1
    apply List.map_congr_left
    intro n _
    simp only [Function.comp_apply, earlyEntry, List.mem_singleton, exists_eq_left]
    by_cases hn : n.source = .placement id <;> simp [hn]
  rw [h]
  rfl

/-- An IN cue on the placements it finds, one after the other (R79). -/
theorem inAll_after (l : Nat) (hl : l < 16) (c : Cue) (ids : List Nat) (s : State) (hn : ids.Nodup)
    (hids : ∀ id ∈ ids, id < 128 ∧ (s.placement id).lane = l) :
    let t := inAll l c ids s
    let onStack := ids.filter fun id => (s.placement id).onStack
    let pending := ids.filter fun id => decide ((s.placement id).state = .pending)
    t = { s with lanes := t.lanes, placements := t.placements, log := t.log } ∧
      Handed s t (cancelledRecords s l pending) ∧ (∀ m, m ≠ l → t.lane m = s.lane m) ∧
      t.lane l = { s.lane l with stack := (s.lane l).stack.map (earlyEntry onStack (c.time.getD (s.clock l))) } ∧
      ∀ id, t.placement id =
        if id ∈ onStack then { s.placement id with rule := .early, earlyReturn := true }
        else if id ∈ pending then Placement.vacant else s.placement id := by
  induction ids generalizing s with
  | nil =>
    refine ⟨rfl, Handed.refl s, fun _ _ => rfl, ?_, fun id => by simp [inAll]⟩
    simp only [inAll, List.filter_nil, funext (earlyEntry_nil _), List.map_id']
  | cons id rest ih =>
    obtain ⟨hnot, hn'⟩ := List.nodup_cons.1 hn
    have hne : ∀ j ∈ rest, j ≠ id := fun j hj he => hnot (he ▸ hj)
    have hid := hids id (List.mem_cons_self ..)
    intro t onStack pending
    -- The first placement's part, and what it keeps of the others.
    have key : ∀ u : State, u = inOne l c id s → (∀ j, j ≠ id → u.placement j = s.placement j) → u.clock l = s.clock l →
        ∀ (os pd : List Nat),
          ((s.placement id).onStack = true → os = [id] ∧ pd = []) → ((s.placement id).state = .pending → os = [] ∧ pd = [id]) →
          ((s.placement id).onStack = false → (s.placement id).state ≠ .pending → os = [] ∧ pd = []) →
          u = { s with lanes := u.lanes, placements := u.placements, log := u.log } →
          Handed s u (cancelledRecords s l pd) → (∀ m, m ≠ l → u.lane m = s.lane m) →
          u.lane l = { s.lane l with stack := (s.lane l).stack.map (earlyEntry os (c.time.getD (s.clock l))) } →
          (u.placement id =
            if id ∈ os then { s.placement id with rule := .early, earlyReturn := true }
            else if id ∈ pd then Placement.vacant else s.placement id) →
          t = { s with lanes := t.lanes, placements := t.placements, log := t.log } ∧
            Handed s t (cancelledRecords s l pending) ∧ (∀ m, m ≠ l → t.lane m = s.lane m) ∧
            t.lane l = { s.lane l with stack := (s.lane l).stack.map (earlyEntry onStack (c.time.getD (s.clock l))) } ∧
            ∀ id, t.placement id =
              if id ∈ onStack then { s.placement id with rule := .early, earlyReturn := true }
              else if id ∈ pending then Placement.vacant else s.placement id := by
      intro u hu hpl hck os pd hos hpd hno h1 h2 h3 h4 h5
      obtain ⟨g1, g2, g3, g4, g5⟩ := ih u hn' (fun j hj => by
        rw [hpl j (hne j hj)]
        exact hids j (List.mem_cons_of_mem _ hj))
      have ht : t = inAll l c rest u := by rw [hu]; rfl
      rw [← ht] at g1 g2 g3 g4 g5
      have hso : ∀ f : Placement → Bool, (rest.filter fun j => f (u.placement j)) = rest.filter fun j => f (s.placement j) := by
        intro f
        apply List.filter_congr
        intro j hj
        rw [hpl j (hne j hj)]
      rw [hso Placement.onStack] at g4 g5
      rw [hso fun p => decide (p.state = .pending)] at g2 g5
      have hexc : (s.placement id).onStack = true → (s.placement id).state ≠ .pending := by
        intro h1 h2
        simp [Placement.onStack, h2] at h1
      have honS : onStack = os ++ rest.filter fun j => (s.placement j).onStack := by
        show List.filter _ (id :: rest) = _
        by_cases h : (s.placement id).onStack = true
        · rw [List.filter_cons, if_pos h, (hos h).1]; rfl
        · rw [List.filter_cons, if_neg h]
          by_cases hp : (s.placement id).state = .pending
          · rw [(hpd hp).1]; rfl
          · rw [(hno (by simpa using h) hp).1]; rfl
      have hpen : pending = pd ++ rest.filter fun j => decide ((s.placement j).state = .pending) := by
        show List.filter _ (id :: rest) = _
        by_cases hp : (s.placement id).state = .pending
        · rw [List.filter_cons, if_pos (decide_eq_true hp), (hpd hp).2]; rfl
        · rw [List.filter_cons, if_neg (by simpa using hp)]
          by_cases h : (s.placement id).onStack = true
          · rw [(hos h).2]; rfl
          · rw [(hno (by simpa using h) hp).2]; rfl
      have hrec : ∀ ids' : List Nat, (∀ j ∈ ids', j ∈ rest) → cancelledRecords u l ids' = cancelledRecords s l ids' := by
        intro ids' hin
        unfold cancelledRecords
        apply List.map_congr_left
        intro j hj
        rw [hpl j (hne j (hin j hj))]
      rw [hrec _ (fun j hj => (List.mem_filter.1 hj).1)] at g2
      refine ⟨?_, ?_, ?_, ?_, ?_⟩
      · rw [g1, h1]
      · rw [hpen]
        have : cancelledRecords s l (pd ++ rest.filter fun j => decide ((s.placement j).state = .pending)) =
            cancelledRecords s l pd ++ cancelledRecords s l (rest.filter fun j => decide ((s.placement j).state = .pending)) := by
          simp [cancelledRecords]
        rw [this]
        exact h2.trans g2
      · intro m hm
        rw [g3 m hm, h3 m hm]
      · rw [g4, h4, hck, honS]
        simp only [List.map_map]
        congr 1
        apply List.map_congr_left
        intro n _
        simp only [Function.comp_apply]
        by_cases h : (s.placement id).onStack = true
        · rw [(hos h).1]
          exact earlyEntry_cons ..
        · have : os = [] := by
            by_cases hp : (s.placement id).state = .pending
            · exact (hpd hp).1
            · exact (hno (by simpa using h) hp).1
          rw [this, earlyEntry_nil]
          rfl
      · intro j
        rw [g5 j, honS, hpen]
        have hosin : ∀ k ∈ os, k = id := by
          intro k hk
          by_cases h : (s.placement id).onStack = true
          · simpa [(hos h).1] using hk
          · by_cases hp : (s.placement id).state = .pending
            · simp [(hpd hp).1] at hk
            · simp [(hno (by simpa using h) hp).1] at hk
        have hpdin : ∀ k ∈ pd, k = id := by
          intro k hk
          by_cases h : (s.placement id).onStack = true
          · simp [(hos h).2] at hk
          · by_cases hp : (s.placement id).state = .pending
            · simpa [(hpd hp).2] using hk
            · simp [(hno (by simpa using h) hp).2] at hk
        by_cases hj : j = id
        · subst hj
          have a1 : ∀ f : Nat → Bool, j ∉ rest.filter f := fun f h => hnot (List.mem_filter.1 h).1
          simp only [List.mem_append, a1, or_false, if_false]
          exact h5
        · have b1 : j ∉ os := fun h => hj (hosin j h)
          have b2 : j ∉ pd := fun h => hj (hpdin j h)
          simp only [List.mem_append, b1, b2, false_or, hpl j hj]
    by_cases h : (s.placement id).onStack = true
    · have hi : inOne l c id s = setEarly id (s.inTime l c) s := by simp only [inOne, h, if_true]
      have ha := setEarly_after l hl id (s.inTime l c) s hid.2
      have hnp : (s.placement id).state ≠ .pending := by
        intro hp; simp [Placement.onStack, hp] at h
      refine key _ rfl ?_ ?_ [id] [] (fun _ => ⟨rfl, rfl⟩) (fun hp => absurd hp hnp) (fun h' => by simp [h] at h') ?_ ?_ ?_ ?_ ?_
      · intro j hj
        rw [hi, ha, setPlacement_placement]
        simp [hj]
      · rw [hi, ha]
        simp only [State.clock, State.lane_setPlacement, State.lane_setLane_self _ _ hl]
        rfl
      · rw [hi, ha]; rfl
      · rw [hi, ha]; exact ⟨rfl, rfl, rfl⟩
      · intro m hm
        rw [hi, ha, State.lane_setPlacement, State.lane_setLane_ne _ _ (Ne.symm hm)]
      · rw [hi, ha, State.lane_setPlacement, State.lane_setLane_self _ _ hl]
        rfl
      · rw [hi, ha, setPlacement_placement]
        simp [hid.1]
    · by_cases hp : (s.placement id).state = .pending
      · have hi : inOne l c id s = endPlacement id .cancelled none 0 s := by simp only [inOne, h, hp]; rfl
        have hlane : (endPlacement id .cancelled none 0 s).lane = s.lane := by rw [endPlacement_after]; rfl
        have hpl : ∀ j, (endPlacement id .cancelled none 0 s).placement j =
            if j = id then Placement.vacant else s.placement j := by
          intro j
          rw [endPlacement_after]
          exact setPlacement_vacant s id j
        refine key _ rfl ?_ ?_ [] [id] (fun h' => absurd h' h) (fun _ => ⟨rfl, rfl⟩) (fun _ h' => absurd hp h') ?_ ?_ ?_ ?_ ?_
        · intro j hj
          rw [hi, hpl, if_neg hj]
        · rw [hi, endPlacement_after]; rfl
        · rw [hi, endPlacement_after]; rfl
        · rw [hi]
          have := Handed.endPlacement id .cancelled none 0 s
          rw [placementReport_none, hid.2] at this
          exact this
        · intro m _
          rw [hi, hlane]
        · rw [hi, hlane]
          simp only [funext (earlyEntry_nil _), List.map_id']
        · rw [hi, hpl]
          simp
      · have hi : inOne l c id s = s := by
          simp only [inOne, h, hp, if_false]
          rfl
        refine key _ rfl ?_ ?_ [] [] (fun h' => absurd h' h) (fun h' => absurd h' hp) (fun _ _ => ⟨rfl, rfl⟩) ?_ ?_ ?_ ?_ ?_
        · intro j _; rw [hi]
        · rw [hi]
        · rw [hi]
        · rw [hi]; exact Handed.refl s
        · intro m _; rw [hi]
        · rw [hi]
          simp only [funext (earlyEntry_nil _), List.map_id']
        · rw [hi]; simp

theorem cueIds_filter (s : State) (l : Nat) (a : Word) (f : Placement → Bool) :
    ((s.cueIds l a fun _ => true).filter fun id => f (s.placement id)) = s.cueIds l a f := by
  unfold State.cueIds
  rw [List.filter_filter]
  apply List.filter_congr
  intro id _
  simp only [Bool.and_true]
  exact Bool.and_comm _ _

/-- Intake of an IN cue, as the rules give it (R79, R81, R88). -/
theorem intakeIn_taken (l : Nat) (hl : l < 16) (c : Cue) (inj : Bool) (s : State) (hc : c.type = .into) :
    s.CueTaken l c inj (intakeIn l c inj s).1 (intakeIn l c inj s).2.code := by
  have hm := mem_cueIds s l c.avail (fun _ => true)
  obtain ⟨h1, h2, h3, h4, h5⟩ := inAll_after l hl c (s.cueIds l c.avail fun _ => true) s (idsFor_nodup ..)
    (fun id h => ⟨((hm id).1 h).1, ((hm id).1 h).2.1.2.1⟩)
  rw [cueIds_filter s l c.avail (fun p => decide (p.state = .pending))] at h2 h5
  rw [cueIds_filter s l c.avail Placement.onStack, onStack_test] at h4 h5
  have hafter : ∀ t, t = inAll l c (s.cueIds l c.avail fun _ => true) s →
      t = { s with lanes := t.lanes, placements := t.placements, log := t.log } ∧ (∀ m, m ≠ l → t.lane m = s.lane m) := by
    intro t ht
    subst ht
    exact ⟨h1, h3⟩
  unfold State.CueTaken intakeIn
  simp only [hc, idsFor_eq, onStack_test]
  obtain ⟨onStack, hod⟩ : ∃ q, (s.cueIds l c.avail fun p => decide (p.state = .onAir ∨ p.state = .covered)) = q := ⟨_, rfl⟩
  obtain ⟨pending, hpd⟩ : ∃ q, (s.cueIds l c.avail fun p => decide (p.state = .pending)) = q := ⟨_, rfl⟩
  rw [hpd] at h2 h5
  rw [hod] at h4 h5
  simp only [hod, hpd]
  by_cases hos : onStack = []
  · by_cases hpe : pending = []
    · simp only [hos, hpe, ne_eq, not_true_eq_false, if_false, true_and]
      have hmap : ((s.lane l).stack.map fun n : Entry =>
          if ∃ id ∈ ([] : List Nat), n.source = .placement id then
            { n with endTime := some (c.time.getD (s.clock l)), rule := .early } else n) = (s.lane l).stack :=
        (List.map_congr_left fun n _ => by simp).trans (List.map_id' _)
      rw [hmap]
      unfold repeatOrUnplaced
      by_cases hrec : c.avail ∈ (s.lane l).recent
      · rw [if_pos hrec]
        simp only [hrec, not_true_eq_false, if_false, if_true, List.map_nil, List.append_nil, logAfter_nil]
        exact ⟨by trivial, fun _ _ => by trivial, by trivial, fun id => by simp, by trivial, by trivial⟩
      · rw [if_neg hrec]
        simp only [hrec, not_false_eq_true, if_true, if_false, List.map_nil, List.nil_append, cueUnplaced, handRecord_after, hc]
        exact ⟨by trivial, fun _ _ => rfl, rfl, fun id => by simp; rfl, by trivial, by trivial⟩
    · simp only [hos, hpe, ne_eq, not_true_eq_false, not_false_eq_true, if_false, if_true, false_and, and_false, List.append_nil]
      rw [hos] at h4 h5
      exact ⟨h1, h3, h4, h5, h2.1, rfl⟩
  · simp only [hos, ne_eq, not_false_eq_true, if_true, false_and, if_false, List.append_nil]
    exact ⟨h1, h3, h4, h5, h2.1, rfl⟩

/-- Intake of a cue, as the rules give it (R77 to R81). -/
theorem intake_taken (l : Nat) (hl : l < 16) (c : Cue) (inj : Bool) (s : State) :
    s.CueTaken l c inj (intake l c inj s).1 (intake l c inj s).2.code := by
  unfold intake
  cases hc : c.type with
  | out => exact intakeOut_taken l hl c inj s hc
  | into => exact intakeIn_taken l hl c inj s hc
  | cancel => exact intakeCancel_taken l c inj s hc

/-! ## In-band cues (R74, R75) -/

/-- A candidate message reads as a cue exactly where it is that cue's message (R75, 12.3). -/
theorem readCue_iff (m : List Byte) (c : Cue) : readCue m = some c ↔ CueMessage m c := by
  unfold readCue CueMessage
  have h7 : byteAt m 6 / 128 = 1 ↔ (m.getD 6 0).getLsbD 7 = true := by
    unfold byteAt
    generalize m.getD 6 0 = b
    revert b
    decide
  have h6 : byteAt m 6 / 64 % 2 = 1 ↔ (m.getD 6 0).getLsbD 6 = true := by
    unfold byteAt
    generalize m.getD 6 0 = b
    revert b
    decide
  simp only [h7, h6]
  obtain ⟨ty, av, tm, du⟩ := c
  by_cases h : byteAt m 0 = 0x5C ∧ m.getD 17 0 = crc8 (m.take 17)
  · rw [if_pos h]
    obtain ⟨ha, hb⟩ := h
    simp only [ha, hb, true_and, Option.map_eq_some_iff, Cue.mk.injEq, cueTypeOf]
    constructor
    · rintro ⟨k, hk, rfl, rfl, rfl, rfl⟩
      refine ⟨?_, rfl, rfl, rfl⟩
      split at hk
      · left; exact ⟨‹_›, (Option.some.inj hk).symm⟩
      · split at hk
        · right; left; exact ⟨‹_›, (Option.some.inj hk).symm⟩
        · split at hk
          · right; right; exact ⟨‹_›, (Option.some.inj hk).symm⟩
          · cases hk
    · rintro ⟨hk, rfl, rfl, rfl⟩
      refine ⟨ty, ?_, rfl, rfl, rfl, rfl⟩
      rcases hk with ⟨h, rfl⟩ | ⟨h, rfl⟩ | ⟨h, rfl⟩ <;> simp [h]
  · rw [if_neg h]
    constructor
    · intro hh; cases hh
    · rintro ⟨ha, hb, -⟩
      exact absurd ⟨ha, hb⟩ h

/-- A slot write's packet at cue intake, as the rules give it (R74, R75). -/
theorem cueIntake_packet (l : Nat) (hl : l < 16) (p : List Byte) (i : Insp) (s : State) :
    s.CuePacket l p i (if (s.lane l).record.onCuePid i then cueIntake l p i s else s) := by
  unfold State.CuePacket
  cases hpid : (s.lane l).record.onCuePid i with
  | false => simp
  | true =>
    simp only [Bool.true_eq_false, if_true, false_or]
    unfold cueIntake
    cases hu : i.pusi with
    | false => simp
    | true =>
      cases hh : i.hasPayload with
      | false => simp
      | true =>
        simp only [Bool.true_eq_false, or_self, if_false, Bool.and_self, if_true]
        by_cases hlen : i.payLen < 18
        · rw [if_pos hlen]
          exact ⟨fun c h => absurd hlen (Nat.not_lt.2 h), fun _ => rfl⟩
        · rw [if_neg hlen]
          have hrd := readCue_iff ((p.drop i.payStart).take 18)
          cases hr : readCue ((p.drop i.payStart).take 18) with
          | none =>
            refine ⟨fun c _ hcm => ?_, fun _ => rfl⟩
            rw [← hrd c, hr] at hcm
            cases hcm
          | some c =>
            refine ⟨fun c' _ hcm => ?_, fun h => ?_⟩
            · rw [← hrd c', hr] at hcm
              cases hcm
              exact ⟨_, intake_taken l hl c false s⟩
            · rcases h with h | h
              · exact absurd h hlen
              · exact absurd ((hrd c).1 hr) (h c)

end Sys2Proof.Machine
end

