-- ==== Sys2Proof/Laws/Feed.lean ====
section
/-! SUPPORT. What the Supervisor makes of a slot write, in the terms of the statements (R156 to R168). -/

namespace Sys2Proof.Machine

open Sys2Proof

theorem reached_iff (t mark : Rt) (ms : Nat) : rtAtOrAfter t (afterMs mark ms) = decide (rtReached t mark ms) := rfl

theorem passed_iff (t mark : Rt) (ms : Nat) :
    rtAfter t (afterMs mark ms) = decide (rtReached t mark ms ∧ t ≠ mark + BitVec.ofNat 32 (ms * 27000)) := by
  unfold rtAfter
  rw [reached_iff, Bool.decide_and]
  rfl

theorem check_eq (k : ContItem) (cc : Cc) : k.check cc = k.checked cc := by
  unfold ContItem.check ContItem.checked
  cases k.seen <;> rfl

theorem insertCountdown_eq (x : Lane) (n : Nat) :
    x.insertCountdown n =
      match x.monitor.anchorIndex with
      | some a => x.countdownTo n ((a + 1) % n) x.monitor.anchorAge
      | none => 0 := by
  unfold Lane.insertCountdown
  cases x.monitor.anchorIndex <;> rfl

theorem removeCountdown_eq (x : Lane) (n : Nat) :
    x.removeCountdown n = x.countdownTo n x.monitor.recoveryIndex x.monitor.recoveryAge := rfl

theorem startBlank_eq (m : Monitor) (t : Rt) :
    m.startBlank t =
      { m with
        blankStart := some (m.blankStart.getD t), anchorTag := if m.blankStart = none then t else m.anchorTag
        rateStart := if m.blankStart = none then t else m.rateStart } := by
  obtain ⟨_, b, _⟩ := m
  unfold Monitor.startBlank
  cases b <;> simp

theorem trackAnchor_eq (m : Monitor) (gap : Nat) (a : Bool) (w : Nat) (t : Rt) :
    m.trackAnchor gap a w t =
      { m with
        recoveryAge := satInc m.recoveryAge, anchorTag := if a = true then t else m.anchorTag
        anchorIndex := if a = true then some w else m.anchorIndex, anchorAge := if a = true then 0 else satInc m.anchorAge
        anchorAbsent := if a = true then false
          else m.anchorAbsent ||
            decide (rtReached t m.anchorTag gap ∧ t ≠ m.anchorTag + BitVec.ofNat 32 (gap * 27000)) } := by
  unfold Monitor.trackAnchor
  rw [← passed_iff]
  cases a <;> rfl

theorem checkCc_eq (m : Monitor) (role : Option (Fin 4)) (i : Insp) :
    m.checkCc role i =
      { m with
        cont :=
          match role with
          | some k => if i.hasPayload = true then m.cont.set k (m.cont[k].checked i.cc) else m.cont
          | none => m.cont } := by
  unfold Monitor.checkCc
  simp only [check_eq]
  cases role with
  | none => rfl
  | some k => cases i.hasPayload <;> rfl

theorem countRate_eq (m : Monitor) (r : LaneRecord) (isRole : Bool) (t : Rt) :
    let closes := r.rateMode ≠ .off ∧ rtReached t m.rateStart r.rateInterval
    let count := if closes then 0 else m.rateCount
    m.countRate r isRole t =
      { m with
        rateStart := if closes then t else m.rateStart, rateLast := if closes then m.rateCount else m.rateLast
        rateCount := if r.rateMode ≠ .off ∧ isRole = true then satInc count else count
        rateAlarm :=
          if closes then
            decide ((r.rateMode = .low ∧ m.rateCount < r.rateThreshold) ∨ (r.rateMode = .high ∧ r.rateThreshold ≤ m.rateCount))
          else m.rateAlarm } := by
  unfold Monitor.countRate Monitor.intervalEnds rateAlarmOf
  have hcl : rtReached t m.rateStart r.rateInterval = (rtAtOrAfter t (afterMs m.rateStart r.rateInterval) = true) := by
    rw [reached_iff, decide_eq_true_eq]
  simp only [hcl]
  generalize rtAtOrAfter t (afterMs m.rateStart r.rateInterval) = b
  cases b <;> cases hm : r.rateMode <;> cases isRole <;> simp

/-- The items after steps 1 to 4 (R156 to R159). -/
theorem observe_eq (x : Lane) (w : Nat) (t : Rt) (i : Insp) : x.observe w t i = x.itemsAfter w t i := by
  unfold Lane.observe Lane.itemsAfter
  simp only [startBlank_eq, trackAnchor_eq, checkCc_eq, countRate_eq]
  have hs : ((x.record.role i).isSome = true) = (x.record.role i ≠ none) := by
    cases x.record.role i <;> simp
  simp only [hs] <;> congr 1

theorem suspectMove_eq (x : Lane) (n w : Nat) (t : Rt) :
    let insertIn :=
      match x.monitor.anchorIndex with
      | some a => x.countdownTo n ((a + 1) % n) x.monitor.anchorAge
      | none => 0
    x.suspectMove n w t =
      if rtReached t x.monitor.filterStart x.record.lossFilter then
        ({ x with
            monitor := { x.monitor with state := .lost }
            slateInsert := some { countdown := insertIn, due := false }
            slateRemove := x.slateRemove.filter fun q => decide (q.countdown < insertIn) },
          [.monitor .lost w t (some { isRemove := false, countdown := insertIn, cancelled := false })])
      else (x, []) := by
  intro insertIn
  unfold Lane.suspectMove
  simp only [reached_iff, decide_eq_true_eq, insertCountdown_eq]
  rfl

theorem recoverMove_eq (x : Lane) (n w : Nat) (t : Rt) :
    let removeIn := x.countdownTo n x.monitor.recoveryIndex x.monitor.recoveryAge
    x.recoverMove n w t =
      if rtReached t x.monitor.filterStart x.record.goodFilter then
        ({ x with
            monitor := { x.monitor with state := .good }
            slateInsert := none
            slateRemove := if x.slateInsert = none then some { countdown := removeIn, due := false } else x.slateRemove },
          [.monitor .good w t (some { isRemove := true, countdown := removeIn, cancelled := x.slateInsert.isSome })])
      else (x, []) := by
  intro removeIn
  unfold Lane.recoverMove
  simp only [reached_iff, decide_eq_true_eq, removeCountdown_eq]
  congr 2
  unfold Lane.postRemove Lane.removeCancelled Lane.monitorTo
  cases h : x.slateInsert <;> simp [removeIn]

theorem lossHolds_iff (x : Lane) :
    x.lossHolds = true ↔
      (x.monitor.anchorAbsent = true ∨
        (x.monitor.rateAlarm = true ∧ x.record.rateMode = .low ∧ x.record.rateAsLoss = true)) := by
  unfold Lane.lossHolds
  simp [and_assoc]

/-- The Supervisor's part of a slot write (R156 to R168). -/
theorem supervise_watched (x : Lane) (n w : Nat) (t : Rt) (i : Insp) : x.supervise n w t i = x.watched n w t i := by
  unfold Lane.supervise Lane.watched
  rw [observe_eq]
  have hst : (x.itemsAfter w t i).state = x.monitor.state := rfl
  generalize x.itemsAfter w t i = m at hst ⊢
  unfold Lane.moveMonitor
  simp only [lossHolds_iff, reached_iff, decide_eq_true_eq, Lane.enterSuspect, Lane.enterRecovering, suspectMove_eq, recoverMove_eq,
    Lane.monitorTo]
  have hrate : rateRecords x.monitor m w t =
      if m.rateAlarm = x.monitor.rateAlarm then [] else [.rate m.rateAlarm m.rateLast w t] := by
    unfold rateRecords
    by_cases h : m.rateAlarm = x.monitor.rateAlarm
    · rw [if_pos h, if_pos h.symm]
    · rw [if_neg h, if_neg (Ne.symm h)]
  rw [hrate]
  generalize (if m.rateAlarm = x.monitor.rateAlarm then [] else [RecordBody.rate m.rateAlarm m.rateLast w t]) = rate
  have hm : { m with state := x.monitor.state } = m := by rw [← hst]
  by_cases hl : m.anchorAbsent = true ∨ (m.rateAlarm = true ∧ x.record.rateMode = .low ∧ x.record.rateAsLoss = true)
  · simp only [hst, if_pos hl]
    cases hs : x.monitor.state with
    | disabled => rw [hs] at hm; simp [hm]
    | blank =>
      rw [hs] at hm
      by_cases h1 : rtReached t (m.blankStart.getD t) x.record.blankTime
      · simp only [if_pos h1]
        by_cases h2 : rtReached t t x.record.lossFilter
        · simp only [if_pos h2]
          cases m.anchorIndex <;> rfl
        · simp only [if_neg h2, List.append_nil]
      · simp only [if_neg h1, List.append_nil, hm]
    | good =>
      by_cases h2 : rtReached t t x.record.lossFilter
      · simp only [if_pos h2]
        cases m.anchorIndex <;> rfl
      · simp only [if_neg h2, List.append_nil]
    | suspect =>
      rw [hs] at hm
      by_cases h2 : rtReached t m.filterStart x.record.lossFilter
      · simp only [if_pos h2]
        cases m.anchorIndex <;> rfl
      · simp only [if_neg h2, List.append_nil]
        rw [hm]
    | lost => rw [hs] at hm; simp [hm]
    | recovering => simp
  · simp only [hst, if_neg hl]
    cases hs : x.monitor.state with
    | disabled => rw [hs] at hm; simp [hm]
    | blank =>
      rw [hs] at hm
      by_cases h1 : rtReached t (m.blankStart.getD t) x.record.blankTime
      · simp only [if_pos h1, List.append_nil]
      · simp only [if_neg h1, List.append_nil, hm]
    | good => rw [hs] at hm; simp [hm]
    | suspect => simp
    | lost =>
      by_cases h2 : rtReached t t x.record.goodFilter
      · simp only [if_pos h2, List.append_assoc]
        rfl
      · simp only [if_neg h2]
    | recovering =>
      rw [hs] at hm
      by_cases h2 : rtReached t m.filterStart x.record.goodFilter
      · simp only [if_pos h2]
        rfl
      · simp only [if_neg h2, List.append_nil]
        rw [hm]

end Sys2Proof.Machine
end

