-- ==== Sys2Proof/Laws/Status.lean ====
section
/-! SUPPORT. The result words of the status commands are those of the table of 12.4 (R73, R176), and the placement mask of CUE
marks what the cue changed (R76). -/

namespace Sys2Proof.Machine

open Sys2Proof

theorem toNat_bit (b : Bool) (n : Nat) : b.toNat % 2 ^ 1 * 2 ^ n = flag b n := by cases b <;> simp [flag]

theorem clipIndexCode_eq (e : Option Entry) : clipIndexCode e = clipPlace e := by
  unfold clipIndexCode clipPlace
  cases e.bind Entry.current <;> rfl

theorem halves_eq (a b : Nat) : halves a b = packed [(0, 16, a), (16, 16, b)] := by
  simp [halves, packed, word, put]

theorem word_eq (n : Nat) : word n = packed [(0, 32, n)] := by
  apply BitVec.eq_of_toNat_eq
  simp [packed, word]

theorem ptLow_eq (t : Pt) : ptLow t = packed [(0, 32, t.toNat)] := word_eq t.toNat

theorem ptHigh_lt (t : Pt) : t.toNat / 2 ^ 32 < 2 := by
  have := t.isLt
  omega

/-! ## Words of several fields -/

theorem laneFlags_eq (x : Lane) (k m : Nat) (hk : k = x.look.code) (hm : m = x.monitor.state.code) :
    laneFlags x =
      packed [(0, 1, x.enabled.toNat), (1, 1, x.record.isSet.toNat), (2, 1, x.anchored.toNat),
        (3, 1, (x.stack.head?.any Entry.returning).toNat), (8, 2, k), (16, 3, m), (24, 1, x.monitor.rateAlarm.toNat),
        (25, 1, x.slateInsert.isSome.toNat), (26, 1, x.slateRemove.isSome.toNat)] := by
  subst hk hm
  simp only [laneFlags, packed, List.map_cons, List.map_nil, List.sum_cons, List.sum_nil, toNat_bit, word, put, present, Lane.top]
  refine congrArg (BitVec.ofNat 32) ?_
  omega

theorem clockWord_eq (n a b c d e : Nat) (h : n < 2) :
    word (n + put a 4 8 + put b 4 12 + put c 4 16 + put d 4 20 + put e 8 24) =
      packed [(0, 1, n), (8, 4, a), (12, 4, b), (16, 4, c), (20, 4, d), (24, 8, e)] := by
  unfold packed word put
  repeat rw [List.map_cons]
  rw [List.map_nil]
  repeat rw [List.sum_cons]
  rw [List.sum_nil]
  refine congrArg (BitVec.ofNat 32) ?_
  dsimp only
  omega

theorem placementFlags_eq (p : Placement) (e : Option Entry) (k : Nat) (hk : k = p.state.code) :
    word (put p.state.code 3 0 + present p.t 8 + flag p.lateCheck 9 + flag p.blocked 10 + flag p.withdrawn 11 +
        flag p.earlyReturn 12 + put (clipPlace e) 8 16) =
      packed [(0, 3, k), (8, 1, p.t.isSome.toNat), (9, 1, p.lateCheck.toNat), (10, 1, p.blocked.toNat), (11, 1, p.withdrawn.toNat),
        (12, 1, p.earlyReturn.toNat), (16, 8, clipPlace e)] := by
  subst hk
  unfold packed word put present
  repeat rw [List.map_cons]
  rw [List.map_nil]
  repeat rw [List.sum_cons]
  rw [List.sum_nil]
  refine congrArg (BitVec.ofNat 32) ?_
  dsimp only
  rw [toNat_bit, toNat_bit, toNat_bit, toNat_bit, toNat_bit]
  omega

theorem bytes_eq (a b c d a' b' c' d' : Nat) (ha : a' = a) (hb : b' = b) (hc : c' = c) (hd : d' = d) :
    word (put a 8 0 + put b 8 8 + put c 8 16 + put d 8 24) = packed [(0, 8, a'), (8, 8, b'), (16, 8, c'), (24, 8, d')] := by
  subst ha hb hc hd
  unfold packed word put
  repeat rw [List.map_cons]
  rw [List.map_nil]
  repeat rw [List.sum_cons]
  rw [List.sum_nil]
  refine congrArg (BitVec.ofNat 32) ?_
  dsimp only
  omega

theorem scheduledWord_eq (t : Nat) (b : Bool) (n : Nat) (h : t < 2) :
    word (t + flag b 8 + put n 8 16) = packed [(0, 1, t), (8, 1, b.toNat), (16, 8, n)] := by
  unfold packed word put
  repeat rw [List.map_cons]
  rw [List.map_nil]
  repeat rw [List.sum_cons]
  rw [List.sum_nil]
  refine congrArg (BitVec.ofNat 32) ?_
  dsimp only
  rw [toNat_bit]
  omega

theorem highWord_eq (t a b n : Nat) (h : t < 2) :
    word (t + put a 1 1 + put b 1 2 + put n 16 16) = packed [(0, 1, t), (1, 1, a), (2, 1, b), (16, 16, n)] := by
  unfold packed word put
  repeat rw [List.map_cons]
  rw [List.map_nil]
  repeat rw [List.sum_cons]
  rw [List.sum_nil]
  refine congrArg (BitVec.ofNat 32) ?_
  dsimp only
  omega

/-! ## The reports -/

theorem stackCode_eq (st : List Entry) (i : Nat) :
    stackCode st i =
      match st[i]? with
      | none => 0
      | some e =>
        match e.kind with
        | .slate => 1
        | .programme => 2
        | .advert => 3
        | .alert => 4 := by
  unfold stackCode
  cases st[i]? with
  | none => rfl
  | some e => cases h : e.kind <;> simp [h, Kind.code]

theorem cons_congr {α : Type} {a b : α} {l m : List α} (h : a = b) (k : l = m) : a :: l = b :: m := by rw [h, k]

/-- The words LANE-STATUS reports (R176, 12.4). -/
theorem laneStatusWords_eq (s : State) (l : Nat) : laneStatusWords l s = s.laneReport l := by
  refine cons_congr ?_ (cons_congr (halves_eq _ _) (cons_congr (halves_eq _ _) (cons_congr (ptLow_eq _) (cons_congr ?_
    (cons_congr (word_eq _) (cons_congr (halves_eq _ _) (cons_congr (halves_eq _ _) (cons_congr (halves_eq _ _)
      (cons_congr (halves_eq _ _) (cons_congr (halves_eq _ _) (cons_congr (word_eq _) (cons_congr (halves_eq _ _) rfl))))))))))))
  · exact laneFlags_eq _ _ _ (by cases (s.lane l).look <;> rfl) (by cases (s.lane l).monitor.state <;> rfl)
  · rw [clipIndexCode_eq, stackCode_eq, stackCode_eq, stackCode_eq, stackCode_eq]
    exact clockWord_eq _ _ _ _ _ _ (ptHigh_lt _)

/-- The words PLACEMENT-STATUS reports (R73, 12.4). -/
theorem placementStatusWords_eq (s : State) (id : Nat) : placementStatusWords id s = s.placementReport id := by
  refine cons_congr ?_ (cons_congr ?_ (cons_congr rfl (cons_congr (ptLow_eq _) (cons_congr ?_ (cons_congr (word_eq _)
    (cons_congr (halves_eq _ _) (cons_congr (halves_eq _ _) (cons_congr (halves_eq _ _) (cons_congr (ptLow_eq _) (cons_congr ?_
      (cons_congr (ptLow_eq _) (cons_congr (ptLow_eq _) (cons_congr (word_eq _) rfl)))))))))))))
  · rw [clipIndexCode_eq]
    exact placementFlags_eq _ _ _ (by cases (s.placement id).state <;> rfl)
  · exact bytes_eq _ _ _ _ _ _ _ _ rfl (by cases (s.placement id).kind <;> rfl) (by cases (s.placement id).trigger <;> rfl)
      (by cases (s.placement id).rule <;> rfl)
  · exact scheduledWord_eq _ _ _ (ptHigh_lt _)
  · exact highWord_eq _ _ _ _ (ptHigh_lt _)

/-! ## The placement mask (R76) -/

theorem flagSum_lt (p : Nat → Bool) (n : Nat) : (((List.range n).map fun i => flag (p i) i).sum) < 2 ^ n := by
  induction n with
  | zero => simp
  | succ n ih =>
    rw [List.range_succ, List.map_append, List.sum_append]
    simp only [List.map_cons, List.map_nil, List.sum_cons, List.sum_nil, flag] at *
    split <;> omega

theorem flagSum_testBit (p : Nat → Bool) (n j : Nat) (hj : j < n) :
    (((List.range n).map fun i => flag (p i) i).sum).testBit j = p j := by
  induction n with
  | zero => omega
  | succ n ih =>
    rw [List.range_succ, List.map_append, List.sum_append]
    simp only [List.map_cons, List.map_nil, List.sum_cons, List.sum_nil, Nat.add_zero]
    have hlt := flagSum_lt p n
    by_cases h : j = n
    · subst h
      unfold flag at *
      cases hp : p j
      · simp [Nat.testBit_lt_two_pow hlt]
      · simp only [if_true]
        rw [Nat.add_comm, Nat.testBit_two_pow_add_eq, Nat.testBit_lt_two_pow hlt]; rfl
    · rw [← ih (by omega)]
      unfold flag at *
      cases hp : p n
      · simp
      · simp only [if_true]
        rw [Nat.add_comm, Nat.testBit_two_pow_add_gt (by omega)]

/-- A bit of the placement mask (12.4). -/
theorem placementMaskWord_bit (p : Nat → Bool) (n j : Nat) (hj : j < 32) : (placementMaskWord p n).getLsbD j = p (32 * n + j) := by
  unfold placementMaskWord word
  rw [BitVec.getLsbD_ofNat, flagSum_testBit _ _ _ hj]
  simp [hj]

/-- What CUE reports as changed (R76). -/
theorem changedBy_iff (s t : State) (id : Nat) : changedBy s t id = true ↔ s.cueChanged t id := by
  unfold changedBy State.cueItems State.cueChanged State.entryOfPlacement
  rw [decide_eq_true_eq]
  simp only [ne_eq, Prod.mk.injEq, not_and_or]
  constructor <;> intro h <;> simpa [eq_comm] using h

end Sys2Proof.Machine
end

