-- ==== Sys2Proof/Laws/Lines.lean ====
section
/-! SUPPORT. The lines the part writes of itself are those of the tables of 12.5 and 12.6 (R179, R185, R187). -/

namespace Sys2Proof.Machine

open Sys2Proof

/-! ## Masks of lanes -/

theorem laneFields_sum (lo : Nat) (p : Nat → Bool) :
    ((laneFields lo p).map fun f => f.2.2 % 2 ^ f.2.1 * 2 ^ f.1).sum = ((List.range 16).map fun l => flag (p l) l).sum * 2 ^ lo := by
  unfold laneFields
  rw [List.map_map, ← List.sum_map_mul_right]
  refine congrArg List.sum (List.map_congr_left fun l _ => ?_)
  simp only [Function.comp_apply, flag]
  cases p l <;> simp [pow_add, Nat.mul_comm]

theorem mask16_toNat (p : Nat → Bool) : (mask16 p).toNat = ((List.range 16).map fun l => flag (p l) l).sum := by
  have hlt := flagSum_lt p 16
  have : mask16 p = BitVec.ofNat 16 (((List.range 16).map fun l => flag (p l) l).sum) := by
    apply BitVec.eq_of_getLsbD_eq
    intro i hi
    rw [BitVec.getLsbD_ofNat, flagSum_testBit p 16 i hi, Bool.eq_iff_iff, mask16_iff p i hi]
    simp [hi]
  rw [this, BitVec.toNat_ofNat, Nat.mod_eq_of_lt hlt]

theorem bitVec16_toNat (m : BitVec 16) : m.toNat = ((List.range 16).map fun l => flag (m.getLsbD l) l).sum := by
  rw [← mask16_toNat]
  refine congrArg BitVec.toNat (BitVec.eq_of_getLsbD_eq fun i hi => ?_)
  rw [Bool.eq_iff_iff, mask16_iff _ i hi]

theorem lanesWord_eq (m : BitVec 16) : word m.toNat = packed (laneFields 0 fun l => m.getLsbD l) := by
  rw [packed, laneFields_sum, bitVec16_toNat, Nat.pow_zero, Nat.mul_one, word]

theorem masksWord_eq (p q : Nat → Bool) :
    word ((mask16 p).toNat + (mask16 q).toNat * 2 ^ 16) = packed (laneFields 0 p ++ laneFields 16 q) := by
  rw [packed, List.map_append, List.sum_append, laneFields_sum, laneFields_sum, mask16_toNat, mask16_toNat, Nat.pow_zero,
    Nat.mul_one, word]

/-! ## Words of several fields -/

theorem packed_one (n w : Nat) : word (put n w 0) = packed [(0, w, n)] := by simp [packed, word, put]

theorem packed_bit (b : Bool) (n : Nat) : word (flag b n) = packed [(n, 1, b.toNat)] := by
  simp only [packed, List.map_cons, List.map_nil, List.sum_cons, List.sum_nil, Nat.add_zero, toNat_bit, word]

theorem packed_bits (a b : Bool) (m n : Nat) : word (flag a m + flag b n) = packed [(m, 1, a.toNat), (n, 1, b.toNat)] := by
  simp only [packed, List.map_cons, List.map_nil, List.sum_cons, List.sum_nil, Nat.add_zero, toNat_bit, word]

theorem statusWord_eq (a : AlertCtl) : a.statusWord = a.laid := by
  unfold AlertCtl.statusWord AlertCtl.laid
  simp only [packed, List.map_cons, List.map_nil, List.sum_cons, List.sum_nil, toNat_bit, word, put]
  refine congrArg (BitVec.ofNat 32) ?_
  cases a.state <;> simp [AlertState.code, AlertState.number] <;> omega

/-! ## The status line (R179, 12.5) -/

/-- The words of the status line (R179, 12.5). -/
theorem statusLaid_eq (s : State) (seq : Nat) : s.statusItems.words seq = s.statusLaid seq := by
  refine cons_congr rfl (cons_congr rfl (cons_congr (packed_bit _ _) (cons_congr (word_eq _) (cons_congr (statusWord_eq _)
    (cons_congr (packed_bits _ _ _ _) (cons_congr (halves_eq _ _) (cons_congr (packed_one _ _) (cons_congr ?_
      (cons_congr (halves_eq _ _) (cons_congr (halves_eq _ _) (cons_congr (packed_one _ _) rfl)))))))))))
  refine (masksWord_eq _ _).trans (congrArg (fun q => packed (laneFields 0 (fun l => (s.lane l).enabled) ++ laneFields 16 q)) ?_)
  funext l
  cases (s.lane l).enabled <;> simp

/-- The items of the status line are the same, item by item (R180). -/
theorem statusItems_eq_iff (s t : State) : s.statusItems = t.statusItems ↔ s.sameItems t := by
  have hmask : ∀ p q : Nat → Bool, mask16 p = mask16 q ↔ ∀ l, l < 16 → p l = q l := by
    intro p q
    constructor
    · intro h l hl
      have h1 := mask16_iff p l hl
      rw [h] at h1
      exact Bool.eq_iff_iff.2 (h1.symm.trans (mask16_iff q l hl))
    · intro h
      apply BitVec.eq_of_getLsbD_eq
      intro i hi
      have h1 := mask16_iff p i hi
      simp only [h i hi] at h1
      exact Bool.eq_iff_iff.2 (h1.trans (mask16_iff q i hi).symm)
  unfold State.statusItems State.sameItems State.enabledMask State.lostMask State.claimed
  simp only [StatusItems.mk.injEq, hmask, statusWord_eq]
  constructor
  · rintro ⟨h1, h2, h3, h4, h5, h6, h7, h8, h9, h10, h11, h12, h13, h14⟩
    refine ⟨⟨h1, h2, h3, h4⟩, ⟨h5, h6, h7⟩, fun l hl => ⟨h8 l hl, fun he => ?_⟩, h10, h11, h12, h13, h14⟩
    have := h9 l hl
    rw [← h8 l hl, he] at this
    simpa using this
  · rintro ⟨⟨h1, h2, h3, h4⟩, ⟨h5, h6, h7⟩, h8, h10, h11, h12, h13, h14⟩
    refine ⟨h1, h2, h3, h4, h5, h6, h7, fun l hl => (h8 l hl).1, fun l hl => ?_, h10, h11, h12, h13, h14⟩
    rw [← (h8 l hl).1]
    cases he : (s.lane l).enabled
    · rfl
    · simpa using (h8 l hl).2 he

/-! ## Log records (R187, 12.6) -/

theorem kindNumber_eq (k : Kind) : k.code = k.number := by cases k <;> rfl

theorem triggerNumber_eq (t : Trigger) : t.code = t.number := by cases t <;> rfl

theorem outcomeNumber_eq (o : Outcome) : o.code = o.number := by cases o <;> rfl

theorem clipOutcomeNumber_eq (o : ClipOutcome) : o.code = o.number := by cases o <;> rfl

theorem cueTypeNumber_eq (t : CueType) : t.code = t.number := by cases t <;> rfl

theorem unplacedNumber_eq (r : UnplacedReason) : r.code = r.number := by cases r <;> rfl

theorem actionNumber_eq (a : AlertAction) : a.code = a.number := by cases a <;> rfl

theorem reasonNumber_eq (r : AlertReason) : r.code = r.number := by cases r <;> rfl

theorem reactionNumber_eq (r : Reaction) : r.firedCode = r.number := by cases r <;> rfl

theorem monStateNumber_eq (m : MonState) : m.code = m.number := by cases m <;> rfl

theorem itemPacked_eq (a k : Nat) : word (put a 24 0 + put k 4 24) = packed [(0, 24, a), (24, 4, k)] := by
  unfold packed word put
  repeat rw [List.map_cons]
  rw [List.map_nil]
  repeat rw [List.sum_cons]
  rw [List.sum_nil]
  refine congrArg (BitVec.ofNat 32) ?_
  dsimp only
  omega

theorem itemWord_eq (items : List ClipItem) (i : Nat) : itemWord items i = itemLaid items[i]? := by
  unfold itemWord itemLaid
  cases items[i]? with
  | none => rfl
  | some c => simp only [itemPacked_eq, clipOutcomeNumber_eq]

theorem timeLow_eq (t : Option Pt) : ptLow (t.getD 0) = timeLow t := ptLow_eq _

theorem timeTop_word (t : Option Pt) : word (ptHigh (t.getD 0)) = packed [(0, 32, timeTop t)] := word_eq _

theorem timeTop_lt (t : Option Pt) : timeTop t < 2 := ptHigh_lt _

theorem kindsWord_eq (a b c d : Nat) :
    word (put a 8 0 + put b 8 8 + put c 8 16 + put d 8 24) = packed [(0, 8, a), (8, 8, b), (16, 8, c), (24, 8, d)] :=
  bytes_eq _ _ _ _ _ _ _ _ rfl rfl rfl rfl

theorem timesWord_eq (a b c : Option Pt) (k : Bool) (n : Nat) :
    word (put (ptHigh (a.getD 0)) 1 0 + present a 1 + flag k 2 + put (ptHigh (b.getD 0)) 1 8 + put (ptHigh (c.getD 0)) 1 9 +
        put n 8 16) =
      packed [(0, 1, timeTop a), (1, 1, a.isSome.toNat), (2, 1, k.toNat), (8, 1, timeTop b), (9, 1, timeTop c), (16, 8, n)] := by
  simp only [packed, List.map_cons, List.map_nil, List.sum_cons, List.sum_nil, toNat_bit, word, put, present]
  refine congrArg (BitVec.ofNat 32) ?_
  unfold ptHigh timeTop
  omega

theorem lowHalf_eq (a b : Nat) : word (put a 8 0 + put b 8 8) = packed [(0, 8, a), (8, 8, b)] := by
  simp only [packed, List.map_cons, List.map_nil, List.sum_cons, List.sum_nil, word, put, Nat.add_zero]

theorem placementLaid_eq (id : Nat) (kind : Kind) (trigger : Trigger) (avail : Word) (t : Option Pt) (times : Option (Pt × Pt))
    (outcome : Outcome) (maxLag : Nat) (items : List ClipItem) :
    (RecordBody.placement id kind trigger avail t times outcome maxLag items).layout =
      (1, placementLaid id kind trigger avail t times outcome maxLag items) := by
  have hp : present times 2 = flag times.isSome 2 := rfl
  have hi : ∀ i, itemClip items i = itemId items[i]? := fun i => by
    unfold itemClip itemId
    cases items[i]? <;> rfl
  unfold RecordBody.layout placementLaid recordT
  simp only [kindsWord_eq, timeLow_eq, hp, timesWord_eq, itemWord_eq, hi, lowHalf_eq, kindNumber_eq, triggerNumber_eq,
    outcomeNumber_eq]
  rw [word_eq]

theorem pad_five (a b c d e : Word) : padWords 14 [a, b, c, d, e] = [a, b, c, d, e, 0, 0, 0, 0, 0, 0, 0, 0, 0] := rfl

theorem pad_seven (a b c d e f g : Word) : padWords 14 [a, b, c, d, e, f, g] = [a, b, c, d, e, f, g, 0, 0, 0, 0, 0, 0, 0] := rfl

theorem pad_six (a b c d e f : Word) : padWords 14 [a, b, c, d, e, f] = [a, b, c, d, e, f, 0, 0, 0, 0, 0, 0, 0, 0] := rfl

theorem pad_two (a b : Word) : padWords 14 [a, b] = [a, b, 0, 0, 0, 0, 0, 0, 0, 0, 0, 0, 0, 0] := rfl

theorem pad_one (a : Word) : padWords 14 [a] = [a, 0, 0, 0, 0, 0, 0, 0, 0, 0, 0, 0, 0, 0] := rfl

theorem pad_line (a b : Word) (l : List Word) : padWords 16 ([a, b] ++ l) = a :: b :: padWords 14 l := by
  unfold padWords
  simp only [List.cons_append, List.nil_append, List.take_succ_cons, List.take_append, List.take_replicate]
  congr 4
  omega

theorem supervisionWord_eq (what level r : Nat) (c : Bool) :
    word (put what 8 0 + put level 8 8 + put r 8 16 + flag c 24) =
      packed [(0, 8, what), (8, 8, level), (16, 8, r), (24, 1, c.toNat)] := by
  simp only [packed, List.map_cons, List.map_nil, List.sum_cons, List.sum_nil, toNat_bit, word, put]
  refine congrArg (BitVec.ofNat 32) ?_
  omega

theorem supervisionLaid_eq (what level : Nat) (posted : Option PostedSlate) (count slot : Nat) (tag : Rt) :
    [word (put what 8 0 + put level 8 8 + put (postedCode posted) 8 16
        + flag ((posted.map PostedSlate.cancelled).getD false) 24), word count, word slot, tag,
      word ((posted.map PostedSlate.countdown).getD 0), 0, 0, 0, 0, 0, 0, 0, 0, 0] =
      supervisionLaid what level posted count slot tag := by
  unfold supervisionLaid
  rw [supervisionWord_eq, word_eq, word_eq, word_eq]
  cases posted <;> rfl

theorem auditWord_eq (edge id kind : Nat) (atRap : Bool) (a b : Option Pt) :
    word (put edge 8 0 + put id 8 8 + put kind 8 16 + flag atRap 24 + present a 25 + present b 26) =
      packed [(0, 8, edge), (8, 8, id), (16, 8, kind), (24, 1, atRap.toNat), (25, 1, a.isSome.toNat), (26, 1, b.isSome.toNat)] := by
  simp only [packed, List.map_cons, List.map_nil, List.sum_cons, List.sum_nil, toNat_bit, word, put, present]
  refine congrArg (BitVec.ofNat 32) ?_
  omega

theorem put_zero (w lo : Nat) : put 0 w lo = 0 := by simp [put]

theorem jumpHigh_eq (d : Int) : word ((BitVec.ofInt 64 d).toNat / 2 ^ 32) = BitVec.ofInt 32 (d / 2 ^ 32) := by
  apply BitVec.eq_of_toNat_eq
  rw [word, BitVec.toNat_ofNat, BitVec.toNat_ofInt, BitVec.toNat_ofInt]
  omega

theorem jumpLow_eq (d : Int) : word (BitVec.ofInt 64 d).toNat = BitVec.ofInt 32 d := by
  apply BitVec.eq_of_toNat_eq
  rw [word, BitVec.toNat_ofNat, BitVec.toNat_ofInt, BitVec.toNat_ofInt]
  omega

theorem cueWord_eq (a b : Nat) (c : Bool) :
    word (put a 8 0 + put b 8 8 + flag c 16) = packed [(0, 8, a), (8, 8, b), (16, 1, c.toNat)] := by
  simp only [packed, List.map_cons, List.map_nil, List.sum_cons, List.sum_nil, toNat_bit, word, put]
  refine congrArg (BitVec.ofNat 32) ?_
  omega

theorem renewalWord_eq (profile loopCount r : Nat) :
    word (put profile 8 0 + put loopCount 8 8 + put r 8 16) = packed [(0, 8, profile), (8, 8, loopCount), (16, 8, r)] := by
  simp only [packed, List.map_cons, List.map_nil, List.sum_cons, List.sum_nil, word, put]
  refine congrArg (BitVec.ofNat 32) ?_
  omega

/-- The layout of a record's own words (12.6). -/
theorem layout_eq (b : RecordBody) : b.layout.1 = b.laid.1 ∧ padWords 14 b.layout.2 = b.laid.2 := by
  cases b with
  | placement id kind trigger avail t times outcome maxLag items =>
    rw [placementLaid_eq]
    exact ⟨rfl, rfl⟩
  | cueUnplaced type avail reason injected =>
    refine ⟨rfl, ?_⟩
    simp only [RecordBody.layout, RecordBody.laid, pad_two, cueWord_eq, cueTypeNumber_eq, unplacedNumber_eq]
  | alert action profile severity reason lanes =>
    refine ⟨rfl, ?_⟩
    simp only [RecordBody.layout, RecordBody.laid, pad_two, lanesWord_eq, kindsWord_eq, actionNumber_eq, reasonNumber_eq]
  | renewal profile loopCount reaction =>
    refine ⟨rfl, ?_⟩
    simp only [RecordBody.layout, RecordBody.laid, pad_one, renewalWord_eq, reactionNumber_eq]
  | monitor state slot tag posted =>
    refine ⟨rfl, ?_⟩
    have h0 : (0 : Word) = word 0 := rfl
    simp only [RecordBody.layout, RecordBody.laid, pad_five, monStateNumber_eq]
    rw [← supervisionLaid_eq, ← h0]
  | rate alarm count slot tag =>
    refine ⟨rfl, ?_⟩
    simp only [RecordBody.layout, RecordBody.laid, pad_five]
    rw [← supervisionLaid_eq]
    cases alarm <;> rfl
  | timelineJump d =>
    refine ⟨rfl, ?_⟩
    simp only [RecordBody.layout, RecordBody.laid, pad_two]
    rw [jumpLow_eq, jumpHigh_eq]
  | auditOut id t s error preRoll =>
    refine ⟨rfl, ?_⟩
    have h := auditWord_eq 1 id 0 false s t
    have hz : flag false 24 = 0 := rfl
    rw [put_zero, hz, Nat.add_zero] at h
    simp only [RecordBody.layout, RecordBody.laid, timeWords, List.cons_append, List.nil_append, pad_seven, auditLaid, timeLow_eq,
      timeTop_word]
    rw [← h, word_eq preRoll]
  | auditIn kind atRap e returned error =>
    refine ⟨rfl, ?_⟩
    have h := auditWord_eq 2 255 kind.code atRap (some returned) e
    simp only [RecordBody.layout, RecordBody.laid, timeWords, List.cons_append, List.nil_append, pad_six, auditLaid, timeLow_eq,
      timeTop_word]
    rw [kindNumber_eq] at h
    rw [← h]
    rfl

/-- The words of a record's line (R187, 12.6). -/
theorem lineOf_eq (r : Record) : r.lineOf = r.laid := by
  obtain ⟨h1, h2⟩ := layout_eq r.body
  unfold Record.lineOf Record.laid
  rw [pad_line, h1, h2, lowHalf_eq]

/-- The words of a GAP record's line (R185, 12.6). -/
theorem gapWords_eq (lt : Rt) (lost : Nat) : gapWords lt lost = gapLaid lt lost := by
  have h : ∀ a b c : Word, padWords 16 [a, b, c] = [a, b, c, 0, 0, 0, 0, 0, 0, 0, 0, 0, 0, 0, 0, 0] := fun _ _ _ => rfl
  unfold gapWords gapLaid
  rw [h, lowHalf_eq, word_eq]
  rfl

end Sys2Proof.Machine
end

