-- ==== Sys2Proof/Laws/Packets.lean ====
section
/-! SUPPORT. What the rewriting of a library packet does: the packet it makes is the stored packet rewritten, said of the packet alone
(R118, R123 to R126). -/

namespace Sys2Proof.Machine

open Sys2Proof

/-! ## Bytes -/

theorem byteAt_lt (p : List Byte) (j : Nat) : byteAt p j < 256 := (p.getD j 0).isLt

@[simp] theorem setByte_length (p : List Byte) (i n : Nat) : (setByte p i n).length = p.length := by simp [setByte]

theorem byteAt_setByte (p : List Byte) (i n j : Nat) (h : i < p.length) :
    byteAt (setByte p i n) j = if j = i then n % 256 else byteAt p j := by
  unfold byteAt setByte
  simp only [List.getD_eq_getElem?_getD, List.getElem?_set]
  by_cases hj : j = i
  · subst hj; simp [h]
  · simp [hj, Ne.symm hj]

theorem byteAt_set (p : List Byte) (i n j : Nat) :
    byteAt (setByte p i n) j = if j = i ∧ i < p.length then n % 256 else byteAt p j := by
  by_cases h : i < p.length
  · rw [byteAt_setByte _ _ _ _ h]; simp [h]
  · have : setByte p i n = p := List.set_eq_of_length_le (Nat.not_lt.1 h)
    simp [this, h]

/-- Two bytes agree on a mask when they agree on its bits. -/
theorem and_eq_of_bits (x y m : BitVec 8)
    (h : ∀ i, i < 8 → m.getLsbD i = true → x.toNat / 2 ^ i % 2 = y.toNat / 2 ^ i % 2) : x &&& m = y &&& m := by
  apply BitVec.eq_of_getLsbD_eq
  intro i hi
  rw [BitVec.getLsbD_and, BitVec.getLsbD_and]
  cases hm : m.getLsbD i with
  | false => simp
  | true =>
    have := h i hi hm
    simp only [Bool.and_true, BitVec.getLsbD, Nat.testBit_eq_decide_div_mod_eq, this]

theorem and_narrow {x y m : BitVec 8} (h : x &&& m = y &&& m) (k : BitVec 8) : x &&& (k &&& m) = y &&& (k &&& m) := by
  rw [BitVec.and_comm k m, ← BitVec.and_assoc, ← BitVec.and_assoc, h]

/-! ## The parts of a rewrite -/

/-- Packet `q` has the length of `p`, and its byte values are a function's. -/
def BytesAre (p q : List Byte) (f : Nat → Nat) : Prop := q.length = p.length ∧ ∀ j, byteAt q j = f j

theorem header_bytes (p : List Byte) (hp : p.length = 188) (pid : Pid) (cc : Cc) :
    BytesAre p (setCc (setPid p pid) cc) fun j =>
      if j = 1 then byteAt p 1 / 32 * 32 + pid.toNat / 2 ^ 8
      else if j = 2 then pid.toNat % 2 ^ 8
      else if j = 3 then byteAt p 3 / 16 * 16 + cc.toNat
      else byteAt p j := by
  refine ⟨by simp [setCc, setPid], fun j => ?_⟩
  have h1 := byteAt_lt p 1
  have h3 := byteAt_lt p 3
  have hpid := pid.isLt
  have hcc := cc.isLt
  unfold setCc setPid
  rw [byteAt_setByte _ _ _ _ (by simp [hp]), byteAt_setByte _ _ _ _ (by simp [hp]), byteAt_setByte _ _ _ _ (by simp [hp]),
    byteAt_setByte _ _ _ _ (by simp [hp]), byteAt_setByte _ _ _ _ (by simp [hp])]
  by_cases e3 : j = 3
  · subst e3
    simp only [if_true, Nat.reduceEqDiff, if_false]
    omega
  · by_cases e2 : j = 2
    · subst e2
      simp
    · by_cases e1 : j = 1
      · subst e1
        simp only [if_true, Nat.reduceEqDiff, if_false]
        omega
      · simp [e1, e2, e3]

theorem stamp_bytes (p : List Byte) (q : Nat) (hq : q + 4 < p.length) (t : Pt) :
    BytesAre p (setStamp p q t) fun j =>
      if j = q then byteAt p q / 16 * 16 + t.toNat / 2 ^ 30 * 2 + byteAt p q % 2
      else if j = q + 1 then t.toNat / 2 ^ 22 % 256
      else if j = q + 2 then t.toNat / 2 ^ 15 % 2 ^ 7 * 2 + byteAt p (q + 2) % 2
      else if j = q + 3 then t.toNat / 2 ^ 7 % 256
      else if j = q + 4 then t.toNat % 2 ^ 7 * 2 + byteAt p (q + 4) % 2
      else byteAt p j := by
  have hlt := t.isLt
  have h0 := byteAt_lt p q
  have h2 := byteAt_lt p (q + 2)
  have h4 := byteAt_lt p (q + 4)
  refine ⟨by simp [setStamp], fun j => ?_⟩
  unfold setStamp
  have b0 : q < p.length := by omega
  have b1 : q + 1 < p.length := by omega
  have b2 : q + 2 < p.length := by omega
  have b3 : q + 3 < p.length := by omega
  simp only [byteAt_set, setByte_length, b0, b1, b2, b3, hq, and_true]
  have e1 : ¬ q + 2 = q + 1 := by omega
  have e2 : ¬ q + 2 = q := by omega
  have e3 : ¬ q + 4 = q + 3 := by omega
  have e4 : ¬ q + 4 = q + 2 := by omega
  have e5 : ¬ q + 4 = q + 1 := by omega
  have e6 : ¬ q + 4 = q := by omega
  simp only [e1, e2, e3, e4, e5, e6, if_false]
  by_cases a4 : j = q + 4
  · subst a4
    simp only [if_true, e6, e5, e4, e3, if_false]
    omega
  by_cases a3 : j = q + 3
  · subst a3
    have f1 : ¬ q + 3 = q := by omega
    have f2 : ¬ q + 3 = q + 1 := by omega
    have f3 : ¬ q + 3 = q + 2 := by omega
    simp only [a4, f1, f2, f3, if_true, if_false]
  by_cases a2 : j = q + 2
  · subst a2
    simp only [a4, a3, e1, e2, if_true, if_false]
    omega
  by_cases a1 : j = q + 1
  · subst a1
    have f1 : ¬ q + 1 = q := by omega
    simp only [a4, a3, a2, f1, if_true, if_false]
  by_cases a0 : j = q
  · subst a0
    simp only [a4, a3, a2, a1, if_true, if_false]
    omega
  · simp only [a4, a3, a2, a1, a0, if_false]

theorem pcr_bytes (p : List Byte) (hp : p.length = 188) (t : Pt) :
    BytesAre p (setPcrBase p t) fun j =>
      if j = 6 then t.toNat / 2 ^ 25
      else if j = 7 then t.toNat / 2 ^ 17 % 256
      else if j = 8 then t.toNat / 2 ^ 9 % 256
      else if j = 9 then t.toNat / 2 % 256
      else if j = 10 then t.toNat % 2 * 2 ^ 7 + byteAt p 10 % 2 ^ 7
      else byteAt p j := by
  have hlt := t.isLt
  have h0 := byteAt_lt p 10
  refine ⟨by simp [setPcrBase], fun j => ?_⟩
  unfold setPcrBase
  simp only [byteAt_set, setByte_length, hp, Nat.reduceLT, and_true, Nat.reduceEqDiff, if_false]
  by_cases a4 : j = 10
  · subst a4
    simp only [Nat.reduceEqDiff, if_true, if_false]
    omega
  by_cases a3 : j = 9
  · subst a3; simp
  by_cases a2 : j = 8
  · subst a2; simp
  by_cases a1 : j = 7
  · subst a1; simp
  by_cases a0 : j = 6
  · subst a0
    simp only [Nat.reduceEqDiff, if_true, if_false]
    omega
  · simp only [a4, a3, a2, a1, a0, if_false]

/-- The value bits a rewritten encoding shows. -/
theorem stampAt_setStamp (p : List Byte) (q : Nat) (hq : q + 4 < p.length) (t : Pt) : stampAt (setStamp p q t) q = t := by
  have hb := (stamp_bytes p q hq t).2
  have hlt := t.isLt
  have h0 := byteAt_lt p q
  have h2 := byteAt_lt p (q + 2)
  have h4 := byteAt_lt p (q + 4)
  have e1 : ¬ q + 1 = q := by omega
  have e2 : ¬ q + 2 = q := by omega
  have e3 : ¬ q + 3 = q := by omega
  have e4 : ¬ q + 4 = q := by omega
  have e5 : ¬ q + 2 = q + 1 := by omega
  have e6 : ¬ q + 3 = q + 1 := by omega
  have e7 : ¬ q + 4 = q + 1 := by omega
  have e8 : ¬ q + 3 = q + 2 := by omega
  have e9 : ¬ q + 4 = q + 2 := by omega
  have e10 : ¬ q + 4 = q + 3 := by omega
  unfold stampAt
  rw [hb, hb, hb, hb, hb]
  simp only [e1, e2, e3, e4, e5, e6, e7, e8, e9, e10, if_true, if_false]
  apply BitVec.eq_of_toNat_eq
  rw [BitVec.toNat_ofNat]
  omega

/-! ## What a rewrite leaves of an inspection -/

/-- Two packets agree on the bytes that shape an inspection: sync byte, PUSI, adaptation field, and the PES header to its flags. -/
structure SameShape (p q : List Byte) : Prop where
  sync : byteAt q 0 = byteAt p 0
  pusi : unitStart q = unitStart p
  control : fieldControl q = fieldControl p
  field : byteAt q 4 = byteAt p 4
  flags : fieldFits p = true → byteAt q 5 = byteAt p 5
  pes : ∀ j, payloadStart p ≤ j → j ≤ payloadStart p + 8 → byteAt q j = byteAt p j

namespace SameShape

variable {p q : List Byte} (h : SameShape p q)
include h

theorem hasField : Machine.hasField q = Machine.hasField p := by simp [Machine.hasField, h.control]
theorem fieldLength : Machine.fieldLength q = Machine.fieldLength p := h.field
theorem fieldFits : Machine.fieldFits q = Machine.fieldFits p := by unfold Machine.fieldFits; rw [h.hasField, h.fieldLength]
theorem payloadStart : Machine.payloadStart q = Machine.payloadStart p := by
  unfold Machine.payloadStart; rw [h.hasField, h.fieldLength]
theorem payloadPresent : Machine.payloadPresent q = Machine.payloadPresent p := by simp [Machine.payloadPresent, h.control]
theorem payloadLength : Machine.payloadLength q = Machine.payloadLength p := by
  simp [Machine.payloadLength, h.payloadPresent, h.payloadStart]
theorem rap : packetRap q = packetRap p := by
  unfold packetRap
  rw [h.fieldFits]
  cases hf : Machine.fieldFits p with
  | false => rfl
  | true => rw [h.flags hf]
theorem packetPes : Machine.packetPes q = Machine.packetPes p := by
  unfold Machine.packetPes
  rw [h.pusi, h.payloadPresent, h.payloadLength, h.payloadStart, h.pes _ (by omega) (by omega), h.pes _ (by omega) (by omega),
    h.pes _ (by omega) (by omega)]
theorem packetOptional : Machine.packetOptional q = Machine.packetOptional p := by
  unfold Machine.packetOptional
  rw [h.packetPes, h.payloadLength, h.payloadStart, h.pes _ (by omega) (by omega)]
theorem stampFlags : Machine.stampFlags q = Machine.stampFlags p := by
  unfold Machine.stampFlags
  rw [h.packetOptional, h.payloadStart, h.pes _ (by omega) (by omega)]

/-- What else an inspection shows of the two. -/
theorem inspect (hp : byteAt p 0 = 0x47) :
    Machine.inspect q =
      { Machine.inspect p with
        pid := some (packetPid q), cc := packetCc q, pcr := packetPcr q, pts := packetPts q, dts := packetDts q } := by
  have hq : byteAt q 0 = 0x47 := by rw [h.sync, hp]
  unfold Machine.inspect
  rw [if_pos hp, if_pos hq, h.pusi, h.payloadPresent, h.payloadStart, h.payloadLength, h.rap, h.packetPes]

/-- The PCR, where its bytes agree. -/
theorem packetPcr_eq (hb : Machine.fieldFits p = true → 7 ≤ Machine.fieldLength p → bigEndian q 6 6 = bigEndian p 6 6) :
    packetPcr q = packetPcr p := by
  unfold packetPcr
  rw [h.fieldFits, h.fieldLength]
  cases hf : Machine.fieldFits p with
  | false => simp only [Bool.false_and, Bool.false_eq_true, if_false]
  | true =>
    rw [h.flags hf]
    by_cases h7 : 7 ≤ Machine.fieldLength p
    · rw [hb hf h7]
    · simp [h7]

theorem packetPts_eq (hb : ∀ j, Machine.payloadStart p + 9 ≤ j → j ≤ Machine.payloadStart p + 13 → byteAt q j = byteAt p j) :
    packetPts q = packetPts p := by
  have hst : stampAt q (Machine.payloadStart p + 9) = stampAt p (Machine.payloadStart p + 9) := by
    generalize Machine.payloadStart p = n at hb
    unfold stampAt
    rw [hb (n + 9) (by omega) (by omega), hb (n + 9 + 1) (by omega) (by omega), hb (n + 9 + 2) (by omega) (by omega),
      hb (n + 9 + 3) (by omega) (by omega), hb (n + 9 + 4) (by omega) (by omega)]
  unfold packetPts
  simp only
  rw [h.stampFlags, h.payloadStart, hst]

theorem packetDts_eq (hb : ∀ j, Machine.payloadStart p + 14 ≤ j → j ≤ Machine.payloadStart p + 18 → byteAt q j = byteAt p j) :
    packetDts q = packetDts p := by
  have hst : stampAt q (Machine.payloadStart p + 14) = stampAt p (Machine.payloadStart p + 14) := by
    generalize Machine.payloadStart p = n at hb
    unfold stampAt
    rw [hb (n + 14) (by omega) (by omega), hb (n + 14 + 1) (by omega) (by omega), hb (n + 14 + 2) (by omega) (by omega),
      hb (n + 14 + 3) (by omega) (by omega), hb (n + 14 + 4) (by omega) (by omega)]
  unfold packetDts
  simp only
  rw [h.stampFlags, h.payloadStart, hst]

end SameShape

theorem payloadStart_ge (p : List Byte) : 4 ≤ payloadStart p := by
  unfold payloadStart
  split
  · split <;> omega
  · omega

/-- With a PCR's field the payload starts past byte 11. -/
theorem payloadStart_of_fits {p : List Byte} (hf : fieldFits p = true) (h7 : 7 ≤ fieldLength p) : 12 ≤ payloadStart p := by
  unfold fieldFits at hf
  simp only [Bool.and_eq_true, decide_eq_true_eq] at hf
  unfold payloadStart
  rw [if_pos hf.1, if_pos hf.2.2]
  omega

/-- A present PCR shows its field. -/
theorem packetPcr_some {p : List Byte} {v : Pt × Nat} (h : packetPcr p = some v) : fieldFits p = true ∧ 7 ≤ fieldLength p := by
  unfold packetPcr at h
  split at h
  · rename_i hc
    simp only [Bool.and_eq_true, decide_eq_true_eq] at hc
    exact ⟨hc.1.1, hc.2⟩
  · simp at h

theorem packetPts_some {p : List Byte} {v : Pt × Nat} (h : packetPts p = some v) :
    v.2 = payloadStart p + 9 ∧ payloadStart p + 14 ≤ 188 := by
  unfold packetPts at h
  simp only at h
  split at h
  · rename_i hc
    have : v = (stampAt p (payloadStart p + 9), payloadStart p + 9) := (Option.some.inj h).symm
    rw [this]
    refine ⟨rfl, ?_⟩
    rcases hc with hc | hc <;> omega
  · simp at h

theorem packetDts_some {p : List Byte} {v : Pt × Nat} (h : packetDts p = some v) :
    v.2 = payloadStart p + 14 ∧ payloadStart p + 19 ≤ 188 := by
  unfold packetDts at h
  simp only at h
  split at h
  · rename_i hc
    have : v = (stampAt p (payloadStart p + 14), payloadStart p + 14) := (Option.some.inj h).symm
    rw [this]
    exact ⟨rfl, hc.2⟩
  · simp at h

/-! ## The steps of a rewrite -/

/-- What a step of a rewrite leaves of a packet: its length, its shape, and the bits outside a mask. -/
structure Step (p q : List Byte) (keeps : Nat → Byte) : Prop where
  length : q.length = p.length
  shape : SameShape p q
  kept : ∀ j, q.getD j 0 &&& keeps j = p.getD j 0 &&& keeps j

theorem keep_of_bits {p q : List Byte} {j : Nat} {m : Byte}
    (h : ∀ i, i < 8 → m.getLsbD i = true → byteAt q j / 2 ^ i % 2 = byteAt p j / 2 ^ i % 2) :
    q.getD j 0 &&& m = p.getD j 0 &&& m := and_eq_of_bits _ _ _ h

theorem keep_of_eq {p q : List Byte} {j : Nat} {m : Byte} (h : byteAt q j = byteAt p j) :
    q.getD j 0 &&& m = p.getD j 0 &&& m := by
  have : q.getD j 0 = p.getD j 0 := BitVec.eq_of_toNat_eq h
  rw [this]

theorem header_step (p : List Byte) (hp : p.length = 188) (pid : Pid) (cc : Cc) :
    let q := setCc (setPid p pid) cc
    Step p q headerKeeps ∧ packetPid q = pid ∧ packetCc q = cc ∧ packetPcr q = packetPcr p ∧ packetPts q = packetPts p ∧
      packetDts q = packetDts p := by
  intro q
  obtain ⟨hlen, hb⟩ := header_bytes p hp pid cc
  change q.length = p.length at hlen
  change ∀ j, byteAt q j = _ at hb
  have hpid := pid.isLt
  have hcc := cc.isLt
  have b1 := byteAt_lt p 1
  have b3 := byteAt_lt p 3
  have hge : ∀ j, 4 ≤ j → byteAt q j = byteAt p j := by
    intro j hj
    have e1 : ¬ j = 1 := by omega
    have e2 : ¬ j = 2 := by omega
    have e3 : ¬ j = 3 := by omega
    rw [hb]
    simp only [e1, e2, e3, if_false]
  have q1 : byteAt q 1 = byteAt p 1 / 32 * 32 + pid.toNat / 2 ^ 8 := by rw [hb]; simp
  have q2 : byteAt q 2 = pid.toNat % 2 ^ 8 := by rw [hb]; simp
  have q3 : byteAt q 3 = byteAt p 3 / 16 * 16 + cc.toNat := by rw [hb]; simp
  have q0 : byteAt q 0 = byteAt p 0 := by rw [hb]; simp
  have hps := payloadStart_ge p
  have hs : SameShape p q := by
    refine ⟨q0, ?_, ?_, hge 4 (by omega), fun _ => hge 5 (by omega), fun j h1 _ => hge j (by omega)⟩
    · unfold unitStart
      rw [q1]
      have : (byteAt p 1 / 32 * 32 + pid.toNat / 2 ^ 8) / 64 % 2 = byteAt p 1 / 64 % 2 := by omega
      rw [this]
    · unfold fieldControl
      rw [q3]
      omega
  refine ⟨⟨hlen, hs, ?_⟩, ?_, ?_, hs.packetPcr_eq ?_, hs.packetPts_eq fun j h1 _ => hge j (by omega),
    hs.packetDts_eq fun j h1 _ => hge j (by omega)⟩
  · intro j
    unfold headerKeeps
    by_cases e1 : j = 1
    · subst e1
      refine keep_of_bits fun i hi hm => ?_
      rw [q1]
      interval_cases i <;> simp at hm <;> omega
    by_cases e2 : j = 2
    · subst e2
      refine keep_of_bits fun i hi hm => ?_
      simp at hm
    by_cases e3 : j = 3
    · subst e3
      refine keep_of_bits fun i hi hm => ?_
      rw [q3]
      interval_cases i <;> simp at hm <;> omega
    · apply keep_of_eq
      rw [hb]
      simp only [e1, e2, e3, if_false]
  · unfold packetPid
    rw [q1, q2]
    apply BitVec.eq_of_toNat_eq
    rw [BitVec.toNat_ofNat]
    omega
  · unfold packetCc
    rw [q3]
    apply BitVec.eq_of_toNat_eq
    rw [BitVec.toNat_ofNat]
    omega
  · intro _ _
    simp only [bigEndian]
    rw [hge _ (by omega), hge _ (by omega), hge _ (by omega), hge _ (by omega), hge _ (by omega), hge _ (by omega)]

theorem pcr_step (p : List Byte) (hp : p.length = 188) (v : Pt × Nat) (hv : packetPcr p = some v) (t : Pt) :
    let q := setPcrBase p t
    Step p q (pcrKeeps (some v)) ∧ packetPid q = packetPid p ∧ packetCc q = packetCc p ∧ packetPcr q = some (t, v.2) ∧
      packetPts q = packetPts p ∧ packetDts q = packetDts p := by
  intro q
  obtain ⟨hlen, hb⟩ := pcr_bytes p hp t
  change q.length = p.length at hlen
  change ∀ j, byteAt q j = _ at hb
  obtain ⟨hf, h7⟩ := packetPcr_some hv
  have hps := payloadStart_of_fits hf h7
  have hlt := t.isLt
  have b10 := byteAt_lt p 10
  have b11 := byteAt_lt p 11
  have hlo : ∀ j, j ≤ 5 → byteAt q j = byteAt p j := by
    intro j hj
    rw [hb]
    have e6 : ¬ j = 6 := by omega
    have e7 : ¬ j = 7 := by omega
    have e8 : ¬ j = 8 := by omega
    have e9 : ¬ j = 9 := by omega
    have e10 : ¬ j = 10 := by omega
    simp only [e6, e7, e8, e9, e10, if_false]
  have hhi : ∀ j, 11 ≤ j → byteAt q j = byteAt p j := by
    intro j hj
    rw [hb]
    have e6 : ¬ j = 6 := by omega
    have e7 : ¬ j = 7 := by omega
    have e8 : ¬ j = 8 := by omega
    have e9 : ¬ j = 9 := by omega
    have e10 : ¬ j = 10 := by omega
    simp only [e6, e7, e8, e9, e10, if_false]
  have q6 : byteAt q 6 = t.toNat / 2 ^ 25 := by rw [hb]; simp
  have q7 : byteAt q 7 = t.toNat / 2 ^ 17 % 256 := by rw [hb]; simp
  have q8 : byteAt q 8 = t.toNat / 2 ^ 9 % 256 := by rw [hb]; simp
  have q9 : byteAt q 9 = t.toNat / 2 % 256 := by rw [hb]; simp
  have q10 : byteAt q 10 = t.toNat % 2 * 2 ^ 7 + byteAt p 10 % 2 ^ 7 := by rw [hb]; simp
  have q11 : byteAt q 11 = byteAt p 11 := hhi 11 (by omega)
  have hs : SameShape p q := by
    refine ⟨hlo 0 (by omega), ?_, ?_, hlo 4 (by omega), fun _ => hlo 5 (by omega), fun j h1 _ => hhi j (by omega)⟩
    · unfold unitStart; rw [hlo 1 (by omega)]
    · unfold fieldControl; rw [hlo 3 (by omega)]
  refine ⟨⟨hlen, hs, ?_⟩, ?_, ?_, ?_, hs.packetPts_eq fun j h1 _ => hhi j (by omega),
    hs.packetDts_eq fun j h1 _ => hhi j (by omega)⟩
  · intro j
    unfold pcrKeeps
    simp only [reduceCtorEq, if_false]
    by_cases e : 6 ≤ j ∧ j ≤ 9
    · rw [if_pos e]; simp
    · rw [if_neg e]
      by_cases e10 : j = 10
      · subst e10
        rw [if_pos rfl]
        refine keep_of_bits fun i hi hm => ?_
        rw [q10]
        interval_cases i <;> simp at hm <;> omega
      · rw [if_neg e10]
        apply keep_of_eq
        by_cases h : j ≤ 5
        · exact hlo j h
        · exact hhi j (by omega)
  · unfold packetPid; rw [hlo 1 (by omega), hlo 2 (by omega)]
  · unfold packetCc; rw [hlo 3 (by omega)]
  · have hv2 : v.2 = bigEndian p 6 6 % 2 ^ 9 ∧ byteAt p 5 / 16 % 2 = 1 := by
      unfold packetPcr at hv
      split at hv
      · rename_i hc
        simp only [Bool.and_eq_true, decide_eq_true_eq] at hc
        rw [← Option.some.inj hv]
        exact ⟨rfl, hc.1.2⟩
      · simp at hv
    unfold packetPcr
    rw [hs.fieldFits, hs.fieldLength, hf, hlo 5 (by omega), hv2.1]
    simp only [hv2.2, h7, decide_true, Bool.and_self, if_true, Option.some.injEq, Prod.mk.injEq]
    simp only [bigEndian, Nat.reduceAdd]
    rw [q6, q7, q8, q9, q10, q11]
    constructor
    · apply BitVec.eq_of_toNat_eq
      rw [BitVec.toNat_ofNat]
      omega
    · omega

theorem stamp_step (p : List Byte) (q : Nat) (hq : q + 4 < p.length) (hps : payloadStart p + 9 ≤ q) (v : Pt) (t : Pt) :
    let r := setStamp p q t
    Step p r (stampKeeps (some (v, q))) ∧ packetPid r = packetPid p ∧ packetCc r = packetCc p ∧ packetPcr r = packetPcr p ∧
      (∀ j, j < q ∨ q + 4 < j → byteAt r j = byteAt p j) ∧ stampAt r q = t := by
  intro r
  obtain ⟨hlen, hb⟩ := stamp_bytes p q hq t
  change r.length = p.length at hlen
  change ∀ j, byteAt r j = _ at hb
  have hge := payloadStart_ge p
  have hlt := t.isLt
  have b0 := byteAt_lt p q
  have b2 := byteAt_lt p (q + 2)
  have b4 := byteAt_lt p (q + 4)
  have hout : ∀ j, j < q ∨ q + 4 < j → byteAt r j = byteAt p j := by
    intro j hj
    rw [hb]
    have e0 : ¬ j = q := by omega
    have e1 : ¬ j = q + 1 := by omega
    have e2 : ¬ j = q + 2 := by omega
    have e3 : ¬ j = q + 3 := by omega
    have e4 : ¬ j = q + 4 := by omega
    simp only [e0, e1, e2, e3, e4, if_false]
  have hs : SameShape p r := by
    refine ⟨hout 0 (by omega), ?_, ?_, hout 4 (by omega), fun _ => hout 5 (by omega), fun j _ h2 => hout j (by omega)⟩
    · unfold unitStart; rw [hout 1 (by omega)]
    · unfold fieldControl; rw [hout 3 (by omega)]
  refine ⟨⟨hlen, hs, ?_⟩, ?_, ?_, ?_, hout, stampAt_setStamp p q hq t⟩
  · intro j
    unfold stampKeeps
    simp only
    by_cases e0 : j = q
    · subst e0
      rw [if_pos rfl]
      refine keep_of_bits fun i hi hm => ?_
      rw [hb]
      simp only [if_true]
      interval_cases i <;> simp at hm <;> omega
    rw [if_neg e0]
    by_cases e1 : j = q + 1 ∨ j = q + 3
    · rw [if_pos e1]; simp
    rw [if_neg e1]
    by_cases e2 : j = q + 2
    · subst e2
      rw [if_pos (Or.inl rfl)]
      refine keep_of_bits fun i hi hm => ?_
      rw [hb]
      have f0 : ¬ q + 2 = q := by omega
      have f1 : ¬ q + 2 = q + 1 := by omega
      simp only [f0, f1, if_true, if_false]
      interval_cases i <;> simp at hm <;> omega
    by_cases e4 : j = q + 4
    · subst e4
      rw [if_pos (Or.inr rfl)]
      refine keep_of_bits fun i hi hm => ?_
      rw [hb]
      have f0 : ¬ q + 4 = q := by omega
      have f1 : ¬ q + 4 = q + 1 := by omega
      have f2 : ¬ q + 4 = q + 2 := by omega
      have f3 : ¬ q + 4 = q + 3 := by omega
      simp only [f0, f1, f2, f3, if_true, if_false]
      interval_cases i <;> simp at hm <;> omega
    · rw [if_neg (by tauto)]
      apply keep_of_eq
      apply hout
      have : ¬ j = q + 1 := fun h => e1 (Or.inl h)
      have : ¬ j = q + 3 := fun h => e1 (Or.inr h)
      omega
  · unfold packetPid; rw [hout 1 (by omega), hout 2 (by omega)]
  · unfold packetCc; rw [hout 3 (by omega)]
  · refine hs.packetPcr_eq fun hf h7 => ?_
    have := payloadStart_of_fits hf h7
    simp only [bigEndian]
    rw [hout _ (by omega), hout _ (by omega), hout _ (by omega), hout _ (by omega), hout _ (by omega), hout _ (by omega)]

/-! ## The whole rewrite (R118, R123) -/

/-- Two steps after each other. -/
theorem Step.trans {p q r : List Byte} {k m : Nat → Byte} (h : Step p q k) (g : Step q r m) :
    r.length = p.length ∧ (∀ j, r.getD j 0 &&& (k j &&& m j) = p.getD j 0 &&& (k j &&& m j)) ∧ SameShape p r := by
  refine ⟨g.length.trans h.length, fun j => ?_, ?_⟩
  · rw [and_narrow (g.kept j) (k j), BitVec.and_comm (k j) (m j), and_narrow (h.kept j) (m j)]
  · have hs := h.shape
    have gs := g.shape
    refine ⟨gs.sync.trans hs.sync, gs.pusi.trans hs.pusi, gs.control.trans hs.control, gs.field.trans hs.field,
      fun hf => (gs.flags (by rw [hs.fieldFits]; exact hf)).trans (hs.flags hf), fun j h1 h2 => ?_⟩
    rw [gs.pes j (by rw [hs.payloadStart]; exact h1) (by rw [hs.payloadStart]; exact h2), hs.pes j h1 h2]

theorem Step.comp {p q r : List Byte} {k m : Nat → Byte} (h : Step p q k) (g : Step q r m) : Step p r fun j => k j &&& m j := by
  obtain ⟨h1, h2, h3⟩ := h.trans g
  exact ⟨h1, h3, h2⟩

theorem Step.refl (p : List Byte) : Step p p fun _ => 0xFF :=
  ⟨rfl, ⟨rfl, rfl, rfl, rfl, fun _ => rfl, fun _ _ _ => rfl⟩, fun _ => rfl⟩

theorem rebasePcr_step (p : List Byte) (hp : p.length = 188) (off : Pt) :
    let q := rebasePcr off (packetPcr p) p
    Step p q (pcrKeeps (packetPcr p)) ∧ packetPid q = packetPid p ∧ packetCc q = packetCc p ∧
      packetPcr q = movedBy off (packetPcr p) ∧ packetPts q = packetPts p ∧ packetDts q = packetDts p := by
  cases hv : packetPcr p with
  | none => exact ⟨Step.refl p, rfl, rfl, hv, rfl, rfl⟩
  | some v => exact pcr_step p hp v hv (v.1 + off)

theorem rebasePts_step (p : List Byte) (hp : p.length = 188) (off : Pt) :
    let q := rebaseStamp off (packetPts p) p
    Step p q (stampKeeps (packetPts p)) ∧ packetPid q = packetPid p ∧ packetCc q = packetCc p ∧ packetPcr q = packetPcr p ∧
      packetPts q = movedBy off (packetPts p) ∧ packetDts q = packetDts p := by
  cases hv : packetPts p with
  | none => exact ⟨Step.refl p, rfl, rfl, rfl, hv, rfl⟩
  | some v =>
    obtain ⟨hq, hfit⟩ := packetPts_some hv
    obtain ⟨v1, v2⟩ := v
    simp only at hq
    subst hq
    obtain ⟨h1, h2, h3, h4, h5, h6⟩ := stamp_step p (payloadStart p + 9) (by omega) (by omega) v1 (v1 + off)
    refine ⟨h1, h2, h3, h4, ?_, h1.shape.packetDts_eq fun j hj _ => h5 j (Or.inr (by omega))⟩
    have hs := h1.shape
    change packetPts (setStamp p (payloadStart p + 9) (v1 + off)) = some (v1 + off, payloadStart p + 9)
    unfold packetPts at hv ⊢
    simp only at hv ⊢
    rw [hs.stampFlags, hs.payloadStart, h6]
    split at hv
    · rename_i hc; rw [if_pos hc]
    · simp at hv

theorem rebaseDts_step (p : List Byte) (hp : p.length = 188) (off : Pt) :
    let q := rebaseStamp off (packetDts p) p
    Step p q (stampKeeps (packetDts p)) ∧ packetPid q = packetPid p ∧ packetCc q = packetCc p ∧ packetPcr q = packetPcr p ∧
      packetPts q = packetPts p ∧ packetDts q = movedBy off (packetDts p) := by
  cases hv : packetDts p with
  | none => exact ⟨Step.refl p, rfl, rfl, rfl, rfl, hv⟩
  | some v =>
    obtain ⟨hq, hfit⟩ := packetDts_some hv
    obtain ⟨v1, v2⟩ := v
    simp only at hq
    subst hq
    obtain ⟨h1, h2, h3, h4, h5, h6⟩ := stamp_step p (payloadStart p + 14) (by omega) (by omega) v1 (v1 + off)
    refine ⟨h1, h2, h3, h4, h1.shape.packetPts_eq fun j _ hj => h5 j (Or.inl (by omega)), ?_⟩
    have hs := h1.shape
    change packetDts (setStamp p (payloadStart p + 14) (v1 + off)) = some (v1 + off, payloadStart p + 14)
    unfold packetDts at hv ⊢
    simp only at hv ⊢
    rw [hs.stampFlags, hs.payloadStart, h6]
    split at hv
    · rename_i hc; rw [if_pos hc]
    · simp at hv

theorem setStamp_length (p : List Byte) (q : Nat) (t : Pt) : (setStamp p q t).length = p.length := by simp [setStamp]

/-- A rewrite keeps a packet's length. -/
theorem rewritePacket_length (p : List Byte) (i : Insp) (pid : Pid) (cc : Cc) (off : Pt) :
    (rewritePacket p i pid cc off).length = p.length := by
  have h1 : ∀ (st : Option (Pt × Nat)) (q : List Byte), (rebaseStamp off st q).length = q.length := by
    intro st q
    cases st with
    | none => rfl
    | some v => exact setStamp_length q v.2 _
  have h2 : ∀ (st : Option (Pt × Nat)) (q : List Byte), (rebasePcr off st q).length = q.length := by
    intro st q
    cases st with
    | none => rfl
    | some v => simp [rebasePcr, setPcrBase]
  unfold rewritePacket
  rw [h1, h1, h2]
  simp [setCc, setPid]

/-- The packet a rewrite makes of a packet with a PID is that packet rewritten (R118, R123 to R126). -/
theorem rewritePacket_rewritten (p : List Byte) (i : Insp) (pid : Pid) (cc : Cc) (off : Pt) (hi : i.pid ≠ none) :
    Rewritten p i pid cc off (rewritePacket p i pid cc off) := by
  refine ⟨rewritePacket_length p i pid cc off, fun hp he => ?_⟩
  subst he
  have h0 : byteAt p 0 = 0x47 := by
    by_contra h
    apply hi
    unfold inspect
    rw [if_neg h]
    rfl
  have hpcr : (inspect p).pcr = packetPcr p := by unfold inspect; rw [if_pos h0]
  have hpts : (inspect p).pts = packetPts p := by unfold inspect; rw [if_pos h0]
  have hdts : (inspect p).dts = packetDts p := by unfold inspect; rw [if_pos h0]
  obtain ⟨a1, a2, a3, a4, a5, a6⟩ := header_step p hp pid cc
  revert a1 a2 a3 a4 a5 a6
  unfold rewritePacket Insp.keeps
  rw [hpcr, hpts, hdts]
  generalize setCc (setPid p pid) cc = a
  intro a1 a2 a3 a4 a5 a6
  have hal : a.length = 188 := a1.length.trans hp
  obtain ⟨b1, b2, b3, b4, b5, b6⟩ := rebasePcr_step a hal off
  revert b1 b2 b3 b4 b5 b6
  rw [a4]
  generalize rebasePcr off (packetPcr p) a = b
  intro b1 b2 b3 b4 b5 b6
  have hbl : b.length = 188 := b1.length.trans hal
  obtain ⟨c1, c2, c3, c4, c5, c6⟩ := rebasePts_step b hbl off
  revert c1 c2 c3 c4 c5 c6
  rw [b5, a5]
  generalize rebaseStamp off (packetPts p) b = c
  intro c1 c2 c3 c4 c5 c6
  have hcl : c.length = 188 := c1.length.trans hbl
  obtain ⟨d1, d2, d3, d4, d5, d6⟩ := rebaseDts_step c hcl off
  revert d1 d2 d3 d4 d5 d6
  rw [c6, b6, a6]
  generalize rebaseStamp off (packetDts p) c = d
  intro d1 d2 d3 d4 d5 d6
  have hall := ((a1.comp b1).comp c1).comp d1
  refine ⟨?_, hall.kept⟩
  rw [hall.shape.inspect h0, d2, c2, b2, a2, d3, c3, b3, a3, d4, c4, b4, d5, c5, d6]

/-- The lane role of a library packet (R57). -/
theorem mappedRole_eq (r : LaneRecord) (c : Clip) (i : Insp) : mappedRole r c i = r.libraryRole c i := by
  unfold mappedRole LaneRecord.libraryRole
  cases i.pid with
  | none => rfl
  | some pid =>
    simp only [Option.bind_some]
    cases c.pidMap.find? fun m => decide (m.1 = pid) with
    | none => rfl
    | some m =>
      have hn : Config.nullPid = 0x1FFF := rfl
      by_cases h : r.roles[m.2] = 0x1FFF <;> simp [h, hn, Option.filter]

theorem libraryRole_pid {r : LaneRecord} {c : Clip} {i : Insp} {k : Fin 4} (h : r.libraryRole c i = some k) : i.pid ≠ none := by
  intro hp
  simp [LaneRecord.libraryRole, hp] at h

end Sys2Proof.Machine
end

