-- ==== Sys2Proof/Laws/StageTwo.lean ====
section
/-! SUPPORT. What the stages of requests, ends and entries do to a lane (R86, R87, R93 to R95, R98 to R104). -/

namespace Sys2Proof.Machine

open Sys2Proof

/-! ## Entries and stacks (R93 to R95) -/

theorem made_eq_new (k : Kind) (src : Source) (clips : List Nat) (e : Option Pt) (r : ReturnRule) :
    Entry.made k src clips e r = Entry.new k src clips e r := by
  cases k <;> simp [Entry.made, Entry.new, Kind.looped, List.map_const']

theorem insertEntry_eq (e : Entry) (st : List Entry) : insertEntry e st = placed e st := by
  induction st with
  | nil => rfl
  | cons x rest ih =>
    unfold insertEntry
    split
    · rename_i h
      have : ¬ e.kind.rank ≤ x.kind.rank := by omega
      simp [placed, this]
    · rename_i h
      have : e.kind.rank ≤ x.kind.rank := by omega
      rw [ih]
      simp [placed, this]

theorem rank_pos (k : Kind) : 1 ≤ k.rank := by cases k <;> decide

theorem insertEntry_slate (e : Entry) (he : e.kind = .slate) (st : List Entry) : insertEntry e st = st ++ [e] := by
  induction st with
  | nil => rfl
  | cons x rest ih =>
    have : ¬ x.kind.rank < e.kind.rank := by
      have h1 := rank_pos x.kind
      have h2 : e.kind.rank = 1 := by rw [he]; rfl
      omega
    simp [insertEntry, this, ih]

theorem insertEntry_alert (e : Entry) (he : e.kind = .alert) (st : List Entry) (hn : ¬ ∃ n ∈ st, n.kind = .alert) :
    insertEntry e st = e :: st := by
  cases st with
  | nil => rfl
  | cons x rest =>
    have hx : x.kind ≠ .alert := fun h => hn ⟨x, List.mem_cons_self .., h⟩
    have : x.kind.rank < e.kind.rank := by
      rw [he]
      cases hk : x.kind <;> simp_all [Kind.rank]
    simp [insertEntry, this]

theorem entryOf_isSome (x : Lane) (k : Kind) : (x.entryOf k).isSome = true ↔ ∃ e ∈ x.stack, e.kind = k := by
  simp [Lane.entryOf]

theorem slateDue_iff (q : Option SlateReq) : slateDue q = true ↔ ∃ r ∈ q, r.due = true := by
  cases q <;> simp [slateDue]

/-! ## Stage 2 (R98, R99) -/

theorem applyAlert_eq (l : Nat) (s : State) :
    (applyAlert l s).1 = s.setLane l { s.lane l with alertReq := none, stack := s.afterAlert l } ∧
      ((applyAlert l s).2 = true ↔ s.Restarts l) := by
  have key : ∀ (p : Nat) (q : AlertReq), (s.lane l).alertReq = some q → q = .insert p ∨ q = .replace p →
      applyAlert l s =
        (if ((s.lane l).entryOf .alert).isSome = true then
          (s.setLane l (({ s.lane l with alertReq := none } : Lane).retargetAlert p (s.alert.profileAt p).clips), true)
        else (s.setLane l { s.lane l with alertReq := none, stack := insertEntry (alertEntry s p) (s.lane l).stack }, false)) →
      s.afterAlert l =
        (if ∃ e ∈ (s.lane l).stack, e.kind = .alert then
          (s.lane l).stack.map fun e =>
            if e.kind = .alert then { e with source := .profile p, clips := (s.alert.profileAt p).clips, endRequested := false }
            else e
        else Entry.new .alert (.profile p) (s.alert.profileAt p).clips none .atEnd :: (s.lane l).stack) →
      (applyAlert l s).1 = s.setLane l { s.lane l with alertReq := none, stack := s.afterAlert l } ∧
        ((applyAlert l s).2 = true ↔ s.Restarts l) := by
    intro p q hq hp h1 h2
    rw [h1, h2]
    by_cases ha : ∃ e ∈ (s.lane l).stack, e.kind = .alert
    · have hr : s.Restarts l := ⟨⟨q, hq, by rcases hp with h | h <;> simp [h]⟩, ha⟩
      rw [if_pos ((entryOf_isSome _ _).2 ha), if_pos ha]
      exact ⟨rfl, iff_of_true rfl hr⟩
    · have hr : ¬ s.Restarts l := fun h => ha h.2
      rw [if_neg (fun h => ha ((entryOf_isSome _ _).1 h)), if_neg ha, insertEntry_alert _ rfl _ ha, alertEntry, made_eq_new]
      exact ⟨rfl, iff_of_false Bool.false_ne_true hr⟩
  rcases hq : (s.lane l).alertReq with _ | (p | p | _)
  · have h1 : applyAlert l s = (s, false) := by simp [applyAlert, hq]
    have h2 : s.afterAlert l = (s.lane l).stack := by simp [State.afterAlert, hq]
    have h3 : ({ s.lane l with alertReq := none, stack := (s.lane l).stack } : Lane) = s.lane l := by rw [← hq]
    rw [h1, h2, h3, setLane_eq_self s l _ rfl]
    exact ⟨rfl, by simp [State.Restarts, hq]⟩
  · exact key p _ hq (Or.inl rfl) (by simp [applyAlert, hq]) (by simp [State.afterAlert, hq])
  · exact key p _ hq (Or.inr rfl) (by simp [applyAlert, hq]) (by simp [State.afterAlert, hq])
  · have h1 : applyAlert l s = (s.setLane l (({ s.lane l with alertReq := none } : Lane).requestEnd .alert true), false) := by
      simp [applyAlert, hq]
    have h2 : s.afterAlert l =
        (s.lane l).stack.map fun e => if e.kind = .alert then { e with endRequested := true } else e := by
      simp [State.afterAlert, hq]
    rw [h1, h2]
    exact ⟨rfl, by simp [State.Restarts, hq]⟩

theorem applyInsert_eq (x : Lane) :
    x.applyInsert =
      { x with
        slateInsert := if ∃ q ∈ x.slateInsert, q.due = true then none else x.slateInsert
        stack := if ∃ q ∈ x.slateInsert, q.due = true then x.afterInsert x.stack else x.stack } := by
  unfold Lane.applyInsert
  by_cases hd : ∃ q ∈ x.slateInsert, q.due = true
  · rw [if_pos ((slateDue_iff _).2 hd), if_pos hd, if_pos hd]
    simp only
    unfold Lane.afterInsert
    have he : ∀ y : Lane, y.stack = x.stack → ((y.entryOf .slate).isSome = true ↔ ∃ e ∈ x.stack, e.kind = .slate) := by
      intro y hy
      rw [entryOf_isSome, hy]
    by_cases hs : ∃ e ∈ x.stack, e.kind = .slate
    · rw [if_pos hs]
      refine (if_pos ((he _ ?_).2 hs)).trans ?_ <;> rfl
    · rw [if_neg hs]
      refine (if_neg (fun h => hs ((he _ ?_).1 h))).trans ?_
      · rfl
      cases x.record.slateClip with
      | none => rfl
      | some c =>
        simp only [made_eq_new]
        rw [insertEntry_slate (Entry.new .slate .laneSlate [c] none .atEnd) rfl x.stack]
  · rw [if_neg (fun h => hd ((slateDue_iff _).1 h)), if_neg hd, if_neg hd]

theorem applyRemove_eq (x : Lane) :
    x.applyRemove =
      { x with
        slateRemove := if ∃ q ∈ x.slateRemove, q.due = true then none else x.slateRemove
        stack :=
          if ∃ q ∈ x.slateRemove, q.due = true then
            x.stack.map fun e => if e.kind = .slate then { e with endRequested := true } else e
          else x.stack } := by
  unfold Lane.applyRemove
  by_cases hd : ∃ q ∈ x.slateRemove, q.due = true
  · rw [if_pos ((slateDue_iff _).2 hd), if_pos hd, if_pos hd]
    rfl
  · rw [if_neg (fun h => hd ((slateDue_iff _).1 h)), if_neg hd, if_neg hd]

/-- Stage 2, as the rules give it, and whether it restarts the alert entry (R98, R99). -/
theorem stageTwo_requests (l : Nat) (hl : l < 16) (s : State) :
    s.Requests l (stageTwo l s).1 ∧ ((stageTwo l s).2 = true ↔ s.Restarts l) := by
  unfold stageTwo State.Requests
  refine ⟨?_, (applyAlert_eq l s).2⟩
  simp only [State.onLane, (applyAlert_eq l s).1, State.lane_setLane_self _ _ hl, setLane_twice, applyInsert_eq, applyRemove_eq]
  rfl

/-! ## Stage 3 (R89, R100 to R103, R191) -/

theorem exhausted_eq (e : Entry) : e.exhausted = e.listDone := by
  unfold Entry.exhausted Entry.listDone
  cases e.kind <;> cases e.current <;> simp [Kind.looped]

theorem reachedEnd_eq (e : Entry) (anchored : Bool) (clock : Pt) : e.reachedEnd anchored clock = e.ended anchored clock := by
  unfold Entry.reachedEnd Entry.ended
  cases e.kind <;> simp only [reduceCtorEq, or_false, false_or, or_self, if_true, if_false] <;>
    (rw [exhausted_eq, Bool.eq_iff_iff]; cases e.endTime <;> simp)

theorem leaveOutcome_eq (p : Placement) (e : Entry) (c : Bool) : leaveOutcome p e c = outcomeOf c p e := by
  unfold leaveOutcome outcomeOf
  simp only [exhausted_eq]

theorem auditError_eq (a r : Pt) : auditError a r = spliceError a (some r) := by
  simp only [auditError, spliceError]
  split
  · omega
  · split <;> omega

theorem auditError_map (a : Pt) (r : Option Pt) : (r.map (auditError a)).getD auditSentinel = spliceError a r := by
  cases r with
  | none => rfl
  | some r => exact auditError_eq a r

/-- Entries leave a stack in the order of a list, each with an outcome by its placement and itself. -/
def leaveEach (o : Placement → Entry → Outcome) (t : Pt) : List Entry → State → State
  | [], s => s
  | e :: rest, s => leaveEach o t rest (leaveStack e (fun p => o p e) t s)

theorem leaveEnds_eq (covered : Bool) (clock : Pt) (st : List Entry) (s : State) :
    leaveEnds covered clock st s = leaveEach (outcomeOf covered) clock st s := by
  induction st generalizing s with
  | nil => rfl
  | cons e rest ih =>
    rw [leaveEnds, ih, leaveEach]
    simp only [leaveOutcome_eq]

/-- Entries leave: the log takes their reports, their placements are EMPTY, and nothing else changes. -/
theorem leaveEach_after (o : Placement → Entry → Outcome) (t : Pt) (st : List Entry) (s : State) (hn : noTwice st) :
    leaveEach o t st s =
        { s with placements := (leaveEach o t st s).placements, log := s.logAfter (s.reports o t st) } ∧
      ∀ id, (leaveEach o t st s).placement id = if onStackOf st id then Placement.vacant else s.placement id :=
  leave_list o t (leaveEach o t) (fun _ => rfl) (fun _ _ _ => rfl) st s hn

theorem reports_append (s : State) (o : Placement → Entry → Outcome) (t : Pt) (a b : List Entry) :
    s.reports o t (a ++ b) = s.reports o t a ++ s.reports o t b := by
  simp [State.reports]

/-- The reports of entries do not depend on placements that other entries play for. -/
theorem reports_congr {s t : State} (o : Placement → Entry → Outcome) (c : Pt) (st : List Entry)
    (h : ∀ e ∈ st, ∀ id, e.placementId = some id → t.placement id = s.placement id) : t.reports o c st = s.reports o c st := by
  unfold State.reports
  apply List.filterMap_congr
  intro e he
  cases hp : e.placementId with
  | none => rfl
  | some id => simp only [Option.map_some, h e he id hp]

/-- Two lists of entries leave one after the other: their reports follow each other, and all their placements are EMPTY. -/
theorem leave_two (oa ob : Placement → Entry → Outcome) (t : Pt) (a b : List Entry) (s : State) (hn : noTwice (a ++ b)) :
    ∃ ps,
      leaveEach ob t b (leaveEach oa t a s) =
          { s with placements := ps, log := s.logAfter (s.reports oa t a ++ s.reports ob t b) } ∧
        ∀ g id, ({ s with placements := ps, log := g } : State).placement id =
          if onStackOf (a ++ b) id then Placement.vacant else s.placement id := by
  obtain ⟨hna, hnb, hab⟩ := List.pairwise_append.1 hn
  obtain ⟨ha, hpa⟩ := leaveEach_after oa t a s hna
  generalize hu : leaveEach oa t a s = u at ha hpa ⊢
  obtain ⟨hb, hpb⟩ := leaveEach_after ob t b u hnb
  have hrep : u.reports ob t b = s.reports ob t b := by
    apply reports_congr
    intro n hn' id hid
    rw [hpa, if_neg]
    rw [onStackOf_iff]
    rintro ⟨m, hm, hid'⟩
    rcases hab m hm n hn' with h | h
    · simp [hid'] at h
    · exact h (by rw [hid', hid])
  have hh : Handed s u (s.reports oa t a) := by rw [ha]; exact ⟨rfl, rfl, rfl⟩
  rw [hrep, hh.logAfter_eq] at hb
  refine ⟨(leaveEach ob t b u).placements, ?_, ?_⟩
  · generalize (leaveEach ob t b u).placements = ps at hb ⊢
    rw [hb, ha]
  · intro g id
    have h1 : ({ s with placements := (leaveEach ob t b u).placements, log := g } : State).placement id =
        (leaveEach ob t b u).placement id := rfl
    have h2 : onStackOf (a ++ b) id ↔ onStackOf a id ∨ onStackOf b id := by
      simp only [onStackOf, List.mem_append, or_and_right, exists_or]
    rw [h1, hpb, hpa]
    by_cases h3 : onStackOf b id
    · simp only [h2, h3, or_true, if_true]
    · simp only [h2, h3, or_false, if_false]

/-- The top is reported first exactly where its placement id is below those of the covered entries that go (R91). -/
theorem reportsFirst_iff (e : Entry) (gone : List Entry) :
    e.reportsFirst gone = true ↔ ∃ id ∈ e.placementId, ∀ n ∈ gone, ∀ m ∈ n.placementId, id < m := by
  unfold Entry.reportsFirst Entry.placementId
  cases e.source with
  | placement id =>
    simp only [List.all_eq_true, Option.mem_def, Option.some.injEq, exists_eq_left']
    refine forall_congr' fun n => forall_congr' fun _ => ?_
    cases n.source <;> simp
  | laneSlate => simp
  | profile p => simp

/-- The placements that end at a stage 3 are EMPTY, and their reports go in the order the rules give (R91, R101, R102). -/
theorem reportEnds_after (clock : Pt) (e : Entry) (k : EndsPlan) (s : State) (hn : noTwice (e :: k.gone)) :
    ∃ ps,
      reportEnds clock e k s =
          { s with
            placements := ps
            log := s.logAfter
              (if ∃ id ∈ e.placementId, ∀ n ∈ k.gone, ∀ m ∈ n.placementId, id < m then
                s.reports (outcomeOf false) clock (if k.leaves = true then [e] else []) ++ s.reports (outcomeOf true) clock k.gone
              else
                s.reports (outcomeOf true) clock k.gone ++ s.reports (outcomeOf false) clock (if k.leaves = true then [e] else [])) } ∧
        ∀ g id, ({ s with placements := ps, log := g } : State).placement id =
          if onStackOf (k.gone ++ if k.leaves = true then [e] else []) id then Placement.vacant else s.placement id := by
  obtain ⟨he, hg⟩ := List.pairwise_cons.1 hn
  have htop : noTwice ((if k.leaves = true then [e] else []) ++ k.gone) := by
    cases k.leaves
    · exact hg
    · exact hn
  have hbelow : noTwice (k.gone ++ if k.leaves = true then [e] else []) := by
    refine List.pairwise_append.2 ⟨hg, by cases k.leaves <;> simp, ?_⟩
    intro n hn' m hm
    cases hk : k.leaves
    · simp [hk] at hm
    · simp only [hk, if_true, List.mem_singleton] at hm
      subst hm
      rcases he n hn' with h | h
      · cases hp : n.placementId with
        | none => exact Or.inl rfl
        | some _ => exact Or.inr (by rw [h]; simp)
      · exact Or.inr (Ne.symm h)
  unfold reportEnds
  simp only [leaveEnds_eq]
  by_cases hf : ∃ id ∈ e.placementId, ∀ n ∈ k.gone, ∀ m ∈ n.placementId, id < m
  · rw [if_pos ((reportsFirst_iff e k.gone).2 hf), if_pos hf]
    obtain ⟨ps, h1, h2⟩ := leave_two (outcomeOf false) (outcomeOf true) clock (if k.leaves = true then [e] else []) k.gone s htop
    refine ⟨ps, h1, fun g id => ?_⟩
    rw [h2]
    have : onStackOf ((if k.leaves = true then [e] else []) ++ k.gone) id ↔
        onStackOf (k.gone ++ if k.leaves = true then [e] else []) id := by
      simp only [onStackOf, List.mem_append, or_comm]
    simp only [this]
  · rw [if_neg (fun h => hf ((reportsFirst_iff e k.gone).1 h)), if_neg hf]
    exact leave_two (outcomeOf true) (outcomeOf false) clock k.gone (if k.leaves = true then [e] else []) s hbelow

/-- The ends stage: the entries that have ended leave, and a return is measured. -/
theorem stageThree_ends (cx : ReadCtx) (hl : cx.lane < 16) (s : State) (hn : noTwice (s.lane cx.lane).stack) :
    s.Ends cx.lane cx.clock (cx.rap s) (stageThree cx s) := by
  unfold State.Ends stageThree
  simp only
  cases hst : (s.lane cx.lane).stack with
  | nil => rfl
  | cons e below =>
    rw [hst] at hn
    obtain ⟨hne, hnb⟩ := List.pairwise_cons.1 hn
    simp only
    -- the plan, in the rules' words
    have hgone : (planEnds cx s e below).gone = below.filter fun n => n.ended (s.lane cx.lane).anchored cx.clock := by
      simp only [planEnds, reachedEnd_eq]
    have hkept : (planEnds cx s e below).kept = below.filter fun n => !n.ended (s.lane cx.lane).anchored cx.clock := by
      simp only [planEnds, reachedEnd_eq]
    have hended : (planEnds cx s e below).ended = e.ended (s.lane cx.lane).anchored cx.clock := by
      simp only [planEnds, reachedEnd_eq]
    have hreturns : (planEnds cx s e below).returns = true ↔
        (e.ended (s.lane cx.lane).anchored cx.clock = true ∧
          (below.filter fun n => !n.ended (s.lane cx.lane).anchored cx.clock) = [] ∧
          (cx.rap s ≠ none ∨ (s.lane cx.lane).monitor.state = .lost)) := by
      simp only [planEnds, reachedEnd_eq, State.returnPoint, Bool.and_eq_true, Bool.or_eq_true, List.isEmpty_iff, decide_eq_true_eq,
        Option.isSome_iff_ne_none, and_assoc]
    have hleaves : (planEnds cx s e below).leaves = true ↔
        (e.ended (s.lane cx.lane).anchored cx.clock = true ∧
          ((below.filter fun n => !n.ended (s.lane cx.lane).anchored cx.clock) ≠ [] ∨ (planEnds cx s e below).returns = true)) := by
      simp only [planEnds, reachedEnd_eq, Bool.and_eq_true, Bool.or_eq_true, Bool.not_eq_true', List.isEmpty_eq_false_iff]
    have hnk : noTwice (e :: (planEnds cx s e below).gone) := by
      rw [hgone]
      exact List.pairwise_cons.2 ⟨fun n h => hne n (List.mem_filter.1 h).1, hnb.filter _⟩
    generalize planEnds cx s e below = k at hgone hkept hended hreturns hleaves hnk ⊢
    obtain ⟨ps, hr, hp⟩ := reportEnds_after cx.clock e k s hnk
    rw [hr]
    simp only [← hgone, ← hkept, ← hended] at hreturns hleaves ⊢
    simp only [← hreturns, ← hleaves]
    generalize hx : s.lane cx.lane = x at *
    have htops : (if k.leaves = true then s.reports (outcomeOf false) cx.clock [e] else []) =
        s.reports (outcomeOf false) cx.clock (if k.leaves = true then [e] else []) := by
      cases k.leaves <;> rfl
    rw [htops]
    generalize hrs : (if ∃ id ∈ e.placementId, ∀ n ∈ k.gone, ∀ m ∈ n.placementId, id < m then
        s.reports (outcomeOf false) cx.clock (if k.leaves = true then [e] else []) ++ s.reports (outcomeOf true) cx.clock k.gone
      else s.reports (outcomeOf true) cx.clock k.gone ++ s.reports (outcomeOf false) cx.clock (if k.leaves = true then [e] else [])) = rs
    have hv : Handed s { s with placements := ps, log := s.logAfter rs } rs := ⟨rfl, rfl, rfl⟩
    have hvl : ({ s with placements := ps, log := s.logAfter rs } : State).lane = s.lane := rfl
    have hvp := hp (s.logAfter rs)
    have hvs : ({ s with placements := ps, log := s.logAfter rs } : State).lanes = s.lanes := rfl
    generalize hvd : ({ s with placements := ps, log := s.logAfter rs } : State) = v at hv hvl hvp hvs ⊢
    have hvd' : v = { s with lanes := v.lanes, placements := v.placements, log := v.log } := by rw [← hvd]
    -- the lane after its stage
    have htl : (v.onLane cx.lane (Lane.afterEnds e k)).lane cx.lane = x.afterEnds e k := by
      rw [State.lane_onLane_self _ _ hl, hvl, hx]
    have htm : ∀ m, m ≠ cx.lane → (v.onLane cx.lane (Lane.afterEnds e k)).lane m = s.lane m := by
      intro m hm
      rw [State.lane_onLane_ne _ _ (Ne.symm hm), hvl]
    have htp : ∀ id, (v.onLane cx.lane (Lane.afterEnds e k)).placement id = v.placement id := fun _ => rfl
    have htd : v.onLane cx.lane (Lane.afterEnds e k) =
        { s with
          lanes := (v.onLane cx.lane (Lane.afterEnds e k)).lanes
          placements := (v.onLane cx.lane (Lane.afterEnds e k)).placements
          log := (v.onLane cx.lane (Lane.afterEnds e k)).log } := by
      conv_lhs => rw [hvd']
      rfl
    have hth : Handed s (v.onLane cx.lane (Lane.afterEnds e k)) rs := hv.congr rfl rfl rfl
    generalize v.onLane cx.lane (Lane.afterEnds e k) = w at htl htm htp htd hth ⊢
    have haudit : (x.afterEnds e k).audit = x.audit := rfl
    by_cases hret : k.returns = true
    · rw [if_pos hret]
      unfold auditReturn
      rw [auditError_map, htl, haudit]
      by_cases hau : x.audit = .into
      · rw [if_pos hau, handRecord_logged]
        simp only [hret, hau, and_self, if_true]
        refine ⟨?_, ?_, ?_, ?_, ?_⟩
        · rw [htd]; rfl
        · intro m hm
          rw [State.lane_onLane_ne _ _ (Ne.symm hm)]
          exact htm m hm
        · rw [State.lane_onLane_self _ _ hl, State.logged_lane, htl]
          simp only [Lane.afterEnds, hret, if_true]
        · intro id
          rw [← hvp id, ← htp id]
          rfl
        · exact hth.logAfter_eq [(cx.lane, RecordBody.auditIn e.kind (cx.rap s).isSome e.endTime ((cx.rap s).getD cx.clock)
            (spliceError ((cx.rap s).getD cx.clock) e.endTime))]
      · rw [if_neg hau]
        simp only [hau, and_false, if_false, List.append_nil]
        exact ⟨htd, htm, htl, fun id => (htp id).trans (hvp id), hth.1⟩
    · rw [if_neg hret]
      rw [Bool.not_eq_true] at hret
      simp only [hret, Bool.false_eq_true, false_and, if_false, List.append_nil]
      refine ⟨htd, htm, ?_, fun id => (htp id).trans (hvp id), hth.1⟩
      rw [htl]
      simp only [Lane.afterEnds, hret]
      rfl

end Sys2Proof.Machine
end

