-- ==== Sys2Proof/Laws/StageFour.lean ====
section
/-! SUPPORT. What the entries stage of a slot read does (R85 to R87, R104, R190). -/

namespace Sys2Proof.Machine

open Sys2Proof

/-! ## The placements of a stack (R87) -/

/-- A placement takes the state of its place on a stack. -/
def placedState (covered top : List Entry) (id : Nat) (p : Placement) : Placement :=
  { p with state := if onStackOf covered id then .covered else if onStackOf top id then .onAir else p.state }

theorem syncEntry_after (v : PState) (e : Entry) (s : State) :
    syncEntry v e s = { s with placements := (syncEntry v e s).placements } ∧
      ∀ id, id < 128 → (syncEntry v e s).placement id =
        if e.source = .placement id then { s.placement id with state := v } else s.placement id := by
  unfold syncEntry
  cases hs : e.source with
  | placement j =>
    refine ⟨rfl, fun id hid => ?_⟩
    simp only [State.onPlacement, setPlacement_placement, Source.placement.injEq]
    by_cases h : id = j
    · subst h; simp [hid]
    · simp [h, Ne.symm h]
  | laneSlate => exact ⟨rfl, fun id _ => by simp⟩
  | profile p => exact ⟨rfl, fun id _ => by simp⟩

theorem syncCovered_after (st : List Entry) (s : State) :
    syncCovered st s = { s with placements := (syncCovered st s).placements } ∧
      ∀ id, id < 128 → (syncCovered st s).placement id =
        if onStackOf st id then { s.placement id with state := .covered } else s.placement id := by
  induction st generalizing s with
  | nil => exact ⟨rfl, fun id _ => by simp [syncCovered, onStackOf]⟩
  | cons e rest ih =>
    obtain ⟨h1, h2⟩ := syncEntry_after .covered e s
    obtain ⟨h3, h4⟩ := ih (syncEntry .covered e s)
    refine ⟨?_, fun id hid => ?_⟩
    · rw [syncCovered, h3, h1]
    · rw [syncCovered, h4 id hid, h2 id hid]
      have : onStackOf (e :: rest) id ↔ e.source = .placement id ∨ onStackOf rest id := by simp [onStackOf]
      by_cases ha : e.source = .placement id <;> by_cases hb : onStackOf rest id <;>
        simp only [this, ha, hb, if_true, if_false, or_self, or_true, or_false]

/-- The placements of a stack: ON_AIR at the top, COVERED below it, and nothing else changes. -/
theorem syncStack_after (st : List Entry) (s : State) :
    syncStack st s = { s with placements := (syncStack st s).placements } ∧
      ∀ id, id < 128 → (syncStack st s).placement id = placedState st.tail (st.take 1) id (s.placement id) := by
  cases st with
  | nil => exact ⟨rfl, fun id _ => by simp [syncStack, placedState, onStackOf]⟩
  | cons e rest =>
    obtain ⟨h1, h2⟩ := syncEntry_after .onAir e s
    obtain ⟨h3, h4⟩ := syncCovered_after rest (syncEntry .onAir e s)
    refine ⟨?_, fun id hid => ?_⟩
    · rw [syncStack, h3, h1]
    · rw [syncStack, h4 id hid, h2 id hid]
      have : onStackOf [e] id ↔ e.source = .placement id := by simp [onStackOf]
      simp only [placedState, List.tail_cons, List.take_succ_cons, List.take_zero, this]
      by_cases ha : e.source = .placement id <;> by_cases hb : onStackOf rest id <;>
        simp only [ha, hb, if_true, if_false]

/-! ## One offer (R86, R104) -/

/-- The start time of a placement that enters. -/
theorem entryStart_eq (rap : Option Pt) (clock : Pt) (p : Placement) (t : Pt) (ht : p.t = some t) :
    entryStart rap clock (p.t.getD 0) = p.startAt clock rap := by
  unfold entryStart Placement.startAt rapForm
  cases rap <;> simp [ht]

/-- The stack entry of a placement that enters. -/
def enteringEntry (id : Nat) (p : Placement) (clock : Pt) (rap : Option Pt) : Entry :=
  Entry.new p.kind (.placement id) p.clips (some (p.startAt clock rap + BitVec.ofNat 33 p.duration)) p.rule

/-- A placement as it enters, before it takes its place's state. -/
def enteredAs (p : Placement) (clock : Pt) (rap : Option Pt) : Placement :=
  { p with
    state := .covered, entryTime := p.startAt clock rap, lateCheck := false, blocked := false, withdrawn := false
    earlyReturn := false }

/-- The record of an entry notice, where an OUT mark measures it. -/
def entryRecord (l id : Nat) (p : Placement) (clock : Pt) (rap : Option Pt) : Nat × RecordBody :=
  (l, .auditOut id p.t (some (p.startAt clock rap)) (spliceError (p.startAt clock rap) p.t) p.preRoll)

theorem mem_placed (e n : Entry) (st : List Entry) : n ∈ placed e st ↔ n = e ∨ n ∈ st := by
  unfold placed
  conv_rhs => rw [← List.takeWhile_append_dropWhile (p := fun n : Entry => decide (e.kind.rank ≤ n.kind.rank)) (l := st)]
  simp only [List.mem_append, List.mem_cons]
  tauto

theorem enterOne_blocked (cx : ReadCtx) (id : Nat) (s : State)
    (h : ∃ e ∈ (s.lane cx.lane).stack, e.kind = (s.placement id).kind) :
    enterOne cx id s = s.setPlacement id { s.placement id with blocked := true } := by
  unfold enterOne
  rw [if_pos ((entryOf_isSome _ _).2 h)]
  rfl

theorem enterOne_enters (cx : ReadCtx) (hl : cx.lane < 16) (id : Nat) (hid : id < 128) (s : State) (t : Pt)
    (ht : (s.placement id).t = some t) (h : ¬ ∃ e ∈ (s.lane cx.lane).stack, e.kind = (s.placement id).kind) :
    let x := s.lane cx.lane
    let p := s.placement id
    let w := enterOne cx id s
    w = { s with lanes := w.lanes, placements := w.placements, log := w.log } ∧
    (∀ m, m ≠ cx.lane → w.lane m = s.lane m) ∧
    w.lane cx.lane =
      { x with
        stack := placed (enteringEntry id p cx.clock (cx.rap s)) x.stack
        audit := if x.audit = .out then .none else x.audit } ∧
    (∀ j, w.placement j = if j = id then enteredAs p cx.clock (cx.rap s) else s.placement j) ∧
    Handed s w (if x.audit = .out then [entryRecord cx.lane id p cx.clock (cx.rap s)] else []) := by
  intro x p w
  have hw : w = auditEntry cx.lane id p.t (p.startAt cx.clock (cx.rap s)) p.preRoll
      ((s.setLane cx.lane { x with stack := placed (enteringEntry id p cx.clock (cx.rap s)) x.stack }).setPlacement id
        (enteredAs p cx.clock (cx.rap s))) := by
    show enterOne cx id s = _
    unfold enterOne
    rw [if_neg (fun h' => h ((entryOf_isSome _ _).1 h'))]
    simp only [State.onPlacement, State.placement_setLane, entryStart_eq _ _ _ _ ht, placementEntry, made_eq_new,
      insertEntry_eq]
    rfl
  generalize hu : ((s.setLane cx.lane { x with stack := placed (enteringEntry id p cx.clock (cx.rap s)) x.stack }).setPlacement id
    (enteredAs p cx.clock (cx.rap s))) = u at hw
  have hul : u.lane cx.lane = { x with stack := placed (enteringEntry id p cx.clock (cx.rap s)) x.stack } := by
    rw [← hu, State.lane_setPlacement, State.lane_setLane_self _ _ hl]
  have hum : ∀ m, m ≠ cx.lane → u.lane m = s.lane m := by
    intro m hm
    rw [← hu, State.lane_setPlacement, State.lane_setLane_ne _ _ (Ne.symm hm)]
  have hup : ∀ j, u.placement j = if j = id then enteredAs p cx.clock (cx.rap s) else s.placement j := by
    intro j
    rw [← hu, setPlacement_placement]
    simp only [hid, and_true, State.placement_setLane]
  have hus : u = { s with lanes := u.lanes, placements := u.placements, log := u.log } := by rw [← hu]; rfl
  have huh : Handed s u [] := by rw [← hu]; exact ⟨rfl, rfl, rfl⟩
  clear hu
  rw [hw]
  clear hw
  unfold auditEntry
  have hua : (u.lane cx.lane).audit = x.audit := by rw [hul]
  rw [hua]
  by_cases ha : x.audit = .out
  · simp only [ha, if_true]
    rw [handRecord_logged, auditError_map]
    refine ⟨?_, ?_, ?_, ?_, ?_⟩
    · rw [hus]; rfl
    · intro m hm
      rw [State.lane_onLane_ne _ _ (Ne.symm hm)]
      exact hum m hm
    · rw [State.lane_onLane_self _ _ hl, State.logged_lane, hul]
    · exact hup
    · have := huh.logAfter_eq [entryRecord cx.lane id p cx.clock (cx.rap s)]
      exact ⟨this, huh.2.1, huh.2.2⟩
  · simp only [ha, if_false]
    refine ⟨hus, hum, ?_, hup, huh⟩
    rw [hul]

/-! ## The offers of one kind (R86, R104) -/

theorem enterAll_append (cx : ReadCtx) (a b : List Nat) (s : State) : enterAll cx (a ++ b) s = enterAll cx b (enterAll cx a s) := by
  induction a generalizing s with
  | nil => rfl
  | cons id rest ih => exact ih _

/-- With an entry of the kind on the stack every offer is blocked. -/
theorem enterAll_blocked (cx : ReadCtx) (k : Kind) (ids : List Nat) (hids : ∀ id ∈ ids, id < 128) (hn : ids.Nodup) (s : State)
    (hk : ∀ id ∈ ids, (s.placement id).kind = k) (h : ∃ e ∈ (s.lane cx.lane).stack, e.kind = k) :
    enterAll cx ids s = { s with placements := (enterAll cx ids s).placements } ∧
      ∀ j, (enterAll cx ids s).placement j = if j ∈ ids then { s.placement j with blocked := true } else s.placement j := by
  induction ids generalizing s with
  | nil => exact ⟨rfl, fun j => by simp [enterAll]⟩
  | cons id rest ih =>
    obtain ⟨hnot, hn'⟩ := List.nodup_cons.1 hn
    have hid : id < 128 := hids id (List.mem_cons_self ..)
    have hne : ∀ j ∈ rest, j ≠ id := fun j hj he => hnot (he ▸ hj)
    rw [enterAll, enterOne_blocked cx id s (by rw [hk id (List.mem_cons_self ..)]; exact h)]
    obtain ⟨h1, h2⟩ := ih (fun j hj => hids j (List.mem_cons_of_mem _ hj)) hn'
      (s.setPlacement id { s.placement id with blocked := true })
      (by
        intro j hj
        rw [setPlacement_placement, if_neg (fun hc => hne j hj hc.1)]
        exact hk j (List.mem_cons_of_mem _ hj))
      (by rw [State.lane_setPlacement]; exact h)
    refine ⟨?_, fun j => ?_⟩
    · rw [h1]; rfl
    · rw [h2 j, setPlacement_placement]
      by_cases hj : j = id
      · subst hj; simp [hnot, hid]
      · simp [hj]

/-- The placement of a kind that enters: the first offered, where no entry of the kind stands on the stack. -/
def entersOf (st : List Entry) (k : Kind) (ids : List Nat) : Option Nat := if ∃ e ∈ st, e.kind = k then none else ids.head?

/-- The stack with the entry of the placement that enters. -/
def joinEntry (s : State) (clock : Pt) (rap : Option Pt) (o : Option Nat) (st : List Entry) : List Entry :=
  match o with
  | some id => placed (enteringEntry id (s.placement id) clock rap) st
  | none => st

/-- The offers of one kind taken in turn. -/
theorem enterAll_kind (cx : ReadCtx) (hl : cx.lane < 16) (k : Kind) (ids : List Nat) (hids : ∀ id ∈ ids, id < 128) (hn : ids.Nodup)
    (s : State) (hk : ∀ id ∈ ids, (s.placement id).kind = k) (ht : ∀ id ∈ ids, ∃ t, (s.placement id).t = some t) :
    let x := s.lane cx.lane
    let o := entersOf x.stack k ids
    let w := enterAll cx ids s
    w = { s with lanes := w.lanes, placements := w.placements, log := w.log } ∧
    (∀ m, m ≠ cx.lane → w.lane m = s.lane m) ∧
    w.lane cx.lane =
      { x with
        stack := joinEntry s cx.clock (cx.rap s) o x.stack
        audit := if o ≠ none ∧ x.audit = .out then .none else x.audit } ∧
    (∀ j, w.placement j =
      if o = some j then enteredAs (s.placement j) cx.clock (cx.rap s)
      else if j ∈ ids then { s.placement j with blocked := true }
      else s.placement j) ∧
    Handed s w
      (match o with
        | some id => if x.audit = .out then [entryRecord cx.lane id (s.placement id) cx.clock (cx.rap s)] else []
        | none => []) := by
  intro x o w
  by_cases hex : ∃ e ∈ x.stack, e.kind = k
  · have ho : o = none := if_pos hex
    obtain ⟨h1, h2⟩ := enterAll_blocked cx k ids hids hn s hk hex
    have hw : w = { s with placements := w.placements } := h1
    rw [ho]
    refine ⟨?_, ?_, ?_, ?_, ?_⟩
    · rw [hw]
    · intro m _; rw [hw]; rfl
    · rw [hw]
      simp only [joinEntry, ne_eq, not_true_eq_false, false_and, if_false]
      rfl
    · intro j
      rw [if_neg (by simp)]
      exact h2 j
    · rw [hw]; exact ⟨rfl, rfl, rfl⟩
  · have ho : o = ids.head? := if_neg hex
    cases ids with
    | nil =>
      rw [ho]
      refine ⟨rfl, fun _ _ => rfl, ?_, fun j => by simp [w, enterAll], Handed.refl s⟩
      simp only [List.head?_nil, joinEntry, ne_eq, not_true_eq_false, false_and, if_false]
      rfl
    | cons id rest =>
      obtain ⟨hnot, hn'⟩ := List.nodup_cons.1 hn
      have hid : id < 128 := hids id (List.mem_cons_self ..)
      have hne : ∀ j ∈ rest, j ≠ id := fun j hj he => hnot (he ▸ hj)
      have hkid := hk id (List.mem_cons_self ..)
      obtain ⟨t, htid⟩ := ht id (List.mem_cons_self ..)
      rw [ho]
      obtain ⟨a1, a2, a3, a4, a5⟩ := enterOne_enters cx hl id hid s t htid (by rw [hkid]; exact hex)
      have hw : w = enterAll cx rest (enterOne cx id s) := rfl
      rw [hw]
      clear hw
      revert a1 a2 a3 a4 a5
      generalize enterOne cx id s = v
      intro a1 a2 a3 a4 a5
      obtain ⟨b1, b2⟩ := enterAll_blocked cx k rest (fun j hj => hids j (List.mem_cons_of_mem _ hj)) hn' v
        (by
          intro j hj
          rw [a4, if_neg (hne j hj)]
          exact hk j (List.mem_cons_of_mem _ hj))
        (by
          refine ⟨enteringEntry id (s.placement id) cx.clock (cx.rap s), ?_, hkid⟩
          rw [a3]
          simp [placed])
      revert b1 b2
      generalize enterAll cx rest v = z
      intro b1 b2
      simp only [List.head?_cons, ne_eq, reduceCtorEq, not_false_eq_true, true_and, Option.some.injEq]
      refine ⟨?_, ?_, ?_, ?_, ?_⟩
      · rw [b1, a1]
      · intro m hm; rw [b1]; exact a2 m hm
      · rw [b1]; exact a3
      · intro j
        rw [b2, a4]
        by_cases hj : j = id
        · subst hj; simp [hnot]
        · have hj' : ¬ id = j := Ne.symm hj
          simp [hj, hj']
      · rw [b1]; exact ⟨a5.1, a5.2.1, a5.2.2⟩

/-! ## The stage (R85 to R87, R104) -/

theorem eligible_iff (s : State) (cx : ReadCtx) (id : Nat) :
    s.eligible cx id = true ↔ s.canEnter cx.lane cx.clock (cx.rap s) id := by
  unfold State.eligible State.canEnter Lane.lostForm rapForm
  simp only [Bool.and_eq_true, decide_eq_true_eq, Option.any_eq_true, Bool.or_eq_true, entryOf_isSome, and_assoc]
  rfl

theorem offered_offers (s : State) (cx : ReadCtx) (k : Kind) : s.offers cx.lane cx.clock (cx.rap s) k (s.offered cx k) := by
  refine ⟨List.pairwise_lt_range.filter _, fun id => ?_⟩
  simp [State.offered, placementIds, eligible_iff]

/-- The entries stage before the states of the stack's placements: what enters, where, and what is recorded (R86, R104). -/
theorem stageFour_after (cx : ReadCtx) (hl : cx.lane < 16) (s : State) :
    let as := s.offered cx .advert
    let ps := s.offered cx .programme
    let x := s.lane cx.lane
    let a := entersOf x.stack .advert as
    let p := entersOf x.stack .programme ps
    let w := stageFour cx s
    w = { s with lanes := w.lanes, placements := w.placements, log := w.log } ∧
    (∀ m, m ≠ cx.lane → w.lane m = s.lane m) ∧
    w.lane cx.lane =
      { x with
        stack := joinEntry s cx.clock (cx.rap s) p (joinEntry s cx.clock (cx.rap s) a x.stack)
        audit := if a.toList ++ p.toList ≠ [] ∧ x.audit = .out then .none else x.audit } ∧
    (∀ id, w.placement id =
      if id ∈ a.toList ++ p.toList then enteredAs (s.placement id) cx.clock (cx.rap s)
      else if id ∈ as ∨ id ∈ ps then { s.placement id with blocked := true }
      else s.placement id) ∧
    (∀ id, a = some id → id ∈ as) ∧ (∀ id, p = some id → id ∈ ps) ∧
    Handed s w
      (match a.toList ++ p.toList with
        | id :: _ => if x.audit = .out then [entryRecord cx.lane id (s.placement id) cx.clock (cx.rap s)] else []
        | [] => []) := by
  have hA := (offered_offers s cx .advert).2
  have hP := (offered_offers s cx .programme).2
  have hnA : (s.offered cx .advert).Nodup := List.nodup_range.filter _
  have hnP : (s.offered cx .programme).Nodup := List.nodup_range.filter _
  revert hA hP hnA hnP
  unfold stageFour
  rw [enterAll_append]
  generalize s.offered cx .advert = as
  generalize s.offered cx .programme = ps
  intro hA hP hnA hnP
  dsimp only
  have hsome : ∀ id, s.canEnter cx.lane cx.clock (cx.rap s) id → ∃ t, (s.placement id).t = some t := by
    rintro id ⟨-, -, t, ht, -⟩
    exact ⟨t, ht⟩
  obtain ⟨a1, a2, a3, a4, a5⟩ := enterAll_kind cx hl .advert as (fun id h => ((hA id).1 h).1) hnA s
    (fun id h => ((hA id).1 h).2.1) (fun id h => hsome id ((hA id).1 h).2.2)
  revert a1 a2 a3 a4 a5
  generalize enterAll cx as s = v
  intro a1 a2 a3 a4 a5
  have hPv : ∀ id ∈ ps, v.placement id = s.placement id := by
    intro id hid
    have hk := ((hP id).1 hid).2.1
    have hnot : id ∉ as := by
      intro h
      rw [((hA id).1 h).2.1] at hk
      simp at hk
    rw [a4, if_neg, if_neg hnot]
    intro ho
    apply hnot
    unfold entersOf at ho
    split at ho
    · simp at ho
    · exact List.mem_of_mem_head? ho
  have hrap : cx.rap v = cx.rap s := by
    unfold ReadCtx.rap
    rw [a3]
  obtain ⟨b1, b2, b3, b4, b5⟩ := enterAll_kind cx hl .programme ps (fun id h => ((hP id).1 h).1) hnP v
    (fun id h => by rw [hPv id h]; exact ((hP id).1 h).2.1)
    (fun id h => by rw [hPv id h]; exact hsome id ((hP id).1 h).2.2)
  revert b1 b2 b3 b4 b5
  generalize enterAll cx ps v = w
  intro b1 b2 b3 b4 b5
  -- the second kind's place does not depend on the first kind's entry
  have hstack : (∃ e ∈ (v.lane cx.lane).stack, e.kind = .programme) ↔ ∃ e ∈ (s.lane cx.lane).stack, e.kind = .programme := by
    rw [a3]
    simp only
    cases ho : entersOf (s.lane cx.lane).stack .advert as with
    | none => rfl
    | some id =>
      have hk : (s.placement id).kind = .advert := by
        unfold entersOf at ho
        split at ho
        · simp at ho
        · exact ((hA id).1 (List.mem_of_mem_head? ho)).2.1
      simp only [joinEntry, mem_placed]
      constructor
      · rintro ⟨e, he | he, hek⟩
        · subst he
          simp [enteringEntry, Entry.new, hk] at hek
        · exact ⟨e, he, hek⟩
      · rintro ⟨e, he, hek⟩
        exact ⟨e, Or.inr he, hek⟩
  have hsecond : entersOf (v.lane cx.lane).stack .programme ps = entersOf (s.lane cx.lane).stack .programme ps := by
    unfold entersOf
    simp only [hstack]
  rw [hsecond] at b3 b4 b5
  have hmemA : ∀ id, entersOf (s.lane cx.lane).stack .advert as = some id → id ∈ as := by
    intro id ho
    unfold entersOf at ho
    split at ho
    · simp at ho
    · exact List.mem_of_mem_head? ho
  have hmemP : ∀ id, entersOf (s.lane cx.lane).stack .programme ps = some id → id ∈ ps := by
    intro id ho
    unfold entersOf at ho
    split at ho
    · simp at ho
    · exact List.mem_of_mem_head? ho
  have hdisj : ∀ id, id ∈ as → id ∉ ps := by
    intro id h1 h2
    have hk1 := ((hA id).1 h1).2.1
    have hk2 := ((hP id).1 h2).2.1
    rw [hk1] at hk2
    simp at hk2
  refine ⟨?_, ?_, ?_, ?_, hmemA, hmemP, ?_⟩
  · rw [b1, a1]
  · intro m hm
    rw [b2 m hm, a2 m hm]
  · rw [b3, a3, hrap]
    simp only
    have hstack2 : joinEntry v cx.clock (cx.rap s) (entersOf (s.lane cx.lane).stack .programme ps)
        (joinEntry s cx.clock (cx.rap s) (entersOf (s.lane cx.lane).stack .advert as) (s.lane cx.lane).stack) =
        joinEntry s cx.clock (cx.rap s) (entersOf (s.lane cx.lane).stack .programme ps)
        (joinEntry s cx.clock (cx.rap s) (entersOf (s.lane cx.lane).stack .advert as) (s.lane cx.lane).stack) := by
      cases ho : entersOf (s.lane cx.lane).stack .programme ps with
      | none => rfl
      | some id => simp only [joinEntry, hPv id (hmemP id ho)]
    rw [hstack2]
    cases entersOf (s.lane cx.lane).stack .advert as <;> cases entersOf (s.lane cx.lane).stack .programme ps <;>
      by_cases ha : (s.lane cx.lane).audit = .out <;> simp [ha]
  · intro id
    rw [b4, hrap]
    by_cases hpo : entersOf (s.lane cx.lane).stack .programme ps = some id
    · rw [if_pos hpo, hPv id (hmemP id hpo), if_pos (List.mem_append_right _ (by rw [hpo]; simp))]
    · rw [if_neg hpo]
      by_cases hin : id ∈ ps
      · have hna : ¬ entersOf (s.lane cx.lane).stack .advert as = some id := fun h => hdisj id (hmemA id h) hin
        rw [if_pos hin, hPv id hin, if_neg (by
          simp only [List.mem_append, Option.mem_toList, not_or]
          exact ⟨hna, hpo⟩), if_pos (Or.inr hin)]
      · rw [if_neg hin, a4]
        by_cases hao : entersOf (s.lane cx.lane).stack .advert as = some id
        · rw [if_pos hao, if_pos (List.mem_append_left _ (by rw [hao]; simp))]
        · rw [if_neg hao, if_neg (c := id ∈ _ ++ _) (by
            simp only [List.mem_append, Option.mem_toList, not_or]
            exact ⟨hao, hpo⟩)]
          simp only [hin, or_false]
  · have hh := a5.trans b5
    have hout : (v.lane cx.lane).audit =
        if entersOf (s.lane cx.lane).stack .advert as ≠ none ∧ (s.lane cx.lane).audit = .out then .none
        else (s.lane cx.lane).audit := by rw [a3]
    rw [hout, hrap] at hh
    have hlist : ((match entersOf (s.lane cx.lane).stack .advert as with
          | some id =>
            if (s.lane cx.lane).audit = .out then [entryRecord cx.lane id (s.placement id) cx.clock (cx.rap s)] else []
          | none => []) ++
        (match entersOf (s.lane cx.lane).stack .programme ps with
          | some id =>
            if (if entersOf (s.lane cx.lane).stack .advert as ≠ none ∧ (s.lane cx.lane).audit = AuditMark.out then AuditMark.none
                else (s.lane cx.lane).audit) = AuditMark.out then [entryRecord cx.lane id (v.placement id) cx.clock (cx.rap s)]
            else []
          | none => [])) =
        (match (entersOf (s.lane cx.lane).stack .advert as).toList ++ (entersOf (s.lane cx.lane).stack .programme ps).toList with
        | id :: _ =>
          if (s.lane cx.lane).audit = .out then [entryRecord cx.lane id (s.placement id) cx.clock (cx.rap s)] else []
        | [] => []) := by
      cases ha : entersOf (s.lane cx.lane).stack .advert as with
      | none =>
        cases hp : entersOf (s.lane cx.lane).stack .programme ps with
        | none => rfl
        | some j => by_cases hc : (s.lane cx.lane).audit = .out <;> simp [hc, hPv j (hmemP j hp)]
      | some i =>
        cases hp : entersOf (s.lane cx.lane).stack .programme ps with
        | none => by_cases hc : (s.lane cx.lane).audit = .out <;> simp [hc]
        | some j => by_cases hc : (s.lane cx.lane).audit = .out <;> simp [hc]
    rw [← hlist]
    exact hh

/-- The entries stage with the states of the stack's placements, as the rules give it (R85 to R87, R104). -/
theorem stageFour_entries (cx : ReadCtx) (hl : cx.lane < 16) (s : State) :
    s.Entries cx.lane cx.clock (cx.rap s)
      (syncStack ((stageFour cx s).lane cx.lane).stack (stageFour cx s)) := by
  unfold State.Entries
  refine ⟨s.offered cx .advert, s.offered cx .programme, offered_offers s cx _, offered_offers s cx _, ?_⟩
  have hA := (offered_offers s cx .advert).2
  have hP := (offered_offers s cx .programme).2
  have hwhole := stageFour_after cx hl s
  simp only at hwhole
  revert hA hP hwhole
  generalize s.offered cx .advert = as
  generalize s.offered cx .programme = ps
  generalize stageFour cx s = w
  intro hA hP ⟨w1, w2, w3, w4, hmemA, hmemP, w5⟩
  obtain ⟨c1, c2⟩ := syncStack_after (w.lane cx.lane).stack w
  revert c1 c2
  generalize syncStack (w.lane cx.lane).stack w = z
  intro c1 c2
  have hzl : z.lane = w.lane := by rw [c1]; rfl
  have hjoin : (w.lane cx.lane).stack =
      joinEntry s cx.clock (cx.rap s) (entersOf (s.lane cx.lane).stack .programme ps)
        (joinEntry s cx.clock (cx.rap s) (entersOf (s.lane cx.lane).stack .advert as) (s.lane cx.lane).stack) := by rw [w3]
  have hentry : ∀ (k : Kind) (o : Option Nat) (st : List Entry), (∀ id, o = some id → (s.placement id).kind = k) →
      joinEntry s cx.clock (cx.rap s) o st =
        match o with
        | some id =>
          placed (Entry.new k (.placement id) (s.placement id).clips
            (some ((s.placement id).startAt cx.clock (cx.rap s) + BitVec.ofNat 33 (s.placement id).duration)) (s.placement id).rule) st
        | none => st := by
    intro k o st hk
    cases o with
    | none => rfl
    | some id => simp only [joinEntry, enteringEntry, hk id rfl]
  have honstack : ∀ id, (entersOf (s.lane cx.lane).stack .advert as = some id ∨
      entersOf (s.lane cx.lane).stack .programme ps = some id) → onStackOf (w.lane cx.lane).stack id := by
    intro id ho
    rw [hjoin]
    have hself : ∀ (st : List Entry) (p : Placement), onStackOf (placed (enteringEntry id p cx.clock (cx.rap s)) st) id :=
      fun st p => ⟨enteringEntry id p cx.clock (cx.rap s), (mem_placed _ _ _).2 (Or.inl rfl), rfl⟩
    have hkeep : ∀ (o : Option Nat) (st : List Entry), onStackOf st id → onStackOf (joinEntry s cx.clock (cx.rap s) o st) id := by
      rintro o st ⟨e, he, hs⟩
      cases o with
      | none => exact ⟨e, he, hs⟩
      | some j => exact ⟨e, (mem_placed _ _ _).2 (Or.inr he), hs⟩
    rcases ho with ho | ho
    · apply hkeep
      rw [ho]
      exact hself _ _
    · rw [ho]
      exact hself _ _
  have hstk := hjoin
  rw [hentry .programme _ _ (fun id ho => ((hP id).1 (hmemP id ho)).2.1),
    hentry .advert _ _ (fun id ho => ((hA id).1 (hmemA id ho)).2.1)] at hstk
  refine ⟨?_, ?_, ?_, ?_, ?_⟩
  · rw [c1, w1]
  · intro m hm
    rw [hzl, w2 m hm]
  · rw [hzl]
    have : w.lane cx.lane = { s.lane cx.lane with stack := (w.lane cx.lane).stack, audit := (w.lane cx.lane).audit } := by
      rw [w3]
    have haud : (w.lane cx.lane).audit =
        if (entersOf (s.lane cx.lane).stack .advert as).toList ++ (entersOf (s.lane cx.lane).stack .programme ps).toList ≠ [] ∧
            (s.lane cx.lane).audit = .out then .none else (s.lane cx.lane).audit := by rw [w3]
    rw [this, hstk, haud]
    rfl
  · intro id hid
    have hzs : ∀ p : Placement, onStackOf (w.lane cx.lane).stack id →
        placedState (w.lane cx.lane).stack.tail ((w.lane cx.lane).stack.take 1) id p =
          placedState (w.lane cx.lane).stack.tail ((w.lane cx.lane).stack.take 1) id { p with state := (s.placement id).state } := by
      intro p ho
      unfold placedState
      have : onStackOf (w.lane cx.lane).stack.tail id ∨ onStackOf ((w.lane cx.lane).stack.take 1) id := by
        obtain ⟨e, he, hs⟩ := ho
        cases hw : (w.lane cx.lane).stack with
        | nil => rw [hw] at he; simp at he
        | cons a rest =>
          rw [hw] at he
          rcases List.mem_cons.1 he with he | he
          · exact Or.inr ⟨e, by simp [he], hs⟩
          · exact Or.inl ⟨e, he, hs⟩
      rcases this with h | h
      · simp only [h, if_true]
      · by_cases h' : onStackOf (w.lane cx.lane).stack.tail id
        · simp only [h', if_true]
        · simp only [h', h, if_true, if_false]
    have hfinal : z.placement id =
        placedState (w.lane cx.lane).stack.tail ((w.lane cx.lane).stack.take 1) id
          (if id ∈ (entersOf (s.lane cx.lane).stack .advert as).toList ++ (entersOf (s.lane cx.lane).stack .programme ps).toList then
            { s.placement id with
              entryTime := (s.placement id).startAt cx.clock (cx.rap s), lateCheck := false, blocked := false
              withdrawn := false, earlyReturn := false }
          else if id ∈ as ∨ id ∈ ps then { s.placement id with blocked := true }
          else s.placement id) := by
      rw [c2 id hid, w4]
      by_cases hin : id ∈ (entersOf (s.lane cx.lane).stack .advert as).toList ++ (entersOf (s.lane cx.lane).stack .programme ps).toList
      · rw [if_pos hin, if_pos hin, hzs _ (honstack id (by simpa [List.mem_append, Option.mem_toList] using hin))]
        rfl
      · rw [if_neg hin, if_neg hin]
    rw [hstk] at hfinal
    exact hfinal
  · rw [c1]
    exact w5.1

end Sys2Proof.Machine
end

