-- ==== Sys2Proof/Laws/Look.lean ====
section
/-! SUPPORT. What the lookahead's operations do, in the terms of the statements (R56 to R63). -/

namespace Sys2Proof.Machine

open Sys2Proof

theorem nextKey_eq (e : Entry) : e.nextKey = e.wanted := by
  unfold Entry.nextKey Entry.wanted Entry.keyAt Entry.nextPosition
  cases e.current <;> rfl

theorem indexAfter_eq (e : Entry) (j : Nat) : e.indexAfter j = e.after j := by
  unfold Entry.indexAfter Entry.after
  cases e.kind <;> rfl

theorem endClip_eq (e : Entry) (o : ClipOutcome) : e.endClip o = e.decided o := by
  unfold Entry.endClip Entry.decided
  cases e.current with
  | none => rfl
  | some c => simp only [Entry.mark, indexAfter_eq]

theorem cover_eq (e : Entry) : e.cover = e.covered := by
  unfold Entry.cover Entry.covered
  rw [endClip_eq]

theorem overtake_eq (l : Nat) (s : State) : overtake l s = s.overtaken l := by
  unfold overtake State.overtaken
  cases (s.lane l).look with
  | empty => rfl
  | full => rfl
  | fetching key a granted stale demand => cases granted <;> rfl

/-- A lane with a top entry. -/
theorem alignLook_eq (l : Nat) (s : State) (e : Entry) (below : List Entry) (h : (s.lane l).stack = e :: below) :
    alignLook l s = s.matched l e := by
  unfold alignLook State.matched Lane.top
  rw [h]
  simp only [List.head?_cons, Option.bind_some, nextKey_eq, overtake_eq]
  by_cases hk : (s.lane l).look.key = e.wanted
  · rw [if_pos hk]
    cases hl : (s.lane l).look with
    | empty => rfl
    | full key a b c =>
      rw [hl] at hk
      exact (if_pos (hk.symm : e.wanted = some key)).symm
    | fetching key a granted stale demand =>
      rw [hl] at hk
      have : e.wanted = some key := hk.symm
      cases granted <;> cases stale <;> simp [this]
  · rw [if_neg hk]
    cases hl : (s.lane l).look with
    | empty => simp only [State.overtaken, hl]
    | full key a b c =>
      rw [hl] at hk
      exact (if_neg (fun h : e.wanted = some key => hk h.symm)).symm
    | fetching key a granted stale demand =>
      rw [hl] at hk
      have : ¬ e.wanted = some key := fun h => hk h.symm
      cases granted <;> cases stale <;> simp [this]

theorem requestFetch_eq (l : Nat) (e : Entry) (demand : Bool) (s : State) :
    requestFetch l e demand s =
      match e.wanted with
      | none => s
      | some key => s.asking l key demand := by
  unfold requestFetch
  rw [nextKey_eq]
  rfl

theorem demandFetch_eq (l : Nat) (s : State) (e : Entry) (below : List Entry) (h : (s.lane l).stack = e :: below) :
    demandFetch l s = s.demanding l e := by
  unfold demandFetch State.demanding Lane.top
  rw [h]
  cases (s.lane l).look with
  | empty =>
    simp only [List.head?_cons, requestFetch_eq]
    cases e.wanted <;> rfl
  | full => cases e.wanted <;> rfl
  | fetching => rfl

theorem prefetchTest_eq (l : Nat) (s : State) : prefetchTest l s = s.prefetched l (s.waitsOn l) := by
  unfold prefetchTest State.prefetched Lane.top
  cases hst : (s.lane l).stack with
  | nil => rfl
  | cons e below =>
    simp only [List.head?_cons, requestFetch_eq]
    by_cases h : (s.lane l).enabled = true ∧ s.bypass = false ∧ (s.lane l).look = .empty
    · rw [if_pos h]
      have h' : ((s.lane l).enabled = true ∧ s.bypass = false ∧ (s.lane l).look = .empty ∧ s.hasSlotToFetch e = true) ↔
          s.hasSlotToFetch e = true := by tauto
      simp only [h']
      unfold State.hasSlotToFetch Entry.wanted Entry.keyAt
      cases hc : e.current with
      | none =>
        simp only
        cases hk : e.clips[e.nextIdx]? with
        | none => simp
        | some id => cases e.started <;> simp
      | some c =>
        obtain ⟨j, i⟩ := c
        simp only
        cases hk : e.clips[j]? with
        | none => simp
        | some id => simp
    · rw [if_neg h, if_neg]
      tauto

/-! ## A clip's turn (R56) -/

theorem skipMissing_clips (e : Entry) : e.skipMissing.clips = e.clips := rfl

/-- The walk to a defined clip over at most `fuel` positions. -/
theorem walk_turned (defined : Nat → Bool) (fuel : Nat) (e : Entry) :
    let looped := e.kind = .slate ∨ e.kind = .alert
    let at_ (m : Nat) := if looped ∧ m ≠ 0 then (e.nextIdx + m) % e.clips.length else e.nextIdx + m
    ∃ n, n ≤ fuel ∧ (∀ m, m < n → ∃ id, e.clips[at_ m]? = some id ∧ defined id = false) ∧
      let skipped : Entry :=
        { e with
          nextIdx := at_ n
          tally := (List.range n).foldl (fun tl m => tl.modify (at_ m) fun t => { t with outcome := some .missing }) e.tally }
      if n < fuel ∧ ∃ id, e.clips[at_ n]? = some id ∧ defined id = true then
        e.walk defined fuel = { skipped with current := some (at_ n, 0), started := true }
      else (n = fuel ∨ e.clips[at_ n]? = none) ∧ e.walk defined fuel = skipped := by
  induction fuel generalizing e with
  | zero =>
    intro looped at_
    refine ⟨0, le_refl _, fun m hm => absurd hm (Nat.not_lt_zero m), ?_⟩
    rw [if_neg (by simp)]
    refine ⟨Or.inl rfl, ?_⟩
    simp only [List.range_zero, List.foldl_nil, at_, ne_eq, not_true_eq_false, and_false, if_false, Nat.add_zero]
    rfl
  | succ fuel ih =>
    intro looped at_
    have hat0 : at_ 0 = e.nextIdx := by simp [at_]
    have hwalk : e.walk defined (fuel + 1) = match e.clips[e.nextIdx]? with
        | none => e
        | some id => if defined id then e.startClip else Entry.walk defined fuel e.skipMissing := rfl
    cases hc : e.clips[e.nextIdx]? with
    | none =>
      refine ⟨0, Nat.zero_le _, fun m hm => absurd hm (Nat.not_lt_zero m), ?_⟩
      rw [hat0]
      simp only [hc, reduceCtorEq, false_and, exists_false, and_false, if_false, or_true, true_and]
      rw [hwalk, hc]
      simp only [List.range_zero, List.foldl_nil]
    | some id =>
      by_cases hd : defined id = true
      · refine ⟨0, Nat.zero_le _, fun m hm => absurd hm (Nat.not_lt_zero m), ?_⟩
        rw [hat0, if_pos ⟨Nat.succ_pos _, id, hc, hd⟩, hwalk, hc]
        simp only [hd, if_true, List.range_zero, List.foldl_nil]
        rfl
      · obtain ⟨n, hn, hm, hfin⟩ := ih e.skipMissing
        have hlen : e.skipMissing.clips.length = e.clips.length := rfl
        have hnext : e.skipMissing.nextIdx = e.after e.nextIdx := indexAfter_eq e e.nextIdx
        -- the places of the rest of the walk
        have hshift : ∀ m, (if looped ∧ m ≠ 0 then (e.after e.nextIdx + m) % e.clips.length else e.after e.nextIdx + m) = at_ (m + 1) := by
          intro m
          simp only [at_, Entry.after, ne_eq, Nat.add_eq_zero_iff, one_ne_zero, and_false, not_false_eq_true, and_true]
          by_cases hl : looped
          · have hl' : e.kind = .slate ∨ e.kind = .alert := hl
            simp only [hl, hl', if_true, true_and]
            by_cases h0 : m = 0
            · subst h0; simp
            · rw [if_pos h0, Nat.mod_add_mod]
              congr 1
              omega
          · have hl' : ¬ (e.kind = .slate ∨ e.kind = .alert) := hl
            simp only [hl, hl', if_false, false_and]
            omega
        have hk : (e.skipMissing.kind = .slate ∨ e.skipMissing.kind = .alert) ↔ looped := Iff.rfl
        have htally : e.skipMissing.tally = e.tally.modify (at_ 0) fun t => { t with outcome := some .missing } := by
          rw [hat0]; rfl
        simp only [hk, hnext, skipMissing_clips, hshift, htally] at hm hfin
        have hfold : (List.range (n + 1)).foldl (fun tl m => tl.modify (at_ m) fun t => { t with outcome := some .missing }) e.tally =
            (List.range n).foldl (fun tl m => tl.modify (at_ (m + 1)) fun t => { t with outcome := some .missing })
              (e.tally.modify (at_ 0) fun t => { t with outcome := some .missing }) := by
          rw [List.range_succ_eq_map, List.foldl_cons, List.foldl_map]
        have hd' : defined id = false := by simpa using hd
        refine ⟨n + 1, by omega, ?_, ?_⟩
        · intro m hm'
          cases m with
          | zero => exact ⟨id, by rw [hat0]; exact hc, hd'⟩
          | succ m => exact hm m (by omega)
        · have hw : e.walk defined (fuel + 1) = e.skipMissing.walk defined fuel := by
            rw [hwalk, hc]
            simp only [hd', Bool.false_eq_true, if_false]
          rw [hw, hfold]
          have hlt : n + 1 < fuel + 1 ↔ n < fuel := by omega
          have heq : n + 1 = fuel + 1 ↔ n = fuel := by omega
          simp only [hlt, heq]
          exact hfin

theorem turn_turned (defined : Nat → Bool) (e : Entry) : e.Turned defined (e.turn defined) :=
  walk_turned defined e.clips.length e

end Sys2Proof.Machine
end

