-- ==== Sys2Proof/Laws/Memory.lean ====
section
/-! SUPPORT. The laws of the buffer memory: a read after a write, and the canonical form that every write keeps. -/

namespace Sys2Proof.Machine

open Sys2Proof

/-! ## The canonical form -/

/-- Nothing is listed at or below the bound of a canonical tail. -/
theorem Memory.read_of_le {m : Memory} {lo a : Nat} (h : Memory.wfAbove (some lo) m = true) (ha : a ≤ lo) :
    m.read a = Config.unwritten := by
  induction m generalizing lo with
  | nil => rfl
  | cons c rest ih =>
    obtain ⟨k, b⟩ := c
    simp only [Memory.wfAbove, Bool.and_eq_true, decide_eq_true_eq] at h
    have hk : k ≠ a := by omega
    simp only [Memory.read, hk, ↓reduceIte]
    exact ih h.2 (by omega)

/-- A lower bound of a canonical list may be taken lower. -/
theorem Memory.wfAbove_mono {m : Memory} {lo lo' : Nat} (h : Memory.wfAbove (some lo) m = true) (hl : lo' ≤ lo) :
    Memory.wfAbove (some lo') m = true := by
  cases m with
  | nil => rfl
  | cons c rest =>
    simp only [Memory.wfAbove, Bool.and_eq_true, decide_eq_true_eq] at h ⊢
    exact ⟨⟨by omega, h.1.2⟩, h.2⟩

/-- A lower bound of a canonical list may be dropped. -/
theorem Memory.wf_of_wfAbove {m : Memory} {lo : Nat} (h : Memory.wfAbove (some lo) m = true) : Memory.wf m = true := by
  cases m with
  | nil => rfl
  | cons c rest =>
    simp only [Memory.wf, Memory.wfAbove, Bool.and_eq_true, decide_eq_true_eq] at h ⊢
    exact ⟨⟨trivial, h.1.2⟩, h.2⟩

/-- A write above the bound keeps the canonical form. -/
theorem Memory.wfAbove_write {m : Memory} {lo a : Nat} (v : Byte) (h : Memory.wfAbove (some lo) m = true) (ha : lo < a) :
    Memory.wfAbove (some lo) (m.write a v) = true := by
  induction m generalizing lo with
  | nil =>
    simp only [Memory.write]
    split
    · rfl
    · simp_all [Memory.wfAbove]
  | cons c rest ih =>
    obtain ⟨k, b⟩ := c
    have h' := h
    simp only [Memory.wfAbove, Bool.and_eq_true, decide_eq_true_eq] at h'
    obtain ⟨⟨hk, hb⟩, hr⟩ := h'
    simp only [Memory.write]
    split
    · rename_i hak
      split
      · exact h
      · rename_i hv
        simp [Memory.wfAbove, ha, hv, hak, hb, hr]
    · split
      · split
        · exact Memory.wfAbove_mono hr (by omega)
        · rename_i hak hv
          subst hak
          simp [Memory.wfAbove, hk, hv, hr]
      · simp [Memory.wfAbove, hk, hb, ih hr (by omega)]

/-- A write keeps the canonical form. -/
theorem Memory.wf_write {m : Memory} (a : Nat) (v : Byte) (h : Memory.wf m = true) : Memory.wf (m.write a v) = true := by
  cases m with
  | nil =>
    simp only [Memory.write]
    split
    · rfl
    · simp_all [Memory.wf, Memory.wfAbove]
  | cons c rest =>
    obtain ⟨k, b⟩ := c
    have h' := h
    simp only [Memory.wf, Memory.wfAbove, Bool.and_eq_true, decide_eq_true_eq] at h'
    obtain ⟨⟨-, hb⟩, hr⟩ := h'
    simp only [Memory.write]
    split
    · split
      · exact h
      · rename_i hak hv
        simp [Memory.wf, Memory.wfAbove, hv, hak, hb, hr]
    · split
      · split
        · exact Memory.wf_of_wfAbove hr
        · rename_i hak hv
          subst hak
          simp [Memory.wf, Memory.wfAbove, hv, hr]
      · have hka : k < a := by omega
        simp [Memory.wf, Memory.wfAbove, hb, Memory.wfAbove_write v hr hka]

/-- A masked write keeps the canonical form. -/
theorem Memory.wf_writeFrom (a : Word) (d : List Byte) :
    ∀ {m : Memory} (i : Nat) (e : List Bool), Memory.wf m = true → Memory.wf (m.writeFrom a i d e) = true := by
  induction d with
  | nil => intro m i e h; simpa [Memory.writeFrom] using h
  | cons b ds ih =>
    intro m i e h
    cases e with
    | nil => simpa [Memory.writeFrom] using h
    | cons x es =>
      simp only [Memory.writeFrom]
      apply ih
      split
      · exact Memory.wf_write _ _ h
      · exact h

/-- A masked write keeps the canonical form. -/
theorem Memory.wf_writeMasked {m : Memory} (a : Word) (d : List Byte) (e : List Bool) (h : Memory.wf m = true) :
    Memory.wf (m.writeMasked a d e) = true :=
  Memory.wf_writeFrom a d 0 e h

/-- Memory after reset is canonical. -/
theorem Memory.wf_reset : Memory.wf State.reset.mem = true := rfl

/-! ## Reads after writes -/

/-- A write leaves every other address as it was. -/
theorem Memory.read_write_ne (m : Memory) {a b : Nat} (v : Byte) (h : a ≠ b) : (m.write a v).read b = m.read b := by
  induction m with
  | nil =>
    simp only [Memory.write]
    split
    · rfl
    · simp [Memory.read, h]
  | cons c rest ih =>
    obtain ⟨k, x⟩ := c
    simp only [Memory.write]
    split
    · split
      · rfl
      · simp [Memory.read, h]
    · split
      · rename_i hak
        subst hak
        split <;> simp [Memory.read, h]
      · simp only [Memory.read, ih]

/-- A read after a write to the same address gives the byte written, in a canonical memory. -/
theorem Memory.read_write_self {m : Memory} (a : Nat) (v : Byte) (h : Memory.wf m = true) : (m.write a v).read a = v := by
  suffices H : ∀ (lo : Option Nat), Memory.wfAbove lo m = true → (m.write a v).read a = v from H none h
  clear h
  induction m with
  | nil =>
    intro lo _
    simp only [Memory.write]
    split
    · rename_i hv; simp [Memory.read, hv]
    · simp [Memory.read]
  | cons c rest ih =>
    obtain ⟨k, x⟩ := c
    intro lo h
    simp only [Memory.wfAbove, Bool.and_eq_true] at h
    simp only [Memory.write]
    split
    · rename_i hak
      split
      · rename_i hv
        have hk : k ≠ a := by omega
        simp only [Memory.read, hk, ↓reduceIte, hv]
        exact Memory.read_of_le h.2 (by omega)
      · simp [Memory.read]
    · split
      · rename_i hak
        subst hak
        split
        · rename_i hv
          rw [hv]
          exact Memory.read_of_le h.2 (le_refl _)
        · simp [Memory.read]
      · rename_i h1 h2
        have hk : k ≠ a := fun e => h2 e.symm
        simp only [Memory.read, hk, ↓reduceIte]
        exact ih _ h.2

/-- A masked write leaves every byte as it was that is no enabled byte of it. -/
theorem Memory.read_writeFrom_other (a : Word) (d : List Byte) :
    ∀ (m : Memory) (i : Nat) (e : List Bool) (x : Nat),
      (∀ j, j < d.length → e[j]? = some true → addrPlus a (i + j) ≠ x) → (m.writeFrom a i d e).read x = m.read x := by
  induction d with
  | nil => intro m i e x _; simp [Memory.writeFrom]
  | cons b ds ih =>
    intro m i e x h
    cases e with
    | nil => simp [Memory.writeFrom]
    | cons y es =>
      simp only [Memory.writeFrom]
      rw [ih _ (i + 1) es x]
      · split
        · rename_i hy
          exact Memory.read_write_ne m _ (by simpa using h 0 (by simp) (by simp [hy]))
        · rfl
      · intro j hj he
        have := h (j + 1) (by simpa using hj) (by simpa using he)
        rwa [show i + 1 + j = i + (j + 1) by omega]

/-- A masked write leaves every byte as it was that is no enabled byte of it. -/
theorem Memory.read_writeMasked_other (m : Memory) (a : Word) (d : List Byte) (e : List Bool) (x : Nat)
    (h : ∀ j, j < d.length → e[j]? = some true → addrPlus a j ≠ x) : (m.writeMasked a d e).read x = m.read x :=
  Memory.read_writeFrom_other a d m 0 e x (by simpa using h)

/-- The enabled bytes of a masked write read back as written, in a canonical memory. -/
theorem Memory.read_writeFrom_enabled (a : Word) (d : List Byte) :
    ∀ (m : Memory) (i : Nat) (e : List Bool) (j : Nat) (hj : j < d.length), Memory.wf m = true → i + d.length ≤ 2 ^ 32 →
      e[j]? = some true → (m.writeFrom a i d e).read (addrPlus a (i + j)) = d[j] := by
  induction d with
  | nil => intro m i e j hj; simp at hj
  | cons b ds ih =>
    intro m i e j hj hm hlen he
    cases e with
    | nil => simp at he
    | cons y es =>
      simp only [Memory.writeFrom]
      have hm' : Memory.wf (if y = true then m.write (addrPlus a i) b else m) = true := by
        split
        · exact Memory.wf_write _ _ hm
        · exact hm
      cases j with
      | zero =>
        have hy : y = true := by simpa using he
        rw [Memory.read_writeFrom_other]
        · simp only [hy, ↓reduceIte, Nat.add_zero, List.getElem_cons_zero]
          exact Memory.read_write_self _ _ hm
        · intro j' hj' _ heq
          simp only [List.length_cons] at hlen
          simp only [addrPlus, Nat.add_zero] at heq
          have := a.isLt
          omega
      | succ j =>
        have := ih (if y = true then m.write (addrPlus a i) b else m) (i + 1) es j (by simpa using hj) hm'
          (by simp only [List.length_cons] at hlen; omega) (by simpa using he)
        simpa [show i + (j + 1) = i + 1 + j by omega] using this

/-- The enabled bytes of a masked write read back as written, in a canonical memory. -/
theorem Memory.read_writeMasked_enabled {m : Memory} (a : Word) (d : List Byte) (e : List Bool) {j : Nat} (hj : j < d.length)
    (hm : Memory.wf m = true) (hlen : d.length ≤ 2 ^ 32) (he : e[j]? = some true) :
    (m.writeMasked a d e).read (addrPlus a j) = d[j] := by
  simpa [Memory.writeMasked] using Memory.read_writeFrom_enabled a d m 0 e j hj hm (by omega) he

end Sys2Proof.Machine
end

