-- ==== Sys2Proof/Laws/PerInstr.lean ====
section
/-! SUPPORT. One family of facts about each step as syntax: which operands make it presentable, and that no table word
spells it. -/

namespace Sys2Proof.Laws.Shape

open Sys2Proof

/-- The one test of a step's operands: a port request is well formed, a lane number is below 16, and nothing else can be wrong;
and no table word spells the step, since the table gives no row bits. -/
def Statement (i : Instr) : Prop :=
  (i.wf = true ↔
    (∀ r, i = .qPortAccept r → r.wf = true) ∧ ∀ l, i = .slateCountdownExpiry l ∨ i = .laneClockFold l → l < 16) ∧
  ∀ nbits w, decodeTableWord nbits w ≠ some i

/-- Every step has the shape its constructor's test gives it. -/
theorem holds (i : Instr) : Statement i := by
  refine ⟨?_, fun _ _ => nofun⟩
  cases i <;> simp [Instr.wf]

theorem qPortAccept (r : QRequest) : Statement (.qPortAccept r) := holds _
theorem mPortGrant : Statement .mPortGrant := holds _
theorem readDataArrival : Statement .readDataArrival := holds _
theorem slotReadProcedure : Statement .slotReadProcedure := holds _
theorem slateCountdownExpiry (lane : Nat) : Statement (.slateCountdownExpiry lane) := holds _
theorem fetchDataArrival : Statement .fetchDataArrival := holds _
theorem readReturn : Statement .readReturn := holds _
theorem regionSet : Statement .regionSet := holds _
theorem laneSet : Statement .laneSet := holds _
theorem laneEnable : Statement .laneEnable := holds _
theorem laneDisable : Statement .laneDisable := holds _
theorem laneStatus : Statement .laneStatus := holds _
theorem clipSet : Statement .clipSet := holds _
theorem clipClear : Statement .clipClear := holds _
theorem place : Statement .place := holds _
theorem withdraw : Statement .withdraw := holds _
theorem placementStatus : Statement .placementStatus := holds _
theorem cue : Statement .cue := holds _
theorem alertProfile : Statement .alertProfile := holds _
theorem alertStart : Statement .alertStart := holds _
theorem alertRenew : Statement .alertRenew := holds _
theorem alertEnd : Statement .alertEnd := holds _
theorem alertLock : Statement .alertLock := holds _
theorem auditMark : Statement .auditMark := holds _
theorem logAck : Statement .logAck := holds _
theorem unclaim : Statement .unclaim := holds _
theorem unknownCommand : Statement .unknownCommand := holds _
theorem rstNAssert : Statement .rstNAssert := holds _
theorem rstNRelease : Statement .rstNRelease := holds _
theorem bypassAssert : Statement .bypassAssert := holds _
theorem bypassRelease : Statement .bypassRelease := holds _
theorem ealRawChange (level : Bool) : Statement (.ealRawChange level) := holds _
theorem ealFilterExpiry : Statement .ealFilterExpiry := holds _
theorem holdSecondElapsed : Statement .holdSecondElapsed := holds _
theorem holdLimitExpiry : Statement .holdLimitExpiry := holds _
theorem renewalPeriodExpiry : Statement .renewalPeriodExpiry := holds _
theorem laneClockFold (lane : Nat) : Statement (.laneClockFold lane) := holds _

end Sys2Proof.Laws.Shape
end

