-- ==== Sys2Proof/Laws/StageSix.lean ====
section
/-! SUPPORT. What the last two stages of a slot read do, and the whole procedure, in the terms of the statements (R62 to R65, R97, R105,
R106, R108 to R110, R117 to R128). -/

namespace Sys2Proof.Machine

open Sys2Proof

/-- What the model carries through the stages of a read. -/
def ReadAt.ctx (r : ReadAt) : ReadCtx := { lane := r.lane, slot := r.slot, insp := r.insp, clock := r.clock }

/-- What a source comes to for the read. -/
def ReadAt.served (r : ReadAt) : Src → Served
  | .returns slot => .returns slot
  | .waits starting => .waits { lane := r.lane, starting := starting, clock := r.clock }

theorem nullSlot_eq (r : ReadAt) : nullSlot r.ctx = .returns r.null := rfl

/-! ## Lanes that change in their lookahead only -/

theorem looking_lane (s : State) {l : Nat} (hl : l < 16) (k : Look) : (s.looking l k).lane l = { s.lane l with look := k } :=
  s.lane_setLane_self _ hl

theorem stacking_lane (s : State) {l : Nat} (hl : l < 16) (st : List Entry) : (s.stacking l st).lane l = { s.lane l with stack := st } :=
  s.lane_setLane_self _ hl

theorem overtaken_lane (s : State) {l : Nat} (hl : l < 16) : ∃ k, (s.overtaken l).lane l = { s.lane l with look := k } := by
  unfold State.overtaken
  cases h : (s.lane l).look with
  | empty => exact ⟨(s.lane l).look, rfl⟩
  | full => exact ⟨.empty, looking_lane s hl _⟩
  | fetching key a granted stale demand =>
    cases granted with
    | false => exact ⟨.empty, looking_lane s hl _⟩
    | true => exact ⟨_, looking_lane s hl _⟩

theorem matched_lane (s : State) {l : Nat} (hl : l < 16) (e : Entry) : ∃ k, (s.matched l e).lane l = { s.lane l with look := k } := by
  unfold State.matched
  have hs : ∃ k, s.lane l = { s.lane l with look := k } := ⟨(s.lane l).look, rfl⟩
  split
  · exact hs
  · exact hs
  · split
    · exact hs
    · exact overtaken_lane s hl
  · split
    · exact hs
    · exact overtaken_lane s hl

theorem matched_stack (s : State) {l : Nat} (hl : l < 16) (e : Entry) : ((s.matched l e).lane l).stack = (s.lane l).stack := by
  obtain ⟨k, hk⟩ := matched_lane s hl e
  rw [hk]

theorem matched_record (s : State) {l : Nat} (hl : l < 16) (e : Entry) : ((s.matched l e).lane l).record = (s.lane l).record := by
  obtain ⟨k, hk⟩ := matched_lane s hl e
  rw [hk]

theorem onTop_cons (x : Lane) (e : Entry) (below : List Entry) (h : x.stack = e :: below) (f : Entry → Entry) :
    x.onTop f = { x with stack := f e :: below } := by
  unfold Lane.onTop
  rw [h]

theorem onLane_onTop (s : State) (l : Nat) (e : Entry) (below : List Entry) (h : (s.lane l).stack = e :: below) (f : Entry → Entry) :
    (s.onLane l fun x => x.onTop f) = s.stacking l (f e :: below) := by
  unfold State.onLane State.stacking
  simp only [onTop_cons _ e below h]

theorem damageClip_eq (s : State) {l : Nat} (hl : l < 16) (e : Entry) (below : List Entry) (h : (s.lane l).stack = e :: below) :
    damageClip l s = (s.stacking l (e.decided .damaged :: below)).looking l .empty := by
  unfold damageClip State.looking State.onLane
  rw [stacking_lane s hl, State.stacking, setLane_twice]
  simp only [onTop_cons _ e below h, endClip_eq]

/-! ## The draw (R57, R64, R110, R119, R121, R123, R127) -/

theorem afterDraw_eq (e : Entry) (role : Option (Fin 4)) (lag count : Nat) :
    e.afterDraw role.isSome lag count =
      match e.current with
      | none => e
      | some (j, k) =>
        let played : Entry :=
          { e with
            current := some (j, k + 1), maxLag := max e.maxLag lag, aired := e.aired || role.isSome
            tally := if role = none then e.tally else e.tally.modify j fun n => { n with aired := n.aired + 1 } }
        if k + 1 = count then played.decided .aired else played := by
  unfold Entry.afterDraw
  cases e.current with
  | none => rfl
  | some c =>
    obtain ⟨j, k⟩ := c
    cases role <;> simp [endClip_eq]

theorem currentClip_eq (e : Entry) : e.currentClip = e.current.bind fun c => e.clips[c.1]? := rfl

/-- A due packet drawn. -/
theorem drawPacket_draws (r : ReadAt) (e : Entry) (below : List Entry) (held : List Byte) (i : Insp) (s : State)
    (h : (s.lane r.lane).stack = e :: below) :
    ∃ out, (drawPacket r.ctx e held i s).2 = .returns out ∧ s.Draws r e below held i (drawPacket r.ctx e held i s).1 out := by
  unfold drawPacket State.Draws
  simp only [mappedRole_eq, currentClip_eq]
  have hlane : r.ctx.lane = r.lane := rfl
  have hslot : r.ctx.slot = r.slot := rfl
  have hlag : rtSince (slotTag r.slot) (dueTime e held) = (slotTag r.slot - (slotTag held + e.tagOffset)).toNat := rfl
  rw [hlane, hslot, hlag]
  cases hr : (s.lane r.lane).record.libraryRole (s.clip ((e.current.bind fun c => e.clips[c.1]?).getD 0)) i with
  | none =>
    refine ⟨r.null, rfl, ?_, rfl⟩
    have := afterDraw_eq e none (slotTag r.slot - (slotTag held + e.tagOffset)).toNat
      (s.clip ((e.current.bind fun c => e.clips[c.1]?).getD 0)).count
    simp only [Option.isSome_none] at this
    simp only [onTop_cons _ e below h, this, Option.isSome_none] <;> rfl
  | some p =>
    have hd := afterDraw_eq e (some p) (slotTag r.slot - (slotTag held + e.tagOffset)).toNat
      (s.clip ((e.current.bind fun c => e.clips[c.1]?).getD 0)).count
    simp only [Option.isSome_some] at hd
    have hcc : (((s.lane r.lane).roles[p]).library i.hasPayload).2 =
        if i.hasPayload = true then ((s.lane r.lane).roles[p]).outLast + 1 else ((s.lane r.lane).roles[p]).outLast := by
      unfold RoleState.library
      split <;> rfl
    have hst : (((s.lane r.lane).roles[p]).library i.hasPayload).1 =
        { (s.lane r.lane).roles[p] with
          outLast := if i.hasPayload = true then ((s.lane r.lane).roles[p]).outLast + 1 else ((s.lane r.lane).roles[p]).outLast } := by
      unfold RoleState.library
      split <;> rfl
    refine ⟨_, rfl, ?_, _, rewritePacket_rewritten _ i _ _ _ (libraryRole_pid hr), ?_⟩
    · simp only [hst, onTop_cons _ e below h, hd, Option.isSome_some] <;> rfl
    · simp only [hcc]
      rfl

/-! ## The lookahead consulted (R62, R65, R108, R119) -/

theorem consultLook_consults (r : ReadAt) (hl : r.lane < 16) (e : Entry) (below : List Entry) (s : State)
    (h : (s.lane r.lane).stack = e :: below) :
    s.Consults r e below (consultLook r.ctx e s).1 (r.served (consultLook r.ctx e s).2) := by
  unfold consultLook State.Consults
  have hlane : r.ctx.lane = r.lane := rfl
  have hslot : r.ctx.slot = r.slot := rfl
  rw [hlane, alignLook_eq _ s e below h]
  have hm : ((s.matched r.lane e).lane r.lane).stack = e :: below := (matched_stack s hl e).trans h
  simp only
  generalize s.matched r.lane e = u at hm
  cases hk : (u.lane r.lane).look with
  | empty => exact ⟨demandFetch_eq _ u e below hm, rfl⟩
  | fetching => exact ⟨demandFetch_eq _ u e below hm, rfl⟩
  | full key held i damaged =>
    simp only
    cases damaged with
    | true =>
      simp only [if_true]
      exact ⟨damageClip_eq u hl e below hm, rfl⟩
    | false =>
      simp only [Bool.false_eq_true, if_false]
      by_cases hd : e.dueAt held (slotTag r.slot)
      · have hd' : rtAtOrAfter (slotTag r.ctx.slot) (dueTime e held) = true := decide_eq_true hd
        rw [if_pos hd', if_pos hd]
        obtain ⟨out, h1, h2⟩ := drawPacket_draws r e below held i u hm
        exact ⟨out, h2, by rw [h1]; rfl⟩
      · have hd' : ¬ rtAtOrAfter (slotTag r.ctx.slot) (dueTime e held) = true := fun hh => hd (of_decide_eq_true hh)
        rw [if_neg hd', if_neg hd]
        exact ⟨rfl, rfl⟩

/-! ## A clip's start (R63, R65, R108, R117) -/

/-- What the procedure comes to after a clip start: its state, and what it serves. -/
def ReadAt.afterTurn (r : ReadAt) (start : Pt) (x : State × Turn) : State × Served :=
  match x.2 with
  | .waits => (x.1, .waits { lane := r.lane, starting := true, clock := start })
  | .damaged => ((stageSix r.ctx true x.1).1, r.served (stageSix r.ctx true x.1).2)
  | .nothing | .ready => ((stageSix r.ctx false x.1).1, r.served (stageSix r.ctx false x.1).2)

theorem listDone_of_current {e : Entry} (h : e.current ≠ none) : e.listDone = false := by
  unfold Entry.listDone
  simp [h]

theorem decided_current (e : Entry) (o : ClipOutcome) : (e.decided o).current = none := by
  unfold Entry.decided
  split
  · rfl
  · assumption

/-- The last stage once a clip start of this read has found its slot 0 damaged. -/
theorem stageSix_damaged (r : ReadAt) (e : Entry) (below : List Entry) (s : State) (h : (s.lane r.lane).stack = e :: below)
    (hc : e.current = none) :
    stageSix r.ctx true s = (s, .returns (if (s.lane r.lane).record.passes r.insp = true then r.slot else r.null)) := by
  unfold stageSix sourceEntry Lane.top
  have hlane : r.ctx.lane = r.lane := rfl
  have hinsp : r.ctx.insp = r.insp := rfl
  rw [hlane, hinsp, h]
  simp only [List.head?_cons, hc, Option.isSome_none, Bool.false_eq_true, if_false, if_true, nullSlot_eq]
  split
  · rfl
  · split <;> rfl

/-- The last stage with a current clip on top. -/
theorem stageSix_current (r : ReadAt) (noTurn : Bool) (e : Entry) (below : List Entry) (s : State)
    (h : (s.lane r.lane).stack = e :: below) (hc : e.current ≠ none) :
    stageSix r.ctx noTurn s =
      if (s.lane r.lane).record.passes r.insp = true then (s, .returns r.slot) else consultLook r.ctx e s := by
  unfold stageSix sourceEntry Lane.top
  have hlane : r.ctx.lane = r.lane := rfl
  have hinsp : r.ctx.insp = r.insp := rfl
  have hsome : e.current.isSome = true := by
    cases hcc : e.current with
    | none => exact absurd hcc hc
    | some c => rfl
  rw [hlane, hinsp, h]
  simp only [List.head?_cons, exhausted_eq, listDone_of_current hc, Bool.false_eq_true, if_false, hsome, if_true]
  rfl

theorem beginClip_begins (r : ReadAt) (hl : r.lane < 16) (start : Pt) (e : Entry) (below : List Entry) (s : State)
    (h : (s.lane r.lane).stack = e :: below) (hc : e.current ≠ none) :
    let y := r.afterTurn start (beginClip r.ctx start s)
    s.Begins r start e below y.1 y.2 := by
  unfold State.Begins beginClip
  have hlane : r.ctx.lane = r.lane := rfl
  have hslot : r.ctx.slot = r.slot := rfl
  rw [hlane, alignLook_eq _ s e below h]
  have hm : ((s.matched r.lane e).lane r.lane).stack = e :: below := (matched_stack s hl e).trans h
  have hrec := matched_record s hl e
  simp only
  rw [← hrec]
  generalize s.matched r.lane e = u at hm
  cases hk : (u.lane r.lane).look with
  | empty => exact ⟨demandFetch_eq _ u e below hm, rfl⟩
  | fetching => exact ⟨demandFetch_eq _ u e below hm, rfl⟩
  | full key slot0 i damaged =>
    simp only
    cases damaged with
    | true =>
      simp only [if_true, ReadAt.afterTurn]
      rw [damageClip_eq u hl e below hm]
      have hst : (((u.stacking r.lane (e.decided .damaged :: below)).looking r.lane .empty).lane r.lane).stack =
          e.decided .damaged :: below := by
        rw [looking_lane _ hl, stacking_lane _ hl]
      have hrc : (((u.stacking r.lane (e.decided .damaged :: below)).looking r.lane .empty).lane r.lane).record =
          (u.lane r.lane).record := by
        rw [looking_lane _ hl, stacking_lane _ hl]
      rw [stageSix_damaged r _ below _ hst (decided_current e .damaged), hrc]
      exact ⟨rfl, rfl⟩
    | false =>
      simp only [Bool.false_eq_true, if_false, ReadAt.afterTurn]
      have hset : setOffsets r.ctx start slot0 u =
          u.stacking r.lane
            ({ e with
                ptsOffset := start - (u.clip ((e.current.bind fun c => e.clips[c.1]?).getD 0)).firstPts
                tagOffset := slotTag r.slot - slotTag slot0 } :: below) := by
        unfold setOffsets
        rw [hlane, onLane_onTop u r.lane e below hm]
        rfl
      rw [hset]
      generalize he' : ({ e with
                ptsOffset := start - (u.clip ((e.current.bind fun c => e.clips[c.1]?).getD 0)).firstPts
                tagOffset := slotTag r.slot - slotTag slot0 } : Entry) = e'
      have hc' : e'.current ≠ none := by rw [← he']; exact hc
      have hst : ((u.stacking r.lane (e' :: below)).lane r.lane).stack = e' :: below := by rw [stacking_lane _ hl]
      have hrc : ((u.stacking r.lane (e' :: below)).lane r.lane).record = (u.lane r.lane).record := by rw [stacking_lane _ hl]
      rw [stageSix_current r false e' below _ hst hc', hrc]
      by_cases hp : (u.lane r.lane).record.passes r.insp = true
      · rw [if_pos hp, if_pos hp]
        exact ⟨rfl, rfl⟩
      · rw [if_neg hp, if_neg hp]
        exact consultLook_consults r hl e' below _ hst

/-! ## Stage 6 (R108, R109, R128) -/

theorem sourceBase_eq (r : ReadAt) (s : State) :
    sourceBase r.ctx s =
      match (s.lane r.lane).record.role r.insp with
      | none => (s, .returns r.slot)
      | some p =>
        let x := s.lane r.lane
        let i := r.insp
        let delta := if x.roles[p].realign = true ∧ i.hasPayload = true then x.roles[p].outLast + 1 - i.cc else x.roles[p].delta
        let outLast := if i.hasPayload = true then i.cc + delta else x.roles[p].outLast
        let realign := x.roles[p].realign && !i.hasPayload
        (s.setLane r.lane { x with roles := x.roles.set p { outLast := outLast, delta := delta, realign := realign } },
          .returns (r.slot.take 4 ++ setCc (r.slot.drop 4) (i.cc + delta))) := by
  unfold sourceBase
  have hlane : r.ctx.lane = r.lane := rfl
  have hslot : r.ctx.slot = r.slot := rfl
  have hinsp : r.ctx.insp = r.insp := rfl
  rw [hlane, hslot, hinsp]
  simp only
  cases (s.lane r.lane).record.role r.insp with
  | none => rfl
  | some p =>
    have hk : ((s.lane r.lane).roles[p]).network r.insp.hasPayload r.insp.cc =
        ({ outLast :=
            if r.insp.hasPayload = true then
              r.insp.cc + (if ((s.lane r.lane).roles[p]).realign = true ∧ r.insp.hasPayload = true then
                ((s.lane r.lane).roles[p]).outLast + 1 - r.insp.cc else ((s.lane r.lane).roles[p]).delta)
            else ((s.lane r.lane).roles[p]).outLast
           delta := if ((s.lane r.lane).roles[p]).realign = true ∧ r.insp.hasPayload = true then
                ((s.lane r.lane).roles[p]).outLast + 1 - r.insp.cc else ((s.lane r.lane).roles[p]).delta
           realign := ((s.lane r.lane).roles[p]).realign && !r.insp.hasPayload },
          r.insp.cc + (if ((s.lane r.lane).roles[p]).realign = true ∧ r.insp.hasPayload = true then
                ((s.lane r.lane).roles[p]).outLast + 1 - r.insp.cc else ((s.lane r.lane).roles[p]).delta)) := by
      unfold RoleState.network RoleState.realigned
      generalize (s.lane r.lane).roles[p] = k
      obtain ⟨o, d, ra⟩ := k
      cases r.insp.hasPayload <;> cases ra <;> simp
    simp only [hk]
    rfl

/-- The last stage of a slot read, no clip start of this read having failed. -/
theorem stageSix_serves (r : ReadAt) (hl : r.lane < 16) (s : State) :
    s.Serves r (stageSix r.ctx false s).1 (r.served (stageSix r.ctx false s).2) := by
  unfold State.Serves stageSix Lane.top
  have hlane : r.ctx.lane = r.lane := rfl
  have hinsp : r.ctx.insp = r.insp := rfl
  rw [hlane, hinsp]
  simp only
  by_cases hp : (s.lane r.lane).record.passes r.insp = true
  · rw [if_pos hp, if_pos hp]
    exact ⟨rfl, rfl⟩
  rw [if_neg hp, if_neg hp]
  cases hst : (s.lane r.lane).stack with
  | nil =>
    simp only [List.head?_nil]
    rw [sourceBase_eq]
    cases (s.lane r.lane).record.role r.insp with
    | none => exact ⟨rfl, rfl⟩
    | some p => exact ⟨by simp only [hst], rfl⟩
  | cons e below =>
    simp only [List.head?_cons]
    unfold sourceEntry
    rw [exhausted_eq, nullSlot_eq]
    cases hd : e.listDone with
    | true => exact ⟨rfl, rfl⟩
    | false =>
      simp only [Bool.false_eq_true, if_false]
      by_cases hc : e.current = none
      · simp only [hc, ne_eq, not_true_eq_false, Option.isSome_none, Bool.false_eq_true, if_false]
        refine ⟨e.turn fun id => (s.clip id).defined, turn_turned _ e, ?_⟩
        unfold takeTurn Lane.top
        rw [hlane, hst]
        simp only [List.head?_cons]
        generalize e.turn (fun id => (s.clip id).defined) = e'
        rw [onLane_onTop s r.lane e below hst]
        have hst' : ((s.stacking r.lane (e' :: below)).lane r.lane).stack = e' :: below := by rw [stacking_lane _ hl]
        have hrc : ((s.stacking r.lane (e' :: below)).lane r.lane).record = (s.lane r.lane).record := by rw [stacking_lane _ hl]
        generalize hu : s.stacking r.lane (e' :: below) = u at hst' hrc
        by_cases hc' : e'.current = none
        · simp only [hc', Option.isSome_none, Bool.false_eq_true, if_false, if_true]
          exact ⟨trivial, rfl⟩
        · have hsome' : e'.current.isSome = true := by
            cases h : e'.current with
            | none => exact absurd h hc'
            | some c => rfl
          simp only [hsome', if_true, hc', if_false]
          have hb := beginClip_begins r hl r.clock e' below u hst' hc'
          simp only at hb
          have hp' : ¬ (u.lane r.lane).record.passes r.insp = true := by rw [hrc]; exact hp
          have hclock : r.ctx.clock = r.clock := rfl
          rw [hclock]
          -- the pass-list test of the outcome's last stage has failed already
          have hkey : ∀ x : State × Turn, beginClip r.ctx r.clock u = x →
              (match x with
                | (s, Turn.nothing) => (s, Src.returns r.null)
                | (s, Turn.damaged) => (s, Src.returns r.null)
                | (s, Turn.waits) => (s, Src.waits true)
                | (s, Turn.ready) =>
                  match (s.lane r.lane).stack.head? with
                  | some e => consultLook r.ctx e s
                  | none => (s, Src.returns r.null)) =
              ((r.afterTurn r.clock x).1, match (r.afterTurn r.clock x).2 with
                | .returns slot => Src.returns slot
                | .waits w => Src.waits w.starting) ∧
              r.served (match (r.afterTurn r.clock x).2 with
                | .returns slot => Src.returns slot
                | .waits w => Src.waits w.starting) = (r.afterTurn r.clock x).2 := by
            intro x hx
            have hal := alignLook_eq r.lane u e' below hst'
            have hmst := (matched_stack u hl e').trans hst'
            have hmrc := (matched_record u hl e').trans hrc
            unfold beginClip at hx
            rw [hlane, hal] at hx
            simp only at hx
            generalize u.matched r.lane e' = m at hx hmst hmrc
            cases hk : (m.lane r.lane).look with
            | empty => rw [hk] at hx; subst hx; exact ⟨rfl, rfl⟩
            | fetching => rw [hk] at hx; subst hx; exact ⟨rfl, rfl⟩
            | full key slot0 i damaged =>
              rw [hk] at hx
              simp only at hx
              cases damaged with
              | true =>
                simp only [if_true] at hx
                subst hx
                rw [damageClip_eq m hl e' below hmst]
                have h1 : (((m.stacking r.lane (e'.decided .damaged :: below)).looking r.lane .empty).lane r.lane).stack =
                    e'.decided .damaged :: below := by rw [looking_lane _ hl, stacking_lane _ hl]
                have h2 : (((m.stacking r.lane (e'.decided .damaged :: below)).looking r.lane .empty).lane r.lane).record =
                    (m.lane r.lane).record := by rw [looking_lane _ hl, stacking_lane _ hl]
                have h3 := stageSix_damaged r _ below _ h1 (decided_current e' .damaged)
                rw [h2, hmrc, if_neg hp] at h3
                simp only [ReadAt.afterTurn, h3]
                exact ⟨rfl, rfl⟩
              | false =>
                simp only [Bool.false_eq_true, if_false] at hx
                subst hx
                have hset : ∃ e₂ : Entry, setOffsets r.ctx r.clock slot0 m = m.stacking r.lane (e₂ :: below) ∧ e₂.current = e'.current := by
                  refine ⟨_, onLane_onTop m r.lane e' below hmst _, rfl⟩
                obtain ⟨e₂, h0, hc₂⟩ := hset
                rw [h0]
                have h1 : ((m.stacking r.lane (e₂ :: below)).lane r.lane).stack = e₂ :: below := by rw [stacking_lane _ hl]
                have h2 : ((m.stacking r.lane (e₂ :: below)).lane r.lane).record = (m.lane r.lane).record := by rw [stacking_lane _ hl]
                have h3 := stageSix_current r false e₂ below _ h1 (by rw [hc₂]; exact hc')
                rw [h2, hmrc, if_neg hp] at h3
                simp only [ReadAt.afterTurn, h3, h1, List.head?_cons]
                cases hcl : consultLook r.ctx e₂ (m.stacking r.lane (e₂ :: below)) with
                | mk a b => cases b <;> exact ⟨rfl, rfl⟩
          obtain ⟨k1, k2⟩ := hkey _ rfl
          have : ∀ (y : State × Src), y = ((r.afterTurn r.clock (beginClip r.ctx r.clock u)).1,
              match (r.afterTurn r.clock (beginClip r.ctx r.clock u)).2 with
                | .returns slot => Src.returns slot
                | .waits w => Src.waits w.starting) → u.Begins r r.clock e' below y.1 (r.served y.2) := by
            intro y hy
            rw [hy]
            simp only [k2]
            exact hb
          exact this _ k1
      · have hsome : e.current.isSome = true := by
          cases h : e.current with
          | none => exact absurd h hc
          | some c => rfl
        simp only [hsome, if_true, hc, ne_eq, not_false_eq_true]
        exact consultLook_consults r hl e below s hst

end Sys2Proof.Machine
end

