-- ==== Sys2Proof/Laws/SlotRead.lean ====
section
/-! SUPPORT. What the reveal of a slot read does, and the whole procedure, in the terms of the statements (R97, R104 to R106). -/

namespace Sys2Proof.Machine

open Sys2Proof

/-! ## Stage 5 (R105, R106) -/

theorem isSome_of_ne {α : Type} {o : Option α} (h : o ≠ none) : o.isSome = true := by
  cases o with
  | none => exact absurd rfl h
  | some => rfl

theorem settleOld_eq (one four : State) (l : Nat) (restarted : Bool) (hr : restarted = true ↔ one.Restarts l) :
    settleOld l (one.lane l).top restarted four = four.stacking l (one.settledTop four l) := by
  unfold settleOld State.settledTop Lane.top
  cases restarted with
  | true =>
    have hr' : one.Restarts l := hr.1 rfl
    rw [if_pos rfl, if_pos hr']
    unfold State.onLane State.stacking Lane.onTop
    cases hs : (four.lane l).stack with
    | nil =>
      simp only [hs]
      have : ({ four.lane l with stack := [] } : Lane) = four.lane l := by rw [← hs]
      rw [this]
    | cons e below => simp only [hs, Entry.restart]
  | false =>
    have hr' : ¬ one.Restarts l := fun h => Bool.false_ne_true (hr.2 h)
    rw [if_neg Bool.false_ne_true, if_neg hr']
    cases ho : (one.lane l).stack.head? with
    | none =>
      simp only [Option.map_none, reduceCtorEq, if_false, List.map_id']
      rw [State.stacking]
      exact (setLane_eq_self four l _ rfl).symm
    | some o =>
      simp only [Option.map_some, Option.some.injEq]
      unfold State.onLane State.stacking Lane.onSource
      have : (fun e : Entry => if e.source = o.source then e.cover else e) =
          fun e => if o.source = e.source then e.covered else e := by
        funext e
        rw [cover_eq]
        by_cases h : e.source = o.source
        · rw [if_pos h, if_pos h.symm]
        · rw [if_neg h, if_neg (Ne.symm h)]
      rw [this]

theorem decided_source (e : Entry) (o : ClipOutcome) : (e.decided o).source = e.source := by
  unfold Entry.decided; split <;> rfl

theorem settledTop_source (one four : State) (l : Nat) (e : Entry) (below : List Entry) (h : one.settledTop four l = e :: below) :
    (four.lane l).stack.head?.map Entry.source = some e.source := by
  unfold State.settledTop at h
  simp only at h
  by_cases hr : one.Restarts l
  · rw [if_pos hr] at h
    cases hs : (four.lane l).stack with
    | nil => rw [hs] at h; simp at h
    | cons a rest =>
      rw [hs] at h
      simp only [List.cons.injEq] at h
      simp [← h.1]
  · rw [if_neg hr] at h
    cases hs : (four.lane l).stack with
    | nil => rw [hs] at h; simp at h
    | cons a rest =>
      rw [hs] at h
      simp only [List.map_cons, List.cons.injEq] at h
      simp only [List.head?_cons, Option.map_some, ← h.1]
      split
      · simp [Entry.covered, decided_source]
      · rfl

/-- A clip's turn on the top of a state, and what serves the slot after it. -/
theorem takeTurn_after (r : ReadAt) (hl : r.lane < 16) (start : Pt) (e : Entry) (below : List Entry) (s : State)
    (h : (s.lane r.lane).stack = e :: below) :
    let y := r.afterTurn start (takeTurn r.ctx start s)
    ∃ e', e.Turned (fun id => (s.clip id).defined) e' ∧
      let s' := s.stacking r.lane (e' :: below)
      if e'.current = none then s'.Serves r y.1 y.2 else s'.Begins r start e' below y.1 y.2 := by
  intro y
  refine ⟨e.turn fun id => (s.clip id).defined, turn_turned _ e, ?_⟩
  have hy : y = r.afterTurn start (takeTurn r.ctx start s) := rfl
  clear_value y
  unfold takeTurn Lane.top at hy
  have hlane : r.ctx.lane = r.lane := rfl
  rw [hlane, h] at hy
  simp only [List.head?_cons] at hy
  generalize e.turn (fun id => (s.clip id).defined) = e' at hy ⊢
  rw [onLane_onTop s r.lane e below h] at hy
  have hst' : ((s.stacking r.lane (e' :: below)).lane r.lane).stack = e' :: below := by rw [stacking_lane _ hl]
  simp only
  generalize s.stacking r.lane (e' :: below) = u at hy hst' ⊢
  by_cases hc : e'.current = none
  · rw [if_pos hc]
    rw [hc] at hy
    simp only [Option.isSome_none, Bool.false_eq_true, if_false, ReadAt.afterTurn] at hy
    rw [hy]
    exact stageSix_serves r hl u
  · rw [if_neg hc]
    rw [if_pos (isSome_of_ne hc)] at hy
    rw [hy]
    exact beginClip_begins r hl start e' below u hst' hc

/-- Stages 5 and 6 from the states of the earlier stages. -/
theorem stageFive_reveals (r : ReadAt) (hl : r.lane < 16) (one three four : State) (start : Pt) (restarted : Bool)
    (hr : restarted = true ↔ one.Restarts r.lane)
    (hin : ∀ id, (four.lane r.lane).stack.head?.map Entry.source = some (.placement id) →
      three.EntersNow r.lane r.clock ((three.lane r.lane).record.anchorRap r.insp) id → start = (four.placement id).entryTime)
    (hout : (∀ id, (four.lane r.lane).stack.head?.map Entry.source = some (.placement id) →
      ¬ three.EntersNow r.lane r.clock ((three.lane r.lane).record.anchorRap r.insp) id) → start = r.clock) :
    let y := r.afterTurn start (stageFive r.ctx start (one.lane r.lane).top restarted four)
    one.Reveals three four r y.1 y.2 := by
  intro y
  have hy : y = r.afterTurn start (stageFive r.ctx start (one.lane r.lane).top restarted four) := rfl
  clear_value y
  unfold State.Reveals
  simp only
  unfold stageFive at hy
  have hlane : r.ctx.lane = r.lane := rfl
  rw [hlane] at hy
  have htop : four.topChanged r.lane (one.lane r.lane).top restarted = true ↔ one.TopChanges four r.lane := by
    unfold State.topChanged State.TopChanges Lane.top
    rw [Bool.or_eq_true, hr, decide_eq_true_eq]
  by_cases hc : one.TopChanges four r.lane
  · rw [if_neg (not_not.2 hc)]
    rw [if_pos (htop.2 hc), settleOld_eq one four r.lane restarted hr] at hy
    simp only [overtake_eq] at hy
    have hstk : (((four.stacking r.lane (one.settledTop four r.lane)).overtaken r.lane).lane r.lane).stack =
        one.settledTop four r.lane := by
      obtain ⟨k, hk⟩ := overtaken_lane (four.stacking r.lane (one.settledTop four r.lane)) hl
      rw [hk, stacking_lane _ hl]
    have hsrc := settledTop_source one four r.lane
    generalize (four.stacking r.lane (one.settledTop four r.lane)).overtaken r.lane = u at hy hstk ⊢
    generalize one.settledTop four r.lane = st at hstk hsrc ⊢
    unfold Lane.top at hy
    rw [hstk] at hy
    cases st with
    | nil =>
      simp only [List.head?_nil, ReadAt.afterTurn] at hy
      rw [hy]
      exact stageSix_serves r hl u
    | cons old below =>
      simp only [List.head?_cons, exhausted_eq] at hy
      have hset : (u.onLane r.lane fun x => x.onTop fun e => { e with hasBeenTop := true }) =
          u.stacking r.lane ({ old with hasBeenTop := true } :: below) := onLane_onTop u r.lane old below hstk _
      rw [hset] at hy
      have hld : ({ old with hasBeenTop := true } : Entry).listDone = old.listDone := rfl
      simp only [hld]
      have hsr := hsrc old below rfl
      generalize ({ old with hasBeenTop := true } : Entry) = e at hy ⊢
      by_cases hd : old.listDone = true
      · rw [if_pos hd]
        rw [if_pos hd] at hy
        simp only [ReadAt.afterTurn] at hy
        rw [hy]
        exact stageSix_serves r hl _
      · rw [if_neg hd]
        rw [if_neg hd] at hy
        have hst' : ((u.stacking r.lane (e :: below)).lane r.lane).stack = e :: below := by rw [stacking_lane _ hl]
        obtain ⟨e', ht, h'⟩ := takeTurn_after r hl start e below (u.stacking r.lane (e :: below)) hst'
        rw [← hy] at h'
        have htwice : (u.stacking r.lane (e :: below)).stacking r.lane (e' :: below) = u.stacking r.lane (e' :: below) := by
          unfold State.stacking
          rw [setLane_twice, State.lane_setLane_self _ _ hl]
        simp only [htwice] at h'
        refine ⟨e', ht, ?_⟩
        by_cases hcc : e'.current = none
        · rw [if_pos hcc]
          rw [if_pos hcc] at h'
          exact h'
        · rw [if_neg hcc]
          rw [if_neg hcc] at h'
          refine ⟨start, fun id hid hent => hin id (by rw [hsr, hid]) hent, fun hno => hout fun id hid => ?_, h'⟩
          rw [hsr] at hid
          exact hno id (Option.some.inj hid)
  · rw [if_pos hc]
    rw [if_neg (fun h => hc (htop.1 h))] at hy
    simp only [ReadAt.afterTurn] at hy
    rw [hy]
    exact stageSix_serves r hl four

/-! ## The whole procedure (R97) -/

theorem entersOf_iff (st : List Entry) (k : Kind) (ids : List Nat) (hs : ids.Pairwise (· < ·)) (id : Nat) :
    entersOf st k ids = some id ↔ id ∈ ids ∧ (¬ ∃ e ∈ st, e.kind = k) ∧ ∀ j ∈ ids, ¬ j < id := by
  unfold entersOf
  by_cases hex : ∃ e ∈ st, e.kind = k
  · rw [if_pos hex]
    simp [hex]
  · rw [if_neg hex]
    cases ids with
    | nil => simp
    | cons a rest =>
      obtain ⟨h1, -⟩ := List.pairwise_cons.1 hs
      simp only [List.head?_cons, Option.some.injEq, hex, not_false_eq_true, true_and]
      constructor
      · rintro rfl
        refine ⟨List.mem_cons_self .., fun j hj => ?_⟩
        rcases List.mem_cons.1 hj with rfl | hj
        · exact lt_irrefl _
        · exact Nat.not_lt.2 (Nat.le_of_lt (h1 j hj))
      · rintro ⟨hm, hlow⟩
        rcases List.mem_cons.1 hm with rfl | hm
        · rfl
        · exact absurd (h1 id hm) (hlow a (List.mem_cons_self ..))

/-- The placements inserted at the entries stage are those that enter (R104, R106). -/
theorem entered_iff (cx : ReadCtx) (hl : cx.lane < 16) (s : State) (id : Nat) :
    id ∈ (stageFour cx s).entered (s.offered cx .advert ++ s.offered cx .programme) ↔
      s.EntersNow cx.lane cx.clock (cx.rap s) id := by
  obtain ⟨hsA, hA⟩ := offered_offers s cx .advert
  obtain ⟨hsP, hP⟩ := offered_offers s cx .programme
  obtain ⟨-, -, -, w4, hmA, hmP, -⟩ := stageFour_after cx hl s
  have eA := entersOf_iff (s.lane cx.lane).stack .advert _ hsA
  have eP := entersOf_iff (s.lane cx.lane).stack .programme _ hsP
  revert hA hP w4 hmA hmP eA eP
  generalize s.offered cx .advert = as
  generalize s.offered cx .programme = ps
  generalize stageFour cx s = w
  intro hA hP w4 hmA hmP eA eP
  have hin : id ∈ w.entered (as ++ ps) ↔
      entersOf (s.lane cx.lane).stack .advert as = some id ∨ entersOf (s.lane cx.lane).stack .programme ps = some id := by
    unfold State.entered
    rw [List.mem_filter, List.mem_append, w4 id]
    by_cases hc : id ∈ (entersOf (s.lane cx.lane).stack .advert as).toList ++ (entersOf (s.lane cx.lane).stack .programme ps).toList
    · rw [if_pos hc]
      simp only [List.mem_append, Option.mem_toList] at hc
      refine ⟨fun _ => hc, fun h => ⟨?_, rfl⟩⟩
      rcases h with h | h
      · exact Or.inl (hmA id h)
      · exact Or.inr (hmP id h)
    · rw [if_neg hc]
      simp only [List.mem_append, Option.mem_toList] at hc
      refine ⟨fun ⟨h1, h2⟩ => ?_, fun h => absurd h hc⟩
      have hst : (s.placement id).state = .pending := by
        rcases h1 with h | h
        · exact ((hA id).1 h).2.2.1
        · exact ((hP id).1 h).2.2.1
      rw [if_pos h1] at h2
      simp [Placement.onStack, hst] at h2
  rw [hin, eA, eP, hA, hP]
  unfold State.EntersNow
  constructor
  · rintro (⟨⟨h1, h2, h3⟩, h4, h5⟩ | ⟨⟨h1, h2, h3⟩, h4, h5⟩)
    · refine ⟨h1, Or.inl h2, h3, by rw [h2]; exact h4, fun j hj hk hc => ?_⟩
      exact h5 j ((hA j).2 ⟨by omega, by rw [hk, h2], hc⟩) hj
    · refine ⟨h1, Or.inr h2, h3, by rw [h2]; exact h4, fun j hj hk hc => ?_⟩
      exact h5 j ((hP j).2 ⟨by omega, by rw [hk, h2], hc⟩) hj
  · rintro ⟨h1, h2 | h2, h3, h4, h5⟩
    · rw [h2] at h4
      refine Or.inl ⟨⟨h1, h2, h3⟩, h4, fun j hj hlt => ?_⟩
      obtain ⟨-, hk, hc⟩ := (hA j).1 hj
      exact h5 j hlt (by rw [hk, h2]) hc
    · rw [h2] at h4
      refine Or.inr ⟨⟨h1, h2, h3⟩, h4, fun j hj hlt => ?_⟩
      obtain ⟨-, hk, hc⟩ := (hP j).1 hj
      exact h5 j hlt (by rw [hk, h2]) hc

/-- The start time of a clip that a change of top starts (R106). -/
theorem startTime_start (cx : ReadCtx) (hl : cx.lane < 16) (three four : State) :
    let start := startTime cx ((stageFour cx three).entered (three.offered cx .advert ++ three.offered cx .programme)) four
    (∀ id, (four.lane cx.lane).stack.head?.map Entry.source = some (.placement id) →
      three.EntersNow cx.lane cx.clock (cx.rap three) id → start = (four.placement id).entryTime) ∧
    ((∀ id, (four.lane cx.lane).stack.head?.map Entry.source = some (.placement id) →
      ¬ three.EntersNow cx.lane cx.clock (cx.rap three) id) → start = cx.clock) := by
  intro start
  have hs : start = startTime cx ((stageFour cx three).entered (three.offered cx .advert ++ three.offered cx .programme)) four := rfl
  clear_value start
  unfold startTime Lane.top at hs
  have he := entered_iff cx hl three
  refine ⟨fun id hid hent => ?_, fun hno => ?_⟩
  · rw [hid] at hs
    simp only [if_pos ((he id).2 hent)] at hs
    exact hs
  · cases hh : (four.lane cx.lane).stack.head?.map Entry.source with
    | none => rw [hh] at hs; exact hs
    | some src =>
      rw [hh] at hs
      cases src with
      | placement id =>
        simp only [if_neg (fun h => hno id hh ((he id).1 h))] at hs
        exact hs
      | laneSlate => exact hs
      | profile p => exact hs

/-! ## What the stages leave (R97) -/

/-- What the stages of a read keep: the forward queue, the lines, and everything else outside the lanes, placements, log and
arbiter's fetches. -/
def KeepsRest (s t : State) : Prop :=
  t = { s with lanes := t.lanes, placements := t.placements, log := t.log, router := { s.router with fetchOrder := t.router.fetchOrder } }

theorem KeepsRest.refl (s : State) : KeepsRest s s := rfl

theorem KeepsRest.trans {s t u : State} (h : KeepsRest s t) (g : KeepsRest t u) : KeepsRest s u := by
  unfold KeepsRest at *
  rw [g, h]

theorem KeepsRest.setLane (s : State) (l : Nat) (x : Lane) : KeepsRest s (s.setLane l x) := rfl

theorem KeepsRest.requestFetch (l : Nat) (e : Entry) (d : Bool) (s : State) : KeepsRest s (Machine.requestFetch l e d s) := by
  unfold Machine.requestFetch
  split
  · rfl
  · rfl

theorem KeepsRest.demandFetch (l : Nat) (s : State) : KeepsRest s (Machine.demandFetch l s) := by
  unfold Machine.demandFetch
  split
  · rfl
  · rfl
  · split
    · rfl
    · exact KeepsRest.requestFetch _ _ _ _

theorem KeepsRest.overtake (l : Nat) (s : State) : KeepsRest s (Machine.overtake l s) := by
  unfold Machine.overtake
  split
  · rfl
  · rfl
  · split <;> rfl

theorem KeepsRest.alignLook (l : Nat) (s : State) : KeepsRest s (Machine.alignLook l s) := by
  unfold Machine.alignLook
  split
  · rfl
  · split
    · rfl
    · exact KeepsRest.overtake _ _

theorem KeepsRest.consultLook (cx : ReadCtx) (e : Entry) (s : State) : KeepsRest s (Machine.consultLook cx e s).1 := by
  unfold Machine.consultLook
  refine (KeepsRest.alignLook cx.lane s).trans ?_
  generalize Machine.alignLook cx.lane s = u
  simp only
  split
  · split
    · rfl
    · split
      · unfold drawPacket
        simp only
        split <;> rfl
      · rfl
  · exact KeepsRest.demandFetch _ _
  · exact KeepsRest.demandFetch _ _

theorem KeepsRest.beginClip (cx : ReadCtx) (start : Pt) (s : State) : KeepsRest s (Machine.beginClip cx start s).1 := by
  unfold Machine.beginClip
  refine (KeepsRest.alignLook cx.lane s).trans ?_
  generalize Machine.alignLook cx.lane s = u
  simp only
  split
  · split <;> rfl
  · exact KeepsRest.demandFetch _ _
  · exact KeepsRest.demandFetch _ _

theorem KeepsRest.takeTurn (cx : ReadCtx) (start : Pt) (s : State) : KeepsRest s (Machine.takeTurn cx start s).1 := by
  unfold Machine.takeTurn
  split
  · rfl
  · simp only
    split
    · exact (KeepsRest.setLane s _ _).trans (KeepsRest.beginClip _ _ _)
    · rfl

theorem KeepsRest.stageSix (cx : ReadCtx) (b : Bool) (s : State) : KeepsRest s (Machine.stageSix cx b s).1 := by
  unfold Machine.stageSix
  split
  · rfl
  · split
    · unfold sourceBase
      simp only
      split <;> rfl
    · unfold sourceEntry
      split
      · rfl
      · split
        · exact KeepsRest.consultLook _ _ _
        · split
          · rfl
          · have h := KeepsRest.takeTurn cx cx.clock s
            revert h
            generalize Machine.takeTurn cx cx.clock s = x
            intro h
            obtain ⟨u, turn⟩ := x
            cases turn with
            | nothing => exact h
            | damaged => exact h
            | waits => exact h
            | ready =>
              simp only
              split
              · exact h.trans (KeepsRest.consultLook _ _ _)
              · exact h

theorem KeepsRest.stageFive (cx : ReadCtx) (start : Pt) (old : Option Entry) (b : Bool) (s : State) :
    KeepsRest s (Machine.stageFive cx start old b s).1 := by
  unfold Machine.stageFive
  split
  · have h : KeepsRest s (Machine.overtake cx.lane (settleOld cx.lane old b s)) := by
      refine KeepsRest.trans ?_ (KeepsRest.overtake _ _)
      unfold settleOld
      split
      · rfl
      · split <;> rfl
    revert h
    generalize Machine.overtake cx.lane (settleOld cx.lane old b s) = u
    intro h
    simp only
    split
    · exact h
    · split
      · exact h.trans (KeepsRest.setLane u _ _)
      · exact (h.trans (KeepsRest.setLane u _ _)).trans (KeepsRest.takeTurn _ _ _)
  · rfl

/-! ## The end of the procedure (R59, R64, R97, R108) -/

/-- The state of a procedure that has come to what it serves. -/
def finished (l : Nat) (y : State × Served) : State :=
  match y.2 with
  | .returns slot => prefetchTest l (completeRead slot y.1)
  | .waits w => { y.1 with wait := some w }

theorem finishSource_eq (r : ReadAt) (x : State × Src) : finishSource r.ctx x = finished r.lane (x.1, r.served x.2) := by
  obtain ⟨u, src⟩ := x
  cases src <;> rfl

theorem afterStart_eq (r : ReadAt) (start : Pt) (x : State × Turn) :
    afterStart r.ctx start x = finished r.lane (r.afterTurn start x) := by
  obtain ⟨u, turn⟩ := x
  cases turn <;> simp only [afterStart, ReadAt.afterTurn, finishSource_eq]
  rfl

theorem changeFirst_eq {α : Type} (test : α → Bool) (g : α → α) (pre : List α) (a : α) (post : List α)
    (hpre : ∀ b ∈ pre, test b = false) (ha : test a = true) : changeFirst test g (pre ++ a :: post) = pre ++ g a :: post := by
  induction pre with
  | nil => simp [changeFirst, ha]
  | cons b rest ih =>
    have hb := hpre b (List.mem_cons_self ..)
    rw [List.cons_append, changeFirst, if_neg (by rw [hb]; exact Bool.false_ne_true),
      ih fun c hc => hpre c (List.mem_cons_of_mem _ hc), List.cons_append]

/-- The read in hand becomes READY. -/
theorem completeRead_eq (u : State) (pre : List FwdEntry) (f : FwdEntry) (post : List FwdEntry) (out : List Byte)
    (h : u.FirstIn .arrived pre f post) : completeRead out u = { u.readied pre f post out with wait := none } := by
  obtain ⟨h1, h2, h3⟩ := h
  unfold completeRead State.readied
  simp only
  rw [h1, changeFirst_eq FwdEntry.isArrived _ pre f post (fun g hg => decide_eq_false (h3 g hg)) (decide_eq_true h2)]
  rfl

theorem finished_finishes (u : State) (pre : List FwdEntry) (f : FwdEntry) (post : List FwdEntry) (l : Nat) (v : Served)
    (h : u.FirstIn .arrived pre f post) (b : State) : u.Finishes pre f post l v (settle b (finished l (u, v))) := by
  cases v with
  | waits w => exact settle_apart _ _
  | returns out =>
    unfold State.Finishes finished
    simp only
    rw [settle_apart, prefetchTest_eq, completeRead_eq u pre f post out h]
    rfl

theorem KeepsRest.firstIn {s t : State} (h : KeepsRest s t) {st : FwdState} {pre : List FwdEntry} {f : FwdEntry}
    {post : List FwdEntry} (hf : s.FirstIn st pre f post) : t.FirstIn st pre f post := by
  refine ⟨?_, hf.2⟩
  unfold KeepsRest at h
  rw [h]
  exact hf.1

/-! ## The whole procedure (R97) -/

theorem noTwice_map (st : List Entry) (g : Entry → Entry) (hg : ∀ e, (g e).placementId = e.placementId ∨ (g e).placementId = none)
    (h : noTwice st) : noTwice (st.map g) := by
  refine List.Pairwise.map g (fun a b hab => ?_) h
  rcases hg a with ha | ha
  · rcases hg b with hb | hb
    · rw [ha, hb]; exact hab
    · rw [ha, hb]
      cases a.placementId <;> simp
  · exact Or.inl ha

theorem noTwice_cons {e : Entry} {st : List Entry} (he : e.placementId = none) (h : noTwice st) : noTwice (e :: st) :=
  List.pairwise_cons.2 ⟨fun _ _ => Or.inl he, h⟩

theorem noTwice_append {e : Entry} {st : List Entry} (he : e.placementId = none) (h : noTwice st) : noTwice (st ++ [e]) := by
  refine List.pairwise_append.2 ⟨h, List.pairwise_singleton _ _, fun a _ b hb => ?_⟩
  rw [List.mem_singleton.1 hb, he]
  cases a.placementId <;> simp

/-- The stage of requests gives no placement a second entry. -/
theorem requests_noTwice {one two : State} {l : Nat} (hl : l < 16) (h : one.Requests l two) (hn : noTwice (one.lane l).stack) :
    noTwice (two.lane l).stack := by
  unfold State.Requests at h
  rw [h, State.lane_setLane_self _ _ hl]
  clear h
  simp only
  have h1 : noTwice (one.afterAlert l) := by
    unfold State.afterAlert
    have hins : ∀ p : Nat, noTwice
        (if ∃ e ∈ (one.lane l).stack, e.kind = .alert then
          (one.lane l).stack.map fun e =>
            if e.kind = .alert then
              { e with source := .profile p, clips := (one.alert.profileAt p).clips, endRequested := false }
            else e
        else Entry.new .alert (.profile p) (one.alert.profileAt p).clips none .atEnd :: (one.lane l).stack) := by
      intro p
      split
      · refine noTwice_map _ _ (fun e => ?_) hn
        split
        · exact Or.inr rfl
        · exact Or.inl rfl
      · exact noTwice_cons rfl hn
    simp only
    split
    · exact hn
    · exact hins _
    · exact hins _
    · refine noTwice_map _ _ (fun e => ?_) hn
      split <;> exact Or.inl rfl
  generalize one.afterAlert l = a at h1
  have h2 : noTwice ((one.lane l).afterInsert a) := by
    unfold Lane.afterInsert
    split
    · refine noTwice_map _ _ (fun e => ?_) h1
      split <;> exact Or.inl rfl
    · split
      · exact noTwice_append rfl h1
      · exact h1
  generalize (one.lane l).afterInsert a = c at h2
  have h3 : noTwice (if ∃ q ∈ (one.lane l).slateInsert, q.due = true then c else a) := by split <;> assumption
  generalize (if ∃ q ∈ (one.lane l).slateInsert, q.due = true then c else a) = d at h3
  split
  · refine noTwice_map _ _ (fun e => ?_) h3
    split <;> exact Or.inl rfl
  · exact h3

theorem first_noTwice {s one : State} {l k : Nat} {i : Insp} (h : s.FirstStage l k i one) (hn : noTwice (s.lane l).stack) :
    noTwice (one.lane l).stack := by
  obtain ⟨-, -, h3, -⟩ := h
  rw [h3]
  exact noTwice_map _ _ (fun e => Or.inl rfl) hn

theorem enabled_lt {s : State} {l : Nat} (he : (s.lane l).enabled = true) : l < 16 := by
  by_contra h
  rw [State.lane_of_le s (Nat.not_lt.1 h)] at he
  simp [Lane.reset] at he

/-- The whole procedure of a slot read of an enabled lane, BYPASS not held: its stages one after the other, and its end. -/
theorem runProcedure_staged (s : State) (pre : List FwdEntry) (f : FwdEntry) (post : List FwdEntry) (l k : Nat)
    (hf : s.FirstIn .arrived pre f post) (he : (s.lane l).enabled = true) (hb : s.bypass = false)
    (hn : noTwice (s.lane l).stack) (b : State) :
    ∃ r one two three four six v, r.lane = l ∧ r.slot = f.raw ∧ s.Staged r k one two three four ∧
      one.Reveals three four r six v ∧ six.Finishes pre f post l v (settle b (runProcedure l k f.raw s)) := by
  have hl := enabled_lt he
  have hi : inspect (slotPacket f.raw) = inspect (f.raw.drop 4) := rfl
  have h1 := stageOne_first l k (inspect (slotPacket f.raw)) s he
  have hrun : runProcedure l k f.raw s =
      if (stageOne l k (inspect (slotPacket f.raw)) s).bypass = true then
        completeRead f.raw (stageOne l k (inspect (slotPacket f.raw)) s)
      else spliceStages
        { lane := l, slot := f.raw, insp := inspect (slotPacket f.raw),
          clock := (stageOne l k (inspect (slotPacket f.raw)) s).clock l } (stageOne l k (inspect (slotPacket f.raw)) s) := rfl
  rw [hrun]
  clear hrun
  generalize stageOne l k (inspect (slotPacket f.raw)) s = one at h1 ⊢
  have hk1 : KeepsRest s one := by
    have := h1.1
    unfold KeepsRest
    rw [this]
  have hb1 : one.bypass = false := by
    have := h1.1
    rw [this]
    exact hb
  have hrec1 : (one.lane l).record = (s.lane l).record := by rw [h1.2.2.1]
  rw [if_neg (by rw [hb1]; exact Bool.false_ne_true)]
  obtain ⟨r, hr⟩ : ∃ r : ReadAt, r = { lane := l, slot := f.raw, clock := one.clock l } := ⟨_, rfl⟩
  have hctx : ({ lane := l, slot := f.raw, insp := inspect (slotPacket f.raw), clock := one.clock l } : ReadCtx) = r.ctx := by
    rw [hr]; rfl
  have hrl : r.lane = l := by rw [hr]
  have hrs : r.slot = f.raw := by rw [hr]
  have hrc : r.clock = one.clock l := by rw [hr]
  have hri : r.insp = inspect (slotPacket f.raw) := by rw [hr]; rfl
  have hrcl : r.ctx.lane = r.lane := rfl
  have hrcc : r.ctx.clock = r.clock := rfl
  rw [hctx]
  clear hctx hr
  have hl' : r.lane < 16 := by rw [hrl]; exact hl
  obtain ⟨h2, hrest⟩ := stageTwo_requests r.lane hl' one
  have hrap : ∀ u : State, (u.lane r.lane).record = (s.lane l).record → r.ctx.rap u = (s.lane r.lane).record.anchorRap r.insp := by
    intro u hu
    show (u.lane r.lane).record.anchorRap r.insp = _
    rw [hu, hrl]
  unfold spliceStages
  simp only [hrcl]
  generalize stageTwo r.lane one = x2 at h2 hrest ⊢
  obtain ⟨two, restarted⟩ := x2
  simp only at h2 hrest ⊢
  have hn2 : noTwice (two.lane r.lane).stack := requests_noTwice hl' h2 (by rw [hrl]; exact first_noTwice h1 hn)
  have hk2 : KeepsRest one two := by
    unfold State.Requests at h2
    rw [h2]
    exact KeepsRest.setLane _ _ _
  have hrec2 : (two.lane r.lane).record = (s.lane l).record := by
    unfold State.Requests at h2
    rw [h2, State.lane_setLane_self _ _ hl']
    simp only
    rw [hrl]
    exact hrec1
  have h3 := stageThree_ends r.ctx hl' two hn2
  rw [hrap two hrec2] at h3
  generalize stageThree r.ctx two = three at h3 ⊢
  have hthree : three = { two with lanes := three.lanes, placements := three.placements, log := three.log } ∧
      (three.lane r.lane).record = (two.lane r.lane).record := by
    unfold State.Ends at h3
    simp only at h3
    split at h3
    · rw [h3]; exact ⟨rfl, rfl⟩
    · exact ⟨h3.1, by have := h3.2.2.1; rw [show r.ctx.lane = r.lane from rfl] at this; rw [this]⟩
  have hk3 : KeepsRest two three := by
    unfold KeepsRest
    rw [hthree.1]
  have hrec3 : (three.lane r.lane).record = (s.lane l).record := hthree.2.trans hrec2
  have h4 := stageFour_entries r.ctx hl' three
  have hst := startTime_start r.ctx hl' three (syncStack ((stageFour r.ctx three).lane r.ctx.lane).stack (stageFour r.ctx three))
  simp only [hrcl] at h4 hst
  rw [hrap three hrec3] at h4 hst
  generalize syncStack ((stageFour r.ctx three).lane r.lane).stack (stageFour r.ctx three) = four at h4 hst ⊢
  have hk4 : KeepsRest three four := by
    obtain ⟨_, _, _, _, h, _⟩ := h4
    unfold KeepsRest
    rw [h]
  generalize (stageFour r.ctx three).entered (three.offered r.ctx .advert ++ three.offered r.ctx .programme) = ent at hst ⊢
  generalize startTime r.ctx ent four = start at hst ⊢
  rw [afterStart_eq]
  have h5 := stageFive_reveals r hl' one three four start restarted hrest
    (fun id hid hent => hst.1 id hid (by
      have := hent
      rw [hrec3, ← hrl] at this
      exact this))
    (fun hno => hst.2 fun id hid hent => hno id hid (by
      rw [hrec3, ← hrl]
      exact hent))
  have hk5 := KeepsRest.stageFive r.ctx start (one.lane r.lane).top restarted four
  generalize hx5 : stageFive r.ctx start (one.lane r.lane).top restarted four = x5 at h5 hk5 ⊢
  have hk6 : KeepsRest x5.1 (r.afterTurn start x5).1 := by
    obtain ⟨u, turn⟩ := x5
    cases turn with
    | waits => exact KeepsRest.refl _
    | damaged => exact KeepsRest.stageSix _ _ _
    | nothing => exact KeepsRest.stageSix _ _ _
    | ready => exact KeepsRest.stageSix _ _ _
  have hall := ((((hk1.trans hk2).trans hk3).trans hk4).trans hk5).trans hk6
  refine ⟨r, one, two, three, four, (r.afterTurn start x5).1, (r.afterTurn start x5).2, hrl, hrs, ⟨?_, ?_, h2, ?_, ?_⟩, h5, ?_⟩
  · rw [hrl, hri]; exact h1
  · rw [hrl]; exact hrc
  · exact h3
  · exact h4
  · rw [hrl]
    exact finished_finishes _ pre f post l _ (hall.firstIn hf) b

/-! ## The continuation of a wait (R60, R97) -/

/-- A waiting procedure continues from the point where it waited. -/
theorem resumeRead_continues (w : WaitingRead) (hl : w.lane < 16) (s : State) (pre : List FwdEntry) (f : FwdEntry)
    (post : List FwdEntry) (hf : s.FirstIn .arrived pre f post) (e : Entry) (below : List Entry)
    (hst : (s.lane w.lane).stack = e :: below) (hc : w.starting = true → e.current ≠ none) (b : State) :
    ∃ six v,
      (if w.starting = true then s.Begins { lane := w.lane, slot := f.raw, clock := w.clock } w.clock e below six v
        else s.Consults { lane := w.lane, slot := f.raw, clock := w.clock } e below six v) ∧
      six.Finishes pre f post w.lane v (settle b (resumeRead w s)) := by
  have hold : s.oldestArrived = some f := by
    unfold State.oldestArrived
    rw [hf.1]
    exact List.find?_eq_some_iff_append.2
      ⟨decide_eq_true hf.2.1, pre, post, rfl, fun g hg => by
        have := hf.2.2 g hg
        simp [FwdEntry.isArrived, this]⟩
  obtain ⟨r, hr⟩ : ∃ r : ReadAt, r = { lane := w.lane, slot := f.raw, clock := w.clock } := ⟨_, rfl⟩
  have hctx : ({ lane := w.lane, slot := f.raw, insp := inspect (slotPacket f.raw), clock := w.clock } : ReadCtx) = r.ctx := by
    rw [hr]; rfl
  have hrl : r.lane = w.lane := by rw [hr]
  rw [← hr]
  unfold resumeRead
  rw [hold]
  simp only
  rw [hctx]
  clear hctx hr
  rw [← hrl] at hl hst ⊢
  by_cases hw : w.starting = true
  · rw [if_pos hw, afterStart_eq]
    have h := beginClip_begins r hl w.clock e below s hst (hc hw)
    have hk1 := KeepsRest.beginClip r.ctx w.clock s
    generalize beginClip r.ctx w.clock s = x at h hk1 ⊢
    have hk2 : KeepsRest x.1 (r.afterTurn w.clock x).1 := by
      obtain ⟨u, turn⟩ := x
      cases turn with
      | waits => exact KeepsRest.refl _
      | damaged => exact KeepsRest.stageSix _ _ _
      | nothing => exact KeepsRest.stageSix _ _ _
      | ready => exact KeepsRest.stageSix _ _ _
    exact ⟨_, _, by rw [if_pos hw]; exact h, finished_finishes _ pre f post _ _ ((hk1.trans hk2).firstIn hf) b⟩
  · rw [if_neg hw]
    unfold Lane.top
    rw [hst]
    simp only [List.head?_cons]
    rw [finishSource_eq]
    exact ⟨_, _, by rw [if_neg hw]; exact consultLook_consults r hl e below s hst,
      finished_finishes _ pre f post _ _ ((KeepsRest.consultLook r.ctx e s).firstIn hf) b⟩

end Sys2Proof.Machine
end

