-- ==== Sys2Proof/Tests/Slice0.lean ====
section
/-! SUPPORT. Tests of single steps against the manual's tables and worked examples, and for every statement that has
hypotheses a witness: a concrete state and operands that meet them, at a boundary value of each clause. -/

namespace Sys2Proof.Tests

set_option Elab.async false

open Sys2Proof Sys2Proof.Machine

/-! ## Helpers -/

/-- The state a step answers; the state itself where it refuses. -/
def after (i : Instr) (s : State) : State :=
  match exec i s with
  | .next t => t
  | .fault _ | .refused _ => s

/-- A WRITE of whole lines. -/
def wr (a : Word) (d : List Byte) : QRequest := .write a d (List.replicate d.length true)

/-- A WRITE of one line of words. -/
def wrLine (a : Word) (ws : List Word) : QRequest := wr a (wordsBytes (padWords 16 ws))

/-- A transport packet: PUSI, PID, adaptation field control, counter, and what follows byte 3. -/
def packet (pusi : Bool) (pid : Nat) (control cc : Nat) (rest : List Nat) : List Byte :=
  (([0x47, (if pusi then 64 else 0) + pid / 256, pid % 256, control * 16 + cc] ++ rest ++ List.replicate 188 0xAA).take
    188).map (BitVec.ofNat 8)

/-- The five bytes of a timestamp (12.2): prefix and three marker bits of 1. -/
def stamp (prefixBits v : Nat) : List Nat :=
  [prefixBits * 16 + v / 2 ^ 30 * 2 + 1, v / 2 ^ 22 % 256, v / 2 ^ 15 % 128 * 2 + 1, v / 2 ^ 7 % 256, v % 128 * 2 + 1]

/-- A PES header with a PTS. -/
def pesPts (v : Nat) : List Nat := [0, 0, 1, 0xE0, 0, 0, 0x80, 0x80, 5] ++ stamp 2 v

/-- A slot: arrival tag and packet. -/
def slot (tag : Nat) (p : List Byte) : List Byte := wordBytes (word tag) ++ p

/-- Lane 0 of the stage: enabled on ring 0, anchored at 5,400,000. -/
def lane0 : Lane :=
  { Lane.reset with
    record := { LaneRecord.reset with
      isSet := true, roles := #v[0x100, 0x101, 0x102, 0x1FFF], passList := [0x20], cuePid := 0x1F0, slateClip := some 7
      entryWindow := 900 }
    enabled := true, monitor := Monitor.fresh .blank, clockC := 5400000, anchored := true }

/-- Lane 1 of the stage: its record is set, on ring 3, and it is not enabled. -/
def lane1 : Lane := { Lane.reset with record := { LaneRecord.reset with isSet := true, zone := 1, region := 3, roles := #v[0x100, 0x1FFF, 0x1FFF, 0x1FFF] } }

/-- A placement by cue on lane 0 in a state. -/
def byCue (st : PState) (avail : Word) : Placement :=
  { Placement.vacant with state := st, trigger := .cue, avail := avail, clips := [7], duration := 900000 }

/-- Profile 0 on zone 0 with severity 5, and profile 1 on zones 0 and 1 with severity 6 (chapter 8's example settings). -/
def profiles : Vector Profile 4 :=
  #v[{ defined := true, zones := 1, severity := 5, clips := [7], holdLimit := 600, period := 100, lockedFraction := 4,
       loopLimit := 6, reaction := .warn },
     { defined := true, zones := 3, severity := 6, clips := [7], holdLimit := 1800, period := 50, lockedFraction := 8,
       loopLimit := 4, reaction := .release }, Profile.undefined, Profile.undefined]

/-- CLAIMED at 0x08000000: ring 0 of lane 0 and ring 3 of lane 1 (16 slots each), a LIBRARY region, a LOG region of 16 lines;
clips 7 and 8 defined; placements 3 ARMED and 4 PENDING; profiles 0 and 1 defined. -/
def stage : State :=
  { State.reset with
    router := { Router.reset with
      controlBase := some 0x08000000
      regions := (((Router.reset.regions.setIfInBounds 0 ⟨.ring, 0x01000000, 0x01000C00, 0⟩).setIfInBounds 1
        ⟨.library, 0x02000000, 0x02010000, 0⟩).setIfInBounds 2 ⟨.log, 0x04000000, 0x04000400, 0⟩).setIfInBounds 3
        ⟨.ring, 0x01100000, 0x01100C00, 1⟩ }
    lanes := (State.reset.lanes.setIfInBounds 0 lane0).setIfInBounds 1 lane1
    clips := (State.reset.clips.setIfInBounds 7 ⟨true, 0x02000000, 2, 126000, [(0x44, 0), (0x45, 1)]⟩).setIfInBounds 8
      ⟨true, 0x02000200, 1, 0, [(0x44, 0)]⟩
    placements := (State.reset.placements.setIfInBounds 3 (byCue .armed 0xA1)).setIfInBounds 4
      { byCue .pending 0xA2 with t := some 5400000 }
    alert := { AlertCtl.reset with profiles := profiles } }

/-- Placement 5's entry, its clip 7 current at packet 0 with the offsets of the example of 7.5. -/
def entry5 : Entry :=
  { Entry.made .advert (.placement 5) [7] (some 6300000) .atEnd with
    current := some (0, 0), started := true, hasBeenTop := true, ptsOffset := 8589805503, tagOffset := 4293960000 }

/-- The key of that entry's next packet. -/
def key5 : LookKey := { source := .placement 5, index := 0, clip := 7, packet := 0 }

/-- The clip slot the lookahead holds: tag 1,000,000, PID 0x44, counter 3, PTS 126,000. -/
def held5 : List Byte := slot 1000000 (packet true 0x44 1 3 (pesPts 126000))

/-- The stage with placement 5 ON_AIR on lane 0 and its next packet held. -/
def onAir : State :=
  ({ stage with placements := stage.placements.setIfInBounds 5 (byCue .onAir 0xA3) } : State).onLane 0 fun x =>
    { x with stack := [entry5], look := .full key5 held5 (inspect (held5.drop 4)) false
             roles := #v[⟨5, 0, false⟩, ⟨12, 2, false⟩, ⟨0, 0, false⟩, ⟨0, 0, false⟩] }

/-- CLAIMED at 0x08000000 and otherwise as reset. -/
def claimedOnly : State := { State.reset with router := { Router.reset with controlBase := some 0x08000000 } }

/-- A command captured from line 3. -/
def captured (ws : List Word) : Captured := { line := 3, words := padWords 16 ws, take := 0 }

/-- A state whose command queue holds one command. -/
def told (ws : List Word) (s : State) : State := { s with cmd := { s.cmd with queue := [captured ws], takes := 1 } }

/-- The answer code with which each of several commands is answered in a state. -/
def codes (i : Instr) (s : State) (cmds : List (List Word)) : List (List Nat) :=
  cmds.map fun ws => (after i (told ws s)).cmd.answers.map fun a => a.code.code

/-- The result words of the answer to a command. -/
def results (i : Instr) (s : State) (ws : List Word) : List Nat :=
  (after i (told ws s)).cmd.answers.flatMap fun a => a.results.map BitVec.toNat

/-- A forward queue entry. -/
def fwd (r : QRequest) (c : FwdClass) (st : FwdState) (raw : List Byte) : FwdEntry :=
  { req := r, cls := c, state := st, abandoned := false, raw := raw, out := raw }

/-- A state with a forward queue. -/
def queued (fs : List FwdEntry) (s : State) : State := { s with router := { s.router with forward := fs } }

/-- A state with part-originated writes waiting and a wait count. -/
def waiting (ws : List PartWrite) (n : Nat) (s : State) : State :=
  { s with router := { s.router with waiting := ws, waitCount := n } }

/-- A slot read of lane 0 that has arrived with a stored slot. -/
def arrived (k : Nat) (raw : List Byte) : FwdEntry := fwd (.read (0x01000000 + BitVec.ofNat 32 (192 * k)) 3) (.slotRead 0 k) .arrived raw

/-- The stage with lane 0's lookahead asking for its slot. -/
def fetching (granted stale demand : Bool) : State :=
  let s := onAir.onLane 0 fun x => { x with look := .fetching key5 0x02000000 granted stale demand }
  { s with router := { s.router with
      fetchOrder := if granted then [] else [0]
      inFlight := if granted then [{ owner := .fetch 0 7 false, data := held5 }] else [] } }

/-- The stage with no placement PENDING and an arrived read. -/
def quiet (f : FwdEntry) (s : State) : State := queued [f] (s.setPlacement 4 Placement.vacant)

/-- A stored video packet without PUSI, at the tags of ring slots 301 and 302 of the example of 7.5. -/
def stored (tag : Nat) : FwdEntry := arrived 13 (slot tag (packet false 0x100 1 6 []))

/-- A stored anchor RAP at the lane clock of the stage. -/
def rap : FwdEntry :=
  arrived 13 (slot 9 (packet true 0x100 3 0 ([7, 0x50, 0x00, 0x06, 0xDD, 0xD0, 0x7E, 12] ++ [0, 0, 1, 0xE0, 0, 0, 0x80, 0x80, 5] ++
    stamp 2 5400000)))

/-! ## Well-formedness: each test refuses an ill-formed step -/

theorem test_wf_read_refuses_no_line : (Instr.qPortAccept (.read 0 0)).wf = false := by decide
theorem test_wf_read_refuses_five_lines : (Instr.qPortAccept (.read 0 5)).wf = false := by decide
theorem test_wf_write_refuses_part_of_a_line : (Instr.qPortAccept (wr 0 (List.replicate 63 0))).wf = false := by decide +kernel
theorem test_wf_write_refuses_missing_enables :
    (Instr.qPortAccept (.write 0 (List.replicate 64 0) (List.replicate 63 true))).wf = false := by decide +kernel
theorem test_wf_lane_refuses_sixteen : (Instr.slateCountdownExpiry 16).wf = false ∧ (Instr.laneClockFold 16).wf = false := by decide
theorem test_wf_accepts_bounds :
    (Instr.qPortAccept (.read 0 1)).wf ∧ (Instr.qPortAccept (.read 0 4)).wf ∧ (Instr.laneClockFold 15).wf ∧
      (Instr.qPortAccept (wr 0 (List.replicate 256 0))).wf := by decide +kernel
theorem test_no_word_spells_a_step : decodeTableWord 32 0x5C = none := rfl

/-! ## Witnesses: queue of steps, laws -/

theorem test_hyp_IdleStepIsOneTick :
    State.reset.pending = [] ∧ ({ State.reset with rst := true } : State).pending = [] ∧
      ({ State.reset with refclk := false } : State).pending = [] := by decide

/-- R193: Local Time wraps from 2^32 − 1 to 0, and holds its value while REFCLK is stopped. -/
theorem test_local_time_holds :
    (tick { State.reset with lt := 0xFFFFFFFF }).lt = 0 ∧
      (tick { State.reset with lt := 0xFFFFFFFF, refclk := false }).lt = 0xFFFFFFFF := by decide

/-- What holds of the sixteen lanes and of a lane at reset holds of every lane number. -/
theorem every_lane (P : Lane → Prop) (s : State) (h : ∀ l : Fin 16, P (s.lane l)) (h0 : P Lane.reset) (l : Nat) : P (s.lane l) := by
  by_cases hl : l < 16
  · exact h ⟨l, hl⟩
  · have hr : s.lane l = Lane.reset := by simp [State.lane, Vector.getElem?_eq_none (Nat.le_of_not_lt hl)]
    rw [hr]
    exact h0

/-- The entry of placement 127, covered. -/
def entry127 : Entry := Entry.made .programme (.placement 127) [8] (some 9000000) .early

/-- Placement 127 covered below placement 5, a command and an arrived read queued, memory listed, and an alert at its loop
limit. -/
def lawful : State :=
  { told [0x05] (queued [arrived 2 held5, fwd (.read 0 3) .plain .ready held5] (onAir.onLane 0 fun x =>
      { x with stack := [entry5, entry127] })) with
    mem := [(3, 7), (9, 1)]
    placements := onAir.placements.setIfInBounds 127 { byCue .covered 0xA4 with kind := .programme }
    alert := { stage.alert with state := .activeCmd, profile := 1, severity := 6, loopCount := 4, reactionFired := true }
    pending := [.slotReadProcedure] }

theorem lawful_stack (l : Nat) : (lawful.lane l).stack = if l = 0 then [entry5, entry127] else [] := by
  by_cases h : l = 0
  · subst h
    decide +kernel
  · have hl : ∀ l : Fin 16, l.val ≠ 0 → (lawful.lane l).stack = [] := by decide +kernel
    by_cases h16 : l < 16
    · rw [if_neg h]
      exact hl ⟨l, h16⟩ h
    · simp [State.lane, Vector.getElem?_eq_none (Nat.le_of_not_lt h16), h, Lane.reset]

theorem lawful_steps : ∃ t, step lawful = .next t := ⟨_, rfl⟩

theorem test_hyp_StepKeepsMemory : lawful.MemoryOk := by decide +kernel

theorem test_hyp_StepKeepsStackOrder : lawful.StacksOk := by
  intro l
  rw [lawful_stack]
  unfold stackOrdered
  split <;> decide

theorem test_hyp_StepKeepsQueues : lawful.QueueLaws := by
  have h : lawful.router.waiting = [] := by decide +kernel
  refine ⟨⟨by decide +kernel, by decide +kernel, by decide +kernel⟩, ⟨by decide +kernel, by decide +kernel, by decide +kernel⟩, ?_⟩
  unfold State.WaitsOk
  rw [h]
  exact ⟨List.nodup_nil, by simp, by decide +kernel, by decide +kernel, by decide +kernel, by decide +kernel, by decide +kernel⟩

/-- The status line write, the answer of line 2 and the log write wait, in this order, and the next grant is theirs. -/
def owing : State :=
  waiting [.status, .answer 2, .log] 8
    { stage with
      cmd := { stage.cmd with
        queue := [{ captured [0x05, 0, 0] with take := 1 }], takes := 2
        answers := [{ line := 2, code := .done, results := List.replicate 14 0, take := 0, isUnclaim := false }] }
      log := { stage.log with queue := [{ stamp := 9, lane := 0, body := .timelineJump 9001 }], presented := some .record }
      pending := [.mPortGrant] }

theorem test_hyp_StepKeepsQueues_waits : owing.QueueLaws ∧ ∃ t, step owing = .next t := by
  have h : owing.router.waiting = [.status, .answer 2, .log] := rfl
  refine ⟨⟨⟨by decide +kernel, by decide +kernel, by decide +kernel⟩, ⟨by decide +kernel, by decide +kernel, by decide +kernel⟩, ?_⟩,
    _, rfl⟩
  unfold State.WaitsOk
  rw [h]
  refine ⟨by decide, ?_, by decide +kernel, by decide +kernel, by decide +kernel, by decide +kernel, by decide +kernel⟩
  simp only [List.forall_mem_cons]
  exact ⟨by decide +kernel, by decide +kernel, by decide +kernel, by simp⟩

theorem test_hyp_StepKeepsLoopCount : lawful.LoopOk := ⟨by decide +kernel, fun _ => ⟨by decide +kernel, by decide +kernel⟩⟩

theorem test_hyp_StepKeepsReturns : lawful.ReturnLaws ∧ ({ stage with bypass := true } : State).ReturnLaws := by
  unfold State.ReturnLaws State.TagsOk
  refine ⟨⟨by decide +kernel, fun h => absurd h (by decide +kernel)⟩, by decide +kernel, fun _ => ⟨?_, by decide +kernel⟩⟩
  exact every_lane (fun x => x.stack = []) _ (by decide +kernel) rfl

theorem test_hyp_StepKeepsReturns_looks : lawful.LooksOk ∧ (fetching true false true).LooksOk := by
  have hlook : ∀ s : State, (∀ l : Fin 16, (s.lane l).look = .empty ∨ (s.lane l).look = .full key5 held5 (inspect (held5.drop 4)) false ∨
      (s.lane l).look = .fetching key5 0x02000000 true false true) →
      ∀ l key raw i d, (s.lane l).look = .full key raw i d → raw.length = 192 ∧ i = inspect (raw.drop 4) := by
    intro s h l
    refine every_lane (fun x => ∀ key raw i d, x.look = .full key raw i d → raw.length = 192 ∧ i = inspect (raw.drop 4)) s
      (fun l key raw i d hf => ?_) (by simp [Lane.reset]) l
    rcases h l with h | h | h <;> rw [h] at hf <;> cases hf
    exact ⟨by decide +kernel, rfl⟩
  exact ⟨⟨hlook _ (by decide +kernel), by decide +kernel⟩, hlook _ (by decide +kernel), by decide +kernel⟩

theorem test_hyp_StepKeepsUnclaimed :
    (queued [fwd (.read 0 3) .plain .granted []] State.reset).UnclaimedOk ∧
      (queued [fwd (.read 0 3) .plain .granted []] State.reset).router.controlBase = none := by
  refine ⟨fun _ => ?_, rfl⟩
  decide +kernel

theorem lawful_placement (id : Fin 128) :
    ((lawful.placement id).state = .onAir ↔ id.val = 5) ∧ ((lawful.placement id).state = .covered ↔ id.val = 127) ∧
      ((lawful.placement id).kind = .programme ∨ (lawful.placement id).kind = .advert) ∧ (lawful.placement id).lane = 0 := by
  revert id
  decide +kernel

theorem lawful_top (id : Nat) : lawful.OnTop id ↔ id = 5 := by
  constructor
  · rintro ⟨l, e, rest, hs, he⟩
    rw [lawful_stack] at hs
    split at hs
    · obtain ⟨rfl, -⟩ := List.cons.inj hs
      exact (Source.placement.inj he).symm
    · cases hs
  · rintro rfl
    exact ⟨0, entry5, _, lawful_stack 0, rfl⟩

theorem lawful_below (id : Nat) : lawful.BelowTop id ↔ id = 127 := by
  constructor
  · rintro ⟨l, e, rest, hs, n, hn, he⟩
    rw [lawful_stack] at hs
    split at hs
    · obtain ⟨-, rfl⟩ := List.cons.inj hs
      obtain rfl := List.mem_singleton.1 hn
      exact (Source.placement.inj he).symm
    · cases hs
  · rintro rfl
    exact ⟨0, entry5, _, lawful_stack 0, entry127, List.mem_singleton.2 rfl, rfl⟩

theorem test_hyp_StepKeepsPlacements : lawful.StackLaws := by
  refine ⟨test_hyp_StepKeepsStackOrder, fun l => ?_, fun l => ?_, fun id h => (lawful_placement ⟨id, h⟩).2.2.1, fun id h => ?_⟩
  · rw [lawful_stack]
    split <;> decide
  · rw [lawful_stack]
    split
    · rename_i hl
      subst hl
      intro e he
      rcases List.mem_cons.1 he with rfl | he
      · exact ⟨by decide, (lawful_placement 5).2.2.2, .inr rfl⟩
      · obtain rfl := List.mem_singleton.1 he
        exact ⟨by decide, (lawful_placement 127).2.2.2, .inl rfl⟩
    · simp
  · rw [lawful_top, lawful_below]
    exact ⟨(lawful_placement ⟨id, h⟩).1, (lawful_placement ⟨id, h⟩).2.1⟩

theorem test_hyp_StepKeepsDisabled : lawful.DisabledOk :=
  every_lane (fun x => x.enabled = false → x.stack = [] ∧ x.alertReq = none ∧ x.slateInsert = none ∧ x.slateRemove = none ∧
    x.monitor.state = .disabled) _ (by decide +kernel) (by decide +kernel)

/-! ## Witnesses: Q_PORT_ACCEPT -/

theorem test_hyp_StepsCompleteOrRefuse :
    (Instr.qPortAccept (.read 0xFFFFFFC0 4)).wf = true ∧ (Instr.laneClockFold 15).wf = true ∧ (QRequest.read 0 5).wf = false ∧
      15 < 16 := by decide

theorem test_hyp_AcceptHoldsOrForwards :
    32 ≤ (queued (List.replicate 32 (arrived 0 [])) stage).router.forward.length ∧
      (queued (List.replicate 31 (arrived 0 [])) stage).HasRoom ∧ ({ stage with rst := true } : State).rst = true ∧
      State.reset.router.controlBase = none ∧ (QRequest.read 0 1).aligned.isClaim = false := by decide +kernel

theorem test_hyp_AcceptClaimLine :
    State.reset.HasRoom ∧ State.reset.rst = false ∧ State.reset.router.controlBase = none ∧
      (0xFFFF0000 : Word).toNat % 65536 = 0 ∧ (0 : Word).toNat % 65536 = 0 := by decide

theorem test_hyp_AcceptCounts_straddle :
    stage.Classifies ∧ (wr 0x01000BC0 (List.replicate 128 0)).wf = true ∧
      ∃ x ∈ (wr 0x01000BC0 (List.replicate 128 0)).aligned.lineAddrs,
        ∃ y ∈ (wr 0x01000BC0 (List.replicate 128 0)).aligned.lineAddrs, stage.areaOf x ≠ stage.areaOf y := by decide +kernel

theorem test_hyp_AcceptCounts_intrusion :
    (wrLine 0x040003C0 []).wf = true ∧ (wrLine 0x040003C0 []).aligned.isWrite = true ∧
      stage.WhollyIn (wrLine 0x040003C0 []).aligned (.region 2) ∧ (stage.region 2).role = .log := by decide +kernel

theorem test_hyp_AcceptCounts_stray :
    (QRequest.read 0x01000040 3).wf = true ∧ stage.LiveRing 0 0 ∧ stage.WhollyIn (QRequest.read 0x01000040 3).aligned (.region 0) ∧
      ¬ stage.SlotShape 0 (QRequest.read 0x01000040 3).aligned := by decide +kernel

theorem test_hyp_AcceptCounts_claim : (wrLine 0x09000000 claimWords).wf = true ∧ (wrLine 0x09000000 claimWords).aligned.isClaim = true := by
  decide +kernel

theorem test_hyp_AcceptForwards_control :
    stage.WhollyIn (QRequest.read 0x08000000 4).aligned .control ∧ (QRequest.read 0x08000000 4).aligned.isWrite = false ∧
      stage.WhollyIn (wrLine 0x08000400 []).aligned .control ∧ 16 ≤ stage.controlLine (wrLine 0x08000400 []).aligned ∧
      stage.WhollyIn (QRequest.read 0xFFFFFFC0 1).aligned .unmapped := by decide +kernel

theorem test_hyp_AcceptForwards_region :
    stage.WhollyIn (QRequest.read 0x0200FFC0 1).aligned (.region 1) ∧ (stage.region 1).role = .library ∧
      stage.WhollyIn (QRequest.read 0x04000000 1).aligned (.region 2) ∧ (QRequest.read 0x04000000 1).aligned.isWrite = false ∧
      stage.WhollyIn (QRequest.read 0x01100000 3).aligned (.region 3) ∧ (stage.region 3).role = .ring ∧
      ¬ stage.LiveRing 3 (stage.region 3).lane := by decide +kernel

theorem test_hyp_AcceptForwards_slot_read :
    stage.LiveRing 0 0 ∧ stage.WhollyIn (QRequest.read 0x01000B40 3).aligned (.region 0) ∧
      stage.SlotAligned 0 (QRequest.read 0x01000B40 3).aligned ∧ (QRequest.read 0x01000B40 3).aligned.readOf 3 = true := by
  decide +kernel

/-- A slot write of the last slot of ring 0 with an anchor packet. -/
def lastSlot : QRequest := wr 0x01000B40 (slot 9 (packet false 0x100 1 0 []))

theorem test_hyp_AcceptSlotWrite :
    lastSlot.wf = true ∧ stage.Classifies ∧ stage.LiveRing 0 0 ∧ stage.WhollyIn lastSlot.aligned (.region 0) ∧
      stage.SlotAligned 0 lastSlot.aligned ∧ lastSlot.aligned.fullWrite 3 = true ∧
      (stage.lane 0).record.onCuePid (inspect (lastSlot.aligned.data.drop 4)) = false := by decide +kernel

/-- A cue message (12.3) with type OUT and avail 0xA1, with its CRC, in a packet on lane 0's cue PID. -/
def cueSlot (crc : Nat) : QRequest :=
  wr 0x01000B40 (slot 9 (packet true 0x1F0 1 0 ([0x5C, 1, 0, 0, 0, 0xA1, 0, 0, 0, 0, 0, 0, 0, 0, 0, 0, 0] ++ [crc])))

theorem test_hyp_AcceptSlotWrite_cue :
    (cueSlot 0).wf = true ∧ stage.WhollyIn (cueSlot 0).aligned (.region 0) ∧ stage.SlotAligned 0 (cueSlot 0).aligned ∧
      (cueSlot 0).aligned.fullWrite 3 = true ∧
      (stage.lane 0).record.onCuePid (inspect ((cueSlot 0).aligned.data.drop 4)) = true := by decide +kernel

/-- R75: the message starts ARMED placement 3 under CRC 0x44 (worked by hand from R75); under another it is a cue error. -/
theorem test_in_band_cue :
    let t := after (.qPortAccept (cueSlot 0x44)) stage
    let u := after (.qPortAccept (cueSlot 0x45)) stage
    ((t.placement 3).state, (t.lane 0).cueErrors) = (.pending, 0) ∧ ((u.placement 3).state, (u.lane 0).cueErrors) = (.armed, 1) := by
  decide +kernel

theorem test_hyp_AcceptTakesCommand :
    (wrLine 0x080003C0 [1]).wf = true ∧ stage.Classifies ∧ stage.WhollyIn (wrLine 0x080003C0 [1]).aligned .control ∧
      stage.controlLine (wrLine 0x080003C0 [1]).aligned ≤ 15 ∧ (wrLine 0x080003C0 [1]).aligned.fullWrite 1 = true ∧
      wordAt (lineWords (wrLine 0x080003C0 [1]).aligned.data) 0 ≠ 0 ∧
      ∃ c ∈ (told [1] stage).cmd.queue, c.line = (told [1] stage).controlLine (wrLine 0x080000C0 [2]).aligned := by decide +kernel

theorem test_hyp_AcceptCancelsOrCounts :
    stage.WhollyIn (wrLine 0x080000C0 []).aligned .control ∧ (wrLine 0x080000C0 []).aligned.fullWrite 1 = true ∧
      wordAt (lineWords (wrLine 0x080000C0 []).aligned.data) 0 = 0 ∧ (wr 0x080003C0 (List.replicate 128 1)).wf = true ∧
      stage.WhollyIn (wr 0x080003C0 (List.replicate 128 1)).aligned .control ∧
      stage.controlLine (wr 0x080003C0 (List.replicate 128 1)).aligned ≤ 15 ∧
      (wr 0x080003C0 (List.replicate 128 1)).aligned.fullWrite 1 = false := by decide +kernel

/-! ## Witnesses: M_PORT_GRANT -/

/-- A state with one granted read before a queued entry. -/
def behind (f : FwdEntry) : State := queued [fwd (.read 0 1) .plain .granted [], f] stage

theorem test_hyp_GrantForwardWrite :
    let f := fwd (wrLine 0xFFFFFFC0 [7]) .plain .queued []
    (behind f).MemoryOk ∧ (behind f).NotForced ∧ (behind f).NoDemand ∧
      (behind f).FirstIn .queued [fwd (.read 0 1) .plain .granted []] f [] ∧ (wordsBytes (padWords 16 [7])).length ≤ 256 ∧
      f.req = .write 0xFFFFFFC0 (wordsBytes (padWords 16 [7])) (List.replicate 64 true) := by decide +kernel

theorem test_hyp_GrantForwardRead :
    let f := fwd (.read 0xFFFFFFC0 4) .plain .queued []
    (waiting [.status] 7 (behind f)).NotForced ∧ (behind f).NoDemand ∧ f.req = .read 0xFFFFFFC0 4 ∧
      (behind f).FirstIn .queued [fwd (.read 0 1) .plain .granted []] f [] := by decide +kernel

/-- An answer of line 15 that waits at the arbiter, UNCLAIM's or another's. -/
def answering (isUnclaim : Bool) : State :=
  waiting [.answer 15] 0 { stage with
    cmd := { stage.cmd with
      answers := [{ line := 15, code := .done, results := List.replicate 14 0, take := 0, isUnclaim := isUnclaim }] } }

theorem test_hyp_GrantAnswer :
    (answering false).MemoryOk ∧ (answering false).router.controlBase = some 0x08000000 ∧
      (answering false).PartTurn (.answer 15) [] ∧
      ((answering false).cmd.answers.find? fun x => decide (x.line = 15)) =
        some { line := 15, code := .done, results := List.replicate 14 0, take := 0, isUnclaim := false } := by decide +kernel

theorem test_hyp_GrantUnclaimAnswer :
    (answering true).MemoryOk ∧ (answering true).router.controlBase = some 0x08000000 ∧ (answering true).PartTurn (.answer 15) [] ∧
      ((answering true).cmd.answers.find? fun x => decide (x.line = 15)) =
        some { line := 15, code := .done, results := List.replicate 14 0, take := 0, isUnclaim := true } := by decide +kernel

theorem test_hyp_GrantStatusLine :
    (waiting [.status, .log] 8 (behind (fwd (.read 0 1) .plain .queued []))).PartTurn .status [.log] ∧
      (waiting [.status] 0 stage).PartTurn .status [] ∧ (waiting [.status] 0 stage).router.controlBase = some 0x08000000 := by
  decide +kernel

/-- A record of lane 0. -/
def jump : Record := { stamp := 5, lane := 0, body := .timelineJump (-1) }

/-- A log write presented with the head at the last line but one of the free part of the ring. -/
def logging (w : LogWrite) (q : List Record) (lost : Nat) : State :=
  waiting [.log] 0 { stage with log := { head := 15, tail := 1, queue := q, lost := lost, presented := some w } }

theorem test_hyp_GrantLogLine :
    (logging .record [jump, jump] 0).MemoryOk ∧ (logging .record [jump, jump] 0).logRing = some (0x04000000, 16) ∧
      (logging .record [jump, jump] 0).PartTurn .log [] ∧ (logging .record [jump, jump] 0).log.queue = jump :: [jump] ∧
      (logging .gap [] 65535).log.presented = some .gap ∧ (logging .gap [] 65535).PartTurn .log [] := by decide +kernel

theorem test_hyp_GrantFetch :
    (fetching false false true).FetchTurn 0 ∧ (fetching false false false).FetchTurn 0 ∧
      ((fetching false false true).lane 0).look = .fetching key5 0x02000000 false false true := by decide +kernel

theorem test_hyp_GrantCountsWaits :
    (waiting [.status] 7 (fetching false false true)).router.waiting ≠ [] ∧
      (waiting [.status] 7 (fetching false false true)).router.waitCount < 8 ∧
      (waiting [.status] 7 (fetching false false true)).router.fetchOrder ≠ [] ∧
      8 ≤ (waiting [.status] 8 (fetching false false true)).router.waitCount ∧
      (waiting [.status, .log] 8 (behind (fwd (.read 0 1) .plain .queued []))).PartTurn .status [.log] ∧
      (answering true).PartTurn (.answer 15) [] ∧ (∃ a ∈ (answering true).cmd.answers, a.line = 15 ∧ a.isUnclaim = true) := by
  decide +kernel

/-! ## Witnesses: arrivals, returns and slot reads -/

/-- A granted read whose data comes next, behind a READY one. -/
def coming (c : FwdClass) (abandoned : Bool) : State :=
  { queued [fwd (.read 0 1) .plain .ready [], { fwd (.read 0x01000B40 3) c .granted [] with abandoned := abandoned }] stage with
    router := { (queued [fwd (.read 0 1) .plain .ready [], { fwd (.read 0x01000B40 3) c .granted [] with abandoned := abandoned }]
      stage).router with inFlight := [{ owner := .forward, data := held5 }] } }

theorem test_hyp_ReadArrives :
    (coming (.slotRead 0 15) false).FirstIn .granted [fwd (.read 0 1) .plain .ready []]
        (fwd (.read 0x01000B40 3) (.slotRead 0 15) .granted []) [] ∧
      (coming (.slotRead 0 15) true).FirstIn .granted [fwd (.read 0 1) .plain .ready []]
        { fwd (.read 0x01000B40 3) (.slotRead 0 15) .granted [] with abandoned := true } [] ∧
      (coming .plain false).router.inFlight = [{ owner := .forward, data := held5 }] := by decide +kernel

theorem test_hyp_FetchArrives :
    (fetching true false true).router.inFlight = [{ owner := .fetch 0 7 false, data := held5 }] ∧
      ((fetching true false true).lane 0).look = .fetching key5 0x02000000 true false true ∧
      ((fetching true true false).lane 0).look = .fetching key5 0x02000000 true true false ∧
      (fetching true false true).wait = none := by decide +kernel

/-- A slot read of lane 0 that waits on a lookahead, for the start of a clip or for a draw, with the fetch's data to come. -/
def parked (starting stale : Bool) : State :=
  { queued [stored 4294960000] (fetching true stale true) with wait := some { lane := 0, starting := starting, clock := 5400000 } }

theorem test_hyp_FetchArrives_waiting :
    (∀ b c : Bool, (parked b c).wait = some { lane := 0, starting := b, clock := 5400000 } ∧
      (parked b c).FirstIn .arrived [] (stored 4294960000) [] ∧ ((parked b c).lane 0).stack = entry5 :: [] ∧
      ((parked b c).lane 0).look = .fetching key5 0x02000000 true c true ∧
      (parked b c).router.inFlight = [{ owner := .fetch 0 7 false, data := held5 }]) ∧ entry5.current ≠ none := by decide +kernel

/-- R60 and R18: the data's arrival lets the waiting read draw, or start its clip; a stale lookahead is asked for again. -/
theorem test_waiting_read_goes_on :
    ((after .fetchDataArrival (parked false false)).router.forward.map FwdEntry.state,
        (after .fetchDataArrival (parked false false)).wait.isSome) = ([.ready], false) ∧
      ((after .fetchDataArrival (parked true false)).router.forward.map FwdEntry.state,
        (after .fetchDataArrival (parked true false)).wait.isSome) = ([.ready], false) ∧
      ((after .fetchDataArrival (parked false true)).router.fetchOrder,
        (after .fetchDataArrival (parked false true)).wait.isSome) = ([0], true) := by decide +kernel

theorem test_hyp_ReadReturns :
    let w := fwd (wrLine 0 []) .plain .queued []
    let r := fwd (.read 0 4) .plain .ready []
    let q := fwd (.read 0 4) .plain .granted []
    (queued [w, r] stage).router.forward = [w] ++ r :: [] ∧ (∀ g ∈ [w], g.req.isWrite = true) ∧ r.req.isWrite = false ∧
      r.state = .ready ∧ q.state ≠ .ready := by decide +kernel

/-- Whether a lane has nothing pending, on a state with a lane and its placements. -/
theorem undisturbed_of (s : State) (l : Nat) (h : (s.lane l).alertReq = none ∧ (s.lane l).slateInsert = none ∧ (s.lane l).slateRemove = none)
    (hp : ∀ id : Fin 128, (s.placement id).state = .pending → (s.placement id).lane ≠ l) : s.Undisturbed l :=
  ⟨h.1, h.2.1, h.2.2, fun id hid => hp ⟨id, hid⟩⟩

theorem test_hyp_SlotReadAsStored :
    let f := arrived 15 held5
    (queued [f] stage).ReadRuns [] f [] 0 15 ∧ (queued [f] { stage with bypass := true }).ReadRuns [] f [] 0 15 ∧
      f.abandoned = false ∧ (stage.lane 0).enabled = true ∧
      (queued [{ f with abandoned := true }] stage).ReadRuns [] { f with abandoned := true } [] 0 15 := by decide +kernel

theorem test_hyp_SlotReadOnBase :
    (quiet (arrived 0 held5) stage).ReadRuns [] (arrived 0 held5) [] 0 0 ∧ ((quiet (arrived 0 held5) stage).lane 0).enabled = true ∧
      (quiet (arrived 0 held5) stage).bypass = false ∧ ((quiet (arrived 0 held5) stage).lane 0).stack = [] ∧
      (quiet (arrived 0 held5) stage).Undisturbed 0 := by
  refine ⟨by decide +kernel, by decide +kernel, by decide +kernel, by decide +kernel, undisturbed_of _ _ ?_ ?_⟩ <;> decide +kernel

/-- Placement 5's entry with its end time reached at an anchor RAP, and nothing waiting: the read returns to the base. -/
def ending : State := quiet rap (onAir.onLane 0 fun x => { x with stack := [{ entry5 with endTime := some 5400000 }] })

theorem test_hyp_SlotReadOnBase_returns :
    ending.ReadRuns [] rap [] 0 13 ∧ noTwice (ending.lane 0).stack ∧
      ((after .slotReadProcedure ending).lane 0).stack = [] := by
  refine ⟨by decide +kernel, ?_, by decide +kernel⟩
  unfold noTwice
  decide +kernel

theorem test_hyp_SlotReadDraws :
    let s := quiet (stored 4294960000) onAir
    s.ReadRuns [] (stored 4294960000) [] 0 13 ∧ (s.lane 0).enabled = true ∧ s.bypass = false ∧ (s.lane 0).stack = [entry5] ∧
      entry5.current ≠ none ∧ entry5.nextKey = some key5 ∧ (s.lane 0).look = .full key5 held5 (inspect (held5.drop 4)) false ∧
      s.Undisturbed 0 ∧ entry5.reachedEnd (s.lane 0).anchored (s.clock 0) = false ∧
      (s.lane 0).record.anchorPts (inspect ((stored 4294960000).raw.drop 4)) = none ∧
      (s.lane 0).record.passes (inspect ((stored 4294960000).raw.drop 4)) = false := by
  refine ⟨by decide +kernel, by decide +kernel, by decide +kernel, by decide +kernel, by decide, by decide, by decide +kernel,
    undisturbed_of _ _ ?_ ?_, by decide +kernel, by decide +kernel, by decide +kernel⟩ <;> decide +kernel

theorem test_hyp_SlotReadDraws_stages :
    let s := queued [stored 4294960000] lawful
    s.ReadRuns [] (stored 4294960000) [] 0 13 ∧ noTwice (s.lane 0).stack ∧ ((after .slotReadProcedure s).lane 0).stack ≠ [] := by
  refine ⟨by decide +kernel, ?_, by decide +kernel⟩
  unfold noTwice
  decide +kernel

/-- R104 and R106: placement 4 enters at an anchor RAP at its T, its clip is started, and the read waits for the clip's slot. -/
theorem test_placement_enters :
    let t := after .slotReadProcedure (queued [rap] stage)
    (t.placement 4).state = .onAir ∧ t.router.fetchOrder = [0] ∧ t.wait = some { lane := 0, starting := true, clock := 5400000 } := by
  decide +kernel

/-- Placement 5 on top and placement `id` covered beneath it, both at their end at an anchor RAP. -/
def bothEnding (id : Nat) : State :=
  quiet rap ((onAir.onLane 0 fun x =>
    { x with stack := [{ entry5 with endTime := some 5400000 }, Entry.made .programme (.placement id) [8] (some 5400000) .atEnd] }).setPlacement
      id { byCue .covered 0xA4 with kind := .programme })

/-- R91: of a covered placement and the top that end at one slot read the lower id is reported first, whichever of them it is. -/
theorem test_ends_reported_by_id :
    ([2, 127].map fun id => (after .slotReadProcedure (bothEnding id)).log.queue.filterMap fun r =>
      match r.body with
      | .placement i .. => some i
      | _ => none) = [[2, 5], [5, 127]] := by decide +kernel

/-! ## The host's commands: a witness of an execution for each code, and the answer codes at the bounds of each test -/

theorem test_hyp_Executing :
    ∀ code : Fin 0x80, (told [BitVec.ofNat 32 code.val] stage).Executing code.val (captured [BitVec.ofNat 32 code.val]) [] := by
  decide +kernel

theorem test_hyp_UnknownCodeAnswers :
    0x06 ∉ commandCodes ∧ codes .unknownCommand stage [[0x06], [0x42], [0x7E], [0x80], [0xFFFFFFFF]] = [[2], [2], [2], [2], [2]] := by
  decide +kernel

/-- REGION-SET (R9): index, role, range, ring size and lane, log size, second LOG, live, overlap, done. -/
theorem test_region_set_answers :
    codes .regionSet stage
      [[1, 0, 32, 0x05000000, 0x05001000, 2, 0], [1, 0, 4, 0x05000000, 0x05001000, 4, 0],
       [1, 0, 4, 0x05000020, 0x05001000, 2, 0], [1, 0, 4, 0x05000000, 0x05000000, 2, 0],
       [1, 0, 4, 0x05000000, 0x05000B40, 1, 2], [1, 0, 4, 0x05000000, 0x05000C00, 1, 16],
       [1, 0, 4, 0x05000000, 0x05000C00, 1, 15], [1, 0, 2, 0x04000000, 0x040003C0, 3, 0],
       [1, 0, 4, 0x05000000, 0x05001000, 3, 0], [1, 0, 2, 0x04000000, 0x04000400, 3, 0],
       [1, 0, 0, 0x01000000, 0x01000C00, 0, 0], [1, 0, 4, 0x02000000, 0x02001000, 2, 0],
       [1, 0, 4, 0x0800FFC0, 0x08010040, 2, 0], [1, 0, 4, 0x08010000, 0x08010040, 2, 0], [1, 0, 31, 1, 0, 0, 99]] =
    [[3], [3], [3], [3], [3], [3], [1], [3], [3], [1], [5], [4], [4], [1], [1]] := by decide +kernel

/-- LANE-SET's words for lane, zone, region, pass count, roles, pass-list, cue PID, slate clip, window, jump limit, gap limit. -/
def laneSet (lane zone region passes r0 r1 p0 p1 cue slate window jumpLimit gap : Nat) : List Word :=
  [2, 0, word (lane + zone * 2 ^ 8 + region * 2 ^ 16 + passes * 2 ^ 24), word (r0 + r1 * 2 ^ 16), 0x1FFF1FFF, word (p0 + p1 * 2 ^ 16),
    0, 0, 0, word (cue + slate * 2 ^ 16), word window, word jumpLimit, word (gap + 200 * 2 ^ 16), 0x07D003E8, 100, 0]

/-- LANE-SET (R22): each order of its table at a bound. -/
theorem test_lane_set_answers :
    codes .laneSet stage
      [laneSet 16 0 3 0 256 257 0 0 0x1FFF 0xFFFF 0 9000 10, laneSet 1 8 3 0 256 257 0 0 0x1FFF 0xFFFF 0 9000 10,
       laneSet 1 0 32 0 256 257 0 0 0x1FFF 0xFFFF 0 9000 10, laneSet 1 0 3 0 256 0x2000 0 0 0x1FFF 0xFFFF 0 9000 10,
       laneSet 1 0 3 0 0x1FFF 257 0 0 0x1FFF 0xFFFF 0 9000 10, laneSet 1 0 3 0 256 256 0 0 0x1FFF 0xFFFF 0 9000 10,
       laneSet 1 0 3 9 256 257 1 2 0x1FFF 0xFFFF 0 9000 10, laneSet 1 0 3 2 256 257 1 1 0x1FFF 0xFFFF 0 9000 10,
       laneSet 1 0 3 2 256 257 1 257 0x1FFF 0xFFFF 0 9000 10, laneSet 1 0 3 2 256 257 1 2 257 0xFFFF 0 9000 10,
       laneSet 1 0 3 2 256 257 1 2 0x1FFF 0xFFFF 900001 9000 10, laneSet 1 0 3 2 256 257 1 2 0x1FFF 0xFFFF 0 8999 10,
       laneSet 1 0 3 2 256 257 1 2 0x1FFF 256 0 9000 10, laneSet 1 0 3 2 256 257 1 2 0x1FFF 0xFFFF 0 9000 9,
       laneSet 0 0 0 2 256 257 1 2 0x1FFF 0xFFFF 0 9000 10, laneSet 15 7 31 2 256 257 1 2 3 255 900000 900000 2000] =
    [[3], [3], [3], [3], [3], [3], [3], [3], [3], [3], [3], [3], [3], [3], [5], [1]] := by decide +kernel

/-- LANE-ENABLE (R23), LANE-DISABLE (R26), and the two status commands (R73, R176). -/
theorem test_lane_command_answers :
    codes .laneEnable stage [[3, 0, 16], [3, 0, 0], [3, 0, 2], [3, 0, 1]] = [[3], [5], [7], [1]] ∧
      codes .laneDisable stage [[4, 0, 16], [4, 0, 1], [4, 0, 0]] = [[3], [1], [1]] ∧
      codes .laneStatus stage [[5, 0, 16], [5, 0, 15]] = [[3], [1]] ∧
      codes .placementStatus stage [[0x22, 0, 128], [0x22, 0, 127]] = [[3], [1]] := by decide +kernel

/-- CLIP-SET (R53) and CLIP-CLEAR (R54): each order of their tables at a bound. -/
theorem test_clip_answers :
    codes .clipSet onAir
      [[16, 0, 256, 0x02000000, 1, 0, 0, 1, 0x44], [16, 0, 9, 0x02000000, 0, 0, 0, 1, 0x44],
       [16, 0, 9, 0x02000000, 16777216, 0, 0, 1, 0x44], [16, 0, 9, 0x02000000, 1, 0, 2, 1, 0x44],
       [16, 0, 9, 0x02000000, 1, 0, 0, 0, 0x44], [16, 0, 9, 0x02000000, 1, 0, 0, 5, 0x44],
       [16, 0, 9, 0x02000000, 1, 0, 0, 1, 0x1FFF], [16, 0, 9, 0x02000000, 1, 0, 0, 1, 0x40044],
       [16, 0, 9, 0x02000000, 1, 0, 0, 2, 0x44, 0x10044], [16, 0, 9, 0x02000020, 1, 0, 0, 1, 0x44],
       [16, 0, 9, 0x0200FF80, 1, 0, 0, 1, 0x44], [16, 0, 7, 0x02000000, 1, 0, 0, 1, 0x44],
       [16, 0, 255, 0x0200FF40, 1, 0xFFFFFFFF, 1, 2, 0x44, 0x31FFE]] =
      [[3], [3], [3], [3], [3], [3], [3], [3], [3], [3], [7], [6], [1]] ∧
      codes .clipClear onAir [[17, 0, 256], [17, 0, 9], [17, 0, 7], [17, 0, 8]] = [[3], [8], [6], [1]] := by decide +kernel

/-- PLACE (R70), WITHDRAW (R72) and CUE (R76): each order of their tables at a bound. -/
theorem test_placement_answers :
    codes .place stage
      [[32, 0, 128, 0x300, 0, 0, 0, 1, 0x100, 7], [32, 0, 9, 0x310, 0, 0, 0, 1, 0x100, 7], [32, 0, 9, 0x100, 0, 0, 0, 1, 0x100, 7],
       [32, 0, 9, 0x30300, 0, 0, 0, 1, 0x100, 7], [32, 0, 9, 0x2000300, 0, 0, 0, 1, 0x100, 7],
       [32, 0, 9, 0x300, 0, 0, 0, 0, 0x100, 7], [32, 0, 9, 0x300, 0, 0, 0, 0x80000000, 0x100, 7],
       [32, 0, 9, 0x10300, 0, 0, 2, 1, 0x100, 7], [32, 0, 9, 0x300, 0, 0, 0, 1, 0, 7], [32, 0, 9, 0x300, 0, 0, 0, 1, 0x700, 7],
       [32, 0, 9, 0x300, 0, 0, 0, 1, 0x100, 256], [32, 0, 3, 0x300, 0, 0, 0, 1, 0x100, 7],
       [32, 0, 127, 0x301020F, 0, 0, 1, 0x7FFFFFFF, 0x600, 7], [32, 0, 127, 0x101020F, 0, 0xFFFFFFFF, 1, 0x7FFFFFFF, 0x600, 255]] =
      [[3], [3], [3], [3], [3], [3], [3], [3], [3], [3], [3], [5], [3], [1]] ∧
      codes .withdraw onAir [[33, 0, 128], [33, 0, 127], [33, 0, 3], [33, 0, 4], [33, 0, 5]] = [[3], [8], [1], [1], [1]] ∧
      codes .cue stage [[35, 0, 0x110], [35, 0, 0x000], [35, 0, 0x400], [35, 0, 0x10100, 0, 0, 2], [35, 0, 0x20100, 0, 0, 0, 0, 2],
        [35, 0, 0x101], [35, 0, 0x30100, 0xA1, 0, 0, 0, 1]] = [[3], [3], [3], [3], [3], [7], [1]] := by decide +kernel

/-- PLACE (R83) and CUE (R77 to R80) at the bound of the entry window: the clock is 5,400,000 and the window 900, so that a time
of 5,399,100 is in time and 5,399,099 is late. -/
theorem test_late_at_the_window :
    ((after .place (told [32, 0, 9, 0x10300, 0, 5399100, 0, 1, 0x100, 7] stage)).placement 9).state = .pending ∧
      ((after .place (told [32, 0, 9, 0x10300, 0, 5399099, 0, 1, 0x100, 7] stage)).placement 9).state = .vacant ∧
      ((after .cue (told [35, 0, 0x10100, 0xA1, 5399100] stage)).placement 3).state = .pending ∧
      ((after .cue (told [35, 0, 0x10100, 0xA1, 5399099] stage)).placement 3).state = .vacant := by decide +kernel

theorem test_hyp_PlaceAnswers :
    let s := stage.onLane 0 fun x => { x with audit := .out }
    let a := placeArgs (captured [32, 0, 9, 0x10300, 0, 5399099, 0, 1, 0x100, 7]).words
    a.trigger = some .time ∧ (s.lane a.lane).enabled = true ∧ (s.lane a.lane).anchored = true ∧ (s.lane a.lane).audit = .out ∧
      ptAfter (s.clock a.lane) (ptPlus (BitVec.ofNat 33 a.scheduled) (s.lane a.lane).record.entryWindow) = true := by
  decide +kernel

/-- R91 and R190: the late placement's report, and the OUT mark's missed notice, are handed over. -/
theorem test_late_place_reports :
    let t := after .place (told [32, 0, 9, 0x10300, 0, 5399099, 0, 1, 0x100, 7] (stage.onLane 0 fun x => { x with audit := .out }))
    (t.lane 0).audit = .none ∧ t.log.queue.map Record.body =
      [.placement 9 .advert .time 0 (some 5399099) none .missedLate 0 [], .auditOut 9 (some 5399099) none (-32768) 0] := by
  decide +kernel

/-- CUE's intake cases (R77 to R80): started, unplaced, ended, early set, too late, repeated. -/
theorem test_cue_cases :
    (results .cue onAir [35, 0, 0x100, 0xA1]).take 2 = [1, 8] ∧ (results .cue onAir [35, 0, 0x100, 0xB0]).take 2 = [6, 0] ∧
      (results .cue onAir [35, 0, 0x200, 0xA2]).take 2 = [4, 16] ∧ (results .cue onAir [35, 0, 0x200, 0xA3]).take 2 = [5, 32] ∧
      (results .cue onAir [35, 0, 0x300, 0xA3]).take 2 = [6, 0] ∧ (results .cue onAir [35, 0, 0x300, 0xA1]).take 2 = [4, 8] ∧
      (results .cue onAir [35, 0, 0x100, 0xA3]).take 2 = [3, 0] := by decide +kernel

theorem test_hyp_CueAnswers :
    let a := cueArgs (captured [35, 0, 0x100, 0xA1]).words
    a.type = some .out ∧ (stage.placement 3).isFor a.lane a.avail = true ∧ (stage.placement 3).state = .armed ∧
      (∀ j : Nat, j < 3 → (stage.placement j).isFor a.lane a.avail = true → (stage.placement j).state ≠ .armed) ∧
      (cueArgs (captured [35, 0, 0x100, 0xB0]).words).avail ∉ (stage.lane 0).recent ∧
      ∀ id : Nat, id < 128 → (stage.placement id).isFor 0 0xB0 = false := by decide +kernel

theorem test_hyp_CueAnswers_types :
    ((cueArgs (captured [35, 0, 0x100, 0xA2]).words).type = some .out ∧
        (cueArgs (captured [35, 0, 0x200, 0xA2]).words).type = some .into ∧
        (cueArgs (captured [35, 0, 0x300, 0xA2]).words).type = some .cancel) ∧
      ((onAir.placement 3).isFor 0 0xA1 = true ∧ (onAir.placement 3).state = .armed) ∧
      ((onAir.placement 4).isFor 0 0xA2 = true ∧ (onAir.placement 4).state = .pending) ∧
      ((onAir.placement 5).isFor 0 0xA3 = true ∧ (onAir.placement 5).state = .onAir) := by decide +kernel

theorem test_hyp_WithdrawAnswers :
    (stage.placement 3).state = .armed ∧ (onAir.placement 5).state = .onAir ∧ (onAir.placement 5).withdrawn = false ∧
      ((onAir.setPlacement 5 { onAir.placement 5 with withdrawn := true }).placement 5).withdrawn = true ∧
      (onAir.placement 127).state = .vacant := by decide +kernel

/-- The stage with an alert in effect on a profile. -/
def alerted (st : AlertState) (p : Nat) (s : State) : State :=
  { s with alert := { s.alert with state := st, profile := p, severity := 5 + p, periodStart := 107000000 }, lt := 110000000 }

/-- ALERT-PROFILE (R135) and ALERT-START (R138): each order of their tables at a bound. -/
theorem test_alert_answers :
    codes .alertProfile stage
      [[48, 0, 4, 1, 1, 1, 7, 0, 1, 10, 0, 2, 0], [48, 0, 3, 256, 1, 1, 7, 0, 1, 10, 0, 2, 0], [48, 0, 3, 1, 0, 1, 7, 0, 1, 10, 0, 2, 0],
       [48, 0, 3, 1, 8, 1, 7, 0, 1, 10, 0, 2, 0], [48, 0, 3, 1, 1, 5, 7, 0, 1, 10, 0, 2, 0], [48, 0, 3, 1, 1, 1, 256, 0, 1, 10, 0, 2, 0],
       [48, 0, 3, 1, 1, 1, 7, 0, 7201, 10, 0, 2, 0], [48, 0, 3, 1, 1, 1, 7, 0, 1, 9, 0, 2, 0], [48, 0, 3, 1, 1, 1, 7, 0, 1, 10, 16, 2, 0],
       [48, 0, 3, 1, 1, 1, 7, 0, 1, 10, 0, 1, 0], [48, 0, 3, 1, 1, 1, 7, 0, 1, 10, 0, 2, 3],
       [48, 0, 3, 255, 7, 4, 7, 255, 7200, 1000, 15, 31, 2]] =
      [[3], [3], [3], [3], [3], [3], [3], [3], [3], [3], [3], [1]] ∧
      codes .alertProfile (alerted .activeCmd 1 stage) [[48, 0, 1, 1, 1, 1, 7, 0, 1, 10, 0, 2, 0]] = [[5]] ∧
      codes .alertStart stage [[49, 0, 4], [49, 0, 3], [49, 0, 1]] = [[3], [7], [1]] ∧
      codes .alertStart { stage with bypass := true } [[49, 0, 1]] = [[13]] ∧
      codes .alertStart (alerted .activeCmd 1 stage) [[49, 0, 0], [49, 0, 1]] = [[10], [1]] := by decide +kernel

/-- ALERT-RENEW (R148), ALERT-END (R143), the lock (R151) and UNCLAIM (R177). -/
theorem test_alert_state_answers :
    codes .alertRenew stage [[50]] = [[11]] ∧ codes .alertRenew (alerted .activeLine 0 stage) [[50]] = [[12]] ∧
      codes .alertEnd stage [[51]] = [[11]] ∧ codes .alertEnd (alerted .activeLine 0 stage) [[51]] = [[12]] ∧
      codes .alertEnd (alerted .activeLatched 1 stage) [[51]] = [[1]] ∧ codes .alertLock stage [[52]] = [[1]] ∧
      codes .unclaim stage [[127]] = [[1]] ∧ codes .unclaim (alerted .activeLine 0 stage) [[127]] = [[5]] ∧
      codes .unclaim { stage with alert := { stage.alert with lock := true } } [[127]] = [[9]] := by decide +kernel

theorem test_hyp_AlertLockLocks :
    let s : State := { stage with alert := { stage.alert with lock := true } }
    (profileArgs (captured [48, 0, 3, 1, 1, 1, 7, 0, 1, 10, 0, 2, 0]).words).inRange = true ∧
      (laneArgs (captured (laneSet 1 7 31 2 256 257 1 2 3 255 900000 900000 2000)).words).inRange = true ∧ (s.lane 1).enabled = false ∧
      7 ≠ (s.lane 1).record.zone ∧
      codes .laneSet s [laneSet 1 7 31 2 256 257 1 2 3 255 900000 900000 2000] = [[9]] := by decide +kernel

/-- AUDIT-MARK (R189) and LOG-ACK (R186) at the bounds of their tests; the tail and head are those of chapter 11's example. -/
theorem test_log_command_answers :
    let s : State := { stage with log := { stage.log with head := 1, tail := 10 } }
    codes .auditMark stage [[64, 0, 16, 1], [64, 0, 15, 0], [64, 0, 15, 4], [64, 0, 15, 3]] = [[3], [3], [3], [1]] ∧
      results .auditMark stage [64, 0, 15, 3] = 257 :: List.replicate 13 0 ∧
      codes .logAck s [[65, 0, 16], [65, 0, 2], [65, 0, 1], [65, 0, 10], [65, 0, 9]] = [[3], [3], [1], [1], [3]] ∧
      codes .logAck claimedOnly [[65, 0, 0]] = [[7]] := by decide +kernel

/-! ## Witnesses: lines and timers -/

/-- R66: a clip whose granted fetch is outstanding at RST_N stays in use until the fetch's arrival. -/
theorem test_reset_keeps_fetched_clip :
    let t := after .rstNAssert (fetching true false true)
    (t.clipInUse 7, t.clipInUse 8, (after .fetchDataArrival t).clipInUse 7) = (true, false, false) := by decide +kernel

theorem test_hyp_ResetLineActs :
    stage.rst = false ∧ ({ stage with rst := true, eal := true } : State).rst = true ∧ State.reset.rst = false := by decide

theorem test_hyp_BypassAsserts :
    stage.bypass = false ∧ ({ stage with bypass := true } : State).bypass = true ∧ onStackOf (onAir.lane 0).stack 5 := by
  decide +kernel

theorem test_hyp_BypassAsserts_waiting :
    (parked true false).bypass = false ∧ ((parked true false).lane 0).enabled = true ∧
      (parked true false).wait = some { lane := 0, starting := true, clock := 5400000 } ∧
      (parked true false).FirstIn .arrived [] (stored 4294960000) [] ∧ noTwice ((parked true false).lane 0).stack ∧
      noTwice ((List.range 16).flatMap fun l => (lawful.lane l).stack) := by decide +kernel

/-- R112 and R27: the waiting read is READY with its slot as stored, under BYPASS or once its lane is disabled, and the placement
on the stack ends. -/
theorem test_waiting_read_as_stored :
    let t := after .bypassAssert (parked true false)
    let u := after .laneDisable (told [4, 0, 0] (parked true false))
    t.router.forward = [{ stored 4294960000 with state := .ready }] ∧
      u.router.forward = [{ stored 4294960000 with state := .ready, abandoned := true }] ∧
      t.wait = none ∧ u.wait = none ∧ (t.placement 5).state = .vacant ∧ (u.placement 5).state = .vacant := by decide +kernel

theorem test_hyp_BypassReleases :
    ({ stage with bypass := true } : State).bypass = true ∧ (stage.lane 0).enabled = true ∧ (stage.lane 1).enabled = false ∧
      stage.alert.state = .idle ∧ (stage.alert.profileAt 0).defined = true := by decide +kernel

/-- The EAL line raw asserted at 50,000,000 (chapter 8's example), at a Local Time. -/
def ealRaw (lt : Rt) : State := { stage with eal := true, lt := lt, alert := { stage.alert with ealMark := some 50000000 } }

theorem test_hyp_EalLineFilters_due :
    ∃ m ∈ (ealRaw 50270000).alert.ealMark, 270000 ≤ ((ealRaw 50270000).lt - m).toNat ∧
      (ealRaw 50270000).eal ≠ (ealRaw 50270000).alert.ealFiltered := ⟨50000000, rfl, by decide, by decide⟩

theorem test_hyp_EalLineFilters_not_due :
    ¬ ∃ m ∈ (ealRaw 50269999).alert.ealMark, 270000 ≤ ((ealRaw 50269999).lt - m).toNat ∧
      (ealRaw 50269999).eal ≠ (ealRaw 50269999).alert.ealFiltered := by
  rintro ⟨m, hm, h, -⟩
  cases hm
  exact absurd h (by decide)

theorem test_hyp_HoldLimitRuns :
    let s := alerted .activeLine 0 stage
    s.alert.state ≠ .idle ∧ s.alert.heldSeconds < (s.alert.profileAt s.alert.profile).holdLimit ∧
      27000000 ≤ (s.lt - s.alert.holdMark).toNat ∧
      (({ s.alert with heldSeconds := 600 } : AlertCtl).profileAt s.alert.profile).holdLimit ≤ 600 := by decide +kernel

/-- Profile 1 in effect with loop count 2, 13,500,000 RT into its period (chapter 8's example). -/
def failing : State :=
  let s := alerted .activeCmd 1 stage
  { s with lt := 123500000, alert := { s.alert with periodStart := 110000000, loopCount := 2, linePending := true } }

theorem test_hyp_RenewalPeriodExpires :
    let q := failing.alert.profileAt failing.alert.profile
    failing.alert.state = .activeCmd ∧ q.period * 270000 ≤ (failing.lt - failing.alert.periodStart).toNat ∧
      q.loopLimit ≤ min (failing.alert.loopCount + 2) 31 ∧ failing.alert.reactionFired = false ∧ q.reaction = .release := by
  decide +kernel

/-- Lane 0's clock in the fold table of 2.4. -/
def folding (lt : Rt) : State := { stage.onLane 0 (fun x => { x with clockC := 1000, clockL := 3702700 }) with lt := lt }

theorem test_hyp_LaneClockFolds :
    ((folding 1261993900).lane 0).enabled = true ∧ 1258291200 ≤ ((folding 1261993900).lt - ((folding 1261993900).lane 0).clockL).toNat ∧
      ¬ 1258291200 ≤ ((folding 1261993899).lt - ((folding 1261993899).lane 0).clockL).toNat := by decide +kernel

theorem test_hyp_SlateCountdownExpires : (stage.lane 0).enabled = true ∧ (stage.lane 15).enabled = false := by decide +kernel

/-! ## The manual's worked examples -/

/-- 1.4, classifying a card's traffic: a three-line READ at 64 bytes into the ring is a stray. -/
theorem test_accept_counts_stray : ((after (.qPortAccept (.read 0x01000040 3)) stage).lane 0).strays = 1 := by decide +kernel

/-- 2.3, a ring of 16 slots: the write at 15 with the write index at 14 skips and wraps. -/
theorem test_slot_write_skips :
    let t := (after (.qPortAccept lastSlot) (stage.onLane 0 fun x => { x with writeIndex := 14, writeSkips := 1 })).lane 0
    t.writeIndex = 0 ∧ t.writeSkips = 2 := by decide +kernel

/-- 2.4, the timeline jump: P 1,000 against a prediction of 5,412,012 moves E from 5,500,000 to 88,988. -/
theorem test_timeline_jump :
    let s := quiet (arrived 0 (slot 0 (packet true 0x100 1 0 (pesPts 1000))))
      { onAir.onLane 0 (fun x => { x with
          clockC := 5409009, clockL := 2801800, stack := [{ entry5 with endTime := some 5500000 }]
          record := { x.record with jumpLimit := 90000 } }) with lt := 3702700 }
    let t := after .slotReadProcedure s
    (t.lane 0).stack.map Entry.endTime = [some 88988] ∧ (t.lane 0).clockC = 1000 ∧
      t.log.queue = [{ stamp := 3702700, lane := 0, body := .timelineJump (-5411012) }] := by decide +kernel

/-- 2.4, the fold table: C 4,195,304 and L 1,261,993,900. -/
theorem test_fold :
    let t := after (.laneClockFold 0) (folding 1261993900)
    (t.lane 0).clockC = 4195304 ∧ (t.lane 0).clockL = 1261993900 ∧ ({ t with lt := 1261996600 } : State).clock 0 = 4195313 := by
  decide +kernel

/-- Chapter 3, packet 1: PCR, PTS at byte 21, DTS at byte 26, anchor RAP. -/
theorem test_inspect_packet_1 :
    let i := inspect (packet true 0x100 3 0 ([7, 0x50, 0x00, 0x06, 0xDD, 0xD0, 0x7E, 12] ++ [0, 0, 1, 0xE0, 0, 0, 0x80, 0xC0, 10] ++
      stamp 3 903003 ++ stamp 1 900000))
    i.payStart = 12 ∧ i.payLen = 176 ∧ i.pcr = some (900000, 12) ∧ i.pts = some (903003, 21) ∧ i.dts = some (900000, 26) ∧
      lane0.record.anchorRap i = some 903003 := by decide +kernel

/-- Chapter 3, packet 4: eight payload bytes leave no room for the announced PTS. -/
theorem test_inspect_packet_4 :
    let i := inspect (packet true 0x100 3 0 ([175, 0x40] ++ List.replicate 174 0xFF ++ [0, 0, 1, 0xE0, 0, 0, 0x80, 0x80]))
    i.payStart = 180 ∧ i.payLen = 8 ∧ i.pesStart = true ∧ i.pts = none ∧ lane0.record.isAnchor i = true ∧
      lane0.record.anchorRap i = none := by decide +kernel

/-- 7.5, ring slot 300: clip slot 0 is drawn as PID 0x0100 with counter 6 and PTS 8,589,931,503. -/
theorem test_draw_rebases :
    let t := after .slotReadProcedure (quiet (stored 4294960000) onAir)
    let i := inspect (((t.router.forward.map FwdEntry.out).headD []).drop 4)
    i.pid = some 0x100 ∧ i.cc = 6 ∧ i.pts.map Prod.fst = some 8589931503 ∧ (t.lane 0).roles[0].outLast = 6 := by decide +kernel

/-- 7.5, ring slot 301: 5,000 RT before the due time the slot carries the null packet under its own tag, and the lookahead
is kept. -/
theorem test_not_due_returns_null :
    let held := slot 1020000 (packet true 0x45 1 3 (pesPts 129003))
    let s := quiet (stored 7704) (onAir.onLane 0 fun x => { x with look := .full key5 held (inspect (held.drop 4)) false })
    let t := after .slotReadProcedure s
    t.router.forward.map FwdEntry.out = [slot 7704 nullPacket] ∧ (t.lane 0).look = (s.lane 0).look := by decide +kernel

/-- 7.6, slot read c: with realign set, role 1 chooses delta 10 and goes out with counter 14. -/
theorem test_realign_chooses_delta :
    let s := quiet (arrived 0 (slot 0 (packet false 0x101 1 4 [])))
      (stage.onLane 0 fun x => { x with roles := #v[⟨8, 15, false⟩, ⟨13, 2, true⟩, ⟨0, 0, true⟩, ⟨0, 0, true⟩] })
    let t := after .slotReadProcedure s
    (t.lane 0).roles[1] = ⟨14, 10, false⟩ ∧
      t.router.forward.map FwdEntry.out = [slot 0 (packet false 0x101 1 14 [])] := by decide +kernel

/-- Chapter 8's example at 110,000,000: e is 3,000,000, below the locked window of 6,750,000, and the count becomes 2. -/
theorem test_early_renewal : results .alertRenew (alerted .activeCmd 1 stage) [50] = [1, 3000000, 2] ++ List.replicate 11 0 := by
  decide +kernel

/-- Chapter 8's example at 107,000,000: e is 7,000,000, a success with count 0. -/
theorem test_renewal_success :
    let s := alerted .activeCmd 1 stage
    results .alertRenew { s with lt := 107000000, alert := { s.alert with periodStart := 100000000 } } [50] =
      [2, 7000000, 0] ++ List.replicate 11 0 := by decide +kernel

/-- Chapter 8's example at 123,500,000: the crossing releases, and the pending line alert starts in the same event. -/
theorem test_period_expiry_releases :
    let t := after .renewalPeriodExpiry failing
    t.alert.state = .activeLine ∧ t.alert.profile = 0 ∧ t.alert.severity = 5 ∧ t.alert.linePending = false := by decide +kernel

/-- Chapter 10's example: a two-line write at lines 6 and 7 is a partial command. -/
theorem test_partial_command :
    (after (.qPortAccept (wr 0x08000180 (List.replicate 128 0))) stage).cmd.partials = 1 := by decide +kernel

/-- Chapter 11's example: LOG-ACK 10 with head 15, tail 0 and two records lost lets the GAP go to line 15. -/
theorem test_log_ack_presents_gap :
    let t := after .logAck (told [65, 0, 10] { stage with log := { stage.log with head := 15, tail := 0, lost := 2 } })
    t.log.presented = some .gap ∧ t.log.tail = 10 ∧ (grantLog t).log.head = 0 ∧ (grantLog t).mem.read 0x040003C8 = 2 := by
  decide +kernel

/-- Chapter 11's measurements: errors 400 and 3,003, and one of 40,000 clamped. -/
theorem test_audit_errors :
    auditError 5400400 5400000 = 400 ∧ auditError 6603003 6600000 = 3003 ∧ auditError 5440000 5400000 = 32767 := by decide

end Sys2Proof.Tests
end

namespace Sys2Proof.Machine

open Sys2Proof

/-! ## What the blocks behind the router leave alone

Most of what a step does happens in the lanes, the placements, the alert controller and the log queue. `Quiet` says once what all
of that leaves alone: memory, reset, the Command Unit, the claim and what waits at the arbiter; in the forward queue no entry
takes another class, and the Log Writer withdraws nothing and stays within its eight records. -/

/-- From `s` to `t` nothing has touched memory, reset, the Command Unit, the claim or the arbiter. -/
structure Quiet (s t : State) : Prop where
  mem : t.mem = s.mem
  rst : t.rst = s.rst
  cmd : t.cmd = s.cmd
  base : t.router.controlBase = s.router.controlBase
  waiting : t.router.waiting = s.router.waiting
  waitCount : t.router.waitCount = s.router.waitCount
  classes : (t.router.forward.map FwdEntry.cls).Sublist (s.router.forward.map FwdEntry.cls)
  presented : s.log.presented ≠ none → t.log.presented ≠ none
  records : s.log.queue.length ≤ 8 → t.log.queue.length ≤ 8

namespace Quiet

variable {s t u : State}

theorem refl (s : State) : Quiet s s := ⟨rfl, rfl, rfl, rfl, rfl, rfl, .refl _, id, id⟩

theorem trans (h : Quiet s t) (g : Quiet t u) : Quiet s u where
  mem := g.mem.trans h.mem
  rst := g.rst.trans h.rst
  cmd := g.cmd.trans h.cmd
  base := g.base.trans h.base
  waiting := g.waiting.trans h.waiting
  waitCount := g.waitCount.trans h.waitCount
  classes := g.classes.trans h.classes
  presented := g.presented ∘ h.presented
  records := g.records ∘ h.records

/-- A change outside all that is named here. -/
theorem away (h : Quiet s t) (hm : u.mem = t.mem) (hr : u.rst = t.rst) (hc : u.cmd = t.cmd)
    (hb : u.router.controlBase = t.router.controlBase) (hw : u.router.waiting = t.router.waiting)
    (hn : u.router.waitCount = t.router.waitCount) (hf : u.router.forward = t.router.forward) (hl : u.log = t.log) : Quiet s u :=
  h.trans ⟨hm, hr, hc, hb, hw, hn, by rw [hf], by rw [hl]; exact id, by rw [hl]; exact id⟩

/-! ### Tables -/

theorem setLane (h : Quiet s t) (l : Nat) (x : Lane) : Quiet s (t.setLane l x) := h.away rfl rfl rfl rfl rfl rfl rfl rfl

theorem onLane (h : Quiet s t) (l : Nat) (f : Lane → Lane) : Quiet s (t.onLane l f) := h.setLane _ _

theorem setPlacement (h : Quiet s t) (i : Nat) (p : Placement) : Quiet s (t.setPlacement i p) :=
  h.away rfl rfl rfl rfl rfl rfl rfl rfl

theorem onPlacement (h : Quiet s t) (i : Nat) (f : Placement → Placement) : Quiet s (t.onPlacement i f) := h.setPlacement _ _

theorem setClip (h : Quiet s t) (i : Nat) (c : Clip) : Quiet s (t.setClip i c) := h.away rfl rfl rfl rfl rfl rfl rfl rfl

/-- The forward queue changed entry by entry, each in its class. -/
theorem withForward (h : Quiet s t) (fs : List FwdEntry) (hc : (fs.map FwdEntry.cls).Sublist (t.router.forward.map FwdEntry.cls)) :
    Quiet s (t.withForward fs) :=
  h.trans ⟨rfl, rfl, rfl, rfl, rfl, rfl, hc, id, id⟩

/-! ### The Log Writer (R183, R184) -/

/-- A change of the log alone that withdraws nothing and stays within eight records. -/
theorem logged (h : Quiet s t) (g : LogWriter) (hp : t.log.presented ≠ none → g.presented ≠ none)
    (hq : t.log.queue.length ≤ 8 → g.queue.length ≤ 8) : Quiet s { t with log := g } :=
  h.trans ⟨rfl, rfl, rfl, rfl, rfl, rfl, .refl _, hp, hq⟩

theorem presentLog (h : Quiet s t) : Quiet s (presentLog t) := by
  unfold Machine.presentLog
  split
  · exact h
  · split
    · exact h.logged _ nofun id
    · exact h

theorem loseRecord (h : Quiet s t) : Quiet s (loseRecord t) :=
  (h.logged { t.log with lost := satInc t.log.lost } id id).presentLog

theorem handRecord (h : Quiet s t) (l : Nat) (b : RecordBody) : Quiet s (handRecord l b t) := by
  unfold Machine.handRecord
  split
  · exact h.loseRecord
  · split
    · exact h.loseRecord
    next hroom =>
      refine Quiet.presentLog (h.trans ⟨rfl, rfl, rfl, rfl, rfl, rfl, .refl _, id, fun _ => ?_⟩)
      simp only [Config.recordCapacity, not_or, not_le] at hroom
      simp only [List.length_append, List.length_singleton]
      omega

theorem handRecords (h : Quiet s t) (l : Nat) (bs : List RecordBody) : Quiet s (handRecords l bs t) := by
  induction bs generalizing t with
  | nil => exact h
  | cons b rest ih => exact ih (h.handRecord l b)

/-! ### Ends of placements and the splice audit (R89 to R91, R189 to R191) -/

theorem endPlacement (h : Quiet s t) (id : Nat) (o : Outcome) (e : Option Entry) (c : Pt) : Quiet s (endPlacement id o e c t) :=
  (h.handRecord _ _).setPlacement _ _

theorem leaveStack (h : Quiet s t) (e : Entry) (o : Placement → Outcome) (c : Pt) : Quiet s (leaveStack e o c t) := by
  unfold Machine.leaveStack
  split
  · exact h.endPlacement _ _ _ _
  · exact h
  · exact h

theorem leaveAll (h : Quiet s t) (o : Outcome) (c : Pt) (st : List Entry) : Quiet s (leaveAll o c st t) := by
  induction st generalizing t with
  | nil => exact h
  | cons e rest ih => exact ih (h.leaveStack _ _ _)

theorem leaveEnds (h : Quiet s t) (covered : Bool) (c : Pt) (st : List Entry) : Quiet s (leaveEnds covered c st t) := by
  induction st generalizing t with
  | nil => exact h
  | cons e rest ih => exact ih (h.leaveStack _ _ _)

theorem auditEntry (h : Quiet s t) (l id : Nat) (c : Option Pt) (start : Pt) (n : Nat) : Quiet s (auditEntry l id c start n t) := by
  unfold Machine.auditEntry
  split
  · exact (h.handRecord _ _).onLane _ _
  · exact h

theorem auditMissed (h : Quiet s t) (id : Nat) (p : Placement) : Quiet s (auditMissed id p t) := by
  unfold Machine.auditMissed
  split
  · exact (h.handRecord _ _).onLane _ _
  · exact h

theorem auditReturn (h : Quiet s t) (l : Nat) (k : Kind) (e : Option Pt) (c : Pt) (b : Bool) : Quiet s (auditReturn l k e c b t) := by
  unfold Machine.auditReturn
  split
  · exact (h.handRecord _ _).onLane _ _
  · exact h

theorem endMissed (h : Quiet s t) (id : Nat) (o : Outcome) : Quiet s (endMissed id o t) :=
  (h.endPlacement _ _ _ _).auditMissed _ _

/-! ### Lookaheads (R58 to R62) -/

theorem requestFetch (h : Quiet s t) (l : Nat) (e : Entry) (d : Bool) : Quiet s (requestFetch l e d t) := by
  unfold Machine.requestFetch
  split
  · exact h
  · exact h.away rfl rfl rfl rfl rfl rfl rfl rfl

theorem prefetchTest (h : Quiet s t) (l : Nat) : Quiet s (prefetchTest l t) := by
  unfold Machine.prefetchTest
  split
  · exact h
  · split
    · exact h.requestFetch _ _ _
    · exact h

theorem prefetchTests (h : Quiet s t) (ls : List Nat) : Quiet s (prefetchTests ls t) := by
  induction ls generalizing t with
  | nil => exact h
  | cons l rest ih => exact ih (h.prefetchTest l)

theorem withdrawFetch (h : Quiet s t) (l : Nat) : Quiet s (withdrawFetch l t) := h.away rfl rfl rfl rfl rfl rfl rfl rfl

theorem overtake (h : Quiet s t) (l : Nat) : Quiet s (overtake l t) := by
  unfold Machine.overtake
  split
  · exact h
  · exact h.onLane _ _
  · split
    · exact h.onLane _ _
    · exact (h.onLane _ _).withdrawFetch _

theorem alignLook (h : Quiet s t) (l : Nat) : Quiet s (alignLook l t) := by
  unfold Machine.alignLook
  split
  · exact h
  · split
    · exact h
    · exact h.overtake l

theorem demandFetch (h : Quiet s t) (l : Nat) : Quiet s (demandFetch l t) := by
  unfold Machine.demandFetch
  split
  · exact h
  · exact h.onLane _ _
  · split
    · exact h
    · exact h.requestFetch _ _ _

theorem fillLook (h : Quiet s t) (l : Nat) (slot : List Byte) : Quiet s (fillLook l slot t) := by
  unfold Machine.fillLook
  split
  · split
    · exact (h.onLane _ _).prefetchTest l
    · exact h.onLane _ _
  · exact h

/-! ### Per-read tests and cues (R74 to R84) -/

theorem lateTest (h : Quiet s t) (id : Nat) : Quiet s (lateTest id t) := by
  unfold Machine.lateTest
  extract_lets p
  split
  · split
    · exact h
    · split
      · exact h.endMissed _ _
      · exact h.onPlacement _ _
  · exact h

theorem expiryTest (h : Quiet s t) (id : Nat) : Quiet s (expiryTest id t) := by
  unfold Machine.expiryTest
  extract_lets p
  split
  · split
    · exact h
    · split
      · exact h.endMissed _ _
      · exact h
  · exact h

theorem takeT (h : Quiet s t) (id : Nat) : Quiet s (takeT id t) := by
  unfold Machine.takeT
  extract_lets p
  split
  · exact h.onPlacement _ _
  · exact h

theorem perReadTests (h : Quiet s t) (l : Nat) (ids : List Nat) : Quiet s (perReadTests l ids t) := by
  induction ids generalizing t with
  | nil => exact h
  | cons id rest ih =>
    refine ih ?_
    unfold Machine.perReadTest
    extract_lets p
    split
    · exact (((h.takeT id).onPlacement _ _).lateTest id).expiryTest id
    · exact h

theorem startPlacement (h : Quiet s t) (id : Nat) (c : Option Pt) (q : Cue) : Quiet s (startPlacement id c q t) :=
  (h.onPlacement _ _).lateTest id

theorem movePlacements (h : Quiet s t) (c : Option Pt) (q : Cue) (ids : List Nat) : Quiet s (movePlacements c q ids t) := by
  induction ids generalizing t with
  | nil => exact h
  | cons id rest ih => exact ih ((h.onPlacement _ _).lateTest id)

theorem cueUnplaced (h : Quiet s t) (l : Nat) (c : Cue) (r : UnplacedReason) (b : Bool) : Quiet s (cueUnplaced l c r b t) :=
  h.handRecord _ _

theorem repeatOrUnplaced (h : Quiet s t) (l : Nat) (c : Cue) (b : Bool) : Quiet s (repeatOrUnplaced l c b t).1 := by
  unfold Machine.repeatOrUnplaced
  split
  · exact h
  · exact h.cueUnplaced _ _ _ _

theorem intakeOut (h : Quiet s t) (l : Nat) (c : Cue) (b : Bool) : Quiet s (intakeOut l c b t).1 := by
  unfold Machine.intakeOut
  split
  · exact (h.startPlacement _ _ _).onLane l fun x => { x with recent := joinRecent c.avail x.recent }
  · extract_lets pending c' moved
    split
    · split
      · exact h
      · exact h.movePlacements _ _ _
    · split
      · exact h
      · exact h.repeatOrUnplaced _ _ _

theorem inAll (h : Quiet s t) (l : Nat) (c : Cue) (ids : List Nat) : Quiet s (inAll l c ids t) := by
  induction ids generalizing t with
  | nil => exact h
  | cons id rest ih =>
    refine ih ?_
    unfold inOne
    extract_lets p
    split
    · exact ((h.onLane _ _).onLane _ _).onPlacement _ _
    · split
      · exact h.endPlacement _ _ _ _
      · exact h

theorem intakeIn (h : Quiet s t) (l : Nat) (c : Cue) (b : Bool) : Quiet s (intakeIn l c b t).1 := by
  unfold Machine.intakeIn
  extract_lets after
  split
  · exact h.inAll _ _ _
  · split
    · exact h.inAll _ _ _
    · exact h.repeatOrUnplaced _ _ _

theorem cancelAll (h : Quiet s t) (ids : List Nat) : Quiet s (cancelAll ids t) := by
  induction ids generalizing t with
  | nil => exact h
  | cons id rest ih => exact ih (h.endPlacement _ _ _ _)

theorem tooLateAll (h : Quiet s t) (l : Nat) (c : Cue) (b : Bool) (ids : List Nat) : Quiet s (tooLateAll l c b ids t) := by
  induction ids generalizing t with
  | nil => exact h
  | cons id rest ih => exact ih (h.cueUnplaced _ _ _ _)

theorem intakeCancel (h : Quiet s t) (l : Nat) (c : Cue) (b : Bool) : Quiet s (intakeCancel l c b t).1 := by
  unfold Machine.intakeCancel
  extract_lets ended late after
  split
  · exact (h.cancelAll _).tooLateAll _ _ _ _
  · split
    · exact (h.cancelAll _).tooLateAll _ _ _ _
    · exact h.repeatOrUnplaced _ _ _

theorem intake (h : Quiet s t) (l : Nat) (c : Cue) (b : Bool) : Quiet s (intake l c b t).1 := by
  unfold Machine.intake
  split
  · exact h.intakeOut _ _ _
  · exact h.intakeIn _ _ _
  · exact h.intakeCancel _ _ _

theorem cueIntake (h : Quiet s t) (l : Nat) (p : List Byte) (i : Insp) : Quiet s (cueIntake l p i t) := by
  unfold Machine.cueIntake
  split
  · split
    · exact h.onLane _ _
    · split
      · exact h.onLane _ _
      · exact h.intake _ _ _
  · exact h

/-- A slot write at its acceptance (R28). -/
theorem ingress (h : Quiet s t) (l w : Nat) (slot : List Byte) : Quiet s (ingress l w slot t) := by
  unfold Machine.ingress
  extract_lets n i followed cued
  have hc : Quiet s cued := by
    unfold cued
    split
    · exact (h.onLane _ _).cueIntake _ _ _
    · exact h.onLane _ _
  exact (hc.setLane _ _).handRecords _ _

/-! ### The Alert Controller (R138 to R152) -/

/-- A change of the controller alone. -/
theorem withAlert (h : Quiet s t) (a : AlertCtl) : Quiet s { t with alert := a } := h.away rfl rfl rfl rfl rfl rfl rfl rfl

theorem postAll (h : Quiet s t) (q : Lane → Option AlertReq) : Quiet s (postAll q t) := h.away rfl rfl rfl rfl rfl rfl rfl rfl

theorem beginAlert (h : Quiet s t) (st : AlertState) (p : Nat) (r : AlertReason) : Quiet s (beginAlert st p r t) :=
  ((h.postAll _).withAlert _).handRecord _ _

theorem finishAlert (h : Quiet s t) (r : AlertReason) : Quiet s (finishAlert r t) := ((h.postAll _).withAlert _).handRecord _ _

theorem endAlert (h : Quiet s t) (r : AlertReason) : Quiet s (endAlert r t) := by
  unfold Machine.endAlert
  split
  · exact (h.finishAlert r).beginAlert _ _ _
  · exact h.finishAlert r

theorem lineAsserted (h : Quiet s t) : Quiet s (lineAsserted t) := by
  unfold Machine.lineAsserted
  extract_lets p0
  split
  · exact h.beginAlert _ _ _
  · exact h.withAlert _

theorem lineDeasserted (h : Quiet s t) : Quiet s (lineDeasserted t) := by
  unfold Machine.lineDeasserted
  extract_lets u
  have hu : Quiet s u := h.withAlert _
  split
  · exact hu.endAlert _
  · exact hu

theorem filteredChange (h : Quiet s t) : Quiet s (filteredChange t) := by
  unfold Machine.filteredChange
  split
  · exact h
  · split
    · exact h.lineAsserted
    · exact h.lineDeasserted

theorem renewalFailure (h : Quiet s t) : Quiet s (renewalFailure t) := by
  unfold Machine.renewalFailure
  extract_lets count alert counted
  have hc : Quiet s counted := h.withAlert _
  split
  · exact hc
  · exact (hc.withAlert _).handRecord _ _
  · exact hc.endAlert _
  · exact (hc.withAlert _).handRecord _ _

theorem judgeRenewal (h : Quiet s t) : Quiet s (judgeRenewal t) := by
  unfold Machine.judgeRenewal
  split
  · exact (h.withAlert _).renewalFailure
  · exact (h.withAlert _).withAlert _

/-! ### Stages 1 to 4 of a slot read (R29, R82, R98 to R104) -/

theorem updateClock (h : Quiet s t) (l : Nat) (i : Insp) : Quiet s (updateClock l i t) := by
  unfold Machine.updateClock
  split
  · exact h
  · extract_lets jumped
    have hj : Quiet s jumped := by
      unfold jumped
      split
      · exact (h.onLane _ _).handRecord _ _
      · exact h
    exact hj.onLane _ _

theorem stageOne (h : Quiet s t) (l k : Nat) (i : Insp) : Quiet s (stageOne l k i t) := by
  unfold Machine.stageOne
  extract_lets n read clocked bypassed ticked
  have hb : Quiet s bypassed := by
    unfold bypassed
    split
    · exact ((h.onLane _ _).updateClock _ _).onLane _ _
    · exact (h.onLane _ _).updateClock _ _
  exact (hb.onLane _ _).perReadTests _ _

theorem applyAlert (h : Quiet s t) (l : Nat) : Quiet s (applyAlert l t).1 := by
  have insert_quiet (x : Lane) (p : Nat) (cleared : Lane) :
      Quiet s (if (x.entryOf .alert).isSome then
          (t.setLane l (cleared.retargetAlert p (t.alert.profileAt p).clips), true)
        else (t.setLane l { cleared with stack := insertEntry (alertEntry t p) x.stack }, false)).1 := by
    split
    · exact h.setLane _ _
    · exact h.setLane _ _
  unfold Machine.applyAlert
  extract_lets x cleared
  split
  · exact h
  · exact h.setLane _ _
  · exact insert_quiet _ _ _
  · exact insert_quiet _ _ _

theorem stageTwo (h : Quiet s t) (l : Nat) : Quiet s (stageTwo l t).1 :=
  (h.applyAlert l).onLane l fun x => x.applyInsert.applyRemove

theorem reportEnds (h : Quiet s t) (c : Pt) (e : Entry) (k : EndsPlan) : Quiet s (reportEnds c e k t) := by
  unfold Machine.reportEnds
  extract_lets top beneath
  split
  · exact (h.leaveEnds _ _ _).leaveEnds _ _ _
  · exact (h.leaveEnds _ _ _).leaveEnds _ _ _

theorem stageThree (h : Quiet s t) (cx : ReadCtx) : Quiet s (stageThree cx t) := by
  unfold Machine.stageThree
  split
  · exact h
  · extract_lets k u
    have hu : Quiet s u := (h.reportEnds _ _ _).onLane _ _
    split
    · exact hu.auditReturn _ _ _ _ _
    · exact hu

theorem enterAll (h : Quiet s t) (cx : ReadCtx) (ids : List Nat) : Quiet s (enterAll cx ids t) := by
  induction ids generalizing t with
  | nil => exact h
  | cons id rest ih =>
    refine ih ?_
    unfold enterOne
    extract_lets p x start u v
    split
    · exact h.onPlacement _ _
    · exact ((h.setLane _ _).onPlacement _ _).auditEntry _ _ _ _ _

theorem syncEntry (h : Quiet s t) (v : PState) (e : Entry) : Quiet s (syncEntry v e t) := by
  unfold Machine.syncEntry
  split
  · exact h.onPlacement _ _
  · exact h
  · exact h

theorem syncCovered (h : Quiet s t) (st : List Entry) : Quiet s (syncCovered st t) := by
  induction st generalizing t with
  | nil => exact h
  | cons e rest ih => exact ih (h.syncEntry _ _)

theorem syncStack (h : Quiet s t) (st : List Entry) : Quiet s (syncStack st t) := by
  cases st with
  | nil => exact h
  | cons e rest => exact (h.syncEntry _ _).syncCovered _

/-! ### Stages 5 and 6 of a slot read, and its end (R97, R105, R106, R108) -/

theorem damageClip (h : Quiet s t) (l : Nat) : Quiet s (damageClip l t) := h.onLane _ _

theorem drawPacket (h : Quiet s t) (cx : ReadCtx) (e : Entry) (held : List Byte) (i : Insp) :
    Quiet s (drawPacket cx e held i t).1 := by
  unfold Machine.drawPacket
  extract_lets x c lag
  split
  · exact h.setLane _ _
  · exact h.setLane _ _

theorem consultLook (h : Quiet s t) (cx : ReadCtx) (e : Entry) : Quiet s (consultLook cx e t).1 := by
  unfold Machine.consultLook
  extract_lets u
  have hu : Quiet s u := h.alignLook _
  split
  · split
    · exact hu.damageClip _
    · split
      · exact hu.drawPacket _ _ _ _
      · exact hu
  · exact hu.demandFetch _
  · exact hu.demandFetch _

theorem setOffsets (h : Quiet s t) (cx : ReadCtx) (start : Pt) (slot0 : List Byte) : Quiet s (setOffsets cx start slot0 t) :=
  h.onLane _ _

theorem beginClip (h : Quiet s t) (cx : ReadCtx) (start : Pt) : Quiet s (beginClip cx start t).1 := by
  unfold Machine.beginClip
  extract_lets u
  have hu : Quiet s u := h.alignLook _
  split
  · split
    · exact hu.damageClip _
    · exact hu.setOffsets _ _ _
  · exact hu.demandFetch _
  · exact hu.demandFetch _

theorem takeTurn (h : Quiet s t) (cx : ReadCtx) (start : Pt) : Quiet s (takeTurn cx start t).1 := by
  unfold Machine.takeTurn
  split
  · exact h
  · extract_lets e' u
    have hu : Quiet s u := h.onLane _ _
    split
    · exact hu.beginClip _ _
    · exact hu

theorem stageFive (h : Quiet s t) (cx : ReadCtx) (start : Pt) (old : Option Entry) (b : Bool) :
    Quiet s (stageFive cx start old b t).1 := by
  have settled_quiet : Quiet s (settleOld cx.lane old b t) := by
    unfold settleOld
    split
    · exact h.onLane _ _
    · split
      · exact h
      · exact h.onLane _ _
  unfold Machine.stageFive
  split
  · extract_lets u
    have hu : Quiet s u := settled_quiet.overtake _
    split
    · exact hu
    next shown _ _ _ =>
      have hv : Quiet s shown := hu.onLane _ _
      split
      · exact hv
      · exact hv.takeTurn _ _
  · exact h

theorem stageSix (h : Quiet s t) (cx : ReadCtx) (b : Bool) : Quiet s (stageSix cx b t).1 := by
  unfold Machine.stageSix
  split
  · exact h
  · split
    · unfold sourceBase
      extract_lets x
      split
      · exact h
      · exact h.setLane _ _
    · unfold sourceEntry
      split
      · exact h
      · split
        · exact h.consultLook _ _
        · split
          · exact h
          · have ht := h.takeTurn cx cx.clock
            split
            next heq => rw [heq] at ht; exact ht
            next heq => rw [heq] at ht; exact ht
            next heq => rw [heq] at ht; exact ht
            next heq =>
              rw [heq] at ht
              split
              · exact ht.consultLook _ _
              · exact ht

end Quiet

/-- An entry changed in its class at the first place a test holds keeps the classes of the queue. -/
theorem changeFirst_classes (test : FwdEntry → Bool) (f : FwdEntry → FwdEntry) (hf : ∀ e, (f e).cls = e.cls) (fs : List FwdEntry) :
    (changeFirst test f fs).map FwdEntry.cls = fs.map FwdEntry.cls := by
  induction fs with
  | nil => rfl
  | cons e rest ih =>
    simp only [changeFirst]
    split
    · simp [hf]
    · simp [ih]

/-- An entry taken out leaves the classes of the others in their order. -/
theorem removeFirst_sublist (test : FwdEntry → Bool) (fs : List FwdEntry) : (removeFirst test fs).Sublist fs := by
  induction fs with
  | nil => exact .refl _
  | cons e rest ih =>
    simp only [removeFirst]
    split
    · exact List.sublist_cons_self _ _
    · exact ih.cons_cons _

namespace Quiet

variable {s t : State}

/-- Every entry of the forward queue changed in its class. -/
theorem mapForward (h : Quiet s t) (f : FwdEntry → FwdEntry) (hf : ∀ e, (f e).cls = e.cls) :
    Quiet s (t.withForward (t.router.forward.map f)) :=
  h.withForward _ (by simp [Function.comp_def, hf])

/-- The first entry of a kind changed in its class. -/
theorem changeForward (h : Quiet s t) (test : FwdEntry → Bool) (f : FwdEntry → FwdEntry) (hf : ∀ e, (f e).cls = e.cls) :
    Quiet s (t.withForward (changeFirst test f t.router.forward)) :=
  h.withForward _ (by rw [changeFirst_classes _ _ hf])

theorem completeRead (h : Quiet s t) (out : List Byte) : Quiet s (completeRead out t) :=
  (h.changeForward FwdEntry.isArrived (fun f => { f with state := .ready, out := out }) fun _ => rfl).away
    rfl rfl rfl rfl rfl rfl rfl rfl

/-- The procedure waits, or its wait ends. -/
theorem withWait (h : Quiet s t) (w : Option WaitingRead) : Quiet s { t with wait := w } := h.away rfl rfl rfl rfl rfl rfl rfl rfl

theorem finishSource {r : State × Src} (h : Quiet s r.1) (cx : ReadCtx) : Quiet s (finishSource cx r) := by
  unfold Machine.finishSource
  split
  · exact (h.completeRead _).prefetchTest _
  · exact h.withWait _

theorem afterStart {r : State × Turn} (h : Quiet s r.1) (cx : ReadCtx) (start : Pt) : Quiet s (afterStart cx start r) := by
  unfold Machine.afterStart
  split
  · exact h.withWait _
  · exact (h.stageSix cx true).finishSource cx
  · exact (h.stageSix cx false).finishSource cx
  · exact (h.stageSix cx false).finishSource cx

theorem spliceStages (h : Quiet s t) (cx : ReadCtx) : Quiet s (spliceStages cx t) := by
  have stages : Quiet s (stageFour cx (Machine.stageThree cx (Machine.stageTwo cx.lane t).1)) :=
    ((h.stageTwo cx.lane).stageThree cx).enterAll cx _
  exact ((stages.syncStack _).stageFive cx _ _ _).afterStart cx _

theorem runProcedure (h : Quiet s t) (l k : Nat) (slot : List Byte) : Quiet s (runProcedure l k slot t) := by
  unfold Machine.runProcedure
  extract_lets i one
  have ho : Quiet s one := h.stageOne _ _ _
  split
  · exact ho.completeRead _
  · exact ho.spliceStages _

theorem resumeRead (h : Quiet s t) (w : WaitingRead) : Quiet s (resumeRead w t) := by
  unfold Machine.resumeRead
  split
  · exact h
  · extract_lets cx
    split
    · exact (h.beginClip cx _).afterStart cx _
    · split
      · exact (h.consultLook cx _).finishSource cx
      · exact h

theorem slotReadStep (h : Quiet s t) : Quiet s (slotReadStep t) := by
  unfold Machine.slotReadStep
  split
  · exact h
  · split
    · exact h
    · split
      · split
        · exact h.completeRead _
        · exact h.runProcedure _ _ _
      all_goals exact h

/-! ### Arrivals and returns (R1, R3, R60) -/

theorem landed (h : Quiet s t) (rest : List InFlight) : Quiet s (landed rest t) := h.away rfl rfl rfl rfl rfl rfl rfl rfl

theorem fetchArrival (h : Quiet s t) : Quiet s (fetchArrival t) := by
  unfold Machine.fetchArrival
  split
  next l clip orphan data rest _ =>
    split
    · exact h.landed rest
    · have hf : Quiet s (Machine.fillLook l data (Machine.landed rest t)) := (h.landed rest).fillLook l data
      unfold continueWait
      split
      · split
        · exact hf.resumeRead _
        · exact hf
      · exact hf
  · exact h
  · exact h

theorem arrive_cls (f : FwdEntry) (data : List Byte) : (f.arrive data).cls = f.cls := by
  unfold FwdEntry.arrive
  split
  · split <;> rfl
  all_goals rfl

theorem readArrival (h : Quiet s t) : Quiet s (readArrival t) := by
  unfold Machine.readArrival
  split
  · exact (h.landed _).changeForward _ _ fun f => arrive_cls f _
  · exact h
  · exact h

theorem returnRead (h : Quiet s t) : Quiet s (returnRead t) := by
  unfold Machine.returnRead
  split
  · exact h
  · split
    · exact (h.withForward _ ((removeFirst_sublist FwdEntry.isRead t.router.forward).map _)).away
        rfl rfl rfl rfl rfl rfl rfl rfl
    · exact h

/-! ### LANE-DISABLE and BYPASS (R26, R27, R112 to R114, R152) -/

theorem abandon_cls (l : Nat) (f : FwdEntry) : (f.abandon l).cls = f.cls := by
  unfold FwdEntry.abandon
  split
  · split <;> rfl
  all_goals rfl

theorem releaseWait (h : Quiet s t) : Quiet s (releaseWait t) := by
  unfold Machine.releaseWait
  split
  · exact h.completeRead _
  · exact h.withWait _

theorem disableLane (h : Quiet s t) (l : Nat) : Quiet s (disableLane l t) := by
  unfold Machine.disableLane
  extract_lets left off dropped
  have hd : Quiet s dropped :=
    (((h.leaveAll _ _ _).onLane _ _).mapForward (FwdEntry.abandon l) (abandon_cls l)).overtake l
  split
  · exact hd.releaseWait
  · exact hd

/-- The level of BYPASS comes to stand at `b`. -/
theorem withBypass (h : Quiet s t) (b : Bool) : Quiet s { t with bypass := b } := h.away rfl rfl rfl rfl rfl rfl rfl rfl

theorem bypassLanes (h : Quiet s t) (ls : List Nat) : Quiet s (bypassLanes ls t) := by
  induction ls generalizing t with
  | nil => exact h
  | cons l rest ih => exact ih (((h.leaveAll _ _ _).onLane _ _).overtake l)

theorem bypassAlert (h : Quiet s t) (m : BitVec 16) : Quiet s (bypassAlert m t) := by
  unfold Machine.bypassAlert
  extract_lets idle
  split
  · exact h.withAlert _
  · exact ((h.withAlert _).withAlert _).handRecord _ _

theorem asStored_cls (f : FwdEntry) : f.asStored.cls = f.cls := by
  unfold FwdEntry.asStored
  split <;> rfl

theorem assertBypass (h : Quiet s t) : Quiet s (assertBypass t) := by
  unfold Machine.assertBypass
  extract_lets mask down ended
  have hd : Quiet s down := (h.withBypass true).bypassLanes laneNumbers
  have he : Quiet s ended := by
    unfold ended
    split
    · exact hd.releaseWait
    · exact hd
  exact (he.mapForward FwdEntry.asStored asStored_cls).bypassAlert _

theorem releaseBypass (h : Quiet s t) : Quiet s (releaseBypass t) := by
  unfold Machine.releaseBypass
  extract_lets u
  have hu : Quiet s u := h.away rfl rfl rfl rfl rfl rfl rfl rfl
  split
  · exact hu.lineAsserted
  · exact hu

/-! ### The EAL line (R145) -/

theorem changeRaw (h : Quiet s t) (level : Bool) : Quiet s (changeRaw level t) := by
  unfold Machine.changeRaw
  split
  · exact h
  · extract_lets u
    have hu : Quiet s u := h.away rfl rfl rfl rfl rfl rfl rfl rfl
    split
    · exact hu
    · exact hu.withAlert _

end Quiet

end Sys2Proof.Machine

namespace Sys2Proof.Machine

open Sys2Proof

/-! ## What a step does before its close -/

/-- The bodies of the host's commands, all but REGION-SET and UNCLAIM, touch neither the arbiter nor the Command Unit. -/
def QuietBody (body : List Word → State → Reply) : Prop := ∀ ws s, Quiet s (body ws s).state

theorem Quiet.carried {s t : State} (h : Quiet s t) (ws : List Word) : Quiet s (carryOut ws t).state := h

theorem laneSetBody_quiet : QuietBody laneSetBody := by
  intro ws s
  unfold laneSetBody
  extract_lets a
  split
  · exact ((Quiet.refl s).onLane _ _).carried _
  · exact .refl s

theorem laneEnableBody_quiet : QuietBody laneEnableBody := by
  intro ws s
  unfold laneEnableBody
  split
  · exact ((Quiet.refl s).onLane _ _).carried _
  · exact .refl s

theorem laneDisableBody_quiet : QuietBody laneDisableBody := by
  intro ws s
  unfold laneDisableBody
  split
  · exact .refl s
  · refine Quiet.carried ?_ _
    split
    · exact (Quiet.refl s).disableLane _
    · exact .refl s

theorem laneStatusBody_quiet : QuietBody laneStatusBody := by
  intro ws s
  unfold laneStatusBody
  split <;> exact .refl s

theorem clipSetBody_quiet : QuietBody clipSetBody := by
  intro ws s
  unfold clipSetBody
  extract_lets a
  split
  · exact (((Quiet.refl s).setClip _ _).prefetchTests _).carried _
  · exact .refl s

theorem clipClearBody_quiet : QuietBody clipClearBody := by
  intro ws s
  unfold clipClearBody
  split
  · exact ((Quiet.refl s).setClip _ _).carried _
  · exact .refl s

theorem placeBody_quiet : QuietBody placeBody := by
  intro ws s
  unfold placeBody
  extract_lets a
  split
  · exact (((Quiet.refl s).setPlacement _ _).lateTest _).carried _
  · exact .refl s

theorem withdrawBody_quiet : QuietBody withdrawBody := by
  intro ws s
  have onStack (id : Nat) : Quiet s (withdrawOnStack id s) := by
    unfold withdrawOnStack
    split
    · exact .refl s
    · exact ((Quiet.refl s).onLane _ _).onPlacement _ _
  unfold withdrawBody
  extract_lets id
  split
  · exact .refl s
  · split
    · exact .refl s
    · exact ((Quiet.refl s).endPlacement _ _ _ _).carried _
    · exact ((Quiet.refl s).endPlacement _ _ _ _).carried _
    · exact (onStack id).carried _
    · exact (onStack id).carried _

theorem placementStatusBody_quiet : QuietBody placementStatusBody := by
  intro ws s
  unfold placementStatusBody
  split <;> exact .refl s

theorem cueBody_quiet : QuietBody cueBody := by
  intro ws s
  unfold cueBody
  extract_lets a
  split
  · exact ((Quiet.refl s).intake _ _ _).carried _
  · exact .refl s

theorem alertProfileBody_quiet : QuietBody alertProfileBody := by
  intro ws s
  unfold alertProfileBody
  extract_lets a
  have hp : Quiet s (setProfile a s) := (Quiet.refl s).withAlert _
  split
  · split
    · exact (hp.beginAlert _ _ _).carried _
    · exact hp.carried _
  · exact .refl s

theorem alertStartBody_quiet : QuietBody alertStartBody := by
  intro ws s
  unfold alertStartBody
  extract_lets p
  split
  · exact ((Quiet.refl s).beginAlert _ _ _).carried _
  · exact .refl s

theorem alertRenewBody_quiet : QuietBody alertRenewBody := by
  intro ws s
  unfold alertRenewBody
  split
  · exact ((Quiet.refl s).judgeRenewal).carried _
  all_goals exact .refl s

theorem alertEndBody_quiet : QuietBody alertEndBody := by
  intro ws s
  unfold alertEndBody
  split
  · exact ((Quiet.refl s).endAlert _).carried _
  · exact ((Quiet.refl s).endAlert _).carried _
  all_goals exact .refl s

theorem alertLockBody_quiet : QuietBody alertLockBody := fun _ s => (Quiet.refl s).withAlert _

theorem auditMarkBody_quiet : QuietBody auditMarkBody := by
  intro ws s
  unfold auditMarkBody
  split
  · exact .refl s
  · split
    · exact .refl s
    · exact ((Quiet.refl s).onLane _ _).carried _

theorem logAckBody_quiet : QuietBody logAckBody := by
  intro ws s
  unfold logAckBody
  extract_lets n
  split
  · exact (((Quiet.refl s).logged { s.log with tail := n } id id).presentLog).carried _
  · exact .refl s

theorem unknownBody_quiet : QuietBody unknownBody := fun _ s => .refl s

/-- Without a change that touches the LOG entry REGION-SET changes the Region Table alone (R10). -/
theorem setRegion_cases (a : RegionArgs) (s : State) : ∃ v, Quiet s v ∧ (setRegion a s = v ∨ setRegion a s = newLogRing v) := by
  refine ⟨{ s with router := { s.router with regions := s.router.regions.setIfInBounds a.index a.entry } },
    (Quiet.refl s).away rfl rfl rfl rfl rfl rfl rfl rfl, ?_⟩
  unfold setRegion
  extract_lets s'
  split
  · exact .inr rfl
  · exact .inl rfl

/-- What a step makes of state `s` before its close: most steps are `Quiet`; a request is accepted; the arbiter grants; a command
is executed and answered, where REGION-SET may give the Log Writer a new ring and UNCLAIM halts execution; RST_N is asserted or
released. -/
inductive Does (s : State) : Instr → State → Prop where
  | quiet {i : Instr} {u : State} (h : Quiet s u) : Does s i u
  | accept (r : QRequest) : Does s (.qPortAccept r) (acceptRequest r.aligned s)
  | grant : Does s .mPortGrant (grantStep s)
  | answer {i : Instr} {c : Captured} {rest : List Captured} {r : Reply} (he : s.executes = true) (hq : s.cmd.queue = c :: rest)
      (h : Quiet (s.unqueue rest) r.state) : Does s i (joinAnswer c r)
  | newRing {c : Captured} {rest : List Captured} {v : State} (he : s.executes = true) (hq : s.cmd.queue = c :: rest)
      (h : Quiet (s.unqueue rest) v) : Does s .regionSet (joinAnswer c (carryOut [] (newLogRing v)))
  | unclaim {c : Captured} {rest : List Captured} (he : s.executes = true) (hq : s.cmd.queue = c :: rest) :
      Does s .unclaim
        (joinAnswer c (carryOut [] { s.unqueue rest with cmd := { (s.unqueue rest).cmd with unclaiming := true } }))
  | asserts (h : s.rst = false) : Does s .rstNAssert (assertReset s)
  | releases (h : s.rst = true) : Does s .rstNRelease (releaseReset s)

/-- An execution is nothing, or the body of the oldest queued command with its answer (R174). -/
theorem execute_cases (test : Nat → Bool) (body : List Word → State → Reply) (s : State) :
    execute test body s = s ∨
      ∃ c rest, s.executes = true ∧ s.cmd.queue = c :: rest ∧
        execute test body s = joinAnswer c (body c.words (s.unqueue rest)) := by
  unfold execute
  split
  · exact .inl rfl
  next c rest hq =>
    split
    next h => exact .inr ⟨c, rest, (Bool.and_eq_true_iff.1 h).1, hq, rfl⟩
    · exact .inl rfl

theorem Does.execute_quiet {body : List Word → State → Reply} (hb : QuietBody body) (s : State) (i : Instr) (test : Nat → Bool) :
    Does s i (execute test body s) := by
  rcases execute_cases test body s with h | ⟨c, rest, he, hq, h⟩
  · rw [h]; exact .quiet (.refl s)
  · rw [h]; exact .answer he hq (hb _ _)

theorem Does.execute_regionSet (s : State) (test : Nat → Bool) : Does s .regionSet (execute test regionSetBody s) := by
  rcases execute_cases test regionSetBody s with h | ⟨c, rest, he, hq, h⟩
  · rw [h]; exact .quiet (.refl s)
  · rw [h]
    unfold regionSetBody
    split
    · obtain ⟨v, hv, hs | hs⟩ := setRegion_cases (regionArgs c.words) (s.unqueue rest)
      · rw [hs]; exact .answer he hq hv
      · rw [hs]; exact .newRing he hq hv
    · exact .answer he hq (.refl _)

theorem Does.execute_unclaim (s : State) (test : Nat → Bool) : Does s .unclaim (execute test unclaimBody s) := by
  rcases execute_cases test unclaimBody s with h | ⟨c, rest, he, hq, h⟩
  · rw [h]; exact .quiet (.refl s)
  · rw [h]
    unfold unclaimBody
    split
    · exact .answer he hq (.refl _)
    · split
      · exact .answer he hq (.refl _)
      · exact .unclaim he hq

/-- A test that keeps the state or changes it quietly. -/
theorem Does.ite {s u : State} {p : Prop} [Decidable p] (i : Instr) (h : Quiet s u) : Does s i (if p then u else s) := by
  split
  · exact .quiet h
  · exact .quiet (.refl s)

/-- Every step that answers a next state closes what it does (R16, R17). -/
theorem exec_does {i : Instr} {s t : State} (h : exec i s = .next t) : ∃ u, t = settle s u ∧ Does s i u := by
  have close {u : State} (hd : Does s i u) (hu : (.next (settle s u) : Host.Outcome State Fault Refusal) = .next t) :
      ∃ u, t = settle s u ∧ Does s i u := ⟨u, (Host.Outcome.next.inj hu).symm, hd⟩
  have same := Quiet.refl s
  cases i with
  | qPortAccept r =>
    simp only [exec, execQPortAccept] at h
    split at h
    · exact close (.accept r) h
    · cases h
  | mPortGrant => exact close .grant h
  | readDataArrival => exact close (.quiet same.readArrival) h
  | slotReadProcedure => exact close (.quiet same.slotReadStep) h
  | slateCountdownExpiry l =>
    simp only [exec, execSlateCountdownExpiry] at h
    split at h
    · exact close (.ite _ (same.onLane _ _)) h
    · cases h
  | fetchDataArrival => exact close (.quiet same.fetchArrival) h
  | readReturn => exact close (.quiet same.returnRead) h
  | regionSet => exact close (.execute_regionSet s _) h
  | laneSet => exact close (.execute_quiet laneSetBody_quiet s _ _) h
  | laneEnable => exact close (.execute_quiet laneEnableBody_quiet s _ _) h
  | laneDisable => exact close (.execute_quiet laneDisableBody_quiet s _ _) h
  | laneStatus => exact close (.execute_quiet laneStatusBody_quiet s _ _) h
  | clipSet => exact close (.execute_quiet clipSetBody_quiet s _ _) h
  | clipClear => exact close (.execute_quiet clipClearBody_quiet s _ _) h
  | place => exact close (.execute_quiet placeBody_quiet s _ _) h
  | withdraw => exact close (.execute_quiet withdrawBody_quiet s _ _) h
  | placementStatus => exact close (.execute_quiet placementStatusBody_quiet s _ _) h
  | cue => exact close (.execute_quiet cueBody_quiet s _ _) h
  | alertProfile => exact close (.execute_quiet alertProfileBody_quiet s _ _) h
  | alertStart => exact close (.execute_quiet alertStartBody_quiet s _ _) h
  | alertRenew => exact close (.execute_quiet alertRenewBody_quiet s _ _) h
  | alertEnd => exact close (.execute_quiet alertEndBody_quiet s _ _) h
  | alertLock => exact close (.execute_quiet alertLockBody_quiet s _ _) h
  | auditMark => exact close (.execute_quiet auditMarkBody_quiet s _ _) h
  | logAck => exact close (.execute_quiet logAckBody_quiet s _ _) h
  | unclaim => exact close (.execute_unclaim s _) h
  | unknownCommand => exact close (.execute_quiet unknownBody_quiet s _ _) h
  | rstNAssert =>
    cases hr : s.rst with
    | true => exact close (.quiet same) (by simpa [exec, execRstNAssert, hr] using h)
    | false => exact close (.asserts hr) (by simpa [exec, execRstNAssert, hr] using h)
  | rstNRelease =>
    cases hr : s.rst with
    | true => exact close (.releases hr) (by simpa [exec, execRstNRelease, hr] using h)
    | false => exact close (.quiet same) (by simpa [exec, execRstNRelease, hr] using h)
  | bypassAssert =>
    simp only [exec, execBypassAssert] at h
    split at h
    · exact close (.quiet same) h
    · exact close (.quiet same.assertBypass) h
  | bypassRelease => exact close (.ite _ same.releaseBypass) h
  | ealRawChange level => exact close (.quiet (same.changeRaw level)) h
  | ealFilterExpiry => exact close (.ite _ (same.withAlert _).filteredChange) h
  | holdSecondElapsed => exact close (.ite _ (same.withAlert _)) h
  | holdLimitExpiry => exact close (.ite _ (same.endAlert _)) h
  | renewalPeriodExpiry => exact close (.ite _ (same.withAlert _).renewalFailure) h
  | laneClockFold l =>
    simp only [exec, execLaneClockFold] at h
    split at h
    · exact close (.ite _ (same.onLane _ _)) h
    · cases h

/-- A step is one tick, or what the step at the front of the queue does, and its close. -/
theorem step_does {s t : State} (h : step s = .next t) :
    t = tick s ∨
      ∃ i rest u, s.pending = i :: rest ∧ t = settle { s with pending := rest } u ∧ Does { s with pending := rest } i u := by
  unfold step at h
  split at h
  · exact .inl (Host.Outcome.next.inj h).symm
  next i rest hp =>
    obtain ⟨u, ht, hu⟩ := exec_does h
    exact .inr ⟨i, rest, u, hp, ht, hu⟩

end Sys2Proof.Machine

namespace Sys2Proof.Machine

open Sys2Proof

/-! ## Acceptance at the Q port (R1, R5 to R14, R169 to R173) -/

theorem countStrayClaim_quiet (r : QRequest) (s : State) : Quiet s (countStrayClaim r s) := by
  unfold countStrayClaim
  split
  · exact (Quiet.refl s).away rfl rfl rfl rfl rfl rfl rfl rfl
  · exact .refl s

/-- What the acceptance of a request makes of `s`, with the class it gives, before the request joins the forward queue: the router
and the lanes may count and follow it, a claim line claims the part, and a write of a command line reaches the Command Unit. -/
inductive Classed (r : QRequest) (s : State) : State → FwdClass → Prop where
  | quiet {v : State} {c : FwdClass} (h : Quiet s v) (hc : ∀ n, c ≠ .command n) : Classed r s v c
  | claims (hb : s.router.controlBase = none) : Classed r s (claim r s) .plain
  | takes {v : State} (h : Quiet s v) (n : Nat) (hn : n ≤ 15) (ws : List Word) :
      Classed r s (takeCommand n ws v) (.command v.cmd.takes)
  | cancels {v : State} (h : Quiet s v) (n : Nat) : Classed r s (cancelCommand n v) .offered
  | partly {v : State} (h : Quiet s v) : Classed r s (countPartial v) .offered

/-- A write offered to the Command Unit is a cancel, a take or a partial command (R169, R170). -/
theorem offerWrite_eq (n : Nat) (r : QRequest) (v : State) :
    offerWrite n r v = (cancelCommand n v, .offered) ∨ offerWrite n r v = (takeCommand n (lineWords r.data) v, .command v.cmd.takes) ∨
    offerWrite n r v = (countPartial v, .offered) := by
  unfold offerWrite
  dsimp only
  by_cases h1 : r.fullWrite 1 = true
  · rw [if_pos h1]
    by_cases h2 : wordAt (lineWords r.data) 0 = 0
    · rw [if_pos h2]; exact .inl rfl
    · rw [if_neg h2]; exact .inr (.inl rfl)
  · rw [if_neg h1]; exact .inr (.inr rfl)

theorem acceptControl_classed {s v : State} (h : Quiet s v) (r : QRequest) :
    Classed r s (acceptControl r v).1 (acceptControl r v).2 := by
  unfold acceptControl
  split
  next hw =>
    rcases offerWrite_eq (v.controlLine r) r v with he | he | he
    · rw [he]
      exact .cancels h _
    · rw [he]
      exact .takes h _ hw.2 _
    · rw [he]
      exact .partly h
  · exact .quiet h nofun

theorem acceptRing_classed {s v : State} (h : Quiet s v) (i : Nat) (r : QRequest) :
    Classed r s (acceptRing i r v).1 (acceptRing i r v).2 := by
  unfold acceptRing
  extract_lets l off
  split
  · exact .quiet h nofun
  · split
    · exact .quiet (h.ingress _ _ _) nofun
    · split
      · exact .quiet h nofun
      · exact .quiet (h.onLane l fun x => { x with strays := satInc x.strays }) nofun

theorem acceptLog_classed {s v : State} (h : Quiet s v) (r : QRequest) : Classed r s (acceptLog r v).1 (acceptLog r v).2 := by
  unfold acceptLog
  split
  · exact .quiet (h.away rfl rfl rfl rfl rfl rfl rfl rfl) nofun
  · exact .quiet h nofun

theorem classify_classed {s v : State} (h : Quiet s v) (r : QRequest) : Classed r s (classify r v).1 (classify r v).2 := by
  unfold classify
  split
  · exact .quiet (h.away rfl rfl rfl rfl rfl rfl rfl rfl) nofun
  · exact acceptControl_classed h r
  next i _ =>
    unfold acceptRegion
    split
    · exact acceptRing_classed h i r
    · exact acceptLog_classed h r
    · exact .quiet h nofun
    · exact .quiet h nofun
  · exact .quiet h nofun

/-- A request changes nothing where the forward queue is full, and else joins it in its class (R1). -/
theorem acceptRequest_cases (r : QRequest) (s : State) :
    acceptRequest r s = s ∨
      s.router.forward.length < 32 ∧ ∃ v c, Classed r s v c ∧ acceptRequest r s = enqueue r c v := by
  unfold acceptRequest
  split
  · exact .inl rfl
  next hroom =>
    refine .inr ⟨by simpa [Config.forwardCapacity] using hroom, ?_⟩
    split
    · exact ⟨s, .plain, .quiet (.refl s) nofun, rfl⟩
    · split
      · exact ⟨_, _, classify_classed (countStrayClaim_quiet r s) r, rfl⟩
      next hcl =>
        split
        · refine ⟨_, _, .claims ?_, rfl⟩
          simpa [State.claimed] using hcl
        · exact ⟨s, .plain, .quiet (.refl s) nofun, rfl⟩

/-! ### What taking and cancelling leave alone (R169 to R173) -/

theorem takeCommand_mem (n : Nat) (ws : List Word) (s : State) : (takeCommand n ws s).mem = s.mem := by
  unfold takeCommand
  split
  · rfl
  · split <;> rfl

theorem cancelCommand_mem (n : Nat) (s : State) : (cancelCommand n s).mem = s.mem := by
  unfold cancelCommand
  split
  · rfl
  · split <;> rfl

theorem takeCommand_base (n : Nat) (ws : List Word) (s : State) :
    (takeCommand n ws s).router.controlBase = s.router.controlBase := by
  unfold takeCommand
  split
  · rfl
  · split <;> rfl

theorem cancelCommand_base (n : Nat) (s : State) : (cancelCommand n s).router.controlBase = s.router.controlBase := by
  unfold cancelCommand
  split
  · rfl
  · split <;> rfl

/-! ## The arbiter's choice (R16, R17) -/

theorem isQueued_iff (f : FwdEntry) : f.isQueued = true ↔ f.state = .queued := by simp [FwdEntry.isQueued]

theorem anyQueued_eq_false {fs : List FwdEntry} (h : ∀ f ∈ fs, f.state ≠ .queued) : fs.any FwdEntry.isQueued = false := by
  simpa [FwdEntry.isQueued] using h

theorem notForced_iff (s : State) : s.NotForced ↔ ¬ (Config.waitLimit ≤ s.router.waitCount ∧ s.router.waiting ≠ []) := by
  simp only [State.NotForced, Config.waitLimit, not_and_or, not_le, not_not, or_comm]

theorem demandLane_eq_none {s : State} (h : s.NoDemand) : s.demandLane = none := by
  simpa [State.demandLane, List.find?_eq_none] using h

theorem nextGrant_part {s : State} {w : PartWrite} {rest : List PartWrite} (h : s.PartTurn w rest) : s.nextGrant = .part := by
  obtain ⟨hw, h8 | ⟨hf, hq⟩⟩ := h
  · simp [State.nextGrant, hw, Config.waitLimit, h8]
  · simp [State.nextGrant, hw, State.demandLane, hf, anyQueued_eq_false hq]

theorem partTurn_of_nextGrant {s : State} (h : s.nextGrant = .part) : ∃ w rest, s.PartTurn w rest := by
  unfold State.nextGrant at h
  split at h
  next hn =>
    obtain ⟨w, rest, hw⟩ := List.exists_cons_of_ne_nil hn.2
    exact ⟨w, rest, hw, .inl hn.1⟩
  · split at h
    · cases h
    · split at h
      · cases h
      next hq =>
        split at h
        · cases h
        next hf =>
          split at h
          next hw =>
            obtain ⟨w, rest, hw⟩ := List.exists_cons_of_ne_nil hw
            refine ⟨w, rest, hw, .inr ⟨hf, ?_⟩⟩
            simpa [FwdEntry.isQueued] using hq
          · cases h

theorem notForced_of_nextGrant {s : State} (h : s.nextGrant ≠ .part) : s.NotForced := by
  rw [notForced_iff]
  intro hn
  exact h (by simp only [State.nextGrant, hn, ne_eq, not_false_eq_true, and_self, ↓reduceIte])

theorem nextGrant_forward {s : State} (hn : s.NotForced) (hd : s.NoDemand) {f : FwdEntry} (hf : f ∈ s.router.forward)
    (hq : f.state = .queued) : s.nextGrant = .forward := by
  have hany : s.router.forward.any FwdEntry.isQueued = true := List.any_eq_true.2 ⟨f, hf, (isQueued_iff f).2 hq⟩
  simp [State.nextGrant, (notForced_iff s).1 hn, demandLane_eq_none hd, hany]

theorem nextGrant_fetch {s : State} {l : Nat} (h : s.FetchTurn l) : s.nextGrant = .fetch l := by
  obtain ⟨hn, hd | ⟨hd, hh, hq⟩⟩ := h
  · have hd' : s.demandLane = some l := hd
    simp [State.nextGrant, (notForced_iff s).1 hn, hd']
  · obtain ⟨ls, hls⟩ : ∃ ls, s.router.fetchOrder = l :: ls := List.head?_eq_some_iff.1 hh
    simp [State.nextGrant, (notForced_iff s).1 hn, demandLane_eq_none hd, anyQueued_eq_false hq, hls]

/-! ## Grants (R1, R2, R4, R16, R17) -/

theorem memoryOk_of_eq {s t : State} (hs : s.MemoryOk) (h : t.mem = s.mem) : t.MemoryOk := by
  rw [State.MemoryOk, h]
  exact hs

/-- A state with memory replaced. -/
def State.withMem (s : State) (m : Memory) : State := { s with mem := m }

/-- A grant of the forward queue's oldest QUEUED entry leaves all but memory quiet, and memory canonical (R1, R2). -/
theorem grantForward_quiet (s : State) :
    ∃ v m, Quiet s v ∧ grantForward s = v.withMem m ∧ (Memory.wf s.mem = true → Memory.wf m = true) := by
  unfold grantForward
  split
  · exact ⟨s, s.mem, .refl s, rfl, id⟩
  · split
    next a d e _ =>
      refine ⟨showM (.write a d e) (s.withForward (removeFirst FwdEntry.isQueued s.router.forward)), s.mem.writeMasked a d e, ?_, rfl,
        Memory.wf_writeMasked a d e⟩
      exact ((Quiet.refl s).withForward _ ((removeFirst_sublist _ _).map _)).away rfl rfl rfl rfl rfl rfl rfl rfl
    next a n _ =>
      refine ⟨showM (.read a n) (launch .forward (s.mem.readBytes a (Config.lineBytes * n)) (s.withForward
        (changeFirst FwdEntry.isQueued (fun f => { f with state := .granted }) s.router.forward))), s.mem, ?_, rfl, id⟩
      exact ((Quiet.refl s).changeForward FwdEntry.isQueued (fun f => { f with state := .granted }) fun _ => rfl).away
        rfl rfl rfl rfl rfl rfl rfl rfl

theorem grantFetch_quiet (l : Nat) (s : State) : Quiet s (grantFetch l s) := by
  unfold grantFetch
  split
  · exact (((Quiet.refl s).onLane _ _).withdrawFetch l).away rfl rfl rfl rfl rfl rfl rfl rfl
  all_goals exact (Quiet.refl s).withdrawFetch l

/-- The grant of UNCLAIM's DONE answer, or any other answer of line `n` (R175, R178). -/
theorem grantAnswer_eq {s : State} {n : Nat} {a : Answer} (h : (s.cmd.answers.find? fun a => decide (a.line = n)) = some a) :
    grantAnswer n s =
      if a.isUnclaim then
        unclaimEffect { writeLine (s.controlAddr n) a.words answerBytes s with
          cmd := { s.cmd with answers := s.cmd.answers.filter fun b => decide (b.line ≠ n) } }
      else
        { writeLine (s.controlAddr n) a.words answerBytes s with
          cmd := { s.cmd with answers := s.cmd.answers.filter fun b => decide (b.line ≠ n) } } := by
  simp only [grantAnswer, h]
  rfl

theorem writeLine_memoryOk {s : State} (h : s.MemoryOk) (a : Word) (ws : List Word) (e : List Bool) :
    (writeLine a ws e s).MemoryOk :=
  Memory.wf_writeMasked _ _ _ h

theorem grantAnswer_memoryOk (n : Nat) {s : State} (h : s.MemoryOk) : (grantAnswer n s).MemoryOk := by
  unfold grantAnswer
  split
  · exact h
  next a _ =>
    extract_lets written cmd left
    have hl : left.MemoryOk := writeLine_memoryOk h _ _ _
    split <;> exact hl

theorem grantLog_memoryOk {s : State} (h : s.MemoryOk) : (grantLog s).MemoryOk := by
  have line_ok (b : Word) (c : Nat) (w : LogWrite) : (grantLogLine b c w s).MemoryOk := by
    unfold grantLogLine
    extract_lets a head
    split
    · exact writeLine_memoryOk (s := { s with log := _ }) h _ _ _
    · split
      · exact h
      · exact writeLine_memoryOk (s := { s with log := _ }) h _ _ _
  unfold grantLog
  split
  · rw [presentLog_eq]
    exact line_ok _ _ _
  all_goals exact h

/-- Every grant keeps the canonical form of memory. -/
theorem grantStep_memoryOk {s : State} (h : s.MemoryOk) : (grantStep s).MemoryOk := by
  have counted : (countWait s).MemoryOk := by
    unfold countWait
    split <;> exact h
  unfold grantStep
  split
  · unfold grantPart
    split
    · exact h
    · exact grantAnswer_memoryOk _ h
    · exact grantLog_memoryOk h
    · exact writeLine_memoryOk (s := { s with cmd := _ }) h _ _ _
  · rw [State.MemoryOk, (grantFetch_quiet _ _).mem]
    exact counted
  · obtain ⟨v, m, -, he, hm⟩ := grantForward_quiet (countWait s)
    rw [he]
    exact hm counted
  · exact h

/-! ## Memory stays canonical (R1, R2, R4) -/

theorem Does.memoryOk {s u : State} {i : Instr} (h : Does s i u) (hs : s.MemoryOk) : u.MemoryOk := by
  have of_mem {v : State} (hv : v.mem = s.mem) : v.MemoryOk := memoryOk_of_eq hs hv
  cases h with
  | quiet h => exact of_mem h.mem
  | accept r =>
    rcases acceptRequest_cases r.aligned s with he | ⟨-, v, c, hv, he⟩
    · rw [he]; exact hs
    · rw [he]
      cases hv with
      | quiet h => exact of_mem h.mem
      | claims => exact hs
      | takes h n _ ws => exact of_mem ((takeCommand_mem n ws _).trans h.mem)
      | cancels h n => exact of_mem ((cancelCommand_mem n _).trans h.mem)
      | partly h => exact of_mem h.mem
  | grant => exact grantStep_memoryOk hs
  | answer _ _ h => exact of_mem h.mem
  | newRing _ _ h => exact of_mem ((congrArg State.mem (presentLog_eq _)).trans h.mem)
  | unclaim => exact hs
  | asserts => exact hs
  | releases => exact hs

theorem tick_mem (s : State) : (tick s).mem = s.mem := by
  unfold tick
  split <;> rfl

/-- Settles O6: bytes reach memory only by masked writes at a grant, and every byte written keeps the canonical form. -/
theorem stepKeepsMemory : Obligations.StepKeepsMemory := by
  intro s t hs h
  rcases step_does h with ht | ⟨i, rest, u, -, ht, hu⟩
  · exact memoryOk_of_eq hs (by rw [ht, tick_mem])
  · exact memoryOk_of_eq (hu.memoryOk hs) (by rw [ht, settle_mem])

end Sys2Proof.Machine

namespace Sys2Proof.Machine

open Sys2Proof

/-! ## The laws of the queues between a step's body and its close -/

/-- What lets a part-originated write stand among those that wait (R173, R175, R180, R184). -/
def State.MayWait (s : State) (w : PartWrite) : Prop :=
  match w with
  | .answer n => n < 16 ∧ s.AnswerDue n
  | .log => s.log.presented ≠ none
  | .status => s.router.controlBase ≠ none ∧ s.rst = false

/-- The laws of the queues but for the writes that the close of a step has yet to bring to the arbiter. -/
structure Loose (s : State) : Prop where
  sizes : s.SizesOk
  commands : s.CommandsOk
  nodup : s.router.waiting.Nodup
  lawful : ∀ w ∈ s.router.waiting, s.MayWait w
  answers : ∀ a ∈ s.cmd.answers, a.take < s.cmd.takes ∧ (a.isUnclaim = true → s.cmd.unclaiming = true)
  queued : ∀ c ∈ s.cmd.queue, c.take < s.cmd.takes
  apart : s.cmd.unclaiming = false → ∀ c ∈ s.cmd.queue, ∀ a ∈ s.cmd.answers, a.line ≠ c.line

/-- The laws of the queues, with what they say of the close of a step set apart. -/
theorem queueLaws_iff (s : State) :
    s.QueueLaws ↔ Loose s ∧ (∀ n, n < 16 → s.AnswerDue n → PartWrite.answer n ∈ s.router.waiting) ∧
      (s.log.presented ≠ none → PartWrite.log ∈ s.router.waiting) := by
  constructor
  · rintro ⟨hsizes, hcmd, hnodup, hlaw, hdue, hlog, hans, hq, hap⟩
    refine ⟨⟨hsizes, hcmd, hnodup, fun w hw => ?_, hans, hq, hap⟩, hdue, hlog⟩
    have := hlaw w hw
    cases w <;> exact this
  · rintro ⟨⟨hsizes, hcmd, hnodup, hlaw, hans, hq, hap⟩, hdue, hlog⟩
    refine ⟨hsizes, hcmd, hnodup, fun w hw => ?_, hdue, hlog, hans, hq, hap⟩
    have := hlaw w hw
    cases w <;> exact this

/-- The writes that waited before a step's body keep their order, and those that left had their reason (R10, R16, R19, R20, R173). -/
def Kept (i : Instr) (s u : State) : Prop :=
  u.router.waiting.Sublist s.router.waiting ∧
    ∀ w ∈ s.router.waiting, w ∉ u.router.waiting →
      u.router.controlBase = none ∨ (i = .mPortGrant ∧ ∃ rest, s.PartTurn w rest) ∨
        (∃ n, w = .answer n ∧ ¬ u.AnswerDue n) ∨ (w = .log ∧ i = .regionSet)

theorem Kept.of_eq {i : Instr} {s u : State} (h : u.router.waiting = s.router.waiting) : Kept i s u :=
  ⟨by rw [h], fun w hw hn => absurd (h ▸ hw) hn⟩

/-! ## The close of a step (R16, R17, R175, R180, R184) -/

section Close

variable (b s : State)

theorem answerReady_iff (n : Nat) : s.answerReady n = true ↔ s.AnswerDue n := by
  simp [State.answerReady, State.takeGranted, State.AnswerDue]

theorem joinWaiting_waiting (w : PartWrite) :
    (joinWaiting w s).router.waiting = if w ∈ s.router.waiting then s.router.waiting else s.router.waiting ++ [w] := by
  unfold joinWaiting
  split <;> rfl

@[simp] theorem joinWaiting_waitCount (w : PartWrite) : (joinWaiting w s).router.waitCount = s.router.waitCount := by
  unfold joinWaiting
  split <;> rfl

theorem answerReady_congr {s t : State} (hc : t.cmd = s.cmd) (hf : t.router.forward = s.router.forward) (n : Nat) :
    t.answerReady n = s.answerReady n := by
  simp only [State.answerReady, State.takeGranted, hc, hf]

theorem joinWaiting_answerReady (w : PartWrite) (n : Nat) : (joinWaiting w s).answerReady n = s.answerReady n := by
  unfold joinWaiting
  split
  · rfl
  · exact answerReady_congr rfl rfl n

/-- The answers due join behind those that wait, in the order of the list (R16, R175). -/
theorem joinAnswers_waiting (ns : List Nat) (hn : ns.Nodup) :
    (joinAnswers ns s).router.waiting =
      s.router.waiting ++ (ns.filter fun n => s.answerReady n && decide (.answer n ∉ s.router.waiting)).map PartWrite.answer := by
  induction ns generalizing s with
  | nil => simp [joinAnswers]
  | cons n rest ih =>
    obtain ⟨hnr, hr⟩ := List.nodup_cons.1 hn
    simp only [joinAnswers]
    by_cases hready : s.answerReady n = true
    · rw [if_pos hready, ih _ hr, joinWaiting_waiting]
      have hsame : ∀ m ∈ rest,
          ((joinWaiting (.answer n) s).answerReady m &&
            decide (.answer m ∉ if .answer n ∈ s.router.waiting then s.router.waiting else s.router.waiting ++ [.answer n])) =
          (s.answerReady m && decide (.answer m ∉ s.router.waiting)) := by
        intro m hm
        have hmn : m ≠ n := fun h => hnr (h ▸ hm)
        rw [joinWaiting_answerReady]
        split <;> simp [hmn]
      rw [List.filter_congr hsame, List.filter_cons, hready]
      by_cases hw : PartWrite.answer n ∈ s.router.waiting <;> simp [hw]
    · rw [if_neg hready, ih _ hr, List.filter_cons]
      simp [hready]

@[simp] theorem joinAnswers_waitCount (ns : List Nat) : (joinAnswers ns s).router.waitCount = s.router.waitCount := by
  induction ns generalizing s with
  | nil => rfl
  | cons n rest ih =>
    rw [joinAnswers, ih]
    split <;> simp

@[simp] theorem joinLog_waitCount : (joinLog s).router.waitCount = s.router.waitCount := by
  unfold joinLog
  split <;> simp

@[simp] theorem joinStatus_waitCount : (joinStatus b s).router.waitCount = s.router.waitCount := by
  unfold joinStatus
  split <;> simp

/-- The close of a step leaves the wait count or sets it to 0 (R17). -/
theorem settle_waitCount_le : (settle b s).router.waitCount ≤ s.router.waitCount := by
  have h : ∀ u : State, (settleWaitCount u).router.waitCount ≤ u.router.waitCount := by
    intro u
    unfold settleWaitCount
    split
    · exact Nat.zero_le _
    · exact le_refl _
  simpa [settle] using h (joinStatus b (joinLog (joinAnswers commandLines s)))

/-- The command lines whose answers the close of a step brings to the arbiter (R175). -/
def State.joiningLines : List Nat := commandLines.filter fun n => s.answerReady n && decide (.answer n ∉ s.router.waiting)

/-- The log write, where the close of a step brings it to the arbiter (R184). -/
def State.joiningLog : List PartWrite := if s.log.presented ≠ none ∧ .log ∉ s.router.waiting then [.log] else []

/-- The status line write, where the close of a step that began at `b` brings it to the arbiter (R180). -/
def State.joiningStatus : List PartWrite :=
  if (s.claimed ∧ s.rst = false ∧ b.statusItems ≠ s.statusItems) ∧ .status ∉ s.router.waiting then [.status] else []

theorem joinLog_waiting : (joinLog s).router.waiting = s.router.waiting ++ s.joiningLog := by
  unfold joinLog State.joiningLog
  by_cases hp : s.log.presented = none
  · simp [hp]
  · by_cases hw : PartWrite.log ∈ s.router.waiting <;> simp [hp, hw, Option.isSome_iff_ne_none, joinWaiting_waiting]

theorem statusDue_iff : (s.claimed = true ∧ s.rst = false ∧ b.statusItems ≠ s.statusItems) ↔ b.StatusDue s := by
  simp only [State.StatusDue, State.claimed, Option.isSome_iff_ne_none, ne_eq, statusItems_eq_iff]

theorem joinStatus_waiting : (joinStatus b s).router.waiting = s.router.waiting ++ State.joiningStatus b s := by
  unfold joinStatus State.joiningStatus
  by_cases hd : s.claimed ∧ s.rst = false ∧ b.statusItems ≠ s.statusItems
  · rw [if_pos hd, joinWaiting_waiting]
    by_cases hw : PartWrite.status ∈ s.router.waiting <;> simp [hd, hw]
  · rw [if_neg hd, if_neg fun h => hd h.1, List.append_nil]

theorem mem_joiningStatus (w : PartWrite) :
    w ∈ State.joiningStatus b s ↔ w = .status ∧ b.StatusDue s ∧ .status ∉ s.router.waiting := by
  rw [State.joiningStatus, ← statusDue_iff]
  split <;> simp_all

theorem joiningStatus_of_due (h : b.StatusDue s) (hw : .status ∉ s.router.waiting) : State.joiningStatus b s = [.status] :=
  if_pos ⟨(statusDue_iff b s).2 h, hw⟩

theorem joiningStatus_of_not (h : ¬ (b.StatusDue s ∧ .status ∉ s.router.waiting)) : State.joiningStatus b s = [] :=
  if_neg fun hn => h ⟨(statusDue_iff b s).1 hn.1, hn.2⟩

end Close

/-- Two states that differ at most in what waits at the arbiter. -/
theorem eq_of_apart {s t : State} (h : t.apart = s.apart) :
    t.cmd = s.cmd ∧ t.router.forward = s.router.forward ∧ t.log = s.log ∧ t.rst = s.rst ∧
      t.router.controlBase = s.router.controlBase := by
  have := State.apart_eq_iff.1 h
  rw [this]
  exact ⟨rfl, rfl, rfl, rfl, rfl⟩

theorem sameItems_congr_right {b s t : State} (h : t.apart = s.apart) : b.sameItems t ↔ b.sameItems s := by
  have := State.apart_eq_iff.1 h
  rw [this]
  rfl

theorem statusDue_congr_right {b s t : State} (h : t.apart = s.apart) : b.StatusDue t ↔ b.StatusDue s := by
  obtain ⟨-, -, -, hr, hb⟩ := eq_of_apart h
  rw [State.StatusDue, State.StatusDue, hr, hb, sameItems_congr_right h]

/-- What waits after the close of a step: the writes that waited, and behind them those it brings, in R16's order. -/
theorem settle_waiting (b s : State) :
    (settle b s).router.waiting =
      s.router.waiting ++ (s.joiningLines.map PartWrite.answer ++ s.joiningLog ++ State.joiningStatus b s) := by
  have hlines : (joinAnswers commandLines s).router.waiting = s.router.waiting ++ s.joiningLines.map PartWrite.answer :=
    joinAnswers_waiting s commandLines List.nodup_range
  have hlog : (joinAnswers commandLines s).joiningLog = s.joiningLog := by
    simp [State.joiningLog, (eq_of_apart (joinAnswers_apart commandLines s)).2.2.1, hlines]
  have hstatus : State.joiningStatus b (joinLog (joinAnswers commandLines s)) = State.joiningStatus b s := by
    have hd := statusDue_congr_right (b := b) ((joinLog_apart _).trans (joinAnswers_apart commandLines s))
    have hw : PartWrite.status ∈ (joinLog (joinAnswers commandLines s)).router.waiting ↔ PartWrite.status ∈ s.router.waiting := by
      rw [joinLog_waiting, hlog, hlines]
      simp [State.joiningLog]
    exact if_congr (and_congr (by rw [statusDue_iff, statusDue_iff, hd]) (not_congr hw)) rfl rfl
  rw [settle, settleWaitCount_waiting, joinStatus_waiting, joinLog_waiting, hstatus, hlog, hlines]
  simp

theorem mem_joiningLines (s : State) (n : Nat) : n ∈ s.joiningLines ↔ n < 16 ∧ s.AnswerDue n ∧ .answer n ∉ s.router.waiting := by
  simp [State.joiningLines, commandLines, answerReady_iff]

theorem joiningLines_pairwise (s : State) : s.joiningLines.Pairwise (· < ·) := List.pairwise_lt_range.filter _

theorem mem_joiningLog (s : State) (w : PartWrite) : w ∈ s.joiningLog ↔ w = .log ∧ s.log.presented ≠ none ∧ .log ∉ s.router.waiting := by
  unfold State.joiningLog
  split <;> simp_all

/-- The close of a step brings nothing to the arbiter twice. -/
theorem settle_nodup {b s : State} (h : s.router.waiting.Nodup) : (settle b s).router.waiting.Nodup := by
  have hlines : (s.joiningLines.map PartWrite.answer).Nodup :=
    ((joiningLines_pairwise s).imp Nat.ne_of_lt).map _ fun _ _ hne he => hne (PartWrite.answer.inj he)
  have hlog : s.joiningLog.Nodup := by
    unfold State.joiningLog
    split <;> simp
  have hstatus : (State.joiningStatus b s).Nodup := by
    unfold State.joiningStatus
    split <;> simp
  rw [settle_waiting, List.nodup_append', List.nodup_append', List.nodup_append']
  refine ⟨h, ⟨⟨hlines, hlog, ?_⟩, hstatus, ?_⟩, ?_⟩
  all_goals
    intro w hw hw'
    simp only [List.mem_append, List.mem_map, mem_joiningLines, mem_joiningLog, mem_joiningStatus] at hw hw'
    aesop

/-- The close of a step makes the laws of the queues whole. -/
theorem settle_queueLaws {b s : State} (h : Loose s) : (settle b s).QueueLaws := by
  obtain ⟨hforward, hcount, hrecords⟩ := h.sizes
  rw [queueLaws_iff]
  have hdue (n : Nat) : (settle b s).AnswerDue n ↔ s.AnswerDue n := by
    simp only [State.AnswerDue, settle_cmd, settle_forward]
  refine ⟨⟨⟨?_, (settle_waitCount_le b s).trans hcount, ?_⟩, ?_, settle_nodup h.nodup, fun w hw => ?_, ?_, ?_, ?_⟩, ?_, ?_⟩
  · simpa using hforward
  · simpa using hrecords
  · simpa [State.CommandsOk] using h.commands
  · have hmay : s.MayWait w := by
      rw [settle_waiting] at hw
      simp only [List.mem_append, List.mem_map, mem_joiningLines, mem_joiningLog, mem_joiningStatus] at hw
      rcases hw with hw | (⟨n, ⟨hn, hd, -⟩, rfl⟩ | ⟨rfl, hp, -⟩) | ⟨rfl, ⟨hb, hr, -⟩, -⟩
      · exact h.lawful w hw
      · exact ⟨hn, hd⟩
      · exact hp
      · exact ⟨hb, hr⟩
    cases w with
    | answer n => exact ⟨hmay.1, (hdue n).2 hmay.2⟩
    | log => simpa [State.MayWait] using hmay
    | status => simpa [State.MayWait] using hmay
  · simpa using h.answers
  · simpa using h.queued
  · simpa using h.apart
  · intro n hn hd
    rw [settle_waiting]
    by_cases hw : PartWrite.answer n ∈ s.router.waiting
    · simp [hw]
    · simp [mem_joiningLines, hn, (hdue n).1 hd, hw]
  · intro hp
    rw [settle_waiting]
    by_cases hw : PartWrite.log ∈ s.router.waiting
    · simp [hw]
    · simp [mem_joiningLog, show s.log.presented ≠ none by simpa using hp, hw]

/-- The writes that wait after a step are those its body kept, and behind them those its close brings. -/
theorem waitsOn_of_kept {i : Instr} {s s₀ u : State} {rest : List Instr} (hi : s₀.pending = i :: rest)
    (hs : s = { s₀ with pending := rest }) (h : Kept i s u) : s₀.WaitsOn (settle s u) := by
  subst hs
  obtain ⟨hsub, hleft⟩ := h
  have hdue (n : Nat) : (settle { s₀ with pending := rest } u).AnswerDue n ↔ u.AnswerDue n := by
    simp only [State.AnswerDue, settle_cmd, settle_forward]
  have hstatus : s₀.StatusDue (settle { s₀ with pending := rest } u) ↔ State.StatusDue { s₀ with pending := rest } u :=
    statusDue_congr_right (b := s₀) (settle_apart _ u)
  refine ⟨u.router.waiting, _, settle_waiting _ u, hsub,
    ⟨u.joiningLines, State.joiningStatus { s₀ with pending := rest } u, ?_, ⟨joiningLines_pairwise u, fun n => ?_⟩, fun hd hw => ?_,
      fun hn => ?_⟩, fun w hw hn => ?_⟩
  · simp only [State.joiningLog, settle_log]
  · rw [mem_joiningLines, hdue]
  · exact joiningStatus_of_due _ _ (hstatus.1 hd) hw
  · exact joiningStatus_of_not _ _ (by rwa [hstatus] at hn)
  · simp only [settle_controlBase, hdue, hi, List.head?_cons, Option.some.injEq]
    exact hleft w hw hn

end Sys2Proof.Machine

namespace Sys2Proof.Machine

open Sys2Proof

/-! ## The laws of the queues through the body of a step -/

/-- The answers due stay due while the forward queue takes no new command and the answers stay. -/
theorem answerDue_mono {s t : State} (hc : ∀ a ∈ s.cmd.answers, a ∈ t.cmd.answers)
    (hf : (t.router.forward.map FwdEntry.cls).Sublist (s.router.forward.map FwdEntry.cls)) {n : Nat} (h : s.AnswerDue n) :
    t.AnswerDue n := by
  obtain ⟨a, ha, hn, hfree⟩ := h
  refine ⟨a, hc a ha, hn, fun f hft => ?_⟩
  obtain ⟨g, hg, hgf⟩ := List.mem_map.1 (hf.subset (List.mem_map_of_mem hft))
  rw [← hgf]
  exact hfree g hg

namespace Loose

variable {s t : State}

/-- The laws look at the router's queues, the Command Unit, the reset line and the Log Writer alone. -/
theorem away (h : Loose s) (hr : t.rst = s.rst) (hc : t.cmd = s.cmd) (hb : t.router.controlBase = s.router.controlBase)
    (hw : t.router.waiting = s.router.waiting) (hn : t.router.waitCount ≤ 8) (hf : t.router.forward = s.router.forward)
    (hl : t.log = s.log) : Loose t := by
  obtain ⟨hforward, -, hrecords⟩ := h.sizes
  refine ⟨⟨hf ▸ hforward, hn, hl ▸ hrecords⟩, ?_, hw ▸ h.nodup, fun w hin => ?_, hc ▸ h.answers, hc ▸ h.queued, hc ▸ h.apart⟩
  · rw [State.CommandsOk, hc]
    exact h.commands
  · have hmay := h.lawful w (hw ▸ hin)
    cases w with
    | answer n => exact ⟨hmay.1, answerDue_mono (by rw [hc]; exact fun _ => id) (by rw [hf]) hmay.2⟩
    | log => simpa only [State.MayWait, hl] using hmay
    | status => exact ⟨hb ▸ hmay.1, hr ▸ hmay.2⟩

theorem quiet (h : Loose s) (g : Quiet s t) : Loose t := by
  obtain ⟨hforward, hcount, hrecords⟩ := h.sizes
  refine ⟨⟨?_, g.waitCount ▸ hcount, g.records hrecords⟩, ?_, g.waiting ▸ h.nodup, fun w hin => ?_, g.cmd ▸ h.answers,
    g.cmd ▸ h.queued, g.cmd ▸ h.apart⟩
  · have := g.classes.length_le
    simp only [List.length_map] at this
    exact this.trans hforward
  · rw [State.CommandsOk, g.cmd]
    exact h.commands
  · have hmay := h.lawful w (g.waiting ▸ hin)
    cases w with
    | answer n => exact ⟨hmay.1, answerDue_mono (by rw [g.cmd]; exact fun _ => id) g.classes hmay.2⟩
    | log => exact g.presented hmay
    | status => exact ⟨g.base ▸ hmay.1, g.rst ▸ hmay.2⟩

theorem withMem (h : Loose s) (m : Memory) : Loose (s.withMem m) := h.away rfl rfl rfl rfl h.sizes.2.1 rfl rfl

/-- Fewer writes wait, and the count starts again or stays. -/
theorem waitsFewer (h : Loose s) {ws : List PartWrite} (hs : ws.Sublist s.router.waiting) {n : Nat} (hn : n ≤ 8) :
    Loose { s with router := { s.router with waiting := ws, waitCount := n } } :=
  ⟨⟨h.sizes.1, hn, h.sizes.2.2⟩, h.commands, h.nodup.sublist hs, fun w hw => h.lawful w (hs.subset hw), h.answers, h.queued, h.apart⟩

/-- The Log Writer takes back what it presents, where no log write waits. -/
theorem withLog (h : Loose s) {g : LogWriter} (hw : PartWrite.log ∉ s.router.waiting) (hq : g.queue.length ≤ 8) :
    Loose { s with log := g } := by
  refine ⟨⟨h.sizes.1, h.sizes.2.1, hq⟩, h.commands, h.nodup, fun w hin => ?_, h.answers, h.queued, h.apart⟩
  have hmay := h.lawful w hin
  cases w with
  | answer n => exact hmay
  | log => exact absurd hin hw
  | status => exact hmay

/-! ### The Command Unit (R171 to R175) -/

/-- A change of the Command Unit that keeps its laws, where each answer that waits stays. -/
theorem withCmd (h : Loose s) {u : CmdUnit}
    (hq : (u.queue.map Captured.line).Nodup) (hl : ∀ c ∈ u.queue, c.line ≤ 15)
    (hw : ∀ n, .answer n ∈ s.router.waiting → ∀ a ∈ s.cmd.answers, a.line = n → a ∈ u.answers)
    (ha : ∀ a ∈ u.answers, a.take < u.takes ∧ (a.isUnclaim = true → u.unclaiming = true)) (ht : ∀ c ∈ u.queue, c.take < u.takes)
    (hd : u.unclaiming = false → ∀ c ∈ u.queue, ∀ a ∈ u.answers, a.line ≠ c.line) : Loose { s with cmd := u } := by
  have hlen : u.queue.length ≤ 16 := by
    have hsub : u.queue.map Captured.line ⊆ List.range 16 := by
      intro n hn
      obtain ⟨c, hc, rfl⟩ := List.mem_map.1 hn
      exact List.mem_range.2 (Nat.lt_succ_of_le (hl c hc))
    have hle := (hq.subperm hsub).length_le
    rwa [List.length_map, List.length_range] at hle
  refine ⟨h.sizes, ⟨hq, hl, hlen⟩, h.nodup, fun w hin => ?_, ha, ht, hd⟩
  have hmay := h.lawful w hin
  cases w with
  | answer n =>
    obtain ⟨hn, a, hmem, hline, hfree⟩ := hmay
    exact ⟨hn, a, hw n hin a hmem hline, hline, hfree⟩
  | log => exact hmay
  | status => exact hmay

theorem unqueue (h : Loose s) {c : Captured} {rest : List Captured} (hq : s.cmd.queue = c :: rest) : Loose (s.unqueue rest) := by
  obtain ⟨hnodup, hlines, -⟩ := h.commands
  have hin : ∀ d ∈ rest, d ∈ s.cmd.queue := by simp [hq]; tauto
  rw [hq, List.map_cons, List.nodup_cons] at hnodup
  exact h.withCmd hnodup.2 (fun d hd => hlines d (hin d hd)) (fun _ _ _ ha _ => ha) h.answers (fun d hd => h.queued d (hin d hd))
    fun hu d hd => h.apart hu d (hin d hd)

/-- An executed command that has left the queue, and whose line has no answer, is answered (R174). -/
theorem joinAnswer (h : Loose s) {c : Captured} {r : Reply} (hr : r.state = s) (ht : c.take < s.cmd.takes)
    (hq : ∀ d ∈ s.cmd.queue, d.line ≠ c.line) (ha : ∀ a ∈ s.cmd.answers, a.line ≠ c.line) : Loose (joinAnswer c r) := by
  obtain ⟨hnodup, hlines, -⟩ := h.commands
  have hfilter : (s.cmd.answers.filter fun b => decide (b.line ≠ c.line)) = s.cmd.answers := by
    simpa [List.filter_eq_self] using ha
  subst hr
  refine h.withCmd hnodup hlines ?_ ?_ h.queued ?_
  · intro n _ a hin _
    rw [hfilter]
    exact List.mem_append_left _ hin
  · intro a hin
    rcases List.mem_append.1 hin with hin | hin
    · exact h.answers a (List.mem_filter.1 hin).1
    · rw [List.mem_singleton.1 hin]
      exact ⟨ht, id⟩
  · intro hu d hd a hin
    rcases List.mem_append.1 hin with hin | hin
    · exact h.apart hu d hd a (List.mem_filter.1 hin).1
    · rw [List.mem_singleton.1 hin]
      exact (hq d hd).symm

theorem countSupersede (h : Loose s) : Loose (countSupersede s) :=
  h.withCmd h.commands.1 h.commands.2.1 (fun _ _ _ ha _ => ha) h.answers h.queued h.apart

theorem countPartial (h : Loose s) : Loose (countPartial s) :=
  h.withCmd h.commands.1 h.commands.2.1 (fun _ _ _ ha _ => ha) h.answers h.queued h.apart

/-- A dropped answer leaves the arbiter with its line (R173). -/
theorem dropAnswer (h : Loose s) (n : Nat) : Loose (dropAnswer n s) := by
  refine Loose.countSupersede ?_
  have hw : Loose (withdrawWaiting (.answer n) s) := h.waitsFewer List.filter_sublist h.sizes.2.1
  refine hw.withCmd hw.commands.1 hw.commands.2.1 ?_ (fun a ha => hw.answers a (List.mem_filter.1 ha).1) hw.queued
    fun hu c hc a ha => hw.apart hu c hc a (List.mem_filter.1 ha).1
  intro m hm a ha hline
  have hmn : m ≠ n := by
    rintro rfl
    simp [withdrawWaiting] at hm
  exact List.mem_filter.2 ⟨ha, by simpa [hline] using hmn⟩

theorem supersede_line (n : Nat) (ws : List Word) (k : Nat) (c : Captured) : (c.supersede n ws k).line = c.line := by
  unfold Captured.supersede
  split <;> rfl

theorem supersede_take (n : Nat) (ws : List Word) (k : Nat) (c : Captured) :
    (c.supersede n ws k).take = k ∨ (c.supersede n ws k).take = c.take := by
  unfold Captured.supersede
  split <;> simp

/-- A capture joins the queue of a line that has no answer, or in the place of one that is queued (R171, R172). -/
theorem joinQueue (h : Loose s) {n : Nat} (hn : n ≤ 15) (ws : List Word)
    (hd : s.cmd.unclaiming = false → s.queued n = true ∨ ∀ a ∈ s.cmd.answers, a.line ≠ n) : Loose (joinQueue n ws s) := by
  obtain ⟨hnodup, hlines, -⟩ := h.commands
  have later {k : Nat} (hk : k < s.cmd.takes) : k < s.cmd.takes + 1 := Nat.lt_succ_of_lt hk
  have hans : ∀ a ∈ s.cmd.answers, a.take < s.cmd.takes + 1 ∧ (a.isUnclaim = true → s.cmd.unclaiming = true) :=
    fun a ha => ⟨later (h.answers a ha).1, (h.answers a ha).2⟩
  unfold Machine.joinQueue
  extract_lets queue
  by_cases hq : s.queued n = true
  · have hqueue : queue = s.cmd.queue.map (Captured.supersede n ws s.cmd.takes) := if_pos hq
    have hmap : queue.map Captured.line = s.cmd.queue.map Captured.line := by
      rw [hqueue, List.map_map]
      exact List.map_congr_left fun c _ => supersede_line n ws _ c
    have hback {P : Nat → Prop} (hP : ∀ c ∈ s.cmd.queue, P c.line) : ∀ c ∈ queue, P c.line := by
      intro c hc
      obtain ⟨d, hd, he⟩ := List.mem_map.1 (hmap ▸ List.mem_map_of_mem hc)
      exact he ▸ hP d hd
    refine h.withCmd (by rw [hmap]; exact hnodup) (hback (P := fun m => m ≤ 15) hlines) (fun _ _ _ ha _ => ha) hans ?_ ?_
    · intro c hc
      rw [hqueue] at hc
      obtain ⟨d, hd, rfl⟩ := List.mem_map.1 hc
      rcases supersede_take n ws s.cmd.takes d with ht | ht
      · rw [ht]; exact Nat.lt_succ_self _
      · rw [ht]; exact later (h.queued d hd)
    · exact fun hu => hback (P := fun m => ∀ a ∈ s.cmd.answers, a.line ≠ m) (h.apart hu)
  · have hqueue : queue = s.cmd.queue ++ [{ line := n, words := ws, take := s.cmd.takes }] := if_neg hq
    have hnew : ∀ c ∈ s.cmd.queue, c.line ≠ n := by simpa [State.queued] using hq
    rw [hqueue]
    refine h.withCmd ?_ ?_ (fun _ _ _ ha _ => ha) hans ?_ ?_
    · rw [List.map_append, List.map_singleton, List.nodup_append']
      refine ⟨hnodup, List.nodup_singleton _, ?_⟩
      simpa [List.disjoint_singleton] using hnew
    · simpa [or_imp, forall_and, hn] using hlines
    · simpa [or_imp, forall_and] using fun c hc => later (h.queued c hc)
    · intro hu c hc a ha
      rcases List.mem_append.1 hc with hc | hc
      · exact h.apart hu c hc a ha
      · rw [List.mem_singleton.1 hc]
        exact ((hd hu).resolve_left hq) a ha

/-- A take (R169, R172, R173): outside UNCLAIM's course a line with an answer has it dropped first. -/
theorem takeCommand (h : Loose s) {n : Nat} (hn : n ≤ 15) (ws : List Word) : Loose (takeCommand n ws s) := by
  unfold Machine.takeCommand
  by_cases hq : s.queued n = true
  · rw [if_pos hq]
    exact (h.joinQueue hn ws fun _ => .inl hq).countSupersede
  · rw [if_neg hq]
    split
    · refine (h.dropAnswer n).joinQueue hn ws fun _ => .inr fun a ha => ?_
      simpa using (List.mem_filter.1 ha).2
    next hdrop =>
      refine h.joinQueue hn ws fun hu => .inr fun a ha hline => ?_
      have hun : a.isUnclaim = true := by
        simp only [State.droppable, List.any_eq_true, not_exists, not_and, Bool.and_eq_true, decide_eq_true_eq] at hdrop
        simpa using hdrop a ha hline
      exact absurd ((h.answers a ha).2 hun) (by simp [hu])

theorem cancelCommand (h : Loose s) (n : Nat) : Loose (cancelCommand n s) := by
  unfold Machine.cancelCommand
  split
  · have hin : ∀ c ∈ s.cmd.queue.filter fun c => decide (c.line ≠ n), c ∈ s.cmd.queue := fun c hc => (List.mem_filter.1 hc).1
    refine Loose.countSupersede (h.withCmd ?_ (fun c hc => h.commands.2.1 c (hin c hc)) (fun _ _ _ ha _ => ha) h.answers
      (fun c hc => h.queued c (hin c hc)) fun hu c hc => h.apart hu c (hin c hc))
    exact h.commands.1.sublist (List.filter_sublist.map _)
  · split
    · exact h.dropAnswer n
    · exact h

/-- A request joins the forward queue, where no answer stands for the take it may carry (R1, R175). -/
theorem enqueue (h : Loose s) (r : QRequest) (c : FwdClass) (hroom : s.router.forward.length < 32)
    (hc : ∀ k, c = .command k → ∀ a ∈ s.cmd.answers, a.take ≠ k) : Loose (enqueue r c s) := by
  refine ⟨⟨?_, h.sizes.2⟩, h.commands, h.nodup, fun w hin => ?_, h.answers, h.queued, h.apart⟩
  · simpa [Machine.enqueue, Config.forwardCapacity] using hroom
  · have hmay := h.lawful w hin
    cases w with
    | answer n =>
      obtain ⟨hn, a, hmem, hline, hfree⟩ := hmay
      refine ⟨hn, a, hmem, hline, fun f hf => ?_⟩
      rcases List.mem_append.1 hf with hf | hf
      · exact hfree f hf
      · rw [List.mem_singleton.1 hf]
        exact fun he => hc _ he a hmem rfl
    | log => exact hmay
    | status => exact hmay

/-! ### Resets (R19, R20, R181) -/

/-- Every block at its reset values: nothing waits and nothing is queued but what is in the memory path. -/
theorem resetBlocks (h : Loose s) : Loose (resetBlocks s) := by
  refine ⟨⟨?_, Nat.zero_le _, Nat.zero_le _⟩, ⟨List.nodup_nil, nofun, Nat.zero_le _⟩, List.nodup_nil, nofun, nofun, nofun, nofun⟩
  have hlen : (Machine.resetBlocks s).router.forward.length = s.router.forward.length := List.length_map _
  exact hlen ▸ h.sizes.1

theorem unclaimEffect (h : Loose s) : Loose (unclaimEffect s) :=
  h.resetBlocks.away rfl rfl rfl rfl h.resetBlocks.sizes.2.1 rfl rfl

/-- Reset is asserted where nothing waits at the arbiter. -/
theorem assertReset (h : Loose s) : Loose (assertReset s) := by
  have hr := h.resetBlocks
  exact ⟨hr.sizes, hr.commands, hr.nodup, nofun, hr.answers, hr.queued, hr.apart⟩

theorem releaseReset (h : Loose s) : Loose (releaseReset s) := by
  refine ⟨h.sizes, h.commands, h.nodup, fun w hin => ?_, h.answers, h.queued, h.apart⟩
  have hmay := h.lawful w hin
  cases w with
  | answer n => exact hmay
  | log => exact hmay
  | status => exact ⟨hmay.1, rfl⟩

/-! ### Grants (R16, R17, R175, R184) -/

theorem countWait (h : Loose s) (hn : s.NotForced) : Loose (countWait s) := by
  unfold Machine.countWait
  split
  next hw =>
    refine h.away rfl rfl rfl rfl ?_ rfl rfl
    rcases hn with hn | hn
    · exact absurd hn hw
    · exact hn
  · exact h

theorem writeLine (h : Loose s) (a : Word) (ws : List Word) (e : List Bool) : Loose (writeLine a ws e s) :=
  h.away rfl rfl rfl rfl h.sizes.2.1 rfl rfl

/-- The grant of an answer that no longer waits (R175), or of UNCLAIM's (R178). -/
theorem grantAnswer (h : Loose s) {n : Nat} (hw : PartWrite.answer n ∉ s.router.waiting) : Loose (grantAnswer n s) := by
  cases hf : s.cmd.answers.find? fun a => decide (a.line = n) with
  | none => simpa [Machine.grantAnswer, hf] using h
  | some a =>
    rw [grantAnswer_eq hf]
    have hin : ∀ b ∈ s.cmd.answers.filter fun b => decide (b.line ≠ n), b ∈ s.cmd.answers := fun b hb => (List.mem_filter.1 hb).1
    have hleft := (h.writeLine (s.controlAddr n) a.words answerBytes).withCmd
      (u := { s.cmd with answers := s.cmd.answers.filter fun b => decide (b.line ≠ n) }) h.commands.1 h.commands.2.1
      (fun m hm b hb hline => List.mem_filter.2 ⟨hb, by
        have hmn : m ≠ n := by
          rintro rfl
          exact hw hm
        simpa [hline] using hmn⟩)
      (fun b hb => h.answers b (hin b hb)) h.queued fun hu c hc b hb => h.apart hu c hc b (hin b hb)
    split
    · exact hleft.unclaimEffect
    · exact hleft

/-- The grant of the log write, which no longer waits (R184). -/
theorem grantLog (h : Loose s) (hw : PartWrite.log ∉ s.router.waiting) : Loose (grantLog s) := by
  have hq := h.sizes.2.2
  have line_loose (b : Word) (c : Nat) (w : LogWrite) : Loose (grantLogLine b c w s) := by
    unfold grantLogLine
    extract_lets a head
    split
    · exact (h.withLog (g := { s.log with head := head, lost := 0, presented := none }) hw hq).writeLine _ _ _
    · split
      · exact h.withLog hw hq
      next rest hrest =>
        rw [hrest] at hq
        exact (h.withLog (g := { s.log with head := head, queue := rest, presented := none }) hw
          ((Nat.le_succ _).trans hq)).writeLine _ _ _
  unfold Machine.grantLog
  split
  · exact (line_loose _ _ _).quiet (Quiet.refl _).presentLog
  all_goals exact h

theorem grantStatus (h : Loose s) : Loose (grantStatus s) :=
  (h.withCmd (u := { s.cmd with statusSeq := (s.cmd.statusSeq + 1) % 2 ^ 32 }) h.commands.1 h.commands.2.1 (fun _ _ _ ha _ => ha) h.answers h.queued
    h.apart).writeLine _ _ _

/-- The grant of the oldest waiting part-originated write (R16). -/
theorem grantPart (h : Loose s) : Loose (grantPart s) := by
  have taken {w : PartWrite} {rest : List PartWrite} (hw : s.router.waiting = w :: rest) :
      Loose (takeWaiting rest s) ∧ w ∉ rest :=
    ⟨h.waitsFewer (hw ▸ List.sublist_cons_self _ _) (Nat.zero_le _), (List.nodup_cons.1 (hw ▸ h.nodup)).1⟩
  unfold Machine.grantPart
  split
  · exact h
  next n rest hw => exact (taken hw).1.grantAnswer (taken hw).2
  next rest hw => exact (taken hw).1.grantLog (taken hw).2
  next rest hw => exact (taken hw).1.grantStatus

theorem grantStep (h : Loose s) : Loose (grantStep s) := by
  have counted (hg : s.nextGrant ≠ .part) : Loose (Machine.countWait s) := h.countWait (notForced_of_nextGrant hg)
  unfold Machine.grantStep
  split
  · exact h.grantPart
  next hg => exact (counted (by simp [hg])).quiet (grantFetch_quiet _ _)
  next hg =>
    obtain ⟨v, m, hv, he, -⟩ := grantForward_quiet (Machine.countWait s)
    rw [he]
    exact ((counted (by simp [hg])).quiet hv).withMem m
  · exact h

end Loose

/-! ## Which writes leave the arbiter (R10, R16, R19, R20, R173) -/

theorem presentLog_router (s : State) : (presentLog s).router = s.router := by rw [presentLog_eq]

/-- The grant of the log write leaves the router but for what the M port carries. -/
theorem grantLog_router (s : State) : (grantLog s).router = { s.router with mPort := (grantLog s).router.mPort } := by
  have line_router (b : Word) (c : Nat) (w : LogWrite) :
      (grantLogLine b c w s).router = { s.router with mPort := (grantLogLine b c w s).router.mPort } := by
    unfold grantLogLine
    extract_lets a head
    split
    · rfl
    · split <;> rfl
  unfold grantLog
  split
  · rw [presentLog_router]
    exact line_router _ _ _
  all_goals rfl

/-- The grant of an answer leaves the others waiting, unless UNCLAIM takes effect with it. -/
theorem grantAnswer_waiting (n : Nat) (s : State) :
    (grantAnswer n s).router.waiting = s.router.waiting ∨
      (grantAnswer n s).router.waiting = [] ∧ (grantAnswer n s).router.controlBase = none := by
  unfold grantAnswer
  split
  · exact .inl rfl
  · extract_lets written cmd left
    split
    · exact .inr ⟨rfl, rfl⟩
    · exact .inl rfl

/-- With its turn the oldest write leaves and the others keep their order; with UNCLAIM's effect all leave (R16, R20). -/
theorem grantPart_waiting {s : State} {w : PartWrite} {rest : List PartWrite} (h : s.router.waiting = w :: rest) :
    (grantPart s).router.waiting = rest ∨ (grantPart s).router.waiting = [] ∧ (grantPart s).router.controlBase = none := by
  cases w with
  | answer n =>
    have he : grantPart s = grantAnswer n (takeWaiting rest s) := by simp only [grantPart, h]
    rw [he]
    exact grantAnswer_waiting n (takeWaiting rest s)
  | log =>
    have he : grantPart s = grantLog (takeWaiting rest s) := by simp only [grantPart, h]
    rw [he]
    exact .inl (by rw [grantLog_router]; rfl)
  | status =>
    have he : grantPart s = grantStatus (takeWaiting rest s) := by simp only [grantPart, h]
    rw [he]
    exact .inl rfl

theorem countWait_waiting (s : State) : (countWait s).router.waiting = s.router.waiting := by
  unfold countWait
  split <;> rfl

theorem grantStep_kept (s : State) : Kept .mPortGrant s (grantStep s) := by
  unfold grantStep
  split
  next hg =>
    obtain ⟨w, rest, ht⟩ := partTurn_of_nextGrant hg
    rcases grantPart_waiting ht.1 with hw | ⟨hw, hb⟩
    · refine ⟨by rw [hw, ht.1]; exact List.sublist_cons_self _ _, fun v hv hn => ?_⟩
      rw [hw] at hn
      rw [ht.1, List.mem_cons] at hv
      exact .inr (.inl ⟨rfl, rest, hv.resolve_right hn ▸ ht⟩)
    · exact ⟨hw ▸ List.nil_sublist _, fun _ _ _ => .inl hb⟩
  · exact .of_eq ((grantFetch_quiet _ _).waiting.trans (countWait_waiting s))
  · obtain ⟨v, m, hv, he, -⟩ := grantForward_quiet (countWait s)
    exact .of_eq (by rw [he]; exact hv.waiting.trans (countWait_waiting s))
  · exact .of_eq rfl

/-- The answer write of a line leaves with the line's answers (R173). -/
theorem Kept.of_drop {i : Instr} {s u : State} {n : Nat}
    (hw : u.router.waiting = s.router.waiting.filter fun w => decide (w ≠ .answer n)) (ha : ∀ a ∈ u.cmd.answers, a.line ≠ n) :
    Kept i s u := by
  refine ⟨hw ▸ List.filter_sublist, fun w hin hn => .inr (.inr (.inl ⟨n, ?_, ?_⟩))⟩
  · by_contra hne
    rw [hw] at hn
    exact hn (List.mem_filter.2 ⟨hin, by simpa using hne⟩)
  · rintro ⟨a, hmem, hline, -⟩
    exact ha a hmem hline

/-- The command unit at the drop of a line's answer: the others stay, and its write leaves the arbiter (R173). -/
theorem dropAnswer_drops (n : Nat) (s : State) :
    (dropAnswer n s).router.waiting = (s.router.waiting.filter fun w => decide (w ≠ .answer n)) ∧
      ∀ a ∈ (dropAnswer n s).cmd.answers, a ∈ s.cmd.answers ∧ a.line ≠ n :=
  ⟨rfl, fun a ha => by simpa using List.mem_filter.1 ha⟩

theorem takeCommand_waiting (n : Nat) (ws : List Word) (s : State) :
    ((takeCommand n ws s).router.waiting = s.router.waiting ∨
      (takeCommand n ws s).router.waiting = (s.router.waiting.filter fun w => decide (w ≠ .answer n)) ∧
        ∀ a ∈ (takeCommand n ws s).cmd.answers, a.line ≠ n) ∧
    (∀ a ∈ (takeCommand n ws s).cmd.answers, a ∈ s.cmd.answers) ∧ (takeCommand n ws s).router.forward = s.router.forward := by
  unfold takeCommand
  split
  · exact ⟨.inl rfl, fun _ => id, rfl⟩
  · obtain ⟨hw, ha⟩ := dropAnswer_drops n s
    split
    · exact ⟨.inr ⟨hw, fun a hm => (ha a hm).2⟩, fun a hm => (ha a hm).1, rfl⟩
    · exact ⟨.inl rfl, fun _ => id, rfl⟩

theorem cancelCommand_waiting (n : Nat) (s : State) :
    ((cancelCommand n s).router.waiting = s.router.waiting ∨
      (cancelCommand n s).router.waiting = (s.router.waiting.filter fun w => decide (w ≠ .answer n)) ∧
        ∀ a ∈ (cancelCommand n s).cmd.answers, a.line ≠ n) ∧
    (cancelCommand n s).router.forward = s.router.forward := by
  unfold cancelCommand
  split
  · exact ⟨.inl rfl, rfl⟩
  · obtain ⟨hw, ha⟩ := dropAnswer_drops n s
    split
    · exact ⟨.inr ⟨hw, fun a hm => (ha a hm).2⟩, rfl⟩
    · exact ⟨.inl rfl, rfl⟩

/-- The acceptance of a request keeps the laws, and what waits but for a dropped answer (R1, R169 to R173). -/
theorem acceptRequest_laws {s : State} (h : Loose s) (i : Instr) (r : QRequest) :
    Loose (acceptRequest r s) ∧ Kept i s (acceptRequest r s) := by
  have room {v : State} (hv : Quiet s v) (hr : s.router.forward.length < 32) : v.router.forward.length < 32 := by
    have := hv.classes.length_le
    simp only [List.length_map] at this
    omega
  rcases acceptRequest_cases r s with he | ⟨hr, v, c, hv, he⟩
  · rw [he]
    exact ⟨h, .of_eq rfl⟩
  · rw [he]
    cases hv with
    | quiet hq hc => exact ⟨(h.quiet hq).enqueue r c (room hq hr) fun k hk => absurd hk (hc k), .of_eq hq.waiting⟩
    | claims hb =>
      have hclaim : Loose (claim r s) := by
        refine ⟨h.sizes, h.commands, h.nodup, fun w hin => ?_, h.answers, h.queued, h.apart⟩
        have hmay := h.lawful w hin
        cases w with
        | answer n => exact hmay
        | log => exact hmay
        | status => exact absurd hb hmay.1
      exact ⟨hclaim.enqueue r _ hr nofun, .of_eq rfl⟩
    | @takes v hq n hn ws =>
      obtain ⟨hw, ha, hf⟩ := takeCommand_waiting n ws v
      have hl := h.quiet hq
      refine ⟨(hl.takeCommand hn ws).enqueue r _ (hf ▸ room hq hr) fun k hk a hm => ?_, ?_⟩
      · rw [← FwdClass.command.inj hk]
        exact Nat.ne_of_lt (hl.answers a (ha a hm)).1
      · rw [hq.waiting] at hw
        rcases hw with hw | ⟨hw, hno⟩
        · exact .of_eq hw
        · exact .of_drop hw hno
    | @cancels v hq n =>
      obtain ⟨hw, hf⟩ := cancelCommand_waiting n v
      refine ⟨((h.quiet hq).cancelCommand n).enqueue r _ (hf ▸ room hq hr) nofun, ?_⟩
      rw [hq.waiting] at hw
      rcases hw with hw | ⟨hw, hno⟩
      · exact .of_eq hw
      · exact .of_drop hw hno
    | @partly v hq => exact ⟨(h.quiet hq).countPartial.enqueue r _ (room (v := v) hq hr) nofun, .of_eq hq.waiting⟩

/-! ## Executions (R174, R10, R178) -/

/-- The oldest queued command as it executes: taken before, with neither another entry nor an answer of its line. -/
theorem executing_alone {s : State} (h : Loose s) {c : Captured} {rest : List Captured} (he : s.executes = true)
    (hq : s.cmd.queue = c :: rest) :
    c.take < s.cmd.takes ∧ (∀ d ∈ rest, d.line ≠ c.line) ∧ ∀ a ∈ s.cmd.answers, a.line ≠ c.line := by
  have hin : c ∈ s.cmd.queue := hq ▸ List.mem_cons_self
  have hnodup := h.commands.1
  rw [hq, List.map_cons, List.nodup_cons] at hnodup
  simp only [State.executes, Bool.and_eq_true, Bool.not_eq_true'] at he
  exact ⟨h.queued c hin, fun d hd hl => hnodup.1 (hl ▸ List.mem_map_of_mem hd), h.apart he.2 c hin⟩

/-- A new ring withdraws the log write (R10). -/
theorem newLogRing_laws {s : State} (h : Loose s) :
    Loose (newLogRing s) ∧ (newLogRing s).router.waiting = s.router.waiting.filter fun w => decide (w ≠ .log) := by
  have hw : Loose (withdrawWaiting .log s) := h.waitsFewer List.filter_sublist h.sizes.2.1
  have hl : PartWrite.log ∉ (withdrawWaiting .log s).router.waiting := by simp [withdrawWaiting]
  have hring := hw.withLog (g := { s.log with head := 0, tail := 0, presented := none }) hl h.sizes.2.2
  exact ⟨hring.quiet (Quiet.refl _).presentLog, congrArg Router.waiting (presentLog_router _)⟩

/-- Every step's body keeps the laws of the queues, and what waits but for the writes that have a reason to leave. -/
theorem Does.laws {s u : State} {i : Instr} (hd : Does s i u) (h : Loose s) : Loose u ∧ Kept i s u := by
  cases hd with
  | quiet hq => exact ⟨h.quiet hq, .of_eq hq.waiting⟩
  | accept r => exact acceptRequest_laws h _ _
  | grant => exact ⟨h.grantStep, grantStep_kept s⟩
  | @answer _ c rest r he hq hr =>
    obtain ⟨ht, hrest, hans⟩ := executing_alone h he hq
    refine ⟨((h.unqueue hq).quiet hr).joinAnswer rfl ?_ ?_ ?_, .of_eq hr.waiting⟩ <;> rw [hr.cmd]
    exacts [ht, hrest, hans]
  | @newRing c rest v he hq hv =>
    obtain ⟨ht, hrest, hans⟩ := executing_alone h he hq
    obtain ⟨hl, hw⟩ := newLogRing_laws ((h.unqueue hq).quiet hv)
    have hcmd : (newLogRing v).cmd = (s.unqueue rest).cmd := by rw [newLogRing, presentLog_eq]; exact hv.cmd
    refine ⟨hl.joinAnswer rfl ?_ ?_ ?_, ?_⟩
    · rw [hcmd]; exact ht
    · rw [hcmd]; exact hrest
    · rw [hcmd]; exact hans
    · rw [hv.waiting] at hw
      refine ⟨hw ▸ List.filter_sublist, fun w hin hn => .inr (.inr (.inr ⟨?_, rfl⟩))⟩
      by_contra hne
      exact hn (hw ▸ List.mem_filter.2 ⟨hin, by simpa using hne⟩)
  | @unclaim c rest he hq =>
    obtain ⟨ht, hrest, hans⟩ := executing_alone h he hq
    have hu := h.unqueue hq
    have halt : Loose { s.unqueue rest with cmd := { (s.unqueue rest).cmd with unclaiming := true } } :=
      hu.withCmd hu.commands.1 hu.commands.2.1 (fun _ _ _ ha _ => ha) (fun a ha => ⟨(hu.answers a ha).1, fun _ => rfl⟩) hu.queued
        nofun
    exact ⟨halt.joinAnswer rfl ht hrest hans, .of_eq rfl⟩
  | asserts => exact ⟨h.assertReset, List.nil_sublist _, fun _ _ _ => .inl rfl⟩
  | releases => exact ⟨h.releaseReset, .of_eq rfl⟩

theorem tick_eq (s : State) : tick s = { s with lt := (tick s).lt } := by
  unfold tick
  split <;> rfl

/-- Settles O9: the body of every step keeps the laws but for the writes its close brings, and the close brings those. -/
theorem stepKeepsQueues : Obligations.StepKeepsQueues := by
  intro s t hs h
  have hl := ((queueLaws_iff s).1 hs).1
  rcases step_does h with ht | ⟨i, rest, u, hp, ht, hu⟩
  · have hsame : t.router.waiting = s.router.waiting := by rw [ht, tick_eq]
    have hnot : ¬ s.StatusDue t := by
      rintro ⟨-, -, hd⟩
      rw [ht, tick_eq] at hd
      exact hd ⟨⟨rfl, rfl, rfl, rfl⟩, ⟨rfl, rfl, rfl⟩, fun _ _ => ⟨rfl, fun _ => Iff.rfl⟩, rfl, rfl, rfl, rfl, rfl⟩
    have hlaws : t.QueueLaws := by rw [ht, tick_eq]; exact hs
    obtain ⟨-, hdue, hlog⟩ := (queueLaws_iff t).1 hlaws
    refine ⟨hlaws, t.router.waiting, [], by simp, by rw [hsame], ⟨[], [], ?_, ⟨List.Pairwise.nil, ?_⟩, ?_, fun _ => rfl⟩, ?_⟩
    · simpa using hlog
    · simpa using hdue
    · exact fun hd => absurd hd hnot
    · exact fun w hw hn => absurd (hsame ▸ hw) hn
  · have hpopped : Loose { s with pending := rest } := hl.away rfl rfl rfl rfl hl.sizes.2.1 rfl rfl
    obtain ⟨hloose, hkept⟩ := hu.laws hpopped
    rw [ht]
    exact ⟨settle_queueLaws hloose, waitsOn_of_kept hp rfl hkept⟩

end Sys2Proof.Machine

namespace Sys2Proof.Machine

open Sys2Proof

/-! ## While UNCLAIMED (R4, R5, R20) -/

/-- Nothing waits at the arbiter but forwarded transactions, and every block stands at its reset values (R20). -/
def State.Blank (s : State) : Prop :=
  s.router.waiting = [] ∧ s.router.fetchOrder = [] ∧ s.router.waitCount = 0 ∧ s.router.strayClaims = 0 ∧
    s.router.straddles = 0 ∧ s.router.logIntrusions = 0 ∧ s.router.regions = Router.reset.regions ∧
    s.cmd = CmdUnit.reset ∧ s.lanes = Vector.replicate 16 Lane.reset ∧ s.clips = Vector.replicate 256 Clip.undefined ∧
    s.placements = Vector.replicate 128 Placement.vacant ∧ s.wait = none ∧ s.log = LogWriter.reset ∧
    s.alert.state = .idle ∧ s.alert.profiles = AlertCtl.reset.profiles

theorem unclaimedOk_iff (s : State) : s.UnclaimedOk ↔ (s.router.controlBase = none → s.Blank) := Iff.rfl

theorem resetBlocks_blank (s : State) : (resetBlocks s).Blank :=
  ⟨rfl, rfl, rfl, rfl, rfl, rfl, rfl, rfl, rfl, rfl, rfl, rfl, rfl, rfl, rfl⟩

theorem unclaimEffect_blank (s : State) : (unclaimEffect s).Blank := resetBlocks_blank s

/-- The close of a step brings nothing to the arbiter while UNCLAIMED. -/
theorem settle_blank {b s : State} (hb : s.router.controlBase = none) (h : s.Blank) : (settle b s).Blank := by
  obtain ⟨hw, hf, -, hsc, hst, hli, hrg, hcmd, hln, hcl, hpl, hwt, hlog, has, hap⟩ := h
  have hlines : s.joiningLines = [] := by simp [State.joiningLines, State.answerReady, hcmd, CmdUnit.reset]
  have hjlog : s.joiningLog = [] := by simp [State.joiningLog, hlog, LogWriter.reset]
  have hstatus : State.joiningStatus b s = [] := joiningStatus_of_not _ _ fun hd => hd.1.1 hb
  have hnil : (settle b s).router.waiting = [] := by simp [settle_waiting, hw, hlines, hjlog, hstatus]
  exact ⟨hnil, by simpa using hf, settle_waitCount_of_nil b s hnil, by simpa using hsc, by simpa using hst, by simpa using hli,
    by simpa using hrg, by simpa using hcmd, by simpa using hln, by simpa using hcl, by simpa using hpl, by simpa using hwt,
    by simpa using hlog, by simpa using has, by simpa using hap⟩

/-! ### From CLAIMED to UNCLAIMED (R19, R20) -/

theorem grantAnswer_base {n : Nat} {s : State} (hs : s.router.controlBase ≠ none)
    (h : (grantAnswer n s).router.controlBase = none) : (grantAnswer n s).Blank := by
  unfold grantAnswer at h ⊢
  split at h
  · exact absurd h hs
  next a hf =>
    simp only at h ⊢
    split at h
    next hu =>
      rw [if_pos hu]
      exact unclaimEffect_blank _
    · exact absurd h hs

theorem grantStep_base {s : State} (hs : s.router.controlBase ≠ none) (h : (grantStep s).router.controlBase = none) :
    (grantStep s).Blank := by
  have counted : (countWait s).router.controlBase = s.router.controlBase := by
    unfold countWait
    split <;> rfl
  unfold grantStep at h ⊢
  split at h
  next hg =>
    unfold grantPart at h ⊢
    split at h
    · exact absurd h hs
    · exact grantAnswer_base (s := takeWaiting _ s) hs h
    · rw [grantLog_router] at h
      exact absurd h hs
    · exact absurd h hs
  next l hg => exact absurd (((grantFetch_quiet l _).base.trans counted).symm.trans h) hs
  next hg =>
    obtain ⟨v, m, hv, he, -⟩ := grantForward_quiet (countWait s)
    rw [he] at h
    exact absurd ((hv.base.trans counted).symm.trans h) hs
  · exact absurd h hs

/-- A step that leaves a CLAIMED part UNCLAIMED is UNCLAIM's effect or RST_N, and puts every block at its reset values. -/
theorem Does.blank {s u : State} {i : Instr} (hd : Does s i u) (hs : s.router.controlBase ≠ none)
    (h : u.router.controlBase = none) : u.Blank := by
  have kept {v : State} (hb : v.router.controlBase = s.router.controlBase) (hv : v.router.controlBase = none) : u.Blank :=
    absurd (hb.symm.trans hv) hs
  cases hd with
  | quiet hq => exact kept hq.base h
  | accept r =>
    rcases acceptRequest_cases r.aligned s with he | ⟨-, v, c, hv, he⟩
    · rw [he] at h
      exact absurd h hs
    · rw [he] at h
      cases hv with
      | quiet hq => exact kept hq.base h
      | claims hb => exact absurd hb hs
      | takes hq n _ ws => exact kept ((takeCommand_base n ws _).trans hq.base) h
      | cancels hq n => exact kept ((cancelCommand_base n _).trans hq.base) h
      | partly hq => exact kept hq.base h
  | grant => exact grantStep_base hs h
  | answer _ _ hq => exact kept hq.base h
  | @newRing _ _ v _ _ hq =>
    have hring : (newLogRing v).router.controlBase = v.router.controlBase := by
      rw [newLogRing, presentLog_router]
      rfl
    exact kept (v := newLogRing v) (hring.trans hq.base) h
  | unclaim => exact kept rfl h
  | asserts => exact resetBlocks_blank s
  | releases => exact kept rfl h

/-! ### Every step while UNCLAIMED -/

/-- A change outside all that the law speaks of. -/
theorem State.Blank.away {s t : State} (h : s.Blank) (hw : t.router.waiting = s.router.waiting)
    (hf : t.router.fetchOrder = s.router.fetchOrder) (hn : t.router.waitCount = s.router.waitCount)
    (hsc : t.router.strayClaims = s.router.strayClaims) (hst : t.router.straddles = s.router.straddles)
    (hli : t.router.logIntrusions = s.router.logIntrusions) (hrg : t.router.regions = s.router.regions) (hcmd : t.cmd = s.cmd)
    (hln : t.lanes = s.lanes) (hcl : t.clips = s.clips) (hpl : t.placements = s.placements) (hwt : t.wait = s.wait)
    (hlog : t.log = s.log) (has : t.alert.state = s.alert.state) (hap : t.alert.profiles = s.alert.profiles) : t.Blank := by
  unfold State.Blank
  rw [hw, hf, hn, hsc, hst, hli, hrg, hcmd, hln, hcl, hpl, hwt, hlog, has, hap]
  exact h

section Blank

variable {s : State}

theorem State.Blank.lane (h : s.Blank) (l : Nat) : s.lane l = Lane.reset := by
  obtain ⟨-, -, -, -, -, -, -, -, hln, -⟩ := h
  by_cases hl : l < 16
  · simp [State.lane, hln, hl]
  · exact s.lane_of_le (Nat.le_of_not_lt hl)

theorem State.Blank.waiting (h : s.Blank) : s.router.waiting = [] := h.1

theorem State.Blank.fetchOrder (h : s.Blank) : s.router.fetchOrder = [] := h.2.1

theorem State.Blank.wait (h : s.Blank) : s.wait = none := by
  obtain ⟨-, -, -, -, -, -, -, -, -, -, -, hwt, -⟩ := h
  exact hwt

theorem State.Blank.idle (h : s.Blank) : s.alert.state = .idle := by
  obtain ⟨-, -, -, -, -, -, -, -, -, -, -, -, -, has, -⟩ := h
  exact has

theorem State.Blank.profileAt (h : s.Blank) (p : Nat) : s.alert.profileAt p = Profile.undefined := by
  obtain ⟨-, -, -, -, -, -, -, -, -, -, -, -, -, -, hap⟩ := h
  rw [AlertCtl.profileAt, hap]
  by_cases hp : p < 4
  · simp [AlertCtl.reset, hp]
  · simp [AlertCtl.reset, Nat.le_of_not_lt hp]

/-- No command executes (R169). -/
theorem execute_of_unclaimed (hb : s.router.controlBase = none) (test : Nat → Bool) (body : List Word → State → Reply) :
    execute test body s = s := by
  rcases execute_cases test body s with h | ⟨c, rest, he, -⟩
  · exact h
  · simp [State.executes, State.claimed, hb] at he

/-- A request is only forwarded, unless it claims the part (R5). -/
theorem acceptRequest_blank (hb : s.router.controlBase = none) (h : s.Blank) (r : QRequest)
    (ht : (acceptRequest r s).router.controlBase = none) : (acceptRequest r s).Blank := by
  have queued (c : FwdClass) : (enqueue r c s).Blank := h.away rfl rfl rfl rfl rfl rfl rfl rfl rfl rfl rfl rfl rfl rfl rfl
  have hcl : s.claimed = false := by simp [State.claimed, hb]
  unfold acceptRequest at ht ⊢
  split
  · exact h
  next hroom =>
    split
    · exact queued _
    next hrst =>
      rw [hcl, if_neg Bool.false_ne_true]
      split
      next hc => simp [hroom, hrst, hcl, hc, enqueue, claim] at ht
      · exact queued _

/-- The arbiter has only forwarded transactions to grant (R4, R16). -/
theorem grantStep_blank (h : s.Blank) : (grantStep s).Blank := by
  have counted : countWait s = s := by simp [countWait, h.waiting]
  unfold grantStep
  split
  next hg =>
    obtain ⟨w, rest, ht⟩ := partTurn_of_nextGrant hg
    exact absurd (ht.1.symm.trans h.waiting) (List.cons_ne_nil _ _)
  next l hg =>
    simp only [State.nextGrant, State.demandLane, h.fetchOrder, h.waiting, List.find?_nil, ne_eq, not_true_eq_false, and_false,
      ↓reduceIte] at hg
    split at hg <;> cases hg
  · rw [counted]
    unfold grantForward
    split
    · exact h
    · split <;> exact h.away rfl rfl rfl rfl rfl rfl rfl rfl rfl rfl rfl rfl rfl rfl rfl
  · exact h

theorem readArrival_blank (h : s.Blank) : (readArrival s).Blank := by
  unfold readArrival
  split
  · exact h.away rfl rfl rfl rfl rfl rfl rfl rfl rfl rfl rfl rfl rfl rfl rfl
  all_goals exact h

theorem slotReadStep_blank (h : s.Blank) : (slotReadStep s).Blank := by
  unfold slotReadStep
  split
  · exact h
  · split
    · exact h
    · split
      next l k _ =>
        have hoff : (s.lane l).enabled = false := by rw [h.lane]; rfl
        simp only [hoff, Bool.not_false, Bool.or_true, ↓reduceIte]
        exact h.away rfl rfl rfl rfl rfl rfl rfl rfl rfl rfl rfl h.wait.symm rfl rfl rfl
      all_goals exact h

/-- With every lookahead EMPTY the data of a fetch is dropped (R19, R20). -/
theorem fetchArrival_blank (h : s.Blank) : (fetchArrival s).Blank := by
  unfold fetchArrival
  split
  next l clip orphan data rest _ =>
    have hland : (landed rest s).Blank := h.away rfl rfl rfl rfl rfl rfl rfl rfl rfl rfl rfl rfl rfl rfl rfl
    have hfill : fillLook l data (landed rest s) = landed rest s := by
      unfold fillLook
      rw [hland.lane]
      rfl
    have hwait : continueWait l (landed rest s) = landed rest s := by
      unfold continueWait
      rw [hland.wait]
    rw [hfill, hwait, ite_self]
    exact hland
  all_goals exact h

theorem returnRead_blank (h : s.Blank) : (returnRead s).Blank := by
  unfold returnRead
  split
  · exact h
  · split
    · exact h.away rfl rfl rfl rfl rfl rfl rfl rfl rfl rfl rfl rfl rfl rfl rfl
    · exact h

theorem withAlert_blank (h : s.Blank) {a : AlertCtl} (hs : a.state = s.alert.state) (hp : a.profiles = s.alert.profiles) :
    ({ s with alert := a } : State).Blank :=
  h.away rfl rfl rfl rfl rfl rfl rfl rfl rfl rfl rfl rfl rfl hs hp

/-- A lane at its reset values has nothing to tear down (R112). -/
theorem bypassLanes_blank (h : s.Blank) (ls : List Nat) : bypassLanes ls s = s := by
  induction ls with
  | nil => rfl
  | cons l rest ih =>
    have hleave : leaveAll .bypassed (s.clock l) (s.lane l).stack s = s := by rw [h.lane]; rfl
    have htear : s.onLane l Lane.tearDown = s := setLane_eq_self s l _ (by rw [h.lane]; rfl)
    have hover : overtake l s = s := by
      unfold overtake
      rw [h.lane]
      rfl
    rw [bypassLanes, hleave, htear, hover, ih]

theorem assertBypass_blank (h : s.Blank) : (assertBypass s).Blank := by
  have hb : ({ s with bypass := true } : State).Blank := h.away rfl rfl rfl rfl rfl rfl rfl rfl rfl rfl rfl rfl rfl rfl rfl
  have hw : ({ s with bypass := true } : State).wait.isSome = false := by rw [hb.wait]; rfl
  unfold assertBypass
  simp only [bypassLanes_blank hb, hw, Bool.false_eq_true, ↓reduceIte]
  have hidle := h.idle
  simp only [bypassAlert, State.withForward, hidle, ↓reduceIte]
  exact hb.away rfl rfl rfl rfl rfl rfl rfl rfl rfl rfl rfl rfl rfl rfl rfl

/-- Without a profile 0 an asserted line is kept pending (R146). -/
theorem lineAsserted_blank (h : s.Blank) : (lineAsserted s).Blank := by
  have hp : (s.alert.profileAt 0).defined = false := by rw [h.profileAt]; rfl
  simp only [lineAsserted, hp, Bool.false_eq_true, false_and, ↓reduceIte]
  exact withAlert_blank h rfl rfl

theorem filteredChange_blank (h : s.Blank) : (filteredChange s).Blank := by
  unfold filteredChange
  split
  · exact h
  · split
    · exact lineAsserted_blank h
    · have hidle : (setLinePending false s).alert.state = .idle := h.idle
      simp only [lineDeasserted, hidle, reduceCtorEq, ↓reduceIte]
      exact withAlert_blank h rfl rfl

theorem releaseBypass_blank (h : s.Blank) : (releaseBypass s).Blank := by
  have hlanes : vmap Lane.releaseBypass s.lanes = s.lanes := by
    obtain ⟨-, -, -, -, -, -, -, -, hln, -⟩ := h
    rw [hln]
    rfl
  have hoff : ({ s with bypass := false, lanes := vmap Lane.releaseBypass s.lanes } : State).Blank :=
    h.away rfl rfl rfl rfl rfl rfl rfl rfl hlanes rfl rfl rfl rfl rfl rfl
  unfold releaseBypass
  extract_lets u
  split
  · exact lineAsserted_blank hoff
  · exact hoff

theorem changeRaw_blank (h : s.Blank) (level : Bool) : (changeRaw level s).Blank := by
  unfold changeRaw
  split
  · exact h
  · extract_lets u
    split <;> exact h.away rfl rfl rfl rfl rfl rfl rfl rfl rfl rfl rfl rfl rfl rfl rfl

/-- Every step from an UNCLAIMED part at its reset values leaves it so, or claims it (R4, R5, R20). -/
theorem exec_blank {i : Instr} {t : State} (hb : s.router.controlBase = none) (h : s.Blank) (he : exec i s = .next t)
    (ht : t.router.controlBase = none) : t.Blank := by
  have close {u : State} (hu : (.next (settle s u) : Host.Outcome State Fault Refusal) = .next t)
      (hblank : u.router.controlBase = none → u.Blank) : t.Blank := by
    have htu := (Host.Outcome.next.inj hu).symm
    have hbase : u.router.controlBase = none := by rw [htu, settle_controlBase] at ht; exact ht
    rw [htu]
    exact settle_blank hbase (hblank hbase)
  have command (test : Nat → Bool) (body : List Word → State → Reply)
      (hu : (.next (settle s (execute test body s)) : Host.Outcome State Fault Refusal) = .next t) : t.Blank := by
    rw [execute_of_unclaimed hb] at hu
    exact close hu fun _ => h
  have hoff (l : Nat) : (s.lane l).enabled = false := by rw [h.lane]; rfl
  cases i with
  | qPortAccept r =>
    simp only [exec, execQPortAccept] at he
    split at he
    · exact close he (acceptRequest_blank hb h _)
    · cases he
  | mPortGrant => exact close he fun _ => grantStep_blank h
  | readDataArrival => exact close he fun _ => readArrival_blank h
  | slotReadProcedure => exact close he fun _ => slotReadStep_blank h
  | slateCountdownExpiry l =>
    simp only [exec, execSlateCountdownExpiry, hoff, Bool.false_eq_true, ↓reduceIte] at he
    split at he
    · exact close he fun _ => h
    · cases he
  | fetchDataArrival => exact close he fun _ => fetchArrival_blank h
  | readReturn => exact close he fun _ => returnRead_blank h
  | regionSet | laneSet | laneEnable | laneDisable | laneStatus | clipSet | clipClear | place | withdraw | placementStatus | cue
  | alertProfile | alertStart | alertRenew | alertEnd | alertLock | auditMark | logAck | unclaim | unknownCommand =>
    exact command _ _ he
  | rstNAssert =>
    refine close he fun _ => ?_
    split
    · exact h
    · exact resetBlocks_blank s
  | rstNRelease =>
    refine close he fun _ => ?_
    split
    · exact h.away rfl rfl rfl rfl rfl rfl rfl rfl rfl rfl rfl rfl rfl rfl rfl
    · exact h
  | bypassAssert =>
    refine close he fun _ => ?_
    split
    · exact h
    · exact assertBypass_blank h
  | bypassRelease =>
    refine close he fun _ => ?_
    split
    · exact releaseBypass_blank h
    · exact h
  | ealRawChange level => exact close he fun _ => changeRaw_blank h level
  | ealFilterExpiry =>
    refine close he fun _ => ?_
    split
    · exact filteredChange_blank (withAlert_blank h rfl rfl)
    · exact h
  | holdSecondElapsed =>
    have hnot : s.secondDue = false := by simp [State.secondDue, h.idle]
    exact close he fun _ => by simpa [hnot] using h
  | holdLimitExpiry =>
    have hnot : s.holdExpired = false := by simp [State.holdExpired, h.idle]
    exact close he fun _ => by simpa [hnot] using h
  | renewalPeriodExpiry =>
    have hnot : s.periodDue = false := by simp [State.periodDue, h.idle]
    exact close he fun _ => by simpa [hnot] using h
  | laneClockFold l =>
    have hnot : (s.lane l).foldDue s.lt = false := by simp [Lane.foldDue, hoff]
    simp only [exec, execLaneClockFold, hnot, Bool.false_eq_true, ↓reduceIte] at he
    split at he
    · exact close he fun _ => h
    · cases he

end Blank

/-- Settles O12: an UNCLAIMED part does nothing but forward, and the steps that end the claim put every block at its reset values. -/
theorem stepKeepsUnclaimed : Obligations.StepKeepsUnclaimed := by
  intro s t hs h
  rw [unclaimedOk_iff] at hs ⊢
  intro hb
  by_cases hsb : s.router.controlBase = none
  · have hblank := hs hsb
    have hticked (lt : Rt) : ({ s with lt := lt } : State).Blank :=
      hblank.away rfl rfl rfl rfl rfl rfl rfl rfl rfl rfl rfl rfl rfl rfl rfl
    have hpopped (rest : List Instr) : ({ s with pending := rest } : State).Blank :=
      hblank.away rfl rfl rfl rfl rfl rfl rfl rfl rfl rfl rfl rfl rfl rfl rfl
    unfold step at h
    split at h
    · rw [← Host.Outcome.next.inj h, tick_eq]
      exact hticked _
    next i rest _ => exact exec_blank (s := { s with pending := rest }) hsb (hpopped rest) h hb
  · rcases step_does h with ht | ⟨i, rest, u, -, ht, hu⟩
    · rw [ht, tick_eq] at hb
      exact absurd hb hsb
    · rw [ht, settle_controlBase] at hb
      rw [ht]
      exact settle_blank hb (hu.blank hsb hb)

end Sys2Proof.Machine

namespace Sys2Proof.Machine

open Sys2Proof

/-! ## Which steps complete, and the state after reset -/

/-- Settles O3, by the constructor of the step: only a port request and a lane number can be refused. -/
theorem stepsCompleteOrRefuse : Obligations.StepsCompleteOrRefuse := by
  intro i s
  refine ⟨fun hw => ?_, ?_, ?_⟩
  · cases i with
    | qPortAccept r => exact ⟨_, if_pos hw⟩
    | slateCountdownExpiry l => exact ⟨_, if_pos (of_decide_eq_true hw)⟩
    | laneClockFold l => exact ⟨_, if_pos (of_decide_eq_true hw)⟩
    | _ => exact ⟨_, rfl⟩
  · rintro r rfl hw
    exact if_neg (by simp [hw])
  · rintro l hl (rfl | rfl)
    · exact if_neg (Nat.not_lt.2 hl)
    · exact if_neg (Nat.not_lt.2 hl)

theorem reset_lane (l : Nat) : State.reset.lane l = Lane.reset := by
  by_cases hl : l < 16
  · simp [State.lane, State.reset, hl]
  · exact State.lane_of_le _ (Nat.le_of_not_lt hl)

theorem reset_placement (id : Nat) : State.reset.placement id = Placement.vacant := by
  by_cases hid : id < 128
  · simp [State.placement, State.reset, hid]
  · exact State.placement_of_le _ (Nat.le_of_not_lt hid)

theorem reset_clip (id : Nat) : State.reset.clip id = Clip.undefined := by
  by_cases hid : id < 256
  · simp [State.clip, State.reset, hid]
  · simp [State.clip, Nat.le_of_not_lt hid]

theorem reset_region (i : Nat) : State.reset.region i = Region.reset := by
  by_cases hi : i < 32
  · simp [State.region, State.reset, Router.reset, hi]
  · simp [State.region, Nat.le_of_not_lt hi]

theorem reset_profileAt (p : Nat) : State.reset.alert.profileAt p = Profile.undefined := by
  by_cases hp : p < 4
  · simp [AlertCtl.profileAt, State.reset, AlertCtl.reset, hp]
  · simp [AlertCtl.profileAt, Nat.le_of_not_lt hp]

/-- Settles O4, block by block: each table of the reset state holds its reset entry everywhere. -/
theorem resetValues : Obligations.ResetValues := by
  refine ⟨?router, fun i _ => reset_region i, ?cmd, fun l _ => ?lane, fun id _ => reset_clip id, fun id _ => ?placement, ?alert, ?log⟩
  case router => exact ⟨rfl, rfl, rfl, rfl, rfl, rfl, rfl, rfl, rfl, rfl⟩
  case cmd => exact ⟨rfl, rfl, rfl, rfl, rfl⟩
  case lane =>
    simp only [reset_lane]
    refine ⟨rfl, rfl, rfl, rfl, rfl, rfl, rfl, rfl, rfl, rfl, rfl, rfl, rfl, rfl, rfl, rfl, rfl, rfl, rfl, rfl, ?monitor, ?record⟩
    case monitor => exact ⟨rfl, rfl, rfl, rfl, rfl, rfl, rfl, rfl, rfl, fun r => by simp [Lane.reset, Monitor.fresh, ContItem.reset]⟩
    case record => simp [Lane.reset, LaneRecord.reset, Config.nullPid]
  case placement =>
    simp only [reset_placement]
    exact ⟨rfl, rfl, rfl, rfl, rfl, rfl, rfl, rfl, rfl, rfl, rfl, rfl, rfl, rfl, rfl, rfl, rfl⟩
  case alert => exact ⟨rfl, rfl, rfl, rfl, rfl, rfl, rfl, rfl, rfl, rfl, rfl, fun p _ => reset_profileAt p⟩
  case log => exact ⟨rfl, rfl, rfl, rfl, rfl⟩

theorem reset_blank : State.reset.Blank := ⟨rfl, rfl, rfl, rfl, rfl, rfl, rfl, rfl, rfl, rfl, rfl, rfl, rfl, rfl, rfl⟩

/-- Settles O5: with empty queues, empty stacks and EMPTY lookaheads there is nothing to break a law. -/
theorem resetKeepsLaws : Obligations.ResetKeepsLaws := by
  have hstack (l : Nat) : (State.reset.lane l).stack = [] := by rw [reset_lane]; rfl
  have hstate (id : Nat) : (State.reset.placement id).state = .vacant := by rw [reset_placement]; rfl
  have hstacks : State.reset.StackLaws := by
    refine ⟨fun l => ?_, fun l => ?_, fun l => ?_, fun id _ => ?_, fun id _ => ⟨?_, ?_⟩⟩
    · rw [hstack]; exact List.Pairwise.nil
    · rw [hstack]; exact List.Pairwise.nil
    · rw [hstack]; exact fun _ h => absurd h List.not_mem_nil
    · rw [reset_placement]; exact .inr rfl
    · simp [hstate, State.OnTop, hstack]
    · simp [hstate, State.BelowTop, hstack]
  have hqueues : State.reset.QueueLaws := by
    have none_in {α : Type} {P : α → Prop} : ∀ x ∈ ([] : List α), P x := fun _ h => absurd h List.not_mem_nil
    exact (queueLaws_iff _).2 ⟨⟨⟨Nat.zero_le _, Nat.zero_le _, Nat.zero_le _⟩, ⟨List.nodup_nil, none_in, Nat.zero_le _⟩,
      List.nodup_nil, none_in, none_in, none_in, fun _ => none_in⟩, fun _ _ ⟨_, ha, _⟩ => absurd ha List.not_mem_nil,
      fun h => absurd rfl h⟩
  have hdisabled : State.reset.DisabledOk := by
    intro l _
    rw [reset_lane]
    exact ⟨rfl, rfl, rfl, rfl, rfl⟩
  have hlooks : State.reset.LooksOk := by
    refine ⟨fun l key slot i damaged h => ?_, fun _ h => absurd h List.not_mem_nil⟩
    rw [reset_lane] at h
    simp [Lane.reset] at h
  have hloop : State.reset.LoopOk := ⟨Nat.zero_le _, fun h => absurd h Bool.false_ne_true⟩
  have hreturns : State.reset.ReturnLaws := ⟨fun _ h => absurd h List.not_mem_nil, fun h => absurd h Bool.false_ne_true⟩
  exact ⟨Memory.wf_reset, hstacks, hqueues, hloop, hreturns, fun _ => reset_blank, hdisabled, hlooks⟩

end Sys2Proof.Machine

namespace Sys2Proof.Machine

open Sys2Proof

/-! ## Requests as they are accepted (R1) -/

section Requests

variable (r : QRequest)

/-- The mask of a line address takes the six low bits as zero (R1). -/
theorem lineMask_toNat (a : Word) : (a &&& 0xFFFFFFC0#32).toNat = a.toNat / 64 * 64 := by
  have hshift : a &&& 0xFFFFFFC0#32 = a >>> 6 <<< 6 := by
    refine BitVec.eq_of_getLsbD_eq fun i hi => ?_
    interval_cases i <;> simp
  rw [hshift, BitVec.toNat_shiftLeft, BitVec.toNat_ushiftRight, Nat.shiftRight_eq_div_pow, Nat.shiftLeft_eq]
  have := a.isLt
  omega

theorem aligned_addr : r.aligned.addr.toNat = r.addr.toNat / 64 * 64 := by
  cases r <;> exact lineMask_toNat _

@[simp] theorem aligned_lines : r.aligned.lines = r.lines := by cases r <;> rfl

@[simp] theorem aligned_data : r.aligned.data = r.data := by cases r <;> rfl

/-- A well formed request has a first line. -/
theorem lines_pos (h : r.wf = true) : 1 ≤ r.lines := by
  cases r with
  | read a n =>
    simp only [QRequest.wf, decide_eq_true_eq] at h
    exact h.1
  | write a d e =>
    simp only [QRequest.wf, Bool.and_eq_true, decide_eq_true_eq] at h
    simp only [QRequest.lines, Config.lineBytes]
    omega

/-- A write of so many full lines has that many lines. -/
theorem lines_of_fullWrite {n : Nat} (h : r.fullWrite n = true) : r.lines = n := by
  cases r with
  | read a m => simp [QRequest.fullWrite] at h
  | write a d e =>
    simp only [QRequest.fullWrite, Bool.and_eq_true, decide_eq_true_eq] at h
    simp only [QRequest.lines, h.1, Config.lineBytes]
    omega

theorem fullWrite_of_isClaim (h : r.isClaim = true) : r.fullWrite 1 = true := by
  simp only [QRequest.isClaim, Bool.and_eq_true] at h
  exact h.1.1

/-- A claim line is one line, so that no request of another count is one. -/
theorem isClaim_eq_false (h : r.fullWrite 1 = false) : r.isClaim = false := by
  simp [QRequest.isClaim, h]

theorem fullWrite_unique {m n : Nat} (h : r.fullWrite m = true) (hmn : m ≠ n) : r.fullWrite n = false := by
  cases hn : r.fullWrite n with
  | false => rfl
  | true => exact absurd ((lines_of_fullWrite r h).symm.trans (lines_of_fullWrite r hn)) hmn

theorem fullWrite_of_not_isWrite (h : r.isWrite = false) (n : Nat) : r.fullWrite n = false := by
  cases r with
  | read a m => rfl
  | write a d e => simp [QRequest.isWrite] at h

theorem readOf_not_isWrite {n : Nat} (h : r.readOf n = true) : r.isWrite = false := by
  cases r with
  | read a m => rfl
  | write a d e => simp [QRequest.readOf] at h

end Requests

/-! ## The meaning of Q_PORT_ACCEPT -/

/-- A well formed request is accepted by its acceptance, closed. -/
theorem exec_accept {r : QRequest} (h : r.wf = true) (s : State) :
    exec (.qPortAccept r) s = .next (settle s (acceptRequest r.aligned s)) := if_pos h

theorem accept_apart {r : QRequest} {s u : State} (h : r.wf = true) (hu : acceptRequest r.aligned s = u) :
    ∃ t, exec (.qPortAccept r) s = .next t ∧ t.apart = u.apart := ⟨_, exec_accept h s, by rw [settle_apart, hu]⟩

/-- The sixteen words of a claim line, laid out and read again (R5). -/
theorem claimWords_laid : lineWords (wordsBytes [0x1C5A0016, 0xE3A5FFE9, 1, 0, 0, 0, 0, 0, 0, 0, 0, 0, 0, 0, 0, 0]) = claimWords := by
  decide

theorem enqueue_eq (q : QRequest) (c : FwdClass) (s : State) : enqueue q c s = s.joined q c := rfl

/-- Settles O14, by the room in the forward queue. -/
theorem acceptHoldsOrForwards : Obligations.AcceptHoldsOrForwards := by
  intro s r hw
  refine ⟨fun hfull => accept_apart hw (if_pos hfull), fun hroom hplain => ?_⟩
  have hlow : ¬ Config.forwardCapacity ≤ s.router.forward.length := Nat.not_le.2 hroom
  have hu : acceptRequest r.aligned s = s.joined r.aligned .plain := by
    unfold acceptRequest
    rw [if_neg hlow]
    rcases hplain with hrst | ⟨hb, hclaim⟩
    · rw [if_pos hrst, enqueue_eq]
    · have hcl : s.claimed = false := by simp [State.claimed, hb]
      simp only [hcl, hclaim, Bool.false_eq_true, ↓reduceIte, enqueue_eq, ite_self]
  obtain ⟨t, ht, ha⟩ := accept_apart hw hu
  exact ⟨t, ht, ha, aligned_addr r, aligned_lines r, aligned_data r⟩

/-- Settles O15: the claim gives the router its control base, and with it the status line is due. -/
theorem acceptClaimLine : Obligations.AcceptClaimLine := by
  intro s a hroom hrst hb ha q
  have hw : q.wf = true := rfl
  have hal : q.aligned = q := by
    have hmask : a &&& 0xFFFFFFC0#32 = a := by
      apply BitVec.eq_of_toNat_eq
      rw [lineMask_toNat]
      omega
    exact congrArg (QRequest.write · _ _) hmask
  have hclaim : q.isClaim = true := by
    have hwords : lineWords q.data = claimWords := claimWords_laid
    have hfull : q.fullWrite 1 = true := rfl
    simp only [QRequest.isClaim, hfull, hwords, Bool.true_and, decide_true, Bool.and_true, decide_eq_true_eq]
    exact ha
  have hu : acceptRequest q.aligned s = (claim q s).joined q .plain := by
    have hcl : s.claimed = false := by simp [State.claimed, hb]
    have hlow : ¬ Config.forwardCapacity ≤ s.router.forward.length := Nat.not_le.2 hroom
    simp only [acceptRequest, hal, hlow, hrst, hcl, hclaim, Bool.false_eq_true, ↓reduceIte, enqueue_eq]
  refine ⟨_, exec_accept hw s, ?_, ?_, ?_⟩
  · rw [settle_controlBase, hu]
    rfl
  · have hdue : s.StatusDue ((claim q s).joined q .plain) := by
      refine ⟨Option.some_ne_none _, hrst, fun hsame => ?_⟩
      have hnone : s.router.controlBase.isSome = true := hsame.1.1
      simp [hb] at hnone
    rw [settle_waiting, hu]
    by_cases hin : PartWrite.status ∈ ((claim q s).joined q .plain).router.waiting
    · exact List.mem_append_left _ hin
    · exact List.mem_append_right _ (List.mem_append_right _ ((mem_joiningStatus _ _ _).2 ⟨rfl, hdue, hin⟩))
  · rw [settle_apart, hu]
    rfl

end Sys2Proof.Machine

namespace Sys2Proof.Machine

open Sys2Proof

/-! ## The class of a request (R7, R11 to R14) -/

section Classes

variable {q : QRequest} {s : State}

theorem acceptRequest_of_classifies (hc : s.Classifies) (q : QRequest) :
    acceptRequest q s = (classify q (countStrayClaim q s)).1.joined q (classify q (countStrayClaim q s)).2 := by
  obtain ⟨hroom, hrst, hb⟩ := hc
  have hlow : ¬ Config.forwardCapacity ≤ s.router.forward.length := Nat.not_le.2 hroom
  have hcl : s.claimed = true := by simpa [State.claimed, Option.isSome_iff_ne_none] using hb
  simp only [acceptRequest, hlow, hrst, hcl, Bool.false_eq_true, ↓reduceIte, enqueue_eq]

/-- A well formed request accepted while CLAIMED joins the forward queue under the class the router finds (R11). -/
theorem accept_classified {r : QRequest} {v : State} {c : FwdClass} (hw : r.wf = true) (hc : s.Classifies)
    (h : classify r.aligned (countStrayClaim r.aligned s) = (v, c)) :
    ∃ t, exec (.qPortAccept r) s = .next t ∧ t.apart = (v.joined r.aligned c).apart :=
  accept_apart hw ((acceptRequest_of_classifies hc _).trans (by rw [h]))

theorem countStrayClaim_of_not (h : q.isClaim = false) : countStrayClaim q s = s := by simp [countStrayClaim, h]

@[simp] theorem countStrayClaim_areaOf (x : Nat) : (countStrayClaim q s).areaOf x = s.areaOf x := by
  unfold countStrayClaim
  split <;> rfl

@[simp] theorem countStrayClaim_region (i : Nat) : (countStrayClaim q s).region i = s.region i := by
  unfold countStrayClaim
  split <;> rfl

@[simp] theorem countStrayClaim_lane (l : Nat) : (countStrayClaim q s).lane l = s.lane l := by
  unfold countStrayClaim
  split <;> rfl

@[simp] theorem countStrayClaim_controlLine : (countStrayClaim q s).controlLine q = s.controlLine q := by
  unfold countStrayClaim
  split <;> rfl

@[simp] theorem countStrayClaim_areaOfAll : (countStrayClaim q s).areaOfAll q = s.areaOfAll q := by simp [State.areaOfAll]

@[simp] theorem countStrayClaim_ringLive (i : Nat) : (countStrayClaim q s).ringLive i = s.ringLive i := by
  simp [State.ringLive]

@[simp] theorem countStrayClaim_regionOffset (i : Nat) : (countStrayClaim q s).regionOffset i q = s.regionOffset i q := by
  simp [State.regionOffset]

theorem head_mem_lineAddrs (hl : 1 ≤ q.lines) : addrPlus q.addr 0 ∈ q.lineAddrs :=
  List.mem_map.2 ⟨0, List.mem_range.2 hl, rfl⟩

theorem areaOfAll_of_whollyIn {a : Area} (hl : 1 ≤ q.lines) (h : s.WhollyIn q a) : s.areaOfAll q = some a := by
  have hhead : s.areaOf (addrPlus q.addr 0) = a := h _ (head_mem_lineAddrs hl)
  have hall : (q.lineAddrs.all fun x => decide (s.areaOf x = a)) = true := by simpa using h
  simp only [State.areaOfAll, hhead, hall, ↓reduceIte]

theorem areaOfAll_of_straddle (h : ∃ x ∈ q.lineAddrs, ∃ y ∈ q.lineAddrs, s.areaOf x ≠ s.areaOf y) : s.areaOfAll q = none := by
  obtain ⟨x, hx, y, hy, hne⟩ := h
  have hall : ¬ (q.lineAddrs.all fun z => decide (s.areaOf z = s.areaOf (addrPlus q.addr 0))) = true := fun hall => by
    simp only [List.all_eq_true, decide_eq_true_eq] at hall
    exact hne ((hall x hx).trans (hall y hy).symm)
  simp only [State.areaOfAll, hall, Bool.false_eq_true, ↓reduceIte]

theorem ringLive_of_liveRing {i l : Nat} (h : s.LiveRing i l) : s.ringLive i = true := by
  obtain ⟨-, hl, he, hr⟩ := h
  simp [State.ringLive, hl, he, hr]

theorem ringLive_eq_false {i : Nat} (hr : (s.region i).role = .ring) (h : ¬ s.LiveRing i (s.region i).lane) :
    s.ringLive i = false := by
  simpa [State.LiveRing, hr, State.ringLive] using h

/-- A request of two different lines is no claim line (R5). -/
theorem not_isClaim_of_straddle (h : s.areaOfAll q = none) : q.isClaim = false := by
  by_contra hc
  have hone : q.lines = 1 := lines_of_fullWrite q (fullWrite_of_isClaim q (by simpa using hc))
  simp [State.areaOfAll, QRequest.lineAddrs, hone, List.range_succ] at h

theorem classify_region {i : Nat} (h : s.areaOfAll q = some (.region i)) :
    classify q (countStrayClaim q s) = acceptRegion i q (countStrayClaim q s) := by
  simp only [classify, countStrayClaim_areaOfAll, h]

theorem acceptRegion_ring {i : Nat} (h : (s.region i).role = .ring) :
    acceptRegion i q (countStrayClaim q s) = acceptRing i q (countStrayClaim q s) := by
  simp only [acceptRegion, countStrayClaim_region, h]

theorem acceptRegion_log {i : Nat} (h : (s.region i).role = .log) :
    acceptRegion i q (countStrayClaim q s) = acceptLog q (countStrayClaim q s) := by
  simp only [acceptRegion, countStrayClaim_region, h]

/-- A request to a live ring that is no slot access is a stray (R13). -/
theorem acceptRing_stray {i l : Nat} (h : s.LiveRing i l) (hs : ¬ s.SlotShape i q) :
    acceptRing i q s = (s.onLane l fun x => { x with strays := satInc x.strays }, .stray l) := by
  have hlive := ringLive_of_liveRing h
  obtain ⟨-, rfl, -, -⟩ := h
  have hw : ¬ (s.regionOffset i q % Config.slotBytes = 0 ∧ q.fullWrite 3 = true) := fun c => hs ⟨c.1, .inl c.2⟩
  have hr : ¬ (s.regionOffset i q % Config.slotBytes = 0 ∧ q.readOf 3 = true) := fun c => hs ⟨c.1, .inr c.2⟩
  simp only [acceptRing, hlive, Bool.not_true, Bool.false_eq_true, ↓reduceIte, hw, hr]

theorem acceptRing_slotRead {i l : Nat} (h : s.LiveRing i l) (ha : s.SlotAligned i q) (hr : q.readOf 3 = true) :
    acceptRing i q s = (s, .slotRead l (s.regionOffset i q / 192)) := by
  have hlive := ringLive_of_liveRing h
  obtain ⟨-, rfl, -, -⟩ := h
  have hw : q.fullWrite 3 = false := fullWrite_of_not_isWrite q (readOf_not_isWrite q hr) 3
  have ha : s.regionOffset i q % Config.slotBytes = 0 := ha
  simp only [acceptRing, hlive, ha, hw, hr, Bool.not_true, Bool.false_eq_true, and_false, and_self, ↓reduceIte]
  rfl

theorem acceptRing_slotWrite {i l : Nat} (h : s.LiveRing i l) (ha : s.SlotAligned i q) (hw : q.fullWrite 3 = true) :
    acceptRing i q s = (ingress l (s.regionOffset i q / 192) q.data s, .slotWrite l (s.regionOffset i q / 192)) := by
  have hlive := ringLive_of_liveRing h
  obtain ⟨-, rfl, -, -⟩ := h
  have ha : s.regionOffset i q % Config.slotBytes = 0 := ha
  simp only [acceptRing, hlive, ha, hw, Bool.not_true, Bool.false_eq_true, and_self, ↓reduceIte]
  rfl

/-! ### What a class that is not a slot write leaves alone -/

theorem takeCommand_router (n : Nat) (ws : List Word) (s : State) :
    (takeCommand n ws s).router = { s.router with waiting := (takeCommand n ws s).router.waiting } := by
  unfold takeCommand
  split
  · rfl
  · split <;> rfl

theorem cancelCommand_router (n : Nat) (s : State) :
    (cancelCommand n s).router = { s.router with waiting := (cancelCommand n s).router.waiting } := by
  unfold cancelCommand
  split
  · rfl
  · split <;> rfl

/-- Two states agree in memory, control base, stray claims and forward queue. -/
structure SamePath (s t : State) : Prop where
  mem : t.mem = s.mem
  base : t.router.controlBase = s.router.controlBase
  strayClaims : t.router.strayClaims = s.router.strayClaims
  forward : t.router.forward = s.router.forward

theorem SamePath.refl (s : State) : SamePath s s := ⟨rfl, rfl, rfl, rfl⟩

theorem takeCommand_samePath (n : Nat) (ws : List Word) (s : State) : SamePath s (takeCommand n ws s) := by
  have h := takeCommand_router n ws s
  exact ⟨takeCommand_mem n ws s, by rw [h], by rw [h], by rw [h]⟩

theorem cancelCommand_samePath (n : Nat) (s : State) : SamePath s (cancelCommand n s) := by
  have h := cancelCommand_router n s
  exact ⟨cancelCommand_mem n s, by rw [h], by rw [h], by rw [h]⟩

theorem acceptControl_samePath (q : QRequest) (s : State) : SamePath s (acceptControl q s).1 := by
  unfold acceptControl offerWrite
  split
  · split
    · by_cases h0 : wordAt (lineWords q.data) 0 = 0
      · simp only [h0, ↓reduceIte]
        exact cancelCommand_samePath _ s
      · simp only [h0, ↓reduceIte]
        exact takeCommand_samePath _ _ s
    · exact ⟨rfl, rfl, rfl, rfl⟩
  · exact .refl s

theorem acceptRing_samePath (i : Nat) (hq : q.fullWrite 3 = false) (s : State) : SamePath s (acceptRing i q s).1 := by
  simp only [acceptRing, hq, Bool.false_eq_true, and_false, ↓reduceIte]
  split
  · exact .refl s
  · split
    · exact .refl s
    · exact ⟨rfl, rfl, rfl, rfl⟩

theorem classify_samePath (hq : q.fullWrite 3 = false) (s : State) : SamePath s (classify q s).1 := by
  unfold classify
  split
  · exact ⟨rfl, rfl, rfl, rfl⟩
  · exact acceptControl_samePath q s
  next i _ =>
    unfold acceptRegion
    split
    · exact acceptRing_samePath i hq s
    · unfold acceptLog
      split <;> exact ⟨rfl, rfl, rfl, rfl⟩
    · exact .refl s
    · exact .refl s
  · exact .refl s

end Classes

/-! ## Acceptance while CLAIMED -/

/-- Settles O16, by the area the request lies in. -/
theorem acceptCounts : Obligations.AcceptCounts := by
  intro s r hw hc q
  have hlines : 1 ≤ q.lines := by
    rw [aligned_lines]
    exact lines_pos r hw
  refine ⟨fun hstr => ?straddle, fun i hwr hin hrole => ?log, fun i l hlive hin hshape => ?stray, fun hclaim => ?claim⟩
  case straddle =>
    have harea := areaOfAll_of_straddle hstr
    refine accept_classified hw hc ?_
    rw [countStrayClaim_of_not (not_isClaim_of_straddle harea)]
    simp only [classify, q, harea]
    rfl
  case log =>
    refine accept_classified hw hc ?_
    rw [classify_region (areaOfAll_of_whollyIn hlines hin), acceptRegion_log hrole, acceptLog, if_pos hwr]
    unfold countStrayClaim
    split <;> rfl
  case stray =>
    refine accept_classified hw hc ?_
    rw [classify_region (areaOfAll_of_whollyIn hlines hin), acceptRegion_ring hlive.1]
    refine acceptRing_stray ?_ ?_
    · simpa [State.LiveRing] using hlive
    · simpa [State.SlotShape, State.SlotAligned] using hshape
  case claim =>
    have hthree : q.fullWrite 3 = false := fullWrite_unique q (fullWrite_of_isClaim q hclaim) (by decide)
    obtain ⟨hmem, hbase, hstray, hfwd⟩ := classify_samePath hthree (countStrayClaim q s)
    have hcount : countStrayClaim q s = { s with router := { s.router with strayClaims := satInc s.router.strayClaims } } :=
      if_pos hclaim
    rw [hcount] at hmem hbase hstray hfwd
    refine ⟨_, exec_accept hw s, ?_, ?_, ?_, (classify q (countStrayClaim q s)).2, ?_⟩ <;>
      rw [acceptRequest_of_classifies hc, hcount]
    · rw [settle_controlBase]
      exact hbase
    · rw [settle_strayClaims]
      exact hstray
    · rw [settle_mem]
      exact hmem
    · rw [settle_forward]
      exact congrArg (· ++ _) hfwd

/-- Settles O17, by the area the request lies in. -/
theorem acceptForwards : Obligations.AcceptForwards := by
  intro s r hw hc q
  have hlines : 1 ≤ q.lines := by
    rw [aligned_lines]
    exact lines_pos r hw
  refine ⟨⟨fun hin hfree => ?control, fun hin => ?unmapped⟩,
    fun i hin => ⟨fun hrole => ?region, fun l hlive hal hread => ?slotRead⟩⟩
  case control =>
    refine accept_classified hw hc ?_
    have hnot : ¬ (q.isWrite = true ∧ s.controlLine q ≤ 15) := by
      rcases hfree with hr | hl
      · simp [hr]
      · omega
    simp only [classify, countStrayClaim_areaOfAll, areaOfAll_of_whollyIn hlines hin, acceptControl,
      countStrayClaim_controlLine, if_neg hnot, q]
  case unmapped =>
    refine accept_classified hw hc ?_
    simp only [classify, countStrayClaim_areaOfAll, areaOfAll_of_whollyIn hlines hin, q]
  case region =>
    refine accept_classified hw hc ?_
    rw [classify_region (areaOfAll_of_whollyIn hlines hin)]
    rcases hrole with hlib | ⟨hlog, hr⟩ | ⟨hring, hdead⟩
    · simp only [acceptRegion, countStrayClaim_region, hlib, q]
    · rw [acceptRegion_log hlog, acceptLog, if_neg (by simp [hr])]
    · rw [acceptRegion_ring hring, acceptRing, countStrayClaim_ringLive, ringLive_eq_false hring hdead]
      rfl
  case slotRead =>
    have hone : q.isClaim = false := isClaim_eq_false q (fullWrite_of_not_isWrite q (readOf_not_isWrite q hread) 1)
    refine accept_classified hw hc ?_
    rw [classify_region (areaOfAll_of_whollyIn hlines hin), acceptRegion_ring hlive.1, countStrayClaim_of_not hone]
    exact acceptRing_slotRead hlive hal hread

end Sys2Proof.Machine

namespace Sys2Proof.Machine

open Sys2Proof

/-! ## What a slot write's packet leaves alone at cue intake (R74 to R81) -/

/-- Cue intake for lane `l` changes placements, the log, and of the lane its recent avails, AUDIT mark, stack and cue errors. -/
structure CueFrame (l : Nat) (s t : State) : Prop where
  state : t = { s with lanes := t.lanes, placements := t.placements, log := t.log }
  others : ∀ m, m ≠ l → t.lane m = s.lane m
  lane : t.lane l =
    { s.lane l with
      recent := (t.lane l).recent, audit := (t.lane l).audit, stack := (t.lane l).stack, cueErrors := (t.lane l).cueErrors }

theorem CueFrame.refl (l : Nat) (s : State) : CueFrame l s s := ⟨rfl, fun _ _ => rfl, rfl⟩

theorem CueFrame.of_lanes {l : Nat} {s t : State} (h : t = { s with placements := t.placements, log := t.log }) :
    CueFrame l s t := by
  have hlanes : ∀ m, t.lane m = s.lane m := fun m => by rw [h]; rfl
  refine ⟨?_, fun m _ => hlanes m, ?_⟩
  · rw [h]
  · rw [hlanes]

theorem cueMoves_frame {s t : State} {l : Nat} {c : Cue} {ids : List Nat} {f : Placement → Placement} {recent : List Word}
    (h : s.CueMoves l c ids f recent t) : CueFrame l s t := by
  obtain ⟨hstate, hothers, hlane, -, -⟩ := h
  refine ⟨hstate, hothers, ?_⟩
  rw [hlane]

theorem cueTaken_frame {s t : State} {l : Nat} {c : Cue} {injected : Bool} {code : Nat} (h : s.CueTaken l c injected t code) :
    CueFrame l s t := by
  unfold State.CueTaken at h
  extract_lets x armed pending waiting onStack asked cued moved unplaced cancelled recent at h
  clear_value armed
  split at h
  · cases armed with
    | cons id ids => exact cueMoves_frame h.1
    | nil =>
      dsimp only at h
      split at h
      · split at h
        · obtain ⟨rfl, -⟩ := h
          exact .refl l t
        · exact cueMoves_frame h.1
      · split at h
        · obtain ⟨rfl, -⟩ := h
          exact .refl l t
        · obtain ⟨ht, -⟩ := h
          exact .of_lanes (by rw [ht])
  · obtain ⟨hstate, hothers, hlane, -⟩ := h
    refine ⟨hstate, hothers, ?_⟩
    rw [hlane]
  · exact .of_lanes h.1

theorem cuePacket_frame {s t : State} {l : Nat} {p : List Byte} {i : Insp} (hl : l < 16) (h : s.CuePacket l p i t) :
    CueFrame l s t := by
  unfold State.CuePacket at h
  extract_lets m at h
  split at h
  · rw [h]
    exact .refl l s
  · obtain ⟨hmessage, herror⟩ := h
    by_cases hc : i.payLen < 18 ∨ ∀ c, ¬ CueMessage m c
    · rw [herror hc]
      refine ⟨rfl, fun n hn => s.lane_onLane_ne _ hn.symm, ?_⟩
      rw [s.lane_onLane_self _ hl]
    · push Not at hc
      obtain ⟨hlen, c, hmsg⟩ := hc
      obtain ⟨code, htaken⟩ := hmessage c hlen hmsg
      exact cueTaken_frame htaken

theorem cuePacket_off {s t : State} {l : Nat} {p : List Byte} {i : Insp} (h : s.CuePacket l p i t)
    (hoff : (s.lane l).record.onCuePid i = false) : t = s := by
  unfold State.CuePacket at h
  rwa [if_pos (.inl hoff)] at h

/-! ## What the monitor leaves alone (R156 to R165) -/

/-- Of a lane that its monitor has watched, the monitor and the slate requests are new, the anchor items those of steps 1 to 4. -/
structure WatchFrame (m : Monitor) (x y : Lane) : Prop where
  lane : y = { x with monitor := y.monitor, slateInsert := y.slateInsert, slateRemove := y.slateRemove }
  anchorTag : y.monitor.anchorTag = m.anchorTag
  anchorIndex : y.monitor.anchorIndex = m.anchorIndex
  anchorAge : y.monitor.anchorAge = m.anchorAge
  anchorAbsent : y.monitor.anchorAbsent = m.anchorAbsent

theorem watched_frame (x : Lane) (n w : Nat) (t : Rt) (i : Insp) :
    WatchFrame (x.itemsAfter w t i) x (x.watched n w t i).1 := by
  unfold Lane.watched
  extract_lets r m loss rate stays insertIn suspect recovering
  have hstays : ∀ st, WatchFrame m x (stays st) := fun _ => ⟨rfl, rfl, rfl, rfl, rfl⟩
  have hsuspect : ∀ since, WatchFrame m x (suspect since).1 := fun since => by
    simp only [suspect]
    split <;> exact ⟨rfl, rfl, rfl, rfl, rfl⟩
  have hrecovering : ∀ k before, k.anchorTag = m.anchorTag → k.anchorIndex = m.anchorIndex → k.anchorAge = m.anchorAge →
      k.anchorAbsent = m.anchorAbsent → WatchFrame m x (recovering k before).1 := fun k before h1 h2 h3 h4 => by
    simp only [recovering]
    split <;> exact ⟨rfl, h1, h2, h3, h4⟩
  split
  · exact hstays _
  · split
    · split
      · exact hsuspect _
      · exact hstays _
    · exact hstays _
  · split
    · exact hsuspect _
    · exact hstays _
  · split
    · exact hsuspect _
    · exact hstays _
  · split
    · exact hstays _
    · exact hrecovering _ _ rfl rfl rfl rfl
  · split
    · exact hstays _
    · exact hrecovering _ _ rfl rfl rfl rfl

theorem itemsAfter_of_anchor (x : Lane) (w : Nat) (t : Rt) {i : Insp} (h : x.record.isAnchor i = true) :
    (x.itemsAfter w t i).anchorTag = t ∧ (x.itemsAfter w t i).anchorIndex = some w ∧ (x.itemsAfter w t i).anchorAge = 0 ∧
      (x.itemsAfter w t i).anchorAbsent = false := by
  simp [Lane.itemsAfter, h]

theorem itemsAfter_of_not_anchor (x : Lane) (w : Nat) (t : Rt) {i : Insp} (h : x.record.isAnchor i = false) :
    (x.itemsAfter w t i).anchorIndex = x.monitor.anchorIndex ∧
      (x.itemsAfter w t i).anchorAge = satInc x.monitor.anchorAge := by
  simp [Lane.itemsAfter, h]

/-! ## The slot write (R28) -/

/-- A lane with what cue intake changes taken from another. -/
def withCue (y x : Lane) : Lane := { x with recent := y.recent, audit := y.audit, stack := y.stack, cueErrors := y.cueErrors }

/-- A lane with its monitor and slate requests taken from another. -/
def withWatch (y x : Lane) : Lane :=
  { x with monitor := y.monitor, slateInsert := y.slateInsert, slateRemove := y.slateRemove }

theorem ringSlots_of_liveRing {s : State} {i l : Nat} (h : s.LiveRing i l) :
    s.ringSlots l = ((s.region i).limit.toNat - (s.region i).base.toNat) / 192 := by
  obtain ⟨-, -, -, hr⟩ := h
  rw [State.ringSlots, hr]
  rfl

/-- A lane whose write index follows a slot write at `w` in a ring of `n` slots (R28). -/
def Lane.followed (n w : Nat) (x : Lane) : Lane :=
  { x with writeIndex := (w + 1) % n, writeSkips := if w = x.writeIndex then x.writeSkips else satInc x.writeSkips }

/-- A slot write, in the order of its parts: the write index, cue intake, the monitor (R28). -/
theorem ingress_parts {l : Nat} (hl : l < 16) (w : Nat) (slot : List Byte) (s : State) :
    ∃ taken x records,
      (s.onLane l (Lane.followed (s.ringSlots l) w)).CuePacket l (slot.drop 4) (inspect (slot.drop 4)) taken ∧
      (taken.lane l).watched (s.ringSlots l) w (slotTag slot) (inspect (slot.drop 4)) = (x, records) ∧
      ingress l w slot s = ({ taken with log := taken.logAfter (records.map fun b => (l, b)) } : State).setLane l x := by
  refine ⟨_, _, _, cueIntake_packet l hl (slot.drop 4) (inspect (slot.drop 4)) _, rfl, ?_⟩
  change superviseWrite l (s.ringSlots l) w (slotTag slot) (inspect (slot.drop 4)) _ = _
  simp only [superviseWrite, supervise_watched, handRecords_after]
  rfl

/-- What a slot write leaves, told from the state before it: the parts it touches, the lane, its anchor items, and what a packet
off the cue PID leaves (R28). -/
structure SlotWritten (l n w : Nat) (t : Rt) (i : Insp) (s u : State) : Prop where
  state : u = { s with lanes := u.lanes, placements := u.placements, log := u.log }
  others : ∀ m, m ≠ l → u.lane m = s.lane m
  lane : u.lane l = withWatch (u.lane l) (withCue (u.lane l) (Lane.followed n w (s.lane l)))
  items : WatchFrame ((s.lane l).itemsAfter w t i) (u.lane l) (u.lane l)
  off : (s.lane l).record.onCuePid i = false →
    u.placements = s.placements ∧ u.lane l = withWatch (u.lane l) (Lane.followed n w (s.lane l))

theorem slotWritten_of_parts {l n w : Nat} {t : Rt} {p : List Byte} {i : Insp} {s taken : State} {x : Lane}
    {records : List RecordBody} (hl : l < 16) (hcue : (s.onLane l (Lane.followed n w)).CuePacket l p i taken)
    (hwatched : (taken.lane l).watched n w t i = (x, records)) (log : LogWriter) :
    SlotWritten l n w t i s (({ taken with log := log } : State).setLane l x) := by
  have hfollowed : (s.onLane l (Lane.followed n w)).lane l = Lane.followed n w (s.lane l) := s.lane_onLane_self _ hl
  have hframe := cuePacket_frame hl hcue
  have hwatch := watched_frame (taken.lane l) n w t i
  rw [hwatched] at hwatch
  have hlane : (({ taken with log := log } : State).setLane l x).lane l = x := State.lane_setLane_self _ _ hl
  have htaken : taken.lane l = withCue (taken.lane l) (Lane.followed n w (s.lane l)) :=
    hframe.lane.trans (congrArg (withCue (taken.lane l)) hfollowed)
  have hx : x = withWatch x (taken.lane l) := hwatch.lane
  refine ⟨?_, fun m hm => ?_, ?_, ?_, fun hoff => ?_⟩
  · rw [hframe.state]
    rfl
  · calc (({ taken with log := log } : State).setLane l x).lane m
        = taken.lane m := State.lane_setLane_ne _ _ hm.symm
      _ = (s.onLane l (Lane.followed n w)).lane m := hframe.others m hm
      _ = s.lane m := s.lane_onLane_ne _ hm.symm
  · rw [hlane]
    have hcued : withCue x (Lane.followed n w (s.lane l)) = withCue (taken.lane l) (Lane.followed n w (s.lane l)) :=
      (congrArg (fun y => withCue y (Lane.followed n w (s.lane l))) hx).trans rfl
    rw [hcued]
    exact hx.trans (congrArg (withWatch x) htaken)
  · rw [hlane]
    have hitems : (taken.lane l).itemsAfter w t i = (s.lane l).itemsAfter w t i :=
      (congrArg (fun y : Lane => y.itemsAfter w t i) htaken).trans rfl
    rw [hitems] at hwatch
    exact ⟨rfl, hwatch.anchorTag, hwatch.anchorIndex, hwatch.anchorAge, hwatch.anchorAbsent⟩
  · have heq : taken = s.onLane l (Lane.followed n w) := cuePacket_off hcue (by rw [hfollowed]; exact hoff)
    refine ⟨(congrArg State.placements heq).trans rfl, ?_⟩
    rw [hlane]
    exact hx.trans (congrArg (withWatch x) ((congrArg (fun y : State => y.lane l) heq).trans hfollowed))

/-- Settles O18: the acceptance is `ingress`, whose parts are the relations of chapters 5 and 9. -/
theorem acceptSlotWrite : Obligations.AcceptSlotWrite := by
  intro s r i l hw hc hlive hin hal hfull q w n packet followed
  have hl : l < 16 := enabled_lt hlive.2.2.1
  have hlines : 1 ≤ q.lines := by
    rw [aligned_lines]
    exact lines_pos r hw
  have hclaim : q.isClaim = false := isClaim_eq_false q (fullWrite_unique q hfull (by decide))
  have hclass : classify q (countStrayClaim q s) = (ingress l w q.data s, .slotWrite l w) := by
    rw [classify_region (areaOfAll_of_whollyIn hlines hin), acceptRegion_ring hlive.1, countStrayClaim_of_not hclaim]
    exact acceptRing_slotWrite hlive hal hfull
  obtain ⟨taken, x, records, hcue, hwatched, hing⟩ := ingress_parts hl w q.data s
  rw [ringSlots_of_liveRing hlive] at hcue hwatched
  have hwritten := slotWritten_of_parts hl hcue hwatched (taken.logAfter (records.map fun b => (l, b)))
  rw [← hing] at hwritten
  have ht : acceptRequest q s = (ingress l w q.data s).joined q (.slotWrite l w) := by
    rw [acceptRequest_of_classifies hc, hclass]
  refine ⟨_, taken, x, records, exec_accept hw s, ⟨hcue, hwatched, ?_⟩, ?_⟩
  · rw [settle_apart, ht, hing]
  · rw [ht]
    clear ht hing hcue hwatched hclass
    generalize ingress l w q.data s = u at hwritten
    obtain ⟨hstate, hothers, hlane, hitems, hoff⟩ := hwritten
    have hjoined : ∀ m, (settle s (u.joined q (.slotWrite l w))).lane m = u.lane m := fun m => settle_lane _ _ m
    have hplaced : (settle s (u.joined q (.slotWrite l w))).placements = u.placements := settle_placements _ _
    simp only [hjoined, hplaced]
    refine ⟨?_, congrArg Lane.writeIndex hlane, congrArg Lane.writeSkips hlane, hothers, ?_, ?_, fun hpid => ?_⟩
    · rw [settle_forward]
      exact congrArg (· ++ [FwdEntry.fresh q (.slotWrite l w)]) (congrArg (·.router.forward) hstate)
    · simp only [settle_mem, settle_clips, settle_alert, settle_wait, settle_cmd, settle_lt, settle_regions,
        settle_controlBase, settle_inFlight, settle_fetchOrder]
      exact ⟨congrArg (·.mem) hstate, congrArg (·.clips) hstate, congrArg (·.alert) hstate, congrArg (·.wait) hstate,
        congrArg (·.cmd) hstate, congrArg (·.lt) hstate, congrArg (·.router.regions) hstate,
        congrArg (·.router.controlBase) hstate, congrArg (·.router.inFlight) hstate, congrArg (·.router.fetchOrder) hstate⟩
    · rw [hitems.anchorTag, hitems.anchorIndex, hitems.anchorAge, hitems.anchorAbsent]
      by_cases hanchor : (s.lane l).record.isAnchor packet = true
      · rw [if_pos hanchor]
        exact itemsAfter_of_anchor _ w _ hanchor
      · rw [if_neg hanchor]
        exact itemsAfter_of_not_anchor _ w _ (by simpa using hanchor)
    · obtain ⟨hp, hx⟩ := hoff hpid
      have hindex := congrArg Lane.writeIndex hlane
      have hskips := congrArg Lane.writeSkips hlane
      refine ⟨hp, hx.trans ?_⟩
      rw [hindex, hskips]
      rfl

end Sys2Proof.Machine

namespace Sys2Proof.Machine

open Sys2Proof

/-! ## Bytes of a line after a masked write (R2, R4) -/

theorem wordsBytes_length (ws : List Word) : (wordsBytes ws).length = 4 * ws.length := by
  induction ws with
  | nil => rfl
  | cons w rest ih =>
    have hw : (wordBytes w).length = 4 := rfl
    simp only [wordsBytes, List.flatMap_cons, List.length_append, List.length_cons, hw] at ih ⊢
    omega

/-- The enables of a line from byte `k` up. -/
def enablesFrom (k : Nat) : List Bool := List.replicate k false ++ List.replicate (64 - k) true

theorem enablesFrom_iff {k : Nat} (hk : k ≤ 64) (j : Nat) : (enablesFrom k)[j]? = some true ↔ k ≤ j ∧ j < 64 := by
  by_cases hj : j < k
  · simp only [enablesFrom, List.getElem?_append, List.length_replicate, hj, List.getElem?_replicate, if_true, Option.some.injEq,
      Bool.false_eq_true, false_iff]
    omega
  · simp only [enablesFrom, List.getElem?_append, List.length_replicate, hj, List.getElem?_replicate, if_false]
    by_cases h64 : j < 64
    · simp only [show j - k < 64 - k by omega, if_true, true_iff]
      omega
    · simp only [show ¬ j - k < 64 - k by omega, if_false, reduceCtorEq, false_iff]
      omega

section Lines

variable {m : Memory} {bytes : List Byte} {k : Nat}

theorem read_lineWrite (hm : Memory.wf m = true) (a : Word) (hlen : bytes.length = 64) (hk : k ≤ 64) {j : Nat} (hkj : k ≤ j)
    (hj : j < 64) : (m.writeMasked a bytes (enablesFrom k)).read (addrPlus a j) = bytes.getD j 0 := by
  have hjl : j < bytes.length := by omega
  rw [Memory.read_writeMasked_enabled a bytes _ hjl hm (by omega) ((enablesFrom_iff hk j).2 ⟨hkj, hj⟩), List.getD_eq_getElem]

theorem read_lineWrite_other (a : Word) (hk : k ≤ 64) {x : Nat} (hx : ¬ Within a k 64 x) :
    (m.writeMasked a bytes (enablesFrom k)).read x = m.read x := by
  refine Memory.read_writeMasked_other m a bytes _ x fun j _ he heq => ?_
  obtain ⟨hkj, hj⟩ := (enablesFrom_iff hk j).1 he
  exact hx ⟨j, hj, hkj, heq⟩

end Lines

/-! ## The grant of each source (R16) -/

theorem exec_grant (s : State) : exec .mPortGrant s = .next (settle s (grantStep s)) := rfl

theorem grantStep_part {s : State} {w : PartWrite} {rest : List PartWrite} (h : s.PartTurn w rest) : grantStep s = grantPart s := by
  simp only [grantStep, nextGrant_part h]

theorem grantStep_forward {s : State} (h : s.nextGrant = .forward) : grantStep s = grantForward (countWait s) := by
  simp only [grantStep, h]

theorem grantStep_fetch {s : State} {l : Nat} (h : s.nextGrant = .fetch l) : grantStep s = grantFetch l (countWait s) := by
  simp only [grantStep, h]

/-- Counting a wait changes the wait count. -/
theorem countWait_eq (s : State) :
    countWait s = { s with router := { s.router with waitCount := (countWait s).router.waitCount } } := by
  unfold countWait
  split <;> rfl

theorem nextGrant_firstIn {s : State} (hn : s.NotForced) (hd : s.NoDemand) {pre post : List FwdEntry} {f : FwdEntry}
    (h : s.FirstIn .queued pre f post) : s.nextGrant = .forward := by
  obtain ⟨hf, hq, -⟩ := h
  exact nextGrant_forward hn hd (hf ▸ List.mem_append_right _ (List.mem_cons_self ..)) hq

section FirstQueued

variable {pre post : List FwdEntry} {f : FwdEntry}

theorem find?_first {test : FwdEntry → Bool} (hpre : ∀ g ∈ pre, test g = false) (hf : test f = true) :
    (pre ++ f :: post).find? test = some f := by
  rw [List.find?_append, List.find?_eq_none.2 fun g hg => by simp [hpre g hg], Option.none_or, List.find?_cons_of_pos hf]

theorem removeFirst_eq {test : FwdEntry → Bool} (hpre : ∀ g ∈ pre, test g = false) (hf : test f = true) :
    removeFirst test (pre ++ f :: post) = pre ++ post := by
  induction pre with
  | nil => simp [removeFirst, hf]
  | cons g rest ih =>
    have hg : test g = false := hpre g (List.mem_cons_self ..)
    simp only [List.cons_append, removeFirst, hg, Bool.false_eq_true, ↓reduceIte,
      ih fun b hb => hpre b (List.mem_cons_of_mem _ hb)]

variable {s : State}

/-- The entries before the first QUEUED one are not QUEUED, and it is. -/
theorem isQueued_of_firstIn (h : s.FirstIn .queued pre f post) : (∀ g ∈ pre, g.isQueued = false) ∧ f.isQueued = true := by
  obtain ⟨-, hq, hpre⟩ := h
  exact ⟨fun g hg => by simpa [FwdEntry.isQueued] using hpre g hg, (isQueued_iff f).2 hq⟩

theorem grantForward_write (h : s.FirstIn .queued pre f post) {a : Word} {d : List Byte} {e : List Bool}
    (hreq : f.req = .write a d e) :
    grantForward s = showM (.write a d e) { s.withForward (pre ++ post) with mem := s.mem.writeMasked a d e } := by
  obtain ⟨hpre, hq⟩ := isQueued_of_firstIn h
  simp only [grantForward, h.1, find?_first hpre hq, hreq, removeFirst_eq hpre hq]

theorem grantForward_read (h : s.FirstIn .queued pre f post) {a : Word} {n : Nat} (hreq : f.req = .read a n) :
    grantForward s = showM (.read a n) (launch .forward (s.mem.readBytes a (64 * n))
      (s.withForward (pre ++ { f with state := .granted } :: post))) := by
  obtain ⟨hpre, hq⟩ := isQueued_of_firstIn h
  simp only [grantForward, h.1, find?_first hpre hq, hreq, changeFirst_eq _ _ pre f post hpre hq]
  rfl

end FirstQueued

/-- Settles O21: the masked write of the entry's bytes, which memory reads back. -/
theorem grantForwardWrite : Obligations.GrantForwardWrite := by
  intro s pre post f a d e hm hn hd hfirst hreq hlen
  have hc := countWait_eq s
  have hu : grantStep s = showM (.write a d e) { (countWait s).withForward (pre ++ post) with mem := s.mem.writeMasked a d e } := by
    have hfirst' : (countWait s).FirstIn .queued pre f post := by
      rw [hc]
      exact hfirst
    rw [grantStep_forward (nextGrant_firstIn hn hd hfirst), grantForward_write hfirst' hreq, hc]
  have hmem : (settle s (grantStep s)).mem = s.mem.writeMasked a d e := by
    rw [settle_mem, hu]
    rfl
  refine ⟨_, exec_grant s, ?_, fun j hj he => ?_, fun x hx => ?_⟩
  · rw [settle_apart, hmem, hu, hc]
    rfl
  · rw [hmem, Memory.read_writeMasked_enabled a d e hj hm (by omega) he, List.getD_eq_getElem]
  · rw [hmem, Memory.read_writeMasked_other _ a d e x hx]

/-- Settles O22. -/
theorem grantForwardRead : Obligations.GrantForwardRead := by
  intro s pre post f a n hn hd hfirst hreq data
  have hc := countWait_eq s
  have hfirst' : (countWait s).FirstIn .queued pre f post := by
    rw [hc]
    exact hfirst
  refine ⟨_, exec_grant s, ?_⟩
  rw [settle_apart, grantStep_forward (nextGrant_firstIn hn hd hfirst), grantForward_read hfirst' hreq, hc]
  rfl

namespace Settled

/-- Settles O27. -/
theorem grantFetch : Obligations.GrantFetch := by
  intro s l key a stale demand hturn hlook data
  have hc := countWait_eq s
  have hlook' : ((countWait s).lane l).look = .fetching key a false stale demand := by
    rw [hc]
    exact hlook
  refine ⟨_, exec_grant s, ?_⟩
  rw [settle_apart, grantStep_fetch (nextGrant_fetch hturn), Machine.grantFetch, hlook', hc]
  rfl

end Settled

/-! ## The grant of the part's own writes (R4, R175, R178, R179) -/

theorem grantPart_answer {s : State} {n : Nat} {rest : List PartWrite} (h : s.router.waiting = .answer n :: rest) :
    grantPart s = grantAnswer n (takeWaiting rest s) := by
  simp only [grantPart, h]

theorem grantPart_status {s : State} {rest : List PartWrite} (h : s.router.waiting = .status :: rest) :
    grantPart s = grantStatus (takeWaiting rest s) := by
  simp only [grantPart, h]

theorem grantPart_log {s : State} {rest : List PartWrite} (h : s.router.waiting = .log :: rest) :
    grantPart s = grantLog (takeWaiting rest s) := by
  simp only [grantPart, h]

theorem answerWords_length {a : Answer} (h : a.results.length = 14) : (wordsBytes a.words).length = 64 := by
  rw [wordsBytes_length, Answer.words, List.length_append, h]
  rfl

theorem controlAddr_eq {s : State} {b : Word} (hb : s.router.controlBase = some b) (n : Nat) :
    s.controlAddr n = b + BitVec.ofNat 32 (64 * n) := by
  rw [State.controlAddr, hb]
  rfl

namespace Settled

/-- Settles O23: an answer's line is a masked write from byte 4 up. -/
theorem grantAnswer : Obligations.GrantAnswer := by
  intro s b n rest a hm hb hturn ha hun hres line bytes
  have hu : grantStep s =
      { writeLine line a.words answerBytes (takeWaiting rest s) with
        cmd := { s.cmd with answers := s.cmd.answers.filter fun x => decide (x.line ≠ n) } } := by
    rw [grantStep_part hturn, grantPart_answer hturn.1, grantAnswer_eq (s := takeWaiting rest s) ha, hun,
      controlAddr_eq (s := takeWaiting rest s) hb]
    rfl
  have hmem : (settle s (grantStep s)).mem = s.mem.writeMasked line bytes (enablesFrom 4) := by
    rw [settle_mem, hu]
    rfl
  refine ⟨_, exec_grant s, ?_, fun j h4 hj => ?_, fun x hx => ?_⟩
  · rw [settle_apart, hmem, hu]
    rfl
  · rw [hmem]
    exact read_lineWrite hm line (answerWords_length hres) (by omega) h4 hj
  · rw [hmem]
    exact read_lineWrite_other line (by omega) hx

end Settled

theorem fullLine_eq : fullLine = enablesFrom 0 := rfl

theorem grantStatus_eq (s : State) :
    grantStatus s = writeLine (s.controlAddr 16) (s.statusLaid ((s.cmd.statusSeq + 1) % 2 ^ 32)) (enablesFrom 0)
      { s with cmd := { s.cmd with statusSeq := (s.cmd.statusSeq + 1) % 2 ^ 32 } } := by
  rw [← statusLaid_eq, ← fullLine_eq]
  rfl

theorem writeLine_mem (a : Word) (ws : List Word) (e : List Bool) (s : State) :
    (writeLine a ws e s).mem = s.mem.writeMasked a (wordsBytes ws) e := rfl

theorem writeLine_apart (a : Word) (ws : List Word) (e : List Bool) (s : State) (m : Memory)
    (hm : s.mem.writeMasked a (wordsBytes ws) e = m) :
    (writeLine a ws e s).apart =
      ({ s with mem := m, router := { s.router with mPort := some (.write a (wordsBytes ws) e) } } : State).apart := by
  rw [← hm]
  rfl

theorem statusLaid_length (s : State) (seq : Nat) : (s.statusLaid seq).length = 16 := rfl

theorem statusLaid_takeWaiting (rest : List PartWrite) (s : State) (seq : Nat) :
    (takeWaiting rest s).statusLaid seq = s.statusLaid seq := rfl

/-- Settles O25: the status line's words are `statusLaid` (`statusLaid_eq`), written to the whole line. -/
theorem grantStatusLine : Obligations.GrantStatusLine := by
  intro s b rest hm hb hturn line seq bytes
  have hline : (takeWaiting rest s).controlAddr 16 = line := controlAddr_eq (s := takeWaiting rest s) hb 16
  have hlen : bytes.length = 64 := by rw [wordsBytes_length, statusLaid_length]
  have hu : grantStep s = writeLine line (s.statusLaid seq) (enablesFrom 0)
      { takeWaiting rest s with cmd := { s.cmd with statusSeq := seq } } := by
    have hcmd : (takeWaiting rest s).cmd = s.cmd := rfl
    rw [grantStep_part hturn, grantPart_status hturn.1, grantStatus_eq, hline, statusLaid_takeWaiting, hcmd]
  have hmem : (settle s (grantStep s)).mem = s.mem.writeMasked line bytes (enablesFrom 0) := by
    rw [settle_mem, hu, writeLine_mem]
    rfl
  refine ⟨_, exec_grant s, ?_, fun j hj => ?_, fun x hx => ?_⟩
  · rw [settle_apart, hmem, hu, writeLine_apart _ _ _ _ _ rfl, ← fullLine_eq]
    rfl
  · rw [hmem]
    exact read_lineWrite hm line hlen (by omega) (Nat.zero_le j) hj
  · rw [hmem]
    exact read_lineWrite_other line (by omega) hx

/-! ## UNCLAIM's effect (R20, R178) -/

theorem settle_of_blank {b s : State} (hb : s.router.controlBase = none) (h : s.Blank) : settle b s = s := by
  have ht := settle_blank (b := b) hb h
  rw [settle_eq, ht.waiting, ht.2.2.1, ← h.waiting, ← h.2.2.1]

theorem toPlain_eq (f : FwdEntry) : f.toPlain = f.asPlain := by
  unfold FwdEntry.toPlain FwdEntry.asPlain
  cases f.state <;> rfl

/-- Settles O24: the answer's line is written, then every block stands at its reset values. -/
theorem grantUnclaimAnswer : Obligations.GrantUnclaimAnswer := by
  intro s b n rest a hb hturn ha hun hres line bytes
  have hu : grantStep s =
      unclaimEffect { writeLine line a.words answerBytes (takeWaiting rest s) with
        cmd := { s.cmd with answers := s.cmd.answers.filter fun x => decide (x.line ≠ n) } } := by
    rw [grantStep_part hturn, grantPart_answer hturn.1, grantAnswer_eq (s := takeWaiting rest s) ha, hun,
      controlAddr_eq (s := takeWaiting rest s) hb]
    rfl
  refine ⟨grantStep s, ?_, ?_⟩
  · rw [exec_grant, hu, settle_of_blank rfl (unclaimEffect_blank _)]
  · rw [hu]
    refine ⟨⟨rfl, rfl, rfl, rfl, rfl, rfl, rfl, rfl⟩, ⟨rfl, rfl, rfl, rfl, rfl⟩, ⟨rfl, rfl, rfl, rfl, rfl⟩, ?_,
      ⟨List.map_congr_left fun f _ => toPlain_eq f, rfl⟩, fun id => resetBlocks_clipInUse _ id,
      ⟨rfl, rfl, rfl, rfl, rfl, rfl⟩, rfl, fun hm j h4 hj => ?_, fun x hx => ?_⟩
    · have halert : (unclaimEffect { writeLine line a.words answerBytes (takeWaiting rest s) with
          cmd := { s.cmd with answers := s.cmd.answers.filter fun x => decide (x.line ≠ n) } }).alert =
          { AlertCtl.reset with ealMark := changeMark s.eal false s.lt } := rfl
      rw [halert, changeMark]
      cases s.eal <;> rfl
    · exact read_lineWrite hm line (answerWords_length hres) (by omega) h4 hj
    · exact read_lineWrite_other line (by omega) hx

/-! ## The wait count (R17) -/

/-- Where something else waits and the wait count is below its limit, another source than the part's writes has its turn. -/
theorem nextGrant_other {s : State} (hn : s.NotForced)
    (h : s.router.fetchOrder ≠ [] ∨ ∃ f ∈ s.router.forward, f.state = .queued) :
    s.nextGrant = .forward ∨ ∃ l, s.nextGrant = .fetch l := by
  simp only [State.nextGrant, (notForced_iff s).1 hn, ↓reduceIte]
  split
  next l _ => exact .inr ⟨l, rfl⟩
  · split
    · exact .inl rfl
    next hany =>
      split
      next l _ _ => exact .inr ⟨l, rfl⟩
      next hnil =>
        rcases h with hf | ⟨f, hf, hq⟩
        · exact absurd hnil hf
        · exact absurd (List.any_eq_true.2 ⟨f, hf, (isQueued_iff f).2 hq⟩) hany

/-- A grant to another source leaves the waiting writes and counts one wait where there are any (R17). -/
theorem grantStep_other {s : State} (h : s.nextGrant = .forward ∨ ∃ l, s.nextGrant = .fetch l) :
    (grantStep s).router.waiting = s.router.waiting ∧
      (grantStep s).router.waitCount = (countWait s).router.waitCount := by
  have hc := countWait_waiting s
  rcases h with hf | ⟨l, hl⟩
  · obtain ⟨v, m, hv, he, -⟩ := grantForward_quiet (countWait s)
    rw [grantStep_forward hf, he]
    exact ⟨hv.waiting.trans hc, hv.waitCount⟩
  · have hq := grantFetch_quiet l (countWait s)
    rw [grantStep_fetch hl]
    exact ⟨hq.waiting.trans hc, hq.waitCount⟩

/-- The DONE answer of UNCLAIM is the write granted. -/
def State.Unclaims (s : State) (w : PartWrite) : Prop :=
  ∃ n a, w = .answer n ∧ (s.cmd.answers.find? fun x => decide (x.line = n)) = some a ∧ a.isUnclaim = true

theorem not_unclaims (s : State) {w : PartWrite} (h : ∀ n, w ≠ .answer n) : ¬ s.Unclaims w := by
  rintro ⟨n, a, hw, -⟩
  exact h n hw

/-- A write granted in its turn leaves the reads under way and the forward queue, and the writes behind it in order, unless it is
UNCLAIM's DONE answer, with which none waits any more (R16, R20, R178). -/
theorem grantPart_router {s : State} {w : PartWrite} {rest : List PartWrite} (h : s.router.waiting = w :: rest) :
    (grantPart s).router.waitCount = 0 ∧ (grantPart s).router.inFlight.length = s.router.inFlight.length ∧
      (grantPart s).router.forward.length = s.router.forward.length ∧
      (s.Unclaims w → (grantPart s).router.controlBase = none ∧ (grantPart s).Blank) ∧
      (¬ s.Unclaims w → (grantPart s).router.waiting = rest) := by
  cases w with
  | answer n =>
    rw [grantPart_answer h]
    cases ha : s.cmd.answers.find? fun x => decide (x.line = n) with
    | none =>
      have he : grantAnswer n (takeWaiting rest s) = takeWaiting rest s := by
        have ha' : ((takeWaiting rest s).cmd.answers.find? fun x => decide (x.line = n)) = none := ha
        simp only [grantAnswer, ha']
      rw [he]
      refine ⟨rfl, rfl, rfl, fun hun => ?_, fun _ => rfl⟩
      obtain ⟨m, a, hm, hfind, -⟩ := hun
      cases hm
      rw [ha] at hfind
      cases hfind
    | some a =>
      have hun : s.Unclaims (.answer n) ↔ a.isUnclaim = true := by
        constructor
        · rintro ⟨m, b, hm, hfind, hb⟩
          cases hm
          rw [ha] at hfind
          cases hfind
          exact hb
        · exact fun hb => ⟨n, a, rfl, ha, hb⟩
      rw [grantAnswer_eq (s := takeWaiting rest s) ha, hun]
      cases hb : a.isUnclaim with
      | true =>
        exact ⟨rfl, List.length_map .., List.length_map .., fun _ => ⟨rfl, unclaimEffect_blank _⟩, fun hn => absurd rfl hn⟩
      | false => exact ⟨rfl, rfl, rfl, nofun, fun _ => rfl⟩
  | log =>
    rw [grantPart_log h, grantLog_router]
    exact ⟨rfl, rfl, rfl, fun hu => absurd hu (not_unclaims s nofun), fun _ => rfl⟩
  | status =>
    rw [grantPart_status h]
    exact ⟨rfl, rfl, rfl, fun hu => absurd hu (not_unclaims s nofun), fun _ => rfl⟩

/-- Settles O28, by the source granted. -/
theorem grantCountsWaits : Obligations.GrantCountsWaits := by
  intro s
  refine ⟨_, exec_grant s, fun hw hlt hother => ?other, fun hw h8 => ?forced, fun w rest hturn => ?part,
    settle_waitCount_of_nil s (grantStep s)⟩
  case other =>
    obtain ⟨hwait, hcount⟩ := grantStep_other (nextGrant_other (.inr hlt) hother)
    refine ⟨?_, ?_⟩
    · rw [settle_waitCount_of_ne s _ (by rw [hwait]; exact hw), hcount, countWait, if_pos hw]
    · obtain ⟨more, hmore⟩ := settle_subset s (grantStep s)
      exact ⟨more, by rw [← hmore, hwait]⟩
  case forced =>
    obtain ⟨w, rest, hwr⟩ := List.exists_cons_of_ne_nil hw
    exact ⟨w, rest, hwr, .inl h8⟩
  case part =>
    obtain ⟨hcount, hfly, hfwd, hun, hrest⟩ := grantPart_router hturn.1
    rw [grantStep_part hturn]
    refine ⟨?_, by rw [settle_inFlight, hfly], by rw [settle_forward, hfwd], fun hu => ?_, fun hu => ?_⟩
    · have hle := settle_waitCount_le s (grantPart s)
      omega
    · obtain ⟨hb, hblank⟩ := hun hu
      exact (settle_blank hb hblank).waiting
    · obtain ⟨more, hmore⟩ := settle_subset s (grantPart s)
      exact ⟨more, by rw [← hmore, hrest hu]⟩

end Sys2Proof.Machine

namespace Sys2Proof.Machine

open Sys2Proof

/-! ## Arrivals of forwarded reads and returns (R1, R3, R27) -/

/-- Settles O29, by the class of the entry. -/
theorem readArrives : Obligations.ReadArrives := by
  intro s pre post f data rest hfly hfirst held
  obtain ⟨hfwd, hgranted, hpre⟩ := hfirst
  have hu : readArrival s = (landed rest s).withForward (pre ++ f.arrive data :: post) := by
    have hf : f.isGranted = true := by simp [FwdEntry.isGranted, hgranted]
    have hp : ∀ g ∈ pre, g.isGranted = false := fun g hg => by simpa [FwdEntry.isGranted] using hpre g hg
    simp only [readArrival, hfly, hfwd, changeFirst_eq _ _ pre f post hp hf]
  refine ⟨settle s (readArrival s), rfl, fun hheld => ?_, fun hnot => ?_⟩
  · obtain ⟨⟨l, k, hcls⟩, hab⟩ := hheld
    have ha : f.arrive data = { f with state := .arrived, raw := data } := by
      simp [FwdEntry.arrive, hcls, hab]
    rw [settle_apart, hu, ha]
    rfl
  · have ha : f.arrive data = { f with state := .ready, raw := data, out := data } := by
      unfold FwdEntry.arrive
      split
      next l k hcls =>
        by_cases hab : f.abandoned = true
        · rw [if_pos hab]
        · exact absurd ⟨⟨l, k, hcls⟩, by simpa using hab⟩ hnot
      all_goals rfl
    rw [settle_apart, hu, ha]
    rfl

/-- Settles O31. -/
theorem readReturns : Obligations.ReadReturns := by
  intro s pre post f hfwd hpre hread
  have hf : f.isRead = true := by simp [FwdEntry.isRead, hread]
  have hp : ∀ g ∈ pre, g.isRead = false := fun g hg => by simp [FwdEntry.isRead, hpre g hg]
  have hfind : (pre ++ f :: post).find? FwdEntry.isRead = some f := find?_first hp hf
  refine ⟨settle s (returnRead s), rfl, fun hready => ?_, fun hnot => ?_⟩
  · rw [settle_apart]
    simp only [returnRead, hfwd, hfind, hready, ↓reduceIte, removeFirst_eq hp hf]
  · rw [settle_apart]
    simp only [returnRead, hfwd, hfind, hnot, ↓reduceIte]

/-! ## Arrivals of library fetches (R18, R19, R60) -/

section Fetches

variable {s : State} {l : Nat} {key : LookKey} {a : Word} {stale demand : Bool}

theorem lt_of_fetching {granted : Bool} (h : (s.lane l).look = .fetching key a granted stale demand) : l < 16 := by
  by_contra hl
  rw [State.lane_of_le s (Nat.not_lt.1 hl)] at h
  cases h

theorem malformed_iff (p : List Byte) : (inspect p).malformed = true ↔ byteAt p 0 ≠ 0x47 := by
  unfold inspect
  split
  next h => simp [h]
  next h => simp [Insp.bad, h]

theorem insideOne_iff (s : State) (role : RegionRole) (lo hi : Nat) :
    s.insideOne role lo hi = true ↔
      ∃ r ∈ s.router.regions.toList, r.role = role ∧ r.base.toNat ≤ lo ∧ hi ≤ r.limit.toNat := by
  simp only [State.insideOne, List.any_eq_true, decide_eq_true_eq]

/-- A fetched slot is damaged by its sync byte, or by its place (R60). -/
theorem slotDamaged_iff (s : State) (a : Word) (slot : List Byte) :
    s.slotDamaged a slot = true ↔ byteAt slot 4 ≠ 0x47 ∨
      ¬ ∃ r ∈ s.router.regions.toList, r.role = .library ∧ r.base.toNat ≤ a.toNat ∧ a.toNat + 192 ≤ r.limit.toNat := by
  have hsync : byteAt (slotPacket slot) 0 = byteAt slot 4 := by simp [byteAt, slotPacket, List.getD]
  rw [State.slotDamaged, Bool.or_eq_true, malformed_iff, hsync, Bool.not_eq_true', ← Bool.not_eq_true, insideOne_iff]
  rfl

theorem fillLook_fresh (h : (s.lane l).look = .fetching key a true false demand) (slot : List Byte) :
    fillLook l slot s = s.looking l (.full key slot (inspect (slot.drop 4)) (s.slotDamaged a slot)) := by
  simp only [fillLook, h]
  rfl

theorem fillLook_stale (h : (s.lane l).look = .fetching key a true true demand) (slot : List Byte) :
    fillLook l slot s = (s.looking l .empty).prefetched l (s.waitsOn l) := by
  simp only [fillLook, h, ↓reduceIte, prefetchTest_eq]
  rfl

theorem waitsOn_eq (s : State) (l : Nat) : s.waitsOn l = decide (∃ w ∈ s.wait, w.lane = l) := by
  unfold State.waitsOn
  cases s.wait <;> simp

theorem continueWait_other (h : ∀ w, s.wait = some w → w.lane ≠ l) : continueWait l s = s := by
  unfold continueWait
  split
  next w hw => rw [if_neg fun hc => h w hw hc.1]
  · rfl

theorem continueWait_notFull (h : (s.lane l).look.isFull = false) : continueWait l s = s := by
  unfold continueWait
  split
  · rw [if_neg fun hc => by simp [h] at hc]
  · rfl

theorem continueWait_full {w : WaitingRead} (hw : s.wait = some w) (hl : w.lane = l) (h : (s.lane l).look.isFull = true) :
    continueWait l s = resumeRead w s := by
  simp only [continueWait, hw, hl, h, and_self, ↓reduceIte]

/-- The prefetch test asks for a slot or does nothing (R59). -/
theorem prefetched_cases (s : State) (l : Nat) (d : Bool) : s.prefetched l d = s ∨ ∃ key, s.prefetched l d = s.asking l key d := by
  unfold State.prefetched
  split
  · exact .inl rfl
  · split
    · split
      · split
        · exact .inr ⟨_, rfl⟩
        · exact .inl rfl
      · exact .inl rfl
    · exact .inl rfl

/-- A request changes of the lanes the lookahead of lane `l`. -/
theorem asking_lane (s : State) (l : Nat) (key : LookKey) (d : Bool) :
    ∃ a, ∀ m, (s.asking l key d).lane m = (s.looking l (.fetching key a false false d)).lane m := ⟨_, fun _ => rfl⟩

/-- What a state has that agrees with another but for the arbiter's fetches and the lookahead of lane `l`, which is not FULL. -/
structure Asked (l : Nat) (s t : State) : Prop where
  mem : t.mem = s.mem
  forward : t.router.forward = s.router.forward
  wait : t.wait = s.wait
  inFlight : t.router.inFlight = s.router.inFlight
  lane : t.lane l = { s.lane l with look := (t.lane l).look }
  notFull : (t.lane l).look.isFull = false
  others : ∀ m, m ≠ l → t.lane m = s.lane m

theorem prefetched_asked (hl : l < 16) {s : State} (hlook : (s.lane l).look.isFull = false) (d : Bool) :
    Asked l s (s.prefetched l d) := by
  rcases prefetched_cases s l d with h | ⟨key, h⟩
  · rw [h]
    exact ⟨rfl, rfl, rfl, rfl, rfl, hlook, fun _ _ => rfl⟩
  · obtain ⟨a, ha⟩ := asking_lane s l key d
    have hlane : (s.asking l key d).lane l = { s.lane l with look := .fetching key a false false d } := by
      rw [ha, looking_lane _ hl]
    rw [h]
    refine ⟨rfl, rfl, rfl, rfl, by rw [hlane], by rw [hlane]; rfl, fun m hm => ?_⟩
    rw [ha]
    exact State.lane_setLane_ne _ _ hm.symm

end Fetches

/-- Settles O30: what the arriving slot makes of the lookahead, and of a slot read that waits for it. -/
theorem fetchArrives : Obligations.FetchArrives := by
  intro s l clip orphan data rest hfly s' Damaged
  have hfetch : fetchArrival s = if orphan = true then s' else continueWait l (fillLook l data s') := by
    simp only [fetchArrival, hfly]
    rfl
  refine ⟨fun ho => ?orphaned, fun key a demand ho hlook hno => ?held, fun key a demand w pre f post e below ho hlook hw hwl hfirst
    hst hcur => ?waited, fun key a demand ho hlook => ?stale⟩
  case orphaned =>
    refine ⟨settle s (fetchArrival s), rfl, ?_⟩
    rw [settle_apart, hfetch, if_pos ho]
  case held =>
    refine ⟨settle s (fetchArrival s), s'.slotDamaged a data, rfl, ?_, slotDamaged_iff s' a data⟩
    have hwait : ∀ w, (s'.looking l (.full key data (inspect (data.drop 4)) (s'.slotDamaged a data))).wait = some w → w.lane ≠ l :=
      hno
    rw [settle_apart, hfetch, ho, if_neg Bool.false_ne_true, fillLook_fresh (s := s') hlook, continueWait_other hwait]
    rfl
  case waited =>
    have hl : l < 16 := lt_of_fetching hlook
    obtain ⟨u, hu⟩ : ∃ u, u = s'.looking l (.full key data (inspect (data.drop 4)) (s'.slotDamaged a data)) := ⟨_, rfl⟩
    have hlane : u.lane l = { s.lane l with look := .full key data (inspect (data.drop 4)) (s'.slotDamaged a data) } := by
      rw [hu]
      exact State.lane_setLane_self _ _ hl
    have hgo : fetchArrival s = resumeRead w u := by
      have hwu : u.wait = some w := by rw [hu]; exact hw
      rw [hfetch, ho, if_neg Bool.false_ne_true, fillLook_fresh (s := s') hlook, ← hu, continueWait_full hwu hwl]
      rw [hlane]
      rfl
    have hfirst' : u.FirstIn .arrived pre f post := by rw [hu]; exact hfirst
    have hst' : (u.lane w.lane).stack = e :: below := by rw [hwl, hlane]; exact hst
    obtain ⟨six, v, hgoes, hfin⟩ := resumeRead_continues w (hwl ▸ hl) u pre f post hfirst' e below hst' hcur s
    rw [← hgo, hwl] at hfin
    rw [hwl, hu] at hgoes
    exact ⟨settle s (fetchArrival s), s'.slotDamaged a data, six, v, rfl, slotDamaged_iff s' a data, hgoes, hfin⟩
  case stale =>
    have hl : l < 16 := lt_of_fetching hlook
    have hself := looking_lane s' hl .empty
    have hasked := prefetched_asked (s := s'.looking l .empty) hl (by rw [hself]; rfl) (s'.waitsOn l)
    have hu : fetchArrival s = (s'.looking l .empty).prefetched l (s'.waitsOn l) := by
      rw [hfetch, ho, if_neg Bool.false_ne_true, fillLook_stale (s := s') hlook, continueWait_notFull hasked.notFull]
    rw [← hu] at hasked
    refine ⟨settle s (fetchArrival s), rfl, ?_, ?_, ?_, ?_, ?_, ?_, fun k d i g hfull => ?_, fun m hm => ?_⟩
    · rw [settle_apart, hu, waitsOn_eq]
    · rw [settle_mem]
      exact hasked.mem
    · rw [settle_forward]
      exact hasked.forward
    · rw [settle_wait]
      exact hasked.wait
    · rw [settle_inFlight]
      exact hasked.inFlight
    · rw [settle_lane]
      have hlane := hasked.lane
      rwa [hself] at hlane
    · have hnot := hasked.notFull
      rw [settle_lane] at hfull
      rw [hfull] at hnot
      cases hnot
    · rw [settle_lane]
      exact (hasked.others m hm).trans (s'.lane_setLane_ne _ hm.symm)

end Sys2Proof.Machine

namespace Sys2Proof.Machine

open Sys2Proof

/-! ## RST_N (R19, R145, R193) -/

theorem assertReset_blank (s : State) : (assertReset s).Blank := resetBlocks_blank s

/-- Settles O54: the blocks a reset leaves blank stay so as the step closes. -/
theorem resetLineActs : Obligations.ResetLineActs := by
  intro s
  refine ⟨fun hrst => ?asserts, fun hrst => ?stands, fun hrst => ?releases, fun hrst => ?released⟩
  case asserts =>
    refine ⟨assertReset s, ?_, ⟨rfl, rfl, rfl, rfl, rfl, rfl, rfl⟩, ⟨rfl, rfl, rfl, rfl, rfl, rfl, rfl⟩,
      ⟨rfl, rfl, rfl, rfl, rfl, rfl, rfl, rfl⟩, ⟨List.map_congr_left fun f _ => toPlain_eq f, rfl⟩,
      fun id => resetBlocks_clipInUse s id⟩
    have hexec : exec .rstNAssert s = .next (settle s (if s.rst then s else assertReset s)) := rfl
    rw [hexec, hrst, if_neg Bool.false_ne_true, settle_of_blank rfl (assertReset_blank s)]
  case stands =>
    refine ⟨settle s (if s.rst then s else assertReset s), rfl, ?_⟩
    rw [settle_apart, if_pos hrst]
  case releases =>
    refine ⟨settle s (if s.rst then releaseReset s else s), rfl, ?_⟩
    rw [settle_apart, if_pos hrst]
    rfl
  case released =>
    refine ⟨settle s (if s.rst then releaseReset s else s), rfl, ?_⟩
    rw [settle_apart, hrst, if_neg Bool.false_ne_true]

end Sys2Proof.Machine

namespace Sys2Proof.Machine

open Sys2Proof

/-! ## Executions with a refusal table (R174) -/

section Replies

variable {s : State} {c : Captured} {rest : List Captured}

/-- A refused execution answers its code, result words 0, and leaves the rest. -/
theorem joinAnswer_refuse (k : AnswerCode) :
    s.Answered (settle s (joinAnswer c (refuse k (s.unqueue rest)))) c rest k [] ∧
      (settle s (joinAnswer c (refuse k (s.unqueue rest)))).aside = s.aside := by
  refine ⟨answered_of_joinAnswer (r := refuse k (s.unqueue rest)) s rfl rfl, ?_⟩
  rw [settle_aside, joinAnswer_aside]
  rfl

/-- An execution carried out on a state that keeps the Command Unit answers DONE. -/
theorem joinAnswer_done {u : State} (hcmd : u.cmd = (s.unqueue rest).cmd) :
    s.Answered (settle s (joinAnswer c (carryOut [] u))) c rest .done [] := by
  have hq : u.cmd.queue = rest := by rw [hcmd]; rfl
  have ha : u.cmd.answers = s.cmd.answers := by rw [hcmd]; rfl
  exact answered_of_joinAnswer (r := carryOut [] u) s hq ha

end Replies

/-! ## REGION-SET's tests (R9) -/

section Tests

variable (s : State) (a : RegionArgs) (i : Nat)

theorem rangesMeet_iff (lo₁ hi₁ lo₂ hi₂ : Nat) : rangesMeet lo₁ hi₁ lo₂ hi₂ = true ↔ lo₁ < hi₂ ∧ lo₂ < hi₁ := by
  simp [rangesMeet]

theorem otherLog_iff : s.otherLog i = true ↔ ∃ j : Nat, j < 32 ∧ j ≠ i ∧ (s.region j).role = .log := by
  simp [State.otherLog, regionIndices]

theorem regionLive_iff : s.regionLive i = true ↔ s.Live i := by
  unfold State.regionLive State.Live
  cases (s.region i).role with
  | none => simp
  | ring => simp [laneNumbers]
  | library => simp [State.holdsUsedClip, clipIds, rangesMeet_iff, clipInUse_iff]
  | log => simp

theorem regionOverlaps_iff : s.regionOverlaps a = true ↔ s.Shares a.index a.base.toNat a.limit.toNat := by
  unfold State.regionOverlaps State.Shares
  rw [Bool.or_eq_true]
  refine or_congr ?_ ?_
  · cases s.router.controlBase <;> simp [rangesMeet_iff]
  · simp [regionIndices, rangesMeet_iff, and_assoc]

theorem regionRoleOf_eq_none (n : Nat) : regionRoleOf n = none ↔ 3 < n := by
  unfold regionRoleOf
  split_ifs
  all_goals simp
  all_goals omega

theorem entry_role_eq (h : a.role ≠ none) : some a.entry.role = a.role := by
  unfold RegionArgs.entry
  cases hr : a.role with
  | none => exact absurd hr h
  | some r => cases r <;> rfl

/-- Orders 1 to 5 of R9 in one test. -/
theorem regionRange_iff (n : Nat) (hrole : a.role = none ↔ 3 < n) :
    (!a.inRange || (decide (a.role = some .log) && s.otherLog a.index)) = true ↔
      (31 < a.index ∨ 3 < n) ∨
      (a.role ≠ some .none ∧ (a.base.toNat % 64 ≠ 0 ∨ a.limit.toNat % 64 ≠ 0 ∨ a.limit.toNat ≤ a.base.toNat)) ∨
      (a.role = some .ring ∧ (15 < a.lane ∨ a.size % 192 ≠ 0 ∨ a.size / 192 < 16 ∨ 65535 < a.size / 192)) ∨
      (a.role = some .log ∧ (a.size / 64 < 16 ∨ 65536 < a.size / 64)) ∨
      (a.role = some .log ∧ ∃ j : Nat, j < 32 ∧ j ≠ a.index ∧ (s.region j).role = .log) := by
  rw [← otherLog_iff, ← hrole]
  unfold RegionArgs.inRange RegionArgs.rangeOk RegionArgs.ringOk RegionArgs.logOk
  cases a.role with
  | none => simp
  | some r =>
    cases r with
    | none => simp
    | ring => simp
    | library => simp
    | log =>
      cases s.otherLog a.index
      · simp
      · simp

/-- REGION-SET's refusal table, row by row (R9). -/
theorem regionAnswer_eq (n : Nat) (hrole : a.role = none ↔ 3 < n) :
    regionAnswer a s =
      if 31 < a.index ∨ 3 < n then .range
      else if a.role ≠ some .none ∧ (a.base.toNat % 64 ≠ 0 ∨ a.limit.toNat % 64 ≠ 0 ∨ a.limit.toNat ≤ a.base.toNat) then .range
      else if a.role = some .ring ∧ (15 < a.lane ∨ a.size % 192 ≠ 0 ∨ a.size / 192 < 16 ∨ 65535 < a.size / 192) then .range
      else if a.role = some .log ∧ (a.size / 64 < 16 ∨ 65536 < a.size / 64) then .range
      else if a.role = some .log ∧ ∃ j : Nat, j < 32 ∧ j ≠ a.index ∧ (s.region j).role = .log then .range
      else if s.Live a.index then .busy
      else if a.role ≠ some .none ∧ s.Shares a.index a.base.toNat a.limit.toNat then .overlap
      else .done := by
  rw [← ite_or, ← ite_or, ← ite_or, ← ite_or]
  have hrange := regionRange_iff s a n hrole
  rw [← or_assoc, ← or_assoc, ← or_assoc] at hrange
  unfold regionAnswer
  by_cases hsome : a.role = none
  · have hr := hrange.2 (.inl (.inl (.inl (.inl (.inr (hrole.1 hsome))))))
    rw [if_pos hr, if_pos (hrange.1 hr)]
  · have hnone : a.entry.role ≠ .none ↔ a.role ≠ some .none := by
      rw [← entry_role_eq a hsome]
      simp
    exact if_congr hrange rfl (if_congr (regionLive_iff s a.index) rfl
      (if_congr (and_congr hnone (regionOverlaps_iff s a)) rfl rfl))

end Tests

/-! ## REGION-SET carried out (R9, R10) -/

section Carried

variable (s : State) (a : RegionArgs)

/-- The region table with the entry a REGION-SET gives. -/
def State.withRegion (s : State) (a : RegionArgs) : State :=
  { s with router := { s.router with regions := s.router.regions.setIfInBounds a.index a.entry } }

theorem withRegion_self (h : a.index ≤ 31) : (s.withRegion a).region a.index = a.entry := by
  have hlt : a.index < 32 := by omega
  simp [State.region, State.withRegion, hlt]

theorem withRegion_ne {j : Nat} (h : j ≠ a.index) : (s.withRegion a).region j = s.region j := by
  simp only [State.region, State.withRegion, Vector.getElem?_setIfInBounds, h.symm, ↓reduceIte]

theorem entry_none (h : a.role = some .none) : a.entry = { role := .none, base := 0, limit := 0, lane := 0 } := by
  rw [RegionArgs.entry, h]
  rfl

theorem entry_range (h : a.role ≠ some .none) (h' : a.role ≠ none) :
    some a.entry.role = a.role ∧ a.entry.base = a.base ∧ a.entry.limit = a.limit ∧ (a.role = some .ring → a.entry.lane = a.lane) := by
  refine ⟨entry_role_eq a h', ?_⟩
  unfold RegionArgs.entry
  cases hr : a.role with
  | none => exact absurd hr h'
  | some r =>
    cases r with
    | none => exact absurd hr h
    | ring => exact ⟨rfl, rfl, fun _ => rfl⟩
    | library => exact ⟨rfl, rfl, nofun⟩
    | log => exact ⟨rfl, rfl, nofun⟩

theorem entry_log_iff : a.entry.role = .log ↔ a.role = some .log := by
  unfold RegionArgs.entry
  cases a.role with
  | none => simp [Region.reset]
  | some r => cases r <;> simp [Region.reset]

theorem newLogRing_eq : newLogRing s = { s with
    log := { s.log with head := 0, tail := 0, presented := (newLogRing s).log.presented }
    router := { s.router with waiting := s.router.waiting.filter fun w => decide (w ≠ .log) } } := by
  rw [newLogRing, presentLog_eq]
  rfl

/-- A new ring's first write is presented at once where there is one to make and a line to take it (R184, R185). -/
theorem newLogRing_presented :
    (newLogRing s).log.presented =
      if (newLogRing s).logOpen = false ∨ (s.log.lost = 0 ∧ s.log.queue = []) then none
      else if 0 < s.log.lost then some .gap else some .record := by
  have hring : (newLogRing s).logRing = s.logRing := by rw [newLogRing_eq]; rfl
  have hhead : (newLogRing s).log.head = 0 ∧ (newLogRing s).log.tail = 0 := by
    rw [newLogRing_eq]
    exact ⟨rfl, rfl⟩
  rw [State.logOpen, hring, hhead.1, hhead.2, newLogRing, presentLog]
  have hring' : (withdrawWaiting .log { s with log := { s.log with head := 0, tail := 0, presented := none } }).logRing = s.logRing :=
    rfl
  rw [hring']
  cases s.logRing with
  | none => rfl
  | some r =>
    obtain ⟨b, lines⟩ := r
    by_cases hfull : (0 + 1) % lines = 0
    · simp [LogWriter.full, withdrawWaiting, hfull]
    · by_cases hlost : 0 < s.log.lost
      · simp [LogWriter.full, withdrawWaiting, hfull, hlost, hlost.ne']
      · have h0 : s.log.lost = 0 := by omega
        cases hq : s.log.queue <;> simp [LogWriter.full, withdrawWaiting, hfull, h0, hq]

end Carried

/-- REGION-SET, refused or carried out. -/
theorem regionSetBody_eq (ws : List Word) (s : State) :
    regionSetBody ws s =
      if regionAnswer (regionArgs ws) s = .done then carryOut [] (setRegion (regionArgs ws) s)
      else refuse (regionAnswer (regionArgs ws) s) s := by
  unfold regionSetBody
  cases regionAnswer (regionArgs ws) s <;> rfl

theorem settle_logOpen (b s : State) : (settle b s).logOpen = s.logOpen := by
  simp only [State.logOpen, State.logRing, settle_regions, settle_log]

/-- What REGION-SET carried out leaves: the new table, and the log of a new ring where it touches the LOG entry (R9, R10). -/
structure RegionDone (s : State) (a : RegionArgs) (u : State) : Prop where
  aside : u = { s with
    router := { s.router with regions := (s.withRegion a).router.regions, waiting := u.router.waiting }
    log := u.log }
  touched : (s.region a.index).role = .log ∨ a.role = some .log →
    u.log.head = 0 ∧ u.log.tail = 0 ∧ u.log.queue = s.log.queue ∧ u.log.lost = s.log.lost ∧
      (u.log.presented = if u.logOpen = false ∨ (s.log.lost = 0 ∧ s.log.queue = []) then none
        else if 0 < s.log.lost then some .gap else some .record) ∧
      u.router.waiting = s.router.waiting.filter fun w => decide (w ≠ .log)
  untouched : ¬ ((s.region a.index).role = .log ∨ a.role = some .log) → u.log = s.log

theorem setRegion_done (a : RegionArgs) (s : State) : RegionDone s a (setRegion a s) := by
  have hset : setRegion a s =
      if (s.region a.index).role = .log ∨ a.role = some .log then newLogRing (s.withRegion a) else s.withRegion a :=
    if_congr (or_congr Iff.rfl (entry_log_iff a)) rfl rfl
  by_cases hlog : (s.region a.index).role = .log ∨ a.role = some .log
  · rw [hset, if_pos hlog]
    have hnew := newLogRing_eq (s.withRegion a)
    refine ⟨?_, fun _ => ⟨?_, ?_, ?_, ?_, newLogRing_presented (s.withRegion a), ?_⟩, fun h => absurd hlog h⟩
    all_goals rw [hnew]
    all_goals rfl
  · rw [hset, if_neg hlog]
    exact ⟨rfl, fun h => absurd h hlog, fun _ => rfl⟩

/-- Settles O36: the refusal table is `regionAnswer_eq`, the effect `setRegion_done`. -/
theorem regionSetAnswers : Obligations.RegionSetAnswers := by
  intro s c rest hex a size code
  have hcode : regionAnswer a (s.unqueue rest) = code := regionAnswer_eq s a (numAt c.words 5) (regionRoleOf_eq_none _)
  have hbody : execute (isCode 0x01) regionSetBody s =
      joinAnswer c (if code = .done then carryOut [] (setRegion a (s.unqueue rest)) else refuse code (s.unqueue rest)) := by
    rw [execute_of_executing hex _ rfl, regionSetBody_eq, hcode]
  refine ⟨settle s (execute (isCode 0x01) regionSetBody s), rfl, ?_⟩
  rw [hbody]
  by_cases hdone : code = .done
  · rw [if_pos hdone]
    have hin : ¬ (31 < a.index ∨ 3 < numAt c.words 5) := fun h => by
      have hrange : code = .range := if_pos h
      rw [hrange] at hdone
      cases hdone
    have hindex : a.index ≤ 31 := by omega
    have hsome : a.role ≠ none := fun h => hin (.inr ((regionRoleOf_eq_none _).1 h))
    have hset := setRegion_done a (s.unqueue rest)
    generalize setRegion a (s.unqueue rest) = u at hset
    obtain ⟨haside, htouched, huntouched⟩ := hset
    have hregions : u.router.regions = (s.withRegion a).router.regions := (congrArg (·.router.regions) haside).trans rfl
    have hregion : ∀ j, (settle s (joinAnswer c (carryOut [] u))).region j = (s.withRegion a).region j := fun j => by
      rw [settle_region]
      exact congrArg (fun r : Vector Region 32 => (r[j]?).getD Region.reset) hregions
    rw [hdone]
    refine ⟨joinAnswer_done ((congrArg (·.cmd) haside).trans rfl), fun h => absurd rfl h, fun _ => ⟨fun hnone => ?_, fun hne => ?_,
      fun j hj => ?_, ?_, ?_⟩⟩
    · rw [hregion, withRegion_self s a hindex, entry_none a hnone]
    · rw [hregion, withRegion_self s a hindex]
      exact entry_range a hne hsome
    · rw [hregion, withRegion_ne s a hj]
    · rw [settle_aside, joinAnswer_aside, settle_regions, settle_log]
      refine (congrArg State.aside haside).trans ?_
      exact (congrArg (fun r => ({ s with router := { s.router with regions := r }, log := u.log } : State).aside) hregions).symm
    · split
      next hlog =>
        obtain ⟨hhead, htail, hqueue, hlost, hpresented, hwait⟩ := htouched hlog
        have hopen : (settle s (joinAnswer c (carryOut [] u))).logOpen = u.logOpen := settle_logOpen _ _
        rw [settle_log, hopen]
        refine ⟨hhead, htail, hqueue, hlost, hpresented, ?_⟩
        obtain ⟨more, hmore⟩ := settle_subset s (joinAnswer c (carryOut [] u))
        refine ⟨more, hmore.symm.trans (congrArg (· ++ more) ?_)⟩
        exact hwait
      next hlog =>
        rw [settle_log]
        exact huntouched hlog
  · rw [if_neg hdone]
    obtain ⟨hans, haside⟩ := joinAnswer_refuse (s := s) (c := c) (rest := rest) code
    exact ⟨hans, fun _ => haside, fun h => absurd h hdone⟩

end Sys2Proof.Machine

namespace Sys2Proof.Machine

open Sys2Proof

/-! ## CLIP-SET's tests (R53) -/

/-- Orders 1 to 3 of R53 in one test. -/
theorem clipRange_iff (a : ClipArgs) :
    (!a.inRange) = true ↔
      ((255 < a.id ∨ a.count = 0 ∨ 16777215 < a.count ∨ 2 ^ 33 ≤ a.firstPts ∨ a.pairCount = 0 ∨ 4 < a.pairCount) ∨
        ((∃ p ∈ a.pairs, 0x1FFF ≤ p.1 ∨ 3 < p.2) ∨ ¬ (a.pairs.map Prod.fst).Nodup ∨ ¬ (a.pairs.map Prod.snd).Nodup)) ∨
      a.addr.toNat % 64 ≠ 0 := by
  have hfields : (255 < a.id ∨ a.count = 0 ∨ 16777215 < a.count ∨ 2 ^ 33 ≤ a.firstPts ∨ a.pairCount = 0 ∨ 4 < a.pairCount) ↔
      ¬ (a.id ≤ 255 ∧ 1 ≤ a.count ∧ a.count ≤ 16777215 ∧ a.firstPts < 2 ^ 33 ∧ 1 ≤ a.pairCount ∧ a.pairCount ≤ 4) := by
    omega
  have hpairs : (∃ p ∈ a.pairs, 0x1FFF ≤ p.1 ∨ 3 < p.2) ↔ ¬ ∀ p ∈ a.pairs, p.1 < nullNum ∧ p.2 ≤ 3 := by
    simp only [nullNum, not_forall, not_and_or, not_lt, not_le, exists_prop]
  rw [hfields, hpairs, ← not_and_or, ← not_and_or, ← not_and_or, ne_eq, ← not_and_or, Bool.not_eq_true', ← Bool.not_eq_true,
    not_iff_not]
  simp only [ClipArgs.inRange, Bool.and_eq_true, decide_eq_true_eq, List.all_eq_true, and_assoc]

theorem clipSetAnswer_eq (a : ClipArgs) (s : State) :
    clipSetAnswer a s =
      if 255 < a.id ∨ a.count = 0 ∨ 16777215 < a.count ∨ 2 ^ 33 ≤ a.firstPts ∨ a.pairCount = 0 ∨ 4 < a.pairCount then .range
      else if (∃ p ∈ a.pairs, 0x1FFF ≤ p.1 ∨ 3 < p.2) ∨ ¬ (a.pairs.map Prod.fst).Nodup ∨
          ¬ (a.pairs.map Prod.snd).Nodup then .range
      else if a.addr.toNat % 64 ≠ 0 then .range
      else if ¬ ∃ r ∈ s.router.regions.toList, r.role = .library ∧ r.base.toNat ≤ a.addr.toNat ∧
          a.addr.toNat + 192 * a.count ≤ r.limit.toNat then .notReady
      else if s.InUse a.id then .inUse
      else .done := by
  rw [← ite_or, ← ite_or]
  have hlib : (!s.insideOne .library a.addr.toNat a.entry.extentEnd) = true ↔
      ¬ ∃ r ∈ s.router.regions.toList, r.role = .library ∧ r.base.toNat ≤ a.addr.toNat ∧
        a.addr.toNat + 192 * a.count ≤ r.limit.toNat := by
    rw [Bool.not_eq_true', ← Bool.not_eq_true, insideOne_iff]
    rfl
  exact if_congr (clipRange_iff a) rfl (if_congr hlib rfl (if_congr (clipInUse_iff s a.id) rfl rfl))

/-! ## CLIP-SET carried out (R52, R53, R59) -/

theorem pidMap_numbers (pairs : List (Nat × Nat)) (h : ∀ p ∈ pairs, p.1 < nullNum ∧ p.2 ≤ 3) :
    (pairs.map fun p => (pidOf p.1, Fin.ofNat 4 p.2)).map (fun p => (p.1.toNat, p.2.val)) = pairs := by
  rw [List.map_map]
  refine (List.map_congr_left fun p hp => ?_).trans (List.map_id pairs)
  obtain ⟨hpid, hrole⟩ := h p hp
  have h1 : p.1 % 2 ^ 13 = p.1 := Nat.mod_eq_of_lt (by simp only [nullNum] at hpid; omega)
  have h2 : p.2 % 4 = p.2 := Nat.mod_eq_of_lt (by omega)
  exact Prod.ext (by simpa [pidOf] using h1) (by simpa using h2)

/-- The lanes below 16, with each its prefetch test, in order (R16, R59). -/
def State.prefetchedAll (s : State) (d : Nat → Bool) (ls : List Nat) : State := ls.foldl (fun u l => u.prefetched l (d l)) s

theorem prefetched_wait (s : State) (l : Nat) (d : Bool) : (s.prefetched l d).wait = s.wait := by
  rcases prefetched_cases s l d with h | ⟨key, h⟩
  · rw [h]
  · rw [h]
    rfl

theorem prefetchTests_eq (ls : List Nat) (s : State) :
    prefetchTests ls s = s.prefetchedAll (fun l => decide (∃ w ∈ s.wait, w.lane = l)) ls := by
  induction ls generalizing s with
  | nil => rfl
  | cons l rest ih =>
    rw [prefetchTests, ih, prefetchTest_eq, prefetched_wait, waitsOn_eq]
    rfl

/-- Where a state agrees with another but for lookaheads and the fetches waiting at the arbiter. -/
structure LooksOnly (s t : State) : Prop where
  clips : t.clips = s.clips
  cmd : t.cmd = s.cmd
  lane : ∀ l, t.lane l = { s.lane l with look := (t.lane l).look }

theorem LooksOnly.refl (s : State) : LooksOnly s s := ⟨rfl, rfl, fun _ => rfl⟩

theorem LooksOnly.trans {s t u : State} (h : LooksOnly s t) (h' : LooksOnly t u) : LooksOnly s u := by
  refine ⟨h'.clips.trans h.clips, h'.cmd.trans h.cmd, fun l => (h'.lane l).trans ?_⟩
  rw [h.lane l]

theorem prefetched_looksOnly (s : State) {l : Nat} (hl : l < 16) (d : Bool) : LooksOnly s (s.prefetched l d) := by
  rcases prefetched_cases s l d with h | ⟨key, h⟩
  · rw [h]
    exact .refl s
  · obtain ⟨a, ha⟩ := asking_lane s l key d
    rw [h]
    refine ⟨rfl, rfl, fun m => ?_⟩
    rw [ha]
    by_cases hm : m = l
    · rw [hm, looking_lane s hl]
    · have hne : (s.looking l (.fetching key a false false d)).lane m = s.lane m := s.lane_setLane_ne _ fun e => hm e.symm
      rw [hne]

theorem prefetchedAll_looksOnly (d : Nat → Bool) {ls : List Nat} (hls : ∀ l ∈ ls, l < 16) (s : State) :
    LooksOnly s (s.prefetchedAll d ls) := by
  induction ls generalizing s with
  | nil => exact .refl s
  | cons l rest ih =>
    exact (prefetched_looksOnly s (hls l (List.mem_cons_self ..)) (d l)).trans
      (ih (fun m hm => hls m (List.mem_cons_of_mem _ hm)) _)

theorem prefetched_unqueue (s : State) (rest : List Captured) (l : Nat) (d : Bool) :
    (s.unqueue rest).prefetched l d = (s.prefetched l d).unqueue rest := by
  have hlane : (s.unqueue rest).lane l = s.lane l := rfl
  unfold State.prefetched
  rw [hlane]
  cases (s.lane l).stack with
  | nil => rfl
  | cons e below =>
    by_cases h : (s.lane l).enabled = true ∧ s.bypass = false ∧ (s.lane l).look = .empty
    · refine (if_pos h).trans (Eq.trans ?_ (congrArg (State.unqueue · rest) (if_pos h)).symm)
      cases e.wanted with
      | none => rfl
      | some key =>
        dsimp only
        by_cases hk : (e.current ≠ none ∧ key.packet < (s.clip key.clip).count) ∨
            (e.current = none ∧ e.started = true ∧ (s.clip key.clip).defined = true)
        · refine (if_pos hk).trans (Eq.trans ?_ (congrArg (State.unqueue · rest) (if_pos hk)).symm)
          rfl
        · exact (if_neg hk).trans (congrArg (State.unqueue · rest) (if_neg hk)).symm
    · exact (if_neg h).trans (congrArg (State.unqueue · rest) (if_neg h)).symm

theorem prefetchedAll_unqueue (d : Nat → Bool) (ls : List Nat) (s : State) (rest : List Captured) :
    (s.unqueue rest).prefetchedAll d ls = (s.prefetchedAll d ls).unqueue rest := by
  induction ls generalizing s with
  | nil => rfl
  | cons l ls ih =>
    have hstep : (s.unqueue rest).prefetchedAll d (l :: ls) = ((s.unqueue rest).prefetched l (d l)).prefetchedAll d ls := rfl
    rw [hstep, prefetched_unqueue, ih]
    rfl

/-- CLIP-SET, refused or carried out. -/
theorem clipSetBody_eq (ws : List Word) (s : State) :
    clipSetBody ws s =
      if clipSetAnswer (clipArgs ws) s = .done then
        carryOut [] (prefetchTests laneNumbers (s.setClip (clipArgs ws).id (clipArgs ws).entry))
      else refuse (clipSetAnswer (clipArgs ws) s) s := by
  simp only [clipSetBody]
  cases clipSetAnswer (clipArgs ws) s <;> rfl

/-- Settles O41: the refusal table is `clipSetAnswer_eq`; the new entry stands, and the prefetch tests change lookaheads. -/
theorem clipSetAnswers : Obligations.ClipSetAnswers := by
  intro s c rest hex a code
  have hcode : clipSetAnswer a (s.unqueue rest) = code := clipSetAnswer_eq a s
  obtain ⟨u, hu⟩ : ∃ u, u = (s.setClip a.id a.entry).prefetchedAll (fun l => decide (∃ w ∈ s.wait, w.lane = l)) laneNumbers :=
    ⟨_, rfl⟩
  have hbody : execute (isCode 0x10) clipSetBody s =
      joinAnswer c (if code = .done then carryOut [] (u.unqueue rest) else refuse code (s.unqueue rest)) := by
    rw [execute_of_executing hex _ rfl, clipSetBody_eq, hcode, prefetchTests_eq, hu, ← prefetchedAll_unqueue]
    rfl
  have hlooks : LooksOnly (s.setClip a.id a.entry) u := hu ▸ prefetchedAll_looksOnly _ (fun l hl => List.mem_range.1 hl) _
  refine ⟨settle s (execute (isCode 0x10) clipSetBody s), rfl, ?_⟩
  rw [hbody]
  by_cases hdone : code = .done
  · rw [if_pos hdone]
    have hrange : ¬ (!a.inRange) = true := fun h => by
      have hr : code = .range := hcode ▸ if_pos h
      rw [hr] at hdone
      cases hdone
    have hclip : ∀ id, (settle s (joinAnswer c (carryOut [] (u.unqueue rest)))).clip id = (s.setClip a.id a.entry).clip id :=
      fun id => by
        rw [settle_clip]
        exact congrArg (fun v : Vector Clip 256 => (v[id]?).getD Clip.undefined) hlooks.clips
    have hin : a.inRange = true := by simpa using hrange
    have hid : a.id < 256 := by
      by_contra hid
      exact hrange ((clipRange_iff a).2 (.inl (.inl (.inl (by omega)))))
    have hpairs : ∀ p ∈ a.pairs, p.1 < nullNum ∧ p.2 ≤ 3 := by
      simp only [ClipArgs.inRange, Bool.and_eq_true, decide_eq_true_eq, List.all_eq_true] at hin
      exact hin.1.1.2
    have hfirst : a.firstPts < 2 ^ 33 := by
      simp only [ClipArgs.inRange, Bool.and_eq_true, decide_eq_true_eq] at hin
      exact hin.1.1.1.2.2.2.1
    have hself := hclip a.id
    rw [State.clip_setClip_self s _ hid] at hself
    rw [hdone]
    refine ⟨joinAnswer_done (congrArg (fun k : CmdUnit => { k with queue := rest }) hlooks.cmd), fun h => absurd rfl h,
      fun _ => ⟨?_, fun id hne => ?_, fun l => ?_, ?_⟩⟩
    · rw [hself]
      exact ⟨rfl, rfl, rfl, (BitVec.toNat_ofNat ..).trans (Nat.mod_eq_of_lt hfirst), pidMap_numbers a.pairs hpairs⟩
    · rw [hclip, State.clip_setClip_ne s _ hne.symm]
    · rw [settle_lane]
      exact hlooks.lane l
    · have hfold : (List.range 16).foldl (fun v l => v.prefetched l (decide (∃ w ∈ s.wait, w.lane = l)))
          (s.setClip a.id a.entry) = u := hu.symm
      rw [settle_aside, joinAnswer_aside, hself, hfold]
      exact unqueue_aside u rest
  · rw [if_neg hdone]
    obtain ⟨hans, haside⟩ := joinAnswer_refuse (s := s) (c := c) (rest := rest) code
    exact ⟨hans, fun _ => haside, fun h => absurd h hdone⟩

end Sys2Proof.Machine

namespace Sys2Proof.Machine

open Sys2Proof

/-! ## The stages of a slot read with nothing to apply, end or enter (R98 to R105) -/

section Idle

variable {u : State} {l : Nat} {cx : ReadCtx} {e : Entry}

theorem stageTwo_idle (ha : (u.lane l).alertReq = none) (hi : (u.lane l).slateInsert = none) (hr : (u.lane l).slateRemove = none) :
    stageTwo l u = (u, false) := by
  have halert : applyAlert l u = (u, false) := by simp only [applyAlert, ha]
  have hslate : (u.lane l).applyInsert.applyRemove = u.lane l := by simp [Lane.applyInsert, Lane.applyRemove, slateDue, hi, hr]
  rw [stageTwo, halert]
  exact congrArg (·, false) (setLane_eq_self u l _ hslate.symm)

/-- A lone top that has not reached its end stays, no longer returning (R102). -/
theorem stageThree_stays (hst : (u.lane cx.lane).stack = [e]) (hend : e.reachedEnd (u.lane cx.lane).anchored cx.clock = false) :
    stageThree cx u = u.stacking cx.lane [{ e with returning := false }] := by
  have hplan : planEnds cx u e [] = { gone := [], kept := [], ended := false, leaves := false, returns := false } := by
    simp [planEnds, hend]
  have hreport : reportEnds cx.clock e { gone := [], kept := [], ended := false, leaves := false, returns := false } u = u := by
    simp only [reportEnds, Bool.false_eq_true, ↓reduceIte, leaveEnds, ite_self]
  simp only [stageThree, hst, hplan, hreport, Bool.false_eq_true, ↓reduceIte]
  rfl

theorem stageFour_idle (hno : ∀ id, id < 128 → (u.placement id).state = .pending → (u.placement id).lane ≠ cx.lane) :
    stageFour cx u = u := by
  have hnone : ∀ k, u.offered cx k = [] := fun k => by
    refine List.eq_nil_iff_forall_not_mem.2 fun id hid => ?_
    obtain ⟨hlt, -, hcan⟩ := ((offered_offers u cx k).2 id).1 hid
    exact hno id hlt hcan.1 hcan.2.1
  rw [stageFour, hnone, hnone]
  rfl

theorem stageFive_same {start : Pt} {old : Option Entry}
    (h : old.map Entry.source = (u.lane cx.lane).top.map Entry.source) : stageFive cx start old false u = (u, .nothing) := by
  have hsame : u.topChanged cx.lane old false = false := by simp [State.topChanged, h]
  rw [stageFive, hsame]
  rfl

theorem stageSix_consults {b : Bool} (hp : (u.lane cx.lane).record.passes cx.insp = false) (htop : (u.lane cx.lane).top = some e)
    (hc : e.current ≠ none) : stageSix cx b u = consultLook cx e u := by
  have hsome : e.current.isSome = true := Option.isSome_iff_ne_none.2 hc
  have hex : e.exhausted = false := by simp [Entry.exhausted, hc]
  simp only [stageSix, hp, htop, sourceEntry, hex, hsome, Bool.false_eq_true, ↓reduceIte]

/-- The lookahead holds the top's next packet, undamaged: it is drawn if due, and kept if not (R119). -/
theorem consultLook_held {key : LookKey} {held : List Byte} {i : Insp} (htop : (u.lane cx.lane).top = some e)
    (hkey : e.nextKey = some key) (hlook : (u.lane cx.lane).look = .full key held i false) :
    consultLook cx e u =
      if rtAtOrAfter (slotTag cx.slot) (dueTime e held) then drawPacket cx e held i u else (u, nullSlot cx) := by
  have halign : alignLook cx.lane u = u := by
    rw [alignLook, if_pos]
    rw [hlook, htop, Option.bind_some, hkey]
    rfl
  simp only [consultLook, halign, hlook, Bool.false_eq_true, ↓reduceIte]

end Idle

/-! ## A read of a lane whose one entry plays on -/

/-- State `u` comes from `s` by stages that leave on lane `l` the one entry `e`, and the lookahead, record and roles as they were. -/
structure PlaysOn (s : State) (l : Nat) (e : Entry) (u : State) : Prop where
  mem : u.mem = s.mem
  bypass : u.bypass = s.bypass
  forward : u.router.forward = s.router.forward
  clips : u.clips = s.clips
  others : ∀ m, m ≠ l → u.lane m = s.lane m
  stack : (u.lane l).stack = [e]
  look : (u.lane l).look = (s.lane l).look
  record : (u.lane l).record = (s.lane l).record
  roles : (u.lane l).roles = (s.lane l).roles

/-- The first stage of an undisturbed lane whose slot moves no clock: requests, placements and clock stay, and the entry plays on
(R29, R82, R166). -/
theorem stageOne_playsOn {s : State} {l k : Nat} {i : Insp} {e : Entry} (he : (s.lane l).enabled = true) (hb : s.bypass = false)
    (hst : (s.lane l).stack = [e]) (hun : s.Undisturbed l) (hpts : (s.lane l).record.anchorPts i = none) :
    PlaysOn s l e (stageOne l k i s) ∧ (stageOne l k i s).Undisturbed l ∧
      ((stageOne l k i s).lane l).anchored = (s.lane l).anchored ∧ (stageOne l k i s).clock l = s.clock l := by
  obtain ⟨halert, hins, hrem, hpend⟩ := hun
  have h1 := stageOne_first l k i s he
  generalize stageOne l k i s = one at h1 ⊢
  obtain ⟨hstate, hothers, hlane, hplace, -⟩ := h1
  simp only [hpts, Option.bind_none, Option.isSome_none, Bool.or_false, Option.getD_none, ↓reduceIte] at hlane
  have hplaced : ∀ id, id < 128 → one.placement id = s.placement id := fun id hid => by
    rw [hplace id hid, if_neg fun h => hpend id hid h.1 h.2]
  refine ⟨⟨?_, ?_, ?_, ?_, hothers, ?_, ?_, ?_, ?_⟩, ⟨?_, ?_, ?_, fun id hid => ?_⟩, ?_, ?_⟩
  · exact congrArg (·.mem) hstate
  · exact congrArg (·.bypass) hstate
  · exact congrArg (·.router.forward) hstate
  · exact congrArg (·.clips) hstate
  · rw [hlane]
    simp [hst]
  · rw [hlane]
  · rw [hlane]
  · rw [hlane]
    simp only [hb, Bool.false_eq_true, false_and, ↓reduceIte]
    split <;> rfl
  · rw [hlane]
    exact halert
  · rw [hlane, hins]
    rfl
  · rw [hlane, hrem]
    rfl
  · rw [hplaced id hid]
    exact hpend id hid
  · rw [hlane]
  · rw [State.clock, hlane, congrArg (·.lt) hstate]
    rfl

/-- An entry that has not reached its end, as stage 3 leaves it at the top (R102). -/
def Entry.staying (e : Entry) : Entry := { e with returning := false }

theorem PlaysOn.stacking {s u : State} {l : Nat} {e : Entry} (hl : l < 16) (h : PlaysOn s l e u) (e' : Entry) :
    PlaysOn s l e' (u.stacking l [e']) := by
  have hlane := stacking_lane u hl [e']
  refine ⟨h.mem, h.bypass, h.forward, h.clips, fun m hm => (u.lane_setLane_ne _ hm.symm).trans (h.others m hm), ?_, ?_, ?_, ?_⟩
  all_goals rw [hlane]
  · exact h.look
  · exact h.record
  · exact h.roles

theorem PlaysOn.syncStack {s u : State} {l : Nat} {e : Entry} (h : PlaysOn s l e u) (st : List Entry) :
    PlaysOn s l e (syncStack st u) := by
  rw [(syncStack_after st u).1]
  exact ⟨h.mem, h.bypass, h.forward, h.clips, h.others, h.stack, h.look, h.record, h.roles⟩

/-- Stages 2 to 6 for an entry that plays on: nothing is applied, ends or enters, and the lookahead is consulted. -/
theorem spliceStages_playsOn {s u : State} {cx : ReadCtx} {e : Entry} (hl : cx.lane < 16) (h : PlaysOn s cx.lane e u)
    (hun : u.Undisturbed cx.lane) (hend : e.reachedEnd (u.lane cx.lane).anchored cx.clock = false) (hcur : e.current ≠ none)
    (hp : (s.lane cx.lane).record.passes cx.insp = false) :
    ∃ v, PlaysOn s cx.lane e.staying v ∧ spliceStages cx u = finishSource cx (consultLook cx e.staying v) := by
  obtain ⟨halert, hins, hrem, hpend⟩ := hun
  have hthree : stageThree cx u = u.stacking cx.lane [e.staying] := stageThree_stays h.stack hend
  have hstaying := h.stacking hl e.staying
  generalize hv : u.stacking cx.lane [e.staying] = three at hthree hstaying
  have hfour : stageFour cx three = three := stageFour_idle fun id hid => by
    rw [← hv]
    exact hpend id hid
  have hsynced := hstaying.syncStack [e.staying]
  refine ⟨Machine.syncStack [e.staying] three, hsynced, ?_⟩
  generalize hw : Machine.syncStack [e.staying] three = v at hsynced
  have htop : (v.lane cx.lane).top = some e.staying := by rw [Lane.top, hsynced.stack]; rfl
  have hold : (u.lane cx.lane).top = some e := by rw [Lane.top, h.stack]; rfl
  have hfive : ∀ start, stageFive cx start (some e) false v = (v, .nothing) := fun start =>
    stageFive_same (by rw [htop]; rfl)
  have hsix : stageSix cx false v = consultLook cx e.staying v :=
    stageSix_consults (by rw [hsynced.record]; exact hp) htop hcur
  simp only [spliceStages, stageTwo_idle halert hins hrem, hthree, hfour, hstaying.stack, hw, hold, hfive, afterStart, hsix]

/-- The whole procedure of a slot read of a lane whose one entry plays on comes to the lookahead consulted (R97, R119). -/
theorem runProcedure_playsOn {s : State} {l k : Nat} {raw : List Byte} {e : Entry} (he : (s.lane l).enabled = true)
    (hb : s.bypass = false) (hst : (s.lane l).stack = [e]) (hcur : e.current ≠ none) (hun : s.Undisturbed l)
    (hend : e.reachedEnd (s.lane l).anchored (s.clock l) = false)
    (hpts : (s.lane l).record.anchorPts (inspect (raw.drop 4)) = none)
    (hp : (s.lane l).record.passes (inspect (raw.drop 4)) = false) :
    ∃ cx v, cx.lane = l ∧ cx.slot = raw ∧ PlaysOn s l e.staying v ∧
      runProcedure l k raw s = finishSource cx (consultLook cx e.staying v) := by
  obtain ⟨hone, hun1, hanch, hclock⟩ := stageOne_playsOn (k := k) he hb hst hun hpts
  have hb1 : (stageOne l k (inspect (slotPacket raw)) s).bypass = false := hone.bypass.trans hb
  let cx : ReadCtx := { lane := l, slot := raw, insp := inspect (slotPacket raw),
                        clock := (stageOne l k (inspect (slotPacket raw)) s).clock l }
  obtain ⟨v, hv, hrun⟩ := spliceStages_playsOn (cx := cx) (enabled_lt he) hone hun1 (by rw [hanch, ← hend]; exact congrArg _ hclock) hcur hp
  refine ⟨cx, v, rfl, rfl, hv, ?_⟩
  rw [← hrun]
  simp only [runProcedure, hb1, Bool.false_eq_true, ↓reduceIte]
  rfl

/-! ## The end of a read that returns its slot (R59, R64) -/

theorem prefetched_of_look {u : State} {l : Nat} (h : (u.lane l).look ≠ .empty) (d : Bool) : u.prefetched l d = u := by
  unfold State.prefetched
  split
  · rfl
  · rw [if_neg fun hc => h hc.2.2]

/-- What a draw returns and leaves of the roles: the packet rewritten under the role its clip maps it to, one on in that role, or
the null packet (R57, R123, R127). -/
def DrawnAs (x : Lane) (c : Clip) (off : Pt) (held : List Byte) (i : Insp) (slot out : List Byte) (roles : Vector RoleState 4) :
    Prop :=
  match mappedRole x.record c i with
  | none => out = slot.take 4 ++ nullPacket ∧ roles = x.roles
  | some r =>
    let cc := if i.hasPayload then x.roles[r].outLast + 1 else x.roles[r].outLast
    out = slot.take 4 ++ rewritePacket (held.drop 4) i x.record.roles[r] cc off ∧
      roles = x.roles.set r { x.roles[r] with outLast := cc }

theorem onTop_roles (x : Lane) (g : Entry → Entry) : (x.onTop g).roles = x.roles := by
  unfold Lane.onTop
  split <;> rfl

/-- A drawn packet leaves the lookahead EMPTY, and nothing outside the lane changed (R57, R64). -/
theorem drawPacket_drawn (cx : ReadCtx) (e : Entry) (held : List Byte) (i : Insp) (v : State) :
    ∃ y out, drawPacket cx e held i v = (v.setLane cx.lane y, .returns out) ∧ y.look = .empty ∧
      DrawnAs (v.lane cx.lane) (v.clip (e.currentClip.getD 0)) e.ptsOffset held i cx.slot out y.roles := by
  unfold drawPacket DrawnAs
  simp only
  cases mappedRole (v.lane cx.lane).record (v.clip (e.currentClip.getD 0)) i with
  | none => exact ⟨_, _, rfl, rfl, rfl, onTop_roles _ _⟩
  | some r =>
    refine ⟨_, _, rfl, rfl, ?_⟩
    simp only [RoleState.library]
    cases i.hasPayload <;> exact ⟨rfl, rfl⟩

/-- The step runs the procedure of the oldest ARRIVED read, a slot read not abandoned of an enabled lane (R3, R97). -/
theorem slotReadStep_runs {s : State} {pre post : List FwdEntry} {f : FwdEntry} {l k : Nat} (h : s.ReadRuns pre f post l k)
    (hab : f.abandoned = false) (he : (s.lane l).enabled = true) : slotReadStep s = runProcedure l k f.raw s := by
  obtain ⟨hwait, ⟨hfwd, harr, hpre⟩, hcls⟩ := h
  have hf : f.isArrived = true := by simp [FwdEntry.isArrived, harr]
  have hp : ∀ g ∈ pre, g.isArrived = false := fun g hg => by simpa [FwdEntry.isArrived] using hpre g hg
  have hold : s.oldestArrived = some f := by rw [State.oldestArrived, hfwd, find?_first hp hf]
  simp only [slotReadStep, hwait, hold, hcls, hab, he, Option.isSome_none, Bool.false_eq_true, Bool.not_true, Bool.or_self,
    ↓reduceIte]

/-- A read in hand completed: READY with its slot, and none waits. -/
def State.completed (u : State) (pre : List FwdEntry) (f : FwdEntry) (post : List FwdEntry) (out : List Byte) : State :=
  { u.readied pre f post out with wait := none }

theorem finishSource_returns {u : State} {cx : ReadCtx} {pre post : List FwdEntry} {f : FwdEntry} (h : u.FirstIn .arrived pre f post)
    (out : List Byte) :
    finishSource cx (u, .returns out) = (u.completed pre f post out).prefetched cx.lane false := by
  change prefetchTest cx.lane (completeRead out u) = _
  rw [completeRead_eq u pre f post out h, prefetchTest_eq]
  rfl

theorem clip_of_clips {u v : State} (h : u.clips = v.clips) (id : Nat) : u.clip id = v.clip id := by
  rw [State.clip, State.clip, h]

/-- What every read of lane `l` leaves that returns its slot: its entry READY, none waiting, memory and the other lanes. -/
structure Returned (s : State) (pre : List FwdEntry) (f : FwdEntry) (post : List FwdEntry) (l : Nat) (out : List Byte) (t : State) :
    Prop where
  forward : t.router.forward = pre ++ { f with state := .ready, out := out } :: post
  wait : t.wait = none
  mem : t.mem = s.mem
  others : ∀ m, m ≠ l → t.lane m = s.lane m

theorem Returned.settle {s t : State} {pre post : List FwdEntry} {f : FwdEntry} {l : Nat} {out : List Byte}
    (h : Returned s pre f post l out t) (b : State) : Returned s pre f post l out (settle b t) :=
  ⟨(settle_forward _ _).trans h.forward, (settle_wait _ _).trans h.wait, (settle_mem _ _).trans h.mem,
    fun m hm => (settle_lane _ _ _).trans (h.others m hm)⟩

section Served

variable {s v : State} {cx : ReadCtx} {e : Entry} {pre post : List FwdEntry} {f : FwdEntry} {key : LookKey} {held : List Byte}
  {i : Insp}

/-- A due packet is drawn, and the lookahead gives it up (R57, R59, R64). -/
theorem finishSource_drawn (hl : cx.lane < 16) (hv : PlaysOn s cx.lane e.staying v) (hfirst : v.FirstIn .arrived pre f post) :
    ∃ out t, finishSource cx (drawPacket cx e.staying held i v) = t ∧ Returned s pre f post cx.lane out t ∧
      DrawnAs (s.lane cx.lane) (s.clip (e.currentClip.getD 0)) e.ptsOffset held i cx.slot out (t.lane cx.lane).roles ∧
      (t.lane cx.lane).look.isFull = false := by
  obtain ⟨y, out, hdraw, hempty, hdrawn⟩ := drawPacket_drawn cx e.staying held i v
  have hself : ((v.setLane cx.lane y).completed pre f post out).lane cx.lane = y := v.lane_setLane_self y hl
  have hasked := prefetched_asked (s := (v.setLane cx.lane y).completed pre f post out) hl (by rw [hself, hempty]; rfl) false
  have hlane := hasked.lane
  rw [hself] at hlane
  refine ⟨out, _, by rw [hdraw, finishSource_returns (u := v.setLane cx.lane y) hfirst],
    ⟨hasked.forward, hasked.wait, hasked.mem.trans hv.mem, fun m hm => ?_⟩, ?_, hasked.notFull⟩
  · exact (hasked.others m hm).trans ((v.lane_setLane_ne y hm.symm).trans (hv.others m hm))
  · rw [(congrArg Lane.roles hlane).trans rfl]
    have hclip : v.clip (e.staying.currentClip.getD 0) = s.clip (e.currentClip.getD 0) := clip_of_clips hv.clips _
    rw [hclip] at hdrawn
    unfold DrawnAs at hdrawn ⊢
    rw [hv.record, hv.roles] at hdrawn
    exact hdrawn

/-- A packet not yet due is kept, and the slot carries the null packet (R119). -/
theorem finishSource_kept (hv : PlaysOn s cx.lane e.staying v) (hfirst : v.FirstIn .arrived pre f post)
    (hlook : (s.lane cx.lane).look = .full key held i false) :
    ∃ t, finishSource cx (v, nullSlot cx) = t ∧ Returned s pre f post cx.lane (cx.slot.take 4 ++ nullPacket) t ∧
      (t.lane cx.lane).roles = (s.lane cx.lane).roles ∧ (t.lane cx.lane).look = (s.lane cx.lane).look := by
  have hheld : ((v.completed pre f post (cx.slot.take 4 ++ nullPacket)).lane cx.lane).look = .full key held i false :=
    hv.look.trans hlook
  refine ⟨v.completed pre f post (cx.slot.take 4 ++ nullPacket), ?_, ⟨rfl, rfl, hv.mem, hv.others⟩, hv.roles, hv.look⟩
  rw [nullSlot, finishSource_returns hfirst]
  exact prefetched_of_look (fun hempty => by cases hempty.symm.trans hheld) false

end Served

/-- Settles O34: the stages are those of `runProcedure_staged`, and a lone entry that plays on is served from its lookahead. -/
theorem slotReadDraws : Obligations.SlotReadDraws := by
  refine ⟨fun s pre post f l k hruns hab he hb hn => ?staged, fun s pre post f l k e key held i hruns hab he hb hst hcur hkey hlook
    hun hend hpts hpass => ?served⟩
  case staged =>
    obtain ⟨r, one, two, three, four, six, v, hr, hslot, hstaged, hreveals, hfin⟩ :=
      runProcedure_staged s pre f post l k hruns.2.1 he hb hn s
    rw [← slotReadStep_runs hruns hab he] at hfin
    exact ⟨r, one, two, three, four, hr, hslot, hstaged, fun _ => ⟨_, six, v, rfl, hreveals, hfin⟩⟩
  case served =>
    have hl : l < 16 := enabled_lt he
    obtain ⟨cx, v, rfl, hslot, hv, hrun⟩ := runProcedure_playsOn (k := k) he hb hst hcur hun hend hpts hpass
    have hfirst : v.FirstIn .arrived pre f post := ⟨hv.forward.trans hruns.2.1.1, hruns.2.1.2⟩
    have hstep : slotReadStep s = finishSource cx
        (if rtAtOrAfter (slotTag f.raw) (slotTag held + e.tagOffset) then drawPacket cx e.staying held i v
          else (v, nullSlot cx)) := by
      have htop : (v.lane cx.lane).top = some e.staying := by rw [Lane.top, hv.stack]; rfl
      rw [slotReadStep_runs hruns hab he, hrun, consultLook_held (key := key) htop hkey (hv.look.trans hlook), hslot]
      rfl
    have hexec : exec .slotReadProcedure s = .next (settle s (slotReadStep s)) := rfl
    rw [hexec, hstep]
    by_cases hdue : rtAtOrAfter (slotTag f.raw) (slotTag held + e.tagOffset) = true
    · obtain ⟨out, t, ht, hret, hdrawn, hnot⟩ := finishSource_drawn (held := held) (i := i) hl hv hfirst
      obtain ⟨hfwd, hwait, hmem, hothers⟩ := hret.settle s
      rw [if_pos hdue, ht]
      refine ⟨settle s t, out, rfl, hfwd, hwait, hmem, hothers, ?_⟩
      rw [if_pos hdue, settle_lane]
      refine ⟨hslot ▸ hdrawn, fun d g n hfull => ?_⟩
      rw [hfull] at hnot
      cases hnot
    · obtain ⟨t, ht, hret, hroles, hsame⟩ := finishSource_kept hv hfirst hlook
      obtain ⟨hfwd, hwait, hmem, hothers⟩ := hret.settle s
      rw [if_neg hdue, ht]
      refine ⟨settle s t, _, rfl, hfwd, hwait, hmem, hothers, ?_⟩
      rw [if_neg hdue, settle_lane, hslot]
      exact ⟨rfl, hroles, hsame⟩

end Sys2Proof.Machine

namespace Sys2Proof.Machine

open Sys2Proof

/-! ## Dark lanes (R26)

A lane that is not enabled is dark: nothing on air, nothing pending, its monitor DISABLED. Nearly every operation leaves a lane
enabled or not as it was, and what is dark stays dark: an empty stack has no entry to change, an absent request none to apply, and a
DISABLED monitor does not move. `Steady` says this once for a lane and for a state; LANE-ENABLE, LANE-DISABLE and the resets are
the steps that are not steady. -/

/-- Nothing on air and nothing pending, the monitor DISABLED (R26). -/
def Lane.Dark (x : Lane) : Prop :=
  x.stack = [] ∧ x.alertReq = none ∧ x.slateInsert = none ∧ x.slateRemove = none ∧ x.monitor.state = .disabled

/-- From `x` to `y` a lane stays enabled or not, and dark while it is not. -/
structure Lane.Steady (x y : Lane) : Prop where
  enabled : y.enabled = x.enabled
  dark : x.enabled = false → x.Dark → y.Dark

/-- From `s` to `t` every lane is steady. -/
def Steady (s t : State) : Prop := ∀ l, (s.lane l).Steady (t.lane l)

theorem Steady.disabledOk {s t : State} (h : Steady s t) (hs : s.DisabledOk) : t.DisabledOk := fun l hoff =>
  (h l).dark ((h l).enabled.symm.trans hoff) (hs l ((h l).enabled.symm.trans hoff))

theorem Lane.reset_dark : Lane.reset.Dark := ⟨rfl, rfl, rfl, rfl, rfl⟩

theorem fold_eq (x : Lane) : x.fold = { x with clockC := x.clockC + 4194304, clockL := x.clockL + 1258291200 } := rfl

namespace Lane.Steady

variable {x y z : Lane}

theorem refl (x : Lane) : x.Steady x := ⟨rfl, fun _ h => h⟩

theorem trans (h : x.Steady y) (g : y.Steady z) : x.Steady z :=
  ⟨g.enabled.trans h.enabled, fun hoff hd => g.dark (h.enabled.trans hoff) (h.dark hoff hd)⟩

/-- An enabled lane that stays enabled. -/
theorem of_enabled (he : x.enabled = true) (h : y.enabled = x.enabled) : x.Steady y :=
  ⟨h, fun hoff => absurd (he.symm.trans hoff) Bool.true_eq_false.mp⟩

/-! ### Stacks: where there is no entry none is changed -/

theorem mapStack (x : Lane) (f : Entry → Entry) : x.Steady { x with stack := x.stack.map f } :=
  ⟨rfl, fun _ ⟨hst, hrest⟩ => ⟨by simp [hst], hrest⟩⟩

theorem onTop (x : Lane) (f : Entry → Entry) : x.Steady (x.onTop f) := by
  unfold Lane.onTop
  split
  · exact refl x
  next hst => exact ⟨rfl, fun _ hd => absurd (hst.symm.trans hd.1) (List.cons_ne_nil _ _)⟩

theorem fold (x : Lane) : x.Steady x.fold := by
  rw [fold_eq]
  exact ⟨rfl, fun _ ⟨hst, ha, hi, hr, hm⟩ => ⟨hst, ha, hi, hr, hm⟩⟩

/-! ### Requests -/

theorem expireSlate (x : Lane) : x.Steady x.expireSlate :=
  ⟨rfl, fun _ ⟨hst, ha, hi, hr, hm⟩ => ⟨hst, ha, by simp [Lane.expireSlate, hi], by simp [Lane.expireSlate, hr], hm⟩⟩

theorem tickSlate (x : Lane) : x.Steady x.tickSlate :=
  ⟨rfl, fun _ ⟨hst, ha, hi, hr, hm⟩ => ⟨hst, ha, by simp [Lane.tickSlate, hi], by simp [Lane.tickSlate, hr], hm⟩⟩

/-- The Alert Controller posts to enabled lanes only (R140). -/
theorem post (x : Lane) {q : Option AlertReq} (hq : x.enabled = false → q = none) : x.Steady (x.post q) := by
  cases q with
  | none => exact refl x
  | some r => exact ⟨rfl, fun hoff => absurd (hq hoff) (Option.some_ne_none r)⟩

theorem applyInsert (x : Lane) : x.Steady x.applyInsert := by
  unfold Lane.applyInsert
  split
  next hdue =>
    have hon : ∀ y : Lane, y.enabled = x.enabled → x.Steady y := fun y he =>
      ⟨he, fun _ ⟨_, _, hi, _⟩ => by simp [slateDue, hi] at hdue⟩
    extract_lets cleared
    split
    · exact hon _ rfl
    · split <;> exact hon _ rfl
  · exact refl x

theorem applyRemove (x : Lane) : x.Steady x.applyRemove := by
  unfold Lane.applyRemove
  split
  next hdue => exact ⟨rfl, fun _ ⟨_, _, _, hr, _⟩ => by simp [slateDue, hr] at hdue⟩
  · exact refl x

end Lane.Steady

namespace Steady

variable {s t u : State}

theorem refl (s : State) : Steady s s := fun l => .refl (s.lane l)

theorem trans (h : Steady s t) (g : Steady t u) : Steady s u := fun l => (h l).trans (g l)

/-- A change outside the lanes. -/
theorem away (h : Steady s t) (hu : u.lanes = t.lanes) : Steady s u := fun l => by
  rw [congrFun (lane_congr hu) l]
  exact h l

/-- A change of one enabled lane that leaves it enabled. -/
theorem of_enabled {l : Nat} (he : (s.lane l).enabled = true) (hothers : ∀ m, m ≠ l → t.lane m = s.lane m)
    (hl : (t.lane l).enabled = (s.lane l).enabled) : Steady s t := fun m => by
  by_cases hm : m = l
  · rw [hm]
    exact .of_enabled he hl
  · rw [hothers m hm]
    exact .refl _

theorem enabled_lane (h : Steady s t) {l : Nat} (he : (s.lane l).enabled = true) : (t.lane l).enabled = true :=
  (h l).enabled.trans he

/-! ### Tables -/

theorem setLane (h : Steady s t) (l : Nat) {y : Lane} (hy : (t.lane l).Steady y) : Steady s (t.setLane l y) := fun m => by
  by_cases hm : l = m
  · subst hm
    by_cases hl : l < 16
    · rw [t.lane_setLane_self y hl]
      exact (h l).trans hy
    · have hsame : (t.setLane l y).lane l = t.lane l :=
        (State.lane_of_le _ (Nat.le_of_not_lt hl)).trans (t.lane_of_le (Nat.le_of_not_lt hl)).symm
      rw [hsame]
      exact h l
  · rw [t.lane_setLane_ne y hm]
    exact h m

theorem onLane (h : Steady s t) (l : Nat) {f : Lane → Lane} (hf : ∀ x : Lane, x.Steady (f x)) : Steady s (t.onLane l f) :=
  h.setLane l (hf _)

/-- A change of the Alert Controller alone. -/
theorem withAlert (h : Steady s t) (a : AlertCtl) : Steady s { t with alert := a } := h.away rfl

theorem setClip (h : Steady s t) (i : Nat) (c : Clip) : Steady s (t.setClip i c) := h.away rfl

theorem setPlacement (h : Steady s t) (i : Nat) (p : Placement) : Steady s (t.setPlacement i p) := h.away rfl

theorem onPlacement (h : Steady s t) (i : Nat) (f : Placement → Placement) : Steady s (t.onPlacement i f) := h.away rfl

/-- A change of the forward queue alone. -/
theorem withForward (h : Steady s t) (fs : List FwdEntry) : Steady s (t.withForward fs) := h.away rfl

/-- Every lane changed by one function. -/
theorem mapLanes (h : Steady s t) {f : Lane → Lane} (hf : ∀ x : Lane, x.Steady (f x)) (h0 : f Lane.reset = Lane.reset) :
    Steady s { t with lanes := vmap f t.lanes } := fun l => by
  rw [lane_vmap t f h0 l]
  exact (h l).trans (hf _)

/-! ### Records and the ends of placements (R89 to R91, R183, R190, R191) -/

theorem handRecord (h : Steady s t) (l : Nat) (b : RecordBody) : Steady s (handRecord l b t) := h.away (by rw [handRecord_eq])

theorem endPlacement (h : Steady s t) (id : Nat) (o : Outcome) (e : Option Entry) (c : Pt) : Steady s (endPlacement id o e c t) :=
  h.away (by rw [endPlacement_eq]; rfl)

theorem leaveAll (h : Steady s t) (o : Outcome) (c : Pt) (st : List Entry) : Steady s (leaveAll o c st t) :=
  h.away (by rw [leaveAll_eq])

theorem leaveEnds (h : Steady s t) (covered : Bool) (c : Pt) (st : List Entry) : Steady s (leaveEnds covered c st t) := by
  induction st generalizing t with
  | nil => exact h
  | cons e rest ih => exact ih (h.away (by rw [leaveStack_eq]))

/-- The lane's AUDIT mark after a notice. -/
theorem unmark (h : Steady s t) (l : Nat) : Steady s (t.onLane l fun x => { x with audit := .none }) :=
  h.onLane l fun _ => ⟨rfl, fun _ hd => hd⟩

theorem auditEntry (h : Steady s t) (l id : Nat) (c : Option Pt) (start : Pt) (n : Nat) :
    Steady s (auditEntry l id c start n t) := by
  unfold Machine.auditEntry
  split
  · exact (h.handRecord _ _).unmark l
  · exact h

theorem auditMissed (h : Steady s t) (id : Nat) (p : Placement) : Steady s (auditMissed id p t) := by
  unfold Machine.auditMissed
  split
  · exact (h.handRecord _ _).unmark _
  · exact h

theorem auditReturn (h : Steady s t) (l : Nat) (k : Kind) (e : Option Pt) (c : Pt) (b : Bool) :
    Steady s (auditReturn l k e c b t) := by
  unfold Machine.auditReturn
  split
  · exact (h.handRecord _ _).unmark l
  · exact h

/-! ### Lookaheads (R58 to R62) -/

/-- A lane's lookahead replaced. -/
theorem relook (h : Steady s t) (l : Nat) (k : Look) : Steady s (t.onLane l fun x => { x with look := k }) :=
  h.onLane l fun _ => ⟨rfl, fun _ hd => hd⟩

theorem requestFetch (h : Steady s t) (l : Nat) (e : Entry) (d : Bool) : Steady s (requestFetch l e d t) := by
  unfold Machine.requestFetch
  split
  · exact h
  · exact (h.relook l _).away rfl

theorem prefetchTest (h : Steady s t) (l : Nat) : Steady s (prefetchTest l t) := by
  unfold Machine.prefetchTest
  split
  · exact h
  · split
    · exact h.requestFetch _ _ _
    · exact h

theorem prefetchTests (h : Steady s t) (ls : List Nat) : Steady s (prefetchTests ls t) := by
  induction ls generalizing t with
  | nil => exact h
  | cons l rest ih => exact ih (h.prefetchTest l)

theorem overtake (h : Steady s t) (l : Nat) : Steady s (overtake l t) := by
  unfold Machine.overtake
  split
  · exact h
  · exact h.relook l _
  · split
    · exact h.relook l _
    · exact (h.relook l _).away rfl

theorem alignLook (h : Steady s t) (l : Nat) : Steady s (alignLook l t) := by
  unfold Machine.alignLook
  split
  · exact h
  · split
    · exact h
    · exact h.overtake l

theorem demandFetch (h : Steady s t) (l : Nat) : Steady s (demandFetch l t) := by
  unfold Machine.demandFetch
  split
  · exact h
  · exact h.relook l _
  · split
    · exact h
    · exact h.requestFetch _ _ _

theorem fillLook (h : Steady s t) (l : Nat) (slot : List Byte) : Steady s (fillLook l slot t) := by
  unfold Machine.fillLook
  split
  · split
    · exact (h.relook l _).prefetchTest l
    · exact h.relook l _
  · exact h

/-! ### Slot writes, cues and late tests (R28, R74 to R83) -/

/-- A slot write of an enabled lane changes that lane alone (R28). -/
theorem ingress {l : Nat} (he : (s.lane l).enabled = true) (w : Nat) (slot : List Byte) : Steady s (ingress l w slot s) := by
  have hl := enabled_lt he
  obtain ⟨taken, x, records, hcue, hwatched, heq⟩ := ingress_parts hl w slot s
  have hw := slotWritten_of_parts hl hcue hwatched (taken.logAfter (records.map fun b => (l, b)))
  rw [heq]
  exact of_enabled he hw.others ((congrArg Lane.enabled hw.lane).trans rfl)

/-- A cue taken for an enabled lane changes that lane alone (R77 to R81). -/
theorem intake {l : Nat} (he : (s.lane l).enabled = true) (c : Cue) (injected : Bool) : Steady s (intake l c injected s).1 := by
  have hframe := cueTaken_frame (intake_taken l (enabled_lt he) c injected s)
  exact of_enabled he hframe.others ((congrArg Lane.enabled hframe.lane).trans rfl)

theorem lateTest (h : Steady s t) (id : Nat) : Steady s (lateTest id t) := by
  unfold Machine.lateTest
  extract_lets p
  split
  · split
    · exact h
    · split
      · exact (h.endPlacement _ _ _ _).auditMissed _ _
      · exact h.away rfl
  · exact h

theorem withdrawOnStack (h : Steady s t) (id : Nat) : Steady s (withdrawOnStack id t) := by
  unfold Machine.withdrawOnStack
  split
  · exact h
  · exact (h.onLane _ fun x => .mapStack x _).away rfl

/-! ### The Alert Controller (R138 to R152) -/

/-- Requests go to enabled lanes (R140). -/
theorem postAll (h : Steady s t) {q : Lane → Option AlertReq} (hq : ∀ x, x.enabled = false → q x = none) :
    Steady s (postAll q t) :=
  h.mapLanes (fun x => .post x (hq x)) (by rw [hq _ rfl]; rfl)

theorem beginAlert (h : Steady s t) (st : AlertState) (p : Nat) (r : AlertReason) : Steady s (beginAlert st p r t) := by
  have hposts : ∀ x : Lane, x.enabled = false → t.alert.requests p x = none := fun x hoff => by
    simp [AlertCtl.requests, Lane.requestFor, hoff]
  exact ((h.postAll hposts).withAlert _).handRecord _ _

theorem finishAlert (h : Steady s t) (r : AlertReason) : Steady s (finishAlert r t) := by
  have hposts : ∀ x : Lane, x.enabled = false → t.alert.removals x = none := fun x hoff => by
    simp [AlertCtl.removals, Lane.removeFor, hoff]
  exact ((h.postAll hposts).withAlert _).handRecord _ _

theorem endAlert (h : Steady s t) (r : AlertReason) : Steady s (endAlert r t) := by
  unfold Machine.endAlert
  split
  · exact (h.finishAlert r).beginAlert _ _ _
  · exact h.finishAlert r

theorem lineAsserted (h : Steady s t) : Steady s (lineAsserted t) := by
  unfold Machine.lineAsserted
  extract_lets p0
  split
  · exact h.beginAlert _ _ _
  · exact h.away rfl

theorem filteredChange (h : Steady s t) : Steady s (filteredChange t) := by
  have hdown : Steady s (lineDeasserted t) := by
    unfold lineDeasserted
    extract_lets u
    have hu : Steady s u := h.away rfl
    split
    · exact hu.endAlert _
    · exact hu
  unfold Machine.filteredChange
  split
  · exact h
  · split
    · exact h.lineAsserted
    · exact hdown

theorem renewalFailure (h : Steady s t) : Steady s (renewalFailure t) := by
  unfold Machine.renewalFailure
  extract_lets count alert counted
  have hc : Steady s counted := h.away rfl
  split
  · exact hc
  · exact (hc.withAlert _).handRecord _ _
  · exact hc.endAlert _
  · exact (hc.withAlert _).handRecord _ _

theorem judgeRenewal (h : Steady s t) : Steady s (judgeRenewal t) := by
  unfold Machine.judgeRenewal
  split
  · exact (h.withAlert _).renewalFailure
  · exact (h.withAlert _).withAlert _

/-! ### BYPASS (R112, R114) -/

theorem releaseWait (h : Steady s t) : Steady s (releaseWait t) := by
  unfold Machine.releaseWait
  split <;> exact h.away rfl

/-- The level of BYPASS comes to stand at `b`. -/
theorem withBypass (h : Steady s t) (b : Bool) : Steady s { t with bypass := b } := h.away rfl

theorem bypassLanes (h : Steady s t) (ls : List Nat) : Steady s (bypassLanes ls t) := by
  induction ls generalizing t with
  | nil => exact h
  | cons l rest ih =>
    have hdown : ∀ x : Lane, x.Steady x.tearDown := fun _ => ⟨rfl, fun _ ⟨_, _, _, _, hm⟩ => ⟨rfl, rfl, rfl, rfl, hm⟩⟩
    exact ih (((h.leaveAll _ _ _).onLane _ hdown).overtake l)

theorem bypassAlert (h : Steady s t) (m : BitVec 16) : Steady s (bypassAlert m t) := by
  unfold Machine.bypassAlert
  extract_lets idle
  split
  · exact h.withAlert _
  · exact ((h.withAlert _).withAlert _).handRecord _ _

theorem assertBypass (h : Steady s t) : Steady s (assertBypass t) := by
  unfold Machine.assertBypass
  extract_lets mask down ended
  have hd : Steady s down := (h.withBypass true).bypassLanes laneNumbers
  have he : Steady s ended := by
    unfold ended
    split
    · exact hd.releaseWait
    · exact hd
  exact (he.withForward _).bypassAlert mask

/-- At the release of BYPASS enabled lanes alone are changed (R114). -/
theorem releaseBypass (h : Steady s t) : Steady s (releaseBypass t) := by
  have hlane : ∀ x : Lane, x.Steady x.releaseBypass := fun x => by
    unfold Lane.releaseBypass
    split
    next he =>
      extract_lets y
      split <;> exact .of_enabled he rfl
    · exact .refl x
  have hu : Steady s { t with bypass := false, lanes := vmap Lane.releaseBypass t.lanes } :=
    Steady.away (h.mapLanes hlane rfl) rfl
  unfold Machine.releaseBypass
  extract_lets u
  split
  · exact hu.lineAsserted
  · exact hu

/-! ### A slot read (R97): its lane is enabled as it begins, and a wait finds the entries that stand -/

/-- The first stage of a read of an enabled lane changes that lane alone (R29). -/
theorem stageOne {l : Nat} (he : (s.lane l).enabled = true) (k : Nat) (i : Insp) : Steady s (stageOne l k i s) := by
  obtain ⟨-, hothers, hlane, -⟩ := stageOne_first l k i s he
  exact of_enabled he hothers ((congrArg Lane.enabled hlane).trans rfl)

/-- Stage 2 of an enabled lane (R98, R99). -/
theorem stageTwo (h : Steady s t) {l : Nat} (he : (s.lane l).enabled = true) : Steady s (stageTwo l t).1 := by
  have hon : (t.lane l).enabled = true := h.enabled_lane he
  have happlied : Steady s (applyAlert l t).1 := by
    unfold applyAlert
    extract_lets x cleared
    split
    · exact h
    · exact h.setLane l (.of_enabled hon rfl)
    all_goals
      split
      · exact h.setLane l (.of_enabled hon rfl)
      · exact h.setLane l (.of_enabled hon rfl)
  have hslate : ∀ x : Lane, x.applyInsert.applyRemove.enabled = x.enabled := fun x => by
    have hremove : ∀ y : Lane, y.applyRemove.enabled = y.enabled := fun y => by
      unfold Lane.applyRemove
      split <;> rfl
    rw [hremove]
    unfold Lane.applyInsert
    extract_lets cleared
    split
    · split
      · rfl
      · split <;> rfl
    · rfl
  exact happlied.setLane l (.of_enabled (happlied.enabled_lane he) (hslate _))

/-- Stage 3 of an enabled lane (R101 to R103). -/
theorem stageThree (h : Steady s t) {cx : ReadCtx} (he : (s.lane cx.lane).enabled = true) : Steady s (stageThree cx t) := by
  unfold Machine.stageThree
  split
  · exact h
  next e rest _ =>
    extract_lets k u
    have hr : Steady s (reportEnds cx.clock e k t) := by
      unfold reportEnds
      extract_lets top beneath
      split
      · exact (h.leaveEnds _ _ _).leaveEnds _ _ _
      · exact (h.leaveEnds _ _ _).leaveEnds _ _ _
    have hu : Steady s u := hr.setLane cx.lane (.of_enabled (hr.enabled_lane he) rfl)
    split
    · exact hu.auditReturn _ _ _ _ _
    · exact hu

/-- A placement enters the stack of an enabled lane, or is blocked (R104). -/
theorem enterOne (h : Steady s t) {cx : ReadCtx} (he : (s.lane cx.lane).enabled = true) (id : Nat) :
    Steady s (enterOne cx id t) := by
  unfold Machine.enterOne
  extract_lets p x start u v
  split
  · exact h.onPlacement _ _
  · have hu : Steady s u := h.setLane cx.lane (.of_enabled (h.enabled_lane he) rfl)
    exact (hu.onPlacement _ _).auditEntry _ _ _ _ _

theorem enterAll (h : Steady s t) {cx : ReadCtx} (he : (s.lane cx.lane).enabled = true) (ids : List Nat) :
    Steady s (enterAll cx ids t) := by
  induction ids generalizing t with
  | nil => exact h
  | cons id rest ih => exact ih (h.enterOne he id)

theorem syncStack (h : Steady s t) (st : List Entry) : Steady s (syncStack st t) :=
  h.away (by rw [(syncStack_after st t).1])

theorem onTop (h : Steady s t) (l : Nat) (f : Entry → Entry) : Steady s (t.onLane l fun x => x.onTop f) :=
  h.onLane l fun x => .onTop x f

theorem damageClip (h : Steady s t) (l : Nat) : Steady s (damageClip l t) :=
  h.onLane l fun x => (Lane.Steady.onTop x _).trans ⟨rfl, fun _ hd => hd⟩

theorem drawPacket (h : Steady s t) (cx : ReadCtx) (e : Entry) (held : List Byte) (i : Insp) :
    Steady s (drawPacket cx e held i t).1 := by
  unfold Machine.drawPacket
  extract_lets x c lag
  split
  · exact h.setLane _ ((Lane.Steady.onTop x _).trans ⟨rfl, fun _ hd => hd⟩)
  · exact h.setLane _ ((Lane.Steady.onTop x _).trans ⟨rfl, fun _ hd => hd⟩)

theorem consultLook (h : Steady s t) (cx : ReadCtx) (e : Entry) : Steady s (consultLook cx e t).1 := by
  unfold Machine.consultLook
  extract_lets u
  have hu : Steady s u := h.alignLook _
  split
  · split
    · exact hu.damageClip _
    · split
      · exact hu.drawPacket _ _ _ _
      · exact hu
  · exact hu.demandFetch _
  · exact hu.demandFetch _

theorem beginClip (h : Steady s t) (cx : ReadCtx) (start : Pt) : Steady s (beginClip cx start t).1 := by
  unfold Machine.beginClip
  extract_lets u
  have hu : Steady s u := h.alignLook _
  split
  · split
    · exact hu.damageClip _
    · exact hu.onTop _ _
  · exact hu.demandFetch _
  · exact hu.demandFetch _

theorem takeTurn (h : Steady s t) (cx : ReadCtx) (start : Pt) : Steady s (takeTurn cx start t).1 := by
  unfold Machine.takeTurn
  split
  · exact h
  · extract_lets e' u
    have hu : Steady s u := h.onTop _ _
    split
    · exact hu.beginClip _ _
    · exact hu

theorem stageFive (h : Steady s t) (cx : ReadCtx) (start : Pt) (old : Option Entry) (b : Bool) :
    Steady s (stageFive cx start old b t).1 := by
  have hold : Steady s (settleOld cx.lane old b t) := by
    unfold settleOld
    split
    · exact h.onTop _ _
    · split
      · exact h
      · exact h.onLane _ fun x => .mapStack x _
  unfold Machine.stageFive
  split
  · extract_lets u
    have hu : Steady s u := hold.overtake _
    split
    · exact hu
    next shown _ _ _ =>
      have hs : Steady s shown := hu.onTop _ _
      split
      · exact hs
      · exact hs.takeTurn _ _
  · exact h

theorem stageSix (h : Steady s t) (cx : ReadCtx) (b : Bool) : Steady s (stageSix cx b t).1 := by
  unfold Machine.stageSix
  split
  · exact h
  · split
    · unfold sourceBase
      extract_lets x
      split
      · exact h
      · exact h.setLane _ ⟨rfl, fun _ hd => hd⟩
    · unfold sourceEntry
      split
      · exact h
      · split
        · exact h.consultLook _ _
        · split
          · exact h
          · have ht := h.takeTurn cx cx.clock
            split
            next heq => rw [heq] at ht; exact ht
            next heq => rw [heq] at ht; exact ht
            next heq => rw [heq] at ht; exact ht
            next heq =>
              rw [heq] at ht
              split
              · exact ht.consultLook _ _
              · exact ht

/-- The procedure waits. -/
theorem withWait (h : Steady s t) (w : Option WaitingRead) : Steady s { t with wait := w } := h.away rfl

theorem completeRead (h : Steady s t) (out : List Byte) : Steady s (completeRead out t) := h.away rfl

theorem finishSource {r : State × Src} (h : Steady s r.1) (cx : ReadCtx) : Steady s (finishSource cx r) := by
  unfold Machine.finishSource
  split
  · exact (h.completeRead _).prefetchTest _
  · exact h.withWait _

theorem afterStart {r : State × Turn} (h : Steady s r.1) (cx : ReadCtx) (start : Pt) : Steady s (afterStart cx start r) := by
  unfold Machine.afterStart
  split
  · exact h.withWait _
  · exact (h.stageSix cx true).finishSource cx
  · exact (h.stageSix cx false).finishSource cx
  · exact (h.stageSix cx false).finishSource cx

theorem spliceStages (h : Steady s t) {cx : ReadCtx} (he : (s.lane cx.lane).enabled = true) : Steady s (spliceStages cx t) :=
  (((((h.stageTwo he).stageThree he).enterAll he _).syncStack _).stageFive cx _ _ _).afterStart cx _

/-- A procedure runs on an enabled lane alone (R27, R97). -/
theorem slotReadStep (s : State) : Steady s (slotReadStep s) := by
  unfold Machine.slotReadStep
  split
  · exact refl s
  · split
    · exact refl s
    · split
      next f _ l k _ =>
        split
        · exact (refl s).completeRead _
        next hruns =>
          have he : (s.lane l).enabled = true := by simp at hruns; exact hruns.2
          unfold runProcedure
          extract_lets i one
          have hone : Steady s one := stageOne he k i
          split
          · exact hone.completeRead _
          · exact hone.spliceStages he
      all_goals exact refl s

theorem resumeRead (h : Steady s t) (w : WaitingRead) : Steady s (resumeRead w t) := by
  unfold Machine.resumeRead
  split
  · exact h
  · extract_lets cx
    split
    · exact (h.beginClip cx _).afterStart cx _
    · split
      · exact (h.consultLook cx _).finishSource cx
      · exact h

theorem landed (h : Steady s t) (rest : List InFlight) : Steady s (landed rest t) := h.away rfl

theorem fetchArrival (h : Steady s t) : Steady s (fetchArrival t) := by
  unfold Machine.fetchArrival
  split
  next l clip orphan data rest _ =>
    split
    · exact h.landed rest
    · have hf : Steady s (Machine.fillLook l data (Machine.landed rest t)) := (h.landed rest).fillLook l data
      unfold continueWait
      split
      · split
        · exact hf.resumeRead _
        · exact hf
      · exact hf
  · exact h
  · exact h

theorem readArrival (s : State) : Steady s (readArrival s) := by
  unfold Machine.readArrival
  split <;> exact (refl s).away rfl

theorem returnRead (s : State) : Steady s (returnRead s) := by
  unfold Machine.returnRead
  split
  · exact refl s
  · split <;> exact (refl s).away rfl

/-! ### Requests at the Q port (R1, R13) -/

theorem takeCommand_lanes (n : Nat) (ws : List Word) (s : State) : (takeCommand n ws s).lanes = s.lanes := by
  unfold takeCommand
  split
  · rfl
  · split <;> rfl

theorem cancelCommand_lanes (n : Nat) (s : State) : (cancelCommand n s).lanes = s.lanes := by
  unfold cancelCommand
  split
  · rfl
  · split <;> rfl

theorem acceptControl_lanes (r : QRequest) (s : State) : (acceptControl r s).1.lanes = s.lanes := by
  unfold acceptControl
  split
  · rcases offerWrite_eq (s.controlLine r) r s with he | he | he
    · rw [he]
      exact cancelCommand_lanes _ s
    · rw [he]
      exact takeCommand_lanes _ _ s
    · rw [he]
      rfl
  · rfl

/-- A slot write reaches the Lane Tracker for a live ring, so for an enabled lane (R13). -/
theorem classify (r : QRequest) (s : State) : Steady s (classify r s).1 := by
  have hring : ∀ i, Steady s (acceptRing i r s).1 := fun i => by
    unfold acceptRing
    extract_lets l off
    split
    · exact refl s
    next hlive =>
      split
      · have he : (s.lane l).enabled = true := by
          simp [State.ringLive] at hlive
          exact hlive.1
        exact ingress he _ _
      · split
        · exact refl s
        · exact (refl s).onLane l fun _ => ⟨rfl, fun _ hd => hd⟩
  unfold Machine.classify
  split
  · exact (refl s).away rfl
  · exact (refl s).away (acceptControl_lanes r s)
  · unfold acceptRegion
    split
    · exact hring _
    · unfold acceptLog
      split <;> exact (refl s).away rfl
    all_goals exact refl s
  · exact refl s

theorem acceptRequest (r : QRequest) (s : State) : Steady s (acceptRequest r s) := by
  have hcounted : (countStrayClaim r s).lanes = s.lanes := by
    unfold countStrayClaim
    split <;> rfl
  unfold Machine.acceptRequest
  split
  · exact refl s
  · split
    · exact (refl s).away rfl
    · split
      · extract_lets a
        have ha : Steady s a.1 := Steady.trans ((refl s).away hcounted) (classify r _)
        exact ha.away rfl
      · split <;> exact (refl s).away rfl

theorem grantFetch (h : Steady s t) (l : Nat) : Steady s (grantFetch l t) := by
  unfold Machine.grantFetch
  split
  · exact (h.relook l _).away rfl
  all_goals exact h.away rfl

theorem grantForward (h : Steady s t) : Steady s (grantForward t) := by
  unfold Machine.grantForward
  split
  · exact h
  · split <;> exact h.away rfl

theorem changeRaw (level : Bool) (s : State) : Steady s (changeRaw level s) := by
  unfold Machine.changeRaw
  split
  · exact refl s
  · extract_lets u
    split <;> exact (refl s).away rfl

/-! ### The host's commands (chapter 10) -/

theorem carried (h : Steady s t) (ws : List Word) : Steady s (carryOut ws t).state := h

theorem setRegion (a : RegionArgs) (s : State) : Steady s (setRegion a s) :=
  (refl s).away ((congrArg State.lanes (setRegion_done a s).aside).trans rfl)

end Steady

/-! ## What every step leaves of a disabled lane (R26) -/

section Disabled

variable {s t : State}

/-- A block of lanes at their reset values is dark. -/
theorem State.Blank.disabledOk (h : s.Blank) : s.DisabledOk := fun l _ => by
  rw [h.lane]
  exact Lane.reset_dark

theorem disabledOk_setLane (h : s.DisabledOk) (l : Nat) {y : Lane} (hy : y.enabled = false → y.Dark) :
    (s.setLane l y).DisabledOk := fun m => by
  by_cases hm : l = m
  · subst hm
    by_cases hl : l < 16
    · rw [s.lane_setLane_self y hl]
      exact hy
    · rw [State.lane_of_le _ (Nat.le_of_not_lt hl)]
      exact fun _ => Lane.reset_dark
  · rw [s.lane_setLane_ne y hm]
    exact h m

theorem grantLog_lanes (s : State) : (grantLog s).lanes = s.lanes := by
  have hline : ∀ b c w, (grantLogLine b c w s).lanes = s.lanes := fun b c w => by
    unfold grantLogLine
    extract_lets a head
    split
    · rfl
    · split <;> rfl
  unfold grantLog
  split
  · rw [presentLog_eq]
    exact hline _ _ _
  all_goals rfl

/-- The DONE answer of UNCLAIM resets every lane, and no other write of the part touches one (R20, R178). -/
theorem grantPart_disabledOk (h : s.DisabledOk) : (grantPart s).DisabledOk := by
  unfold grantPart
  split
  · exact h
  · unfold grantAnswer
    split
    · exact h
    · extract_lets written left
      split
      · exact (unclaimEffect_blank _).disabledOk
      · exact h
  · exact ((Steady.refl s).away (u := grantLog (takeWaiting _ s)) (grantLog_lanes _)).disabledOk h
  · exact h

theorem grantStep_disabledOk (h : s.DisabledOk) : (grantStep s).DisabledOk := by
  have hcounted : Steady s (countWait s) := (Steady.refl s).away (by rw [countWait_eq])
  unfold grantStep
  split
  · exact grantPart_disabledOk h
  · exact (hcounted.grantFetch _).disabledOk h
  · exact hcounted.grantForward.disabledOk h
  · exact h

/-- LANE-ENABLE leaves the lane enabled (R24). -/
theorem laneEnableBody_disabledOk (ws : List Word) (h : s.DisabledOk) : (laneEnableBody ws s).state.DisabledOk := by
  unfold laneEnableBody
  split
  · refine disabledOk_setLane h _ fun hoff => ?_
    have hon : ∀ (x : Lane) (q : Option AlertReq), (x.post q).enabled = x.enabled := fun x q => by rw [post_eq]
    exact absurd ((hon _ _).symm.trans hoff) Bool.noConfusion
  · exact h

/-- LANE-DISABLE leaves the lane dark (R26). -/
theorem disableLane_disabledOk (h : s.DisabledOk) (l : Nat) : (disableLane l s).DisabledOk := by
  unfold disableLane
  extract_lets left off dropped
  have hleft : left.DisabledOk := ((Steady.refl s).leaveAll _ _ _).disabledOk h
  have hoff : off.DisabledOk := disabledOk_setLane hleft l fun _ => ⟨rfl, rfl, rfl, rfl, rfl⟩
  have hdropped : Steady off dropped := ((Steady.refl off).withForward _).overtake l
  split
  · exact hdropped.releaseWait.disabledOk hoff
  · exact hdropped.disabledOk hoff

theorem laneDisableBody_disabledOk (ws : List Word) (h : s.DisabledOk) : (laneDisableBody ws s).state.DisabledOk := by
  unfold laneDisableBody
  split
  · exact h
  · unfold carryOut
    split
    · exact disableLane_disabledOk h _
    · exact h

/-- A command executed leaves what its body leaves (R174). -/
theorem execute_disabledOk {body : List Word → State → Reply} (hb : ∀ ws s, s.DisabledOk → (body ws s).state.DisabledOk)
    (test : Nat → Bool) (h : s.DisabledOk) : (execute test body s).DisabledOk := by
  rcases execute_cases test body s with he | ⟨c, rest, -, -, he⟩
  · rw [he]
    exact h
  · rw [he]
    exact hb c.words (s.unqueue rest) h

/-- The bodies of the host's commands other than LANE-ENABLE and LANE-DISABLE are steady. -/
def SteadyBody (body : List Word → State → Reply) : Prop := ∀ ws s, Steady s (body ws s).state

theorem regionSetBody_steady : SteadyBody regionSetBody := fun ws s => by
  rw [regionSetBody_eq]
  split
  · exact .setRegion _ _
  · exact .refl s

theorem laneSetBody_steady : SteadyBody laneSetBody := fun ws s => by
  unfold laneSetBody
  extract_lets a
  split
  · exact (Steady.refl s).onLane a.lane fun _ => ⟨rfl, fun _ hd => hd⟩
  · exact .refl s

theorem laneStatusBody_steady : SteadyBody laneStatusBody := fun ws s => by
  unfold laneStatusBody
  split <;> exact .refl s

theorem clipSetBody_steady : SteadyBody clipSetBody := fun ws s => by
  rw [clipSetBody_eq]
  split
  · exact (((Steady.refl s).setClip _ _).prefetchTests laneNumbers).carried _
  · exact .refl s

theorem clipClearBody_steady : SteadyBody clipClearBody := fun ws s => by
  unfold clipClearBody
  split
  · exact (Steady.refl s).away rfl
  · exact .refl s

theorem placeBody_steady : SteadyBody placeBody := fun ws s => by
  unfold placeBody
  extract_lets a
  split
  · exact ((Steady.refl s).setPlacement _ _).lateTest a.id
  · exact .refl s

theorem withdrawBody_steady : SteadyBody withdrawBody := fun ws s => by
  unfold withdrawBody
  extract_lets id
  split
  · exact .refl s
  · split
    · exact .refl s
    · exact (Steady.refl s).endPlacement _ _ _ _
    · exact (Steady.refl s).endPlacement _ _ _ _
    · exact (Steady.refl s).withdrawOnStack _
    · exact (Steady.refl s).withdrawOnStack _

theorem placementStatusBody_steady : SteadyBody placementStatusBody := fun ws s => by
  unfold placementStatusBody
  split <;> exact .refl s

/-- A cue is injected into an enabled lane only (R76). -/
theorem cueBody_steady : SteadyBody cueBody := fun ws s => by
  unfold cueBody
  extract_lets a
  split
  next hdone =>
    have he : (s.lane a.lane).enabled = true := by
      by_contra hoff
      simp only [cueAnswer, Bool.not_eq_true] at hdone hoff
      simp only [hoff, Bool.not_false, ↓reduceIte] at hdone
      split at hdone <;> cases hdone
    exact .intake he _ _
  · exact .refl s

theorem alertProfileBody_steady : SteadyBody alertProfileBody := fun ws s => by
  unfold alertProfileBody
  extract_lets a
  have hp : Steady s (setProfile a s) := (Steady.refl s).withAlert _
  split
  · split
    · exact hp.beginAlert _ _ _
    · exact hp
  · exact .refl s

theorem alertStartBody_steady : SteadyBody alertStartBody := fun ws s => by
  unfold alertStartBody
  extract_lets p
  split
  · exact (Steady.refl s).beginAlert _ _ _
  · exact .refl s

theorem alertRenewBody_steady : SteadyBody alertRenewBody := fun ws s => by
  unfold alertRenewBody
  split
  · exact (Steady.refl s).judgeRenewal
  all_goals exact .refl s

theorem alertEndBody_steady : SteadyBody alertEndBody := fun ws s => by
  unfold alertEndBody
  split
  · exact (Steady.refl s).endAlert _
  · exact (Steady.refl s).endAlert _
  all_goals exact .refl s

theorem alertLockBody_steady : SteadyBody alertLockBody := fun _ s => (Steady.refl s).withAlert _

theorem auditMarkBody_steady : SteadyBody auditMarkBody := fun ws s => by
  unfold auditMarkBody
  split
  · exact .refl s
  · split
    · exact .refl s
    · exact (Steady.refl s).onLane _ fun _ => ⟨rfl, fun _ hd => hd⟩

theorem logAckBody_steady : SteadyBody logAckBody := fun ws s => by
  unfold logAckBody
  extract_lets n
  split
  · refine (Steady.refl s).away ?_
    rw [carryOut, presentLog_eq]
  · exact .refl s

theorem unclaimBody_steady : SteadyBody unclaimBody := fun ws s => by
  unfold unclaimBody
  split
  · exact .refl s
  · split
    · exact .refl s
    · exact (Steady.refl s).away rfl

theorem unknownBody_steady : SteadyBody unknownBody := fun _ s => .refl s

/-- Every step that answers a next state leaves disabled lanes dark: the resets put every lane at its reset values, LANE-DISABLE
leaves its lane dark, LANE-ENABLE its lane enabled, and the other steps are steady. -/
theorem exec_disabledOk {i : Instr} (hs : s.DisabledOk) (h : exec i s = .next t) : t.DisabledOk := by
  have close {u : State} (hu : u.DisabledOk) (he : (.next (settle s u) : Host.Outcome State Fault Refusal) = .next t) :
      t.DisabledOk := by
    rw [← Host.Outcome.next.inj he]
    exact ((Steady.refl u).away (settle_lanes s u)).disabledOk hu
  have steady {u : State} (hu : Steady s u) (he : (.next (settle s u) : Host.Outcome State Fault Refusal) = .next t) :
      t.DisabledOk := close (hu.disabledOk hs) he
  have steadyIf {p : Prop} [Decidable p] {u : State} (hu : Steady s u)
      (he : (.next (settle s (if p then u else s)) : Host.Outcome State Fault Refusal) = .next t) : t.DisabledOk := by
    split at he
    · exact steady hu he
    · exact steady (.refl s) he
  have command {test : Nat → Bool} {body : List Word → State → Reply} (hb : SteadyBody body)
      (he : (.next (settle s (execute test body s)) : Host.Outcome State Fault Refusal) = .next t) : t.DisabledOk :=
    close (execute_disabledOk (fun ws u hu => (hb ws u).disabledOk hu) test hs) he
  have same := Steady.refl s
  cases i with
  | qPortAccept r =>
    simp only [exec, execQPortAccept] at h
    split at h
    · exact steady (.acceptRequest _ s) h
    · cases h
  | mPortGrant => exact close (grantStep_disabledOk hs) h
  | readDataArrival => exact steady (.readArrival s) h
  | slotReadProcedure => exact steady (.slotReadStep s) h
  | slateCountdownExpiry l =>
    simp only [exec, execSlateCountdownExpiry] at h
    split at h
    · exact steadyIf (same.onLane l fun x => .expireSlate x) h
    · cases h
  | fetchDataArrival => exact steady same.fetchArrival h
  | readReturn => exact steady (.returnRead s) h
  | regionSet => exact command regionSetBody_steady h
  | laneSet => exact command laneSetBody_steady h
  | laneEnable => exact close (execute_disabledOk (fun ws _ hu => laneEnableBody_disabledOk ws hu) _ hs) h
  | laneDisable => exact close (execute_disabledOk (fun ws _ hu => laneDisableBody_disabledOk ws hu) _ hs) h
  | laneStatus => exact command laneStatusBody_steady h
  | clipSet => exact command clipSetBody_steady h
  | clipClear => exact command clipClearBody_steady h
  | place => exact command placeBody_steady h
  | withdraw => exact command withdrawBody_steady h
  | placementStatus => exact command placementStatusBody_steady h
  | cue => exact command cueBody_steady h
  | alertProfile => exact command alertProfileBody_steady h
  | alertStart => exact command alertStartBody_steady h
  | alertRenew => exact command alertRenewBody_steady h
  | alertEnd => exact command alertEndBody_steady h
  | alertLock => exact command alertLockBody_steady h
  | auditMark => exact command auditMarkBody_steady h
  | logAck => exact command logAckBody_steady h
  | unclaim => exact command unclaimBody_steady h
  | unknownCommand => exact command unknownBody_steady h
  | rstNAssert =>
    refine close ?_ h
    split
    · exact hs
    · exact (assertReset_blank s).disabledOk
  | rstNRelease => exact steadyIf (same.away (u := releaseReset s) rfl) h
  | bypassAssert =>
    refine steady ?_ h
    split
    · exact same
    · exact same.assertBypass
  | bypassRelease => exact steadyIf same.releaseBypass h
  | ealRawChange level => exact steady (.changeRaw level s) h
  | ealFilterExpiry => exact steadyIf (same.withAlert _).filteredChange h
  | holdSecondElapsed => exact steadyIf (same.withAlert _) h
  | holdLimitExpiry => exact steadyIf (same.endAlert _) h
  | renewalPeriodExpiry => exact steadyIf (same.withAlert _).renewalFailure h
  | laneClockFold l =>
    simp only [exec, execLaneClockFold] at h
    split at h
    · exact steadyIf (same.onLane l fun x => .fold x) h
    · cases h

end Disabled

/-- Settles O13: a tick changes no lane, and `exec_disabledOk` has every step. -/
theorem stepKeepsDisabled : Obligations.StepKeepsDisabled := by
  intro s t hs h
  unfold step at h
  split at h
  · rw [← Host.Outcome.next.inj h, tick_eq]
    exact hs
  next i rest _ => exact exec_disabledOk (s := { s with pending := rest }) hs h

end Sys2Proof.Machine

namespace Sys2Proof.Machine

open Sys2Proof

/-! ## The fold of a lane's clock (R32, R35) -/

/-- 1,258,291,200 RT are 4,194,304 PT, so that with both moved a clock shows the same value (R32, R35). -/
theorem clockAt_fold (x : Lane) (lt : Rt) (h : 1258291200 ≤ (lt - x.clockL).toNat) : x.fold.clockAt lt = x.clockAt lt := by
  rw [fold_eq]
  have hsub : lt - (x.clockL + 1258291200) = (lt - x.clockL) - 1258291200 := by ring
  have helapsed : (lt - (x.clockL + 1258291200)).toNat = (lt - x.clockL).toNat - 1258291200 := by
    rw [hsub]
    bv_omega
  have hnum : ((lt - x.clockL).toNat - 1258291200) / 300 + 4194304 = (lt - x.clockL).toNat / 300 := by omega
  have hpt : x.clockC + 4194304 + BitVec.ofNat 33 (((lt - x.clockL).toNat - 1258291200) / 300) =
      x.clockC + BitVec.ofNat 33 ((lt - x.clockL).toNat / 300) := by
    rw [← hnum, BitVec.ofNat_add, add_assoc, add_comm (4194304 : Pt)]
    rfl
  simp only [Lane.clockAt, ptPlus, rtSince, Config.rtPerPt, helapsed]
  exact hpt

theorem foldDue_iff (x : Lane) (lt : Rt) :
    x.foldDue lt = true ↔ x.enabled = true ∧ 1258291200 ≤ (lt - x.clockL).toNat := by
  unfold Lane.foldDue
  rw [Bool.and_eq_true, decide_eq_true_eq]
  rfl

/-- Settles O60, by whether the fold is due. -/
theorem laneClockFolds : Obligations.LaneClockFolds := by
  intro s l hl x due
  have hexec : exec (.laneClockFold l) s = .next (settle s (if x.foldDue s.lt then s.onLane l Lane.fold else s)) := if_pos hl
  refine ⟨_, hexec, fun hdue => ?_, fun hnot => ?_, ?_⟩
  · rw [if_pos ((foldDue_iff x s.lt).2 hdue), settle_apart]
    rfl
  · rw [if_neg fun h => hnot ((foldDue_iff x s.lt).1 h), settle_apart]
  · rw [settle_clock]
    split
    next h =>
      have hlane : (s.onLane l Lane.fold).lane l = x.fold := s.lane_onLane_self _ hl
      rw [State.clock, hlane]
      exact clockAt_fold x s.lt ((foldDue_iff x s.lt).1 h).2
    · rfl

/-! ## LANE-STATUS and PLACEMENT-STATUS (R30, R73, R176) -/

section Reports

variable {s : State} {c : Captured} {rest : List Captured}

/-- A command that changes nothing and answers DONE with its report. -/
theorem joinAnswer_report (words : List Word) :
    (settle s (joinAnswer c (carryOut words (s.unqueue rest)))).aside = s.aside ∧
      s.Answered (settle s (joinAnswer c (carryOut words (s.unqueue rest)))) c rest .done words := by
  refine ⟨?_, answered_of_joinAnswer (r := carryOut words (s.unqueue rest)) s rfl rfl⟩
  rw [settle_aside, joinAnswer_aside]
  rfl

/-- A command refused RANGE where a number is out of range, and else answered with its report. -/
theorem joinAnswer_ranged (p : Prop) [Decidable p] (words : List Word) :
    (settle s (joinAnswer c (if p then refuse .range (s.unqueue rest) else carryOut words (s.unqueue rest)))).aside = s.aside ∧
      if p then
        s.Answered (settle s (joinAnswer c (if p then refuse .range (s.unqueue rest) else carryOut words (s.unqueue rest))))
          c rest .range []
      else
        s.Answered (settle s (joinAnswer c (if p then refuse .range (s.unqueue rest) else carryOut words (s.unqueue rest))))
          c rest .done words := by
  split
  · exact (joinAnswer_refuse .range).symm
  · exact joinAnswer_report words

end Reports

/-- Settles O40: the words are those of the table of 12.4, and the command queue is no part of them. -/
theorem statusCommandsReport : Obligations.StatusCommandsReport := by
  intro s c rest n
  refine ⟨fun hex => ?lane, fun hex => ?placement⟩
  case lane =>
    have hwords : laneStatusWords n (s.unqueue rest) = s.laneReport n := laneStatusWords_eq (s.unqueue rest) n
    have hbody : execute (isCode 0x05) laneStatusBody s =
        joinAnswer c (if 15 < n then refuse .range (s.unqueue rest) else carryOut (s.laneReport n) (s.unqueue rest)) := by
      rw [execute_of_executing hex _ rfl, ← hwords]
      rfl
    refine ⟨settle s (execute (isCode 0x05) laneStatusBody s), rfl, ?_⟩
    rw [hbody]
    exact joinAnswer_ranged (15 < n) (s.laneReport n)
  case placement =>
    have hwords : placementStatusWords n (s.unqueue rest) = s.placementReport n := placementStatusWords_eq (s.unqueue rest) n
    have hbody : execute (isCode 0x22) placementStatusBody s =
        joinAnswer c (if 127 < n then refuse .range (s.unqueue rest) else carryOut (s.placementReport n) (s.unqueue rest)) := by
      rw [execute_of_executing hex _ rfl, ← hwords]
      rfl
    refine ⟨settle s (execute (isCode 0x22) placementStatusBody s), rfl, ?_⟩
    rw [hbody]
    exact joinAnswer_ranged (127 < n) (s.placementReport n)

end Sys2Proof.Machine

namespace Sys2Proof.Machine

open Sys2Proof

/-! ## LANE-SET's tests (R22) -/

section LaneTests

variable (a : LaneArgs)

/-- Orders 1 and 2 of R22. -/
theorem pidsOk_iff :
    a.pidsOk = true ↔
      ¬ (15 < a.lane ∨ 7 < a.zone ∨ 31 < a.region) ∧
        ¬ ((∃ p ∈ a.cuePid :: (a.roles ++ a.pass), 0x1FFF < p) ∨ a.roles.getD 0 0x1FFF = 0x1FFF ∨
          ¬ (a.roles.filter fun p => decide (p ≠ 0x1FFF)).Nodup) := by
  have hmost : allAtMost 0x1FFF (a.cuePid :: (a.roles ++ a.pass)) = true ↔ ¬ ∃ p ∈ a.cuePid :: (a.roles ++ a.pass), 0x1FFF < p := by
    simp only [allAtMost, List.all_eq_true, decide_eq_true_eq, not_exists, not_and, not_lt]
  have hlane : (a.lane ≤ 15 ∧ a.zone ≤ 7 ∧ a.region ≤ 31) ↔ ¬ (15 < a.lane ∨ 7 < a.zone ∨ 31 < a.region) := by omega
  unfold LaneArgs.pidsOk LaneArgs.usedRoles nullNum
  rw [Bool.and_eq_true, Bool.and_eq_true, decide_eq_true_eq, decide_eq_true_eq, hmost, hlane, and_assoc]
  exact and_congr_right' (by rw [not_or, not_or, not_not])

/-- Orders 3 and 4 of R22. -/
theorem passOk_iff :
    a.passOk = true ↔
      ¬ (8 < a.passCount ∨ ¬ a.pass.Nodup ∨ 0x1FFF ∈ a.pass ∨ ∃ p ∈ a.roles, p ≠ 0x1FFF ∧ p ∈ a.pass) ∧
        ¬ (a.cuePid ≠ 0x1FFF ∧ (a.cuePid ∈ a.roles ∨ a.cuePid ∈ a.pass)) := by
  have hused : (a.usedRoles.all fun p => decide (p ∉ a.pass)) = true ↔ ¬ ∃ p ∈ a.roles, p ≠ nullNum ∧ p ∈ a.pass := by
    simp only [LaneArgs.usedRoles, List.all_eq_true, List.mem_filter, decide_eq_true_eq, not_exists, not_and, and_imp]
  have hcue : (a.cuePid = 0x1FFF ∨ (a.cuePid ∉ a.roles ∧ a.cuePid ∉ a.pass)) ↔
      ¬ (a.cuePid ≠ 0x1FFF ∧ (a.cuePid ∈ a.roles ∨ a.cuePid ∈ a.pass)) := by
    rw [not_and_or, not_not, not_or]
  unfold LaneArgs.passOk
  rw [Bool.and_eq_true, Bool.and_eq_true, decide_eq_true_eq, decide_eq_true_eq, hused]
  unfold nullNum
  rw [hcue, not_or, not_or, not_or, not_not, not_lt]
  simp only [and_assoc]

/-- Orders 5 and 6 of R22. -/
theorem timesOk_iff :
    a.timesOk = true ↔
      ¬ (900000 < a.entryWindow ∨ a.jumpLimit < 9000 ∨ 900000 < a.jumpLimit) ∧ ¬ (a.slateClip ≠ 0xFFFF ∧ 255 < a.slateClip) := by
  unfold LaneArgs.timesOk
  rw [decide_eq_true_eq]
  omega

/-- Order 7 of R22; a 16-bit threshold is in its range. -/
theorem supervisionOk_iff (h : a.rateThreshold ≤ 65535) :
    a.supervisionOk = true ↔
      ¬ (a.gapLimit < 10 ∨ 2000 < a.gapLimit ∨ 10000 < a.lossFilter ∨ 10000 < a.goodFilter ∨ 10000 < a.blankTime ∨
        a.rateInterval < 10 ∨ 1000 < a.rateInterval ∨ 2 < a.rateMode) := by
  unfold LaneArgs.supervisionOk
  rw [decide_eq_true_eq]
  omega

/-- LANE-SET's refusal table, row by row (R22). -/
theorem laneSetAnswer_eq (s : State) (h : a.rateThreshold ≤ 65535) :
    laneSetAnswer a s =
      if 15 < a.lane ∨ 7 < a.zone ∨ 31 < a.region then .range
      else if (∃ p ∈ a.cuePid :: (a.roles ++ a.pass), 0x1FFF < p) ∨ a.roles.getD 0 0x1FFF = 0x1FFF ∨
          ¬ (a.roles.filter fun p => decide (p ≠ 0x1FFF)).Nodup then .range
      else if 8 < a.passCount ∨ ¬ a.pass.Nodup ∨ 0x1FFF ∈ a.pass ∨ (∃ p ∈ a.roles, p ≠ 0x1FFF ∧ p ∈ a.pass) then .range
      else if a.cuePid ≠ 0x1FFF ∧ (a.cuePid ∈ a.roles ∨ a.cuePid ∈ a.pass) then .range
      else if 900000 < a.entryWindow ∨ a.jumpLimit < 9000 ∨ 900000 < a.jumpLimit then .range
      else if a.slateClip ≠ 0xFFFF ∧ 255 < a.slateClip then .range
      else if a.gapLimit < 10 ∨ 2000 < a.gapLimit ∨ 10000 < a.lossFilter ∨ 10000 < a.goodFilter ∨ 10000 < a.blankTime ∨
          a.rateInterval < 10 ∨ 1000 < a.rateInterval ∨ 2 < a.rateMode then .range
      else if (s.lane a.lane).enabled = true then .busy
      else if s.alert.lock = true ∧ a.zone ≠ (s.lane a.lane).record.zone then .locked
      else .done := by
  rw [← ite_or, ← ite_or, ← ite_or, ← ite_or, ← ite_or, ← ite_or]
  refine if_congr ?_ rfl rfl
  rw [Bool.not_eq_true', ← Bool.not_eq_true, not_iff_comm, LaneArgs.inRange, Bool.and_eq_true, Bool.and_eq_true, Bool.and_eq_true,
    pidsOk_iff, passOk_iff, timesOk_iff, supervisionOk_iff a h]
  simp only [not_or, and_assoc]

end LaneTests

/-! ## LANE-SET carried out (R21, R22, R154) -/

theorem field_lt (w : Word) (lo len : Nat) : field w lo len < 2 ^ len := Nat.mod_lt _ (Nat.two_pow_pos len)

/-- LANE-SET, refused or carried out. -/
theorem laneSetBody_eq (ws : List Word) (s : State) :
    laneSetBody ws s =
      if laneSetAnswer (laneArgs ws) s = .done then
        carryOut [] (s.onLane (laneArgs ws).lane fun x => { x with record := (laneArgs ws).record })
      else refuse (laneSetAnswer (laneArgs ws) s) s := by
  simp only [laneSetBody]
  cases laneSetAnswer (laneArgs ws) s <;> rfl

/-- The four role PIDs given are the record's. -/
theorem record_roles (ws : List Word) : (laneArgs ws).record.roles.toList = (laneArgs ws).roles.map (BitVec.ofNat 13) := rfl

theorem record_rateMode (a : LaneArgs) :
    (a.record.rateMode = .off ↔ a.rateMode ≠ 1 ∧ a.rateMode ≠ 2) ∧ (a.record.rateMode = .low ↔ a.rateMode = 1) := by
  change (rateModeOf a.rateMode = .off ↔ _) ∧ (rateModeOf a.rateMode = .low ↔ _)
  unfold rateModeOf
  split_ifs with h1 h2
  · simp [h1]
  · simp [h2]
  · simp [h1, h2]

/-- LANE-SET answered DONE has passed its range tests (R22). -/
theorem inRange_of_done {a : LaneArgs} {s : State} (h : laneSetAnswer a s = .done) : a.inRange = true := by
  by_contra hout
  rw [laneSetAnswer, if_pos (by simp [hout])] at h
  cases h

theorem lane_le_of_inRange {a : LaneArgs} (h : a.inRange = true) : a.lane ≤ 15 ∧ a.rateMode ≤ 2 := by
  simp only [LaneArgs.inRange, LaneArgs.pidsOk, LaneArgs.supervisionOk, Bool.and_eq_true, decide_eq_true_eq] at h
  obtain ⟨⟨⟨⟨⟨⟨hlane, -⟩, -⟩, -⟩, -⟩, -⟩, -, -, -, -, -, -, -, -, hmode⟩ := h
  exact ⟨hlane, hmode⟩

/-- Settles O37: the refusal table is `laneSetAnswer_eq`, the record `LaneArgs.record`. -/
theorem laneSetAnswers : Obligations.LaneSetAnswers := by
  intro s c rest hex a code
  have hthreshold : a.rateThreshold ≤ 65535 := Nat.le_of_lt_succ (field_lt _ 16 16)
  have hcode : laneSetAnswer a (s.unqueue rest) = code := laneSetAnswer_eq a s hthreshold
  have hbody : execute (isCode 0x02) laneSetBody s =
      joinAnswer c (if code = .done then carryOut [] ((s.onLane a.lane fun x => { x with record := a.record }).unqueue rest)
        else refuse code (s.unqueue rest)) := by
    rw [execute_of_executing hex _ rfl, laneSetBody_eq, hcode]
    rfl
  refine ⟨settle s (execute (isCode 0x02) laneSetBody s), rfl, ?_⟩
  rw [hbody]
  by_cases hdone : code = .done
  · obtain ⟨hlane, hmode⟩ := lane_le_of_inRange (inRange_of_done (hcode.trans hdone))
    rw [if_pos hdone, hdone]
    have hset : (settle s (joinAnswer c (carryOut [] ((s.onLane a.lane fun x => { x with record := a.record }).unqueue rest)))).lane
        a.lane = { s.lane a.lane with record := a.record } :=
      (settle_lane _ _ _).trans (s.lane_onLane_self (fun x => { x with record := a.record }) (Nat.lt_succ_of_le hlane))
    rw [hset]
    refine ⟨joinAnswer_done rfl, fun h => absurd rfl h, fun _ => ⟨?_, ⟨rfl, rfl, rfl, rfl, record_roles _, rfl⟩, ⟨rfl, rfl, rfl⟩,
      rfl, rfl, rfl, rfl, rfl, rfl, rfl, ?_, ?_⟩⟩
    · rw [settle_aside, joinAnswer_aside]
      rfl
    · rw [(record_rateMode a).1]
      omega
    · exact (record_rateMode a).2
  · rw [if_neg hdone]
    obtain ⟨hans, haside⟩ := joinAnswer_refuse (s := s) (c := c) (rest := rest) code
    exact ⟨hans, fun _ => haside, fun h => absurd h hdone⟩

/-! ## LANE-ENABLE (R23, R24, R141, R155) -/

theorem ringValid_iff (s : State) (l : Nat) :
    (!s.ringValid l) = true ↔
      (s.region (s.lane l).record.region).role ≠ .ring ∨ (s.region (s.lane l).record.region).lane ≠ l := by
  rw [Bool.not_eq_true', State.ringValid, decide_eq_false_iff_not, not_and_or]

/-- LANE-ENABLE's refusal table, row by row (R23). -/
theorem laneEnableAnswer_eq (l : Nat) (s : State) :
    laneEnableAnswer l s =
      if 15 < l then .range
      else if (s.lane l).enabled = true then .busy
      else if (s.lane l).record.isSet = false then .notReady
      else if (s.region (s.lane l).record.region).role ≠ .ring ∨ (s.region (s.lane l).record.region).lane ≠ l then .notReady
      else .done :=
  if_congr Iff.rfl rfl (if_congr Iff.rfl rfl (if_congr (Bool.not_eq_true' _).to_iff rfl (if_congr (ringValid_iff s l) rfl rfl)))

/-- The state with lane `l` started clean and the INSERT of the alert in effect posted to it (R24, R141). -/
def State.enabling (s : State) (l : Nat) : State := s.onLane l fun x => (x.enable s.lt).post (s.alert.enableRequest x)

/-- LANE-ENABLE, refused or carried out. -/
theorem laneEnableBody_eq (ws : List Word) (s : State) :
    laneEnableBody ws s =
      if laneEnableAnswer (numAt ws 2) s = .done then carryOut [] (s.enabling (numAt ws 2))
      else refuse (laneEnableAnswer (numAt ws 2) s) s := by
  unfold laneEnableBody laneArg
  cases laneEnableAnswer (numAt ws 2) s <;> rfl

/-- An INSERT of the alert in effect where the lane's zone is in its mask; from IDLE no zone is (R140, R141). -/
theorem enableRequest_or (a : AlertCtl) (x : Lane) (q : Option AlertReq) :
    (a.enableRequest x).or q =
      if a.state ≠ .idle ∧ (a.profileAt a.profile).zones.getLsbD x.record.zone = true then some (.insert a.profile) else q := by
  unfold AlertCtl.enableRequest Lane.inZones AlertCtl.zonesInEffect
  by_cases hidle : a.state = .idle
  · simp [hidle]
  · by_cases hzone : (a.profileAt a.profile).zones.getLsbD x.record.zone = true <;> simp [hidle, hzone]

/-- Settles O38: the refusal table is `laneEnableAnswer_eq`, the lane `Lane.enable` with the request posted. -/
theorem laneEnableAnswers : Obligations.LaneEnableAnswers := by
  intro s c rest hex l ring code
  have hcode : laneEnableAnswer l (s.unqueue rest) = code := laneEnableAnswer_eq l s
  have hbody : execute (isCode 0x03) laneEnableBody s =
      joinAnswer c (if code = .done then carryOut [] ((s.enabling l).unqueue rest) else refuse code (s.unqueue rest)) := by
    rw [execute_of_executing hex _ rfl, laneEnableBody_eq, hcode]
    rfl
  refine ⟨settle s (execute (isCode 0x03) laneEnableBody s), rfl, ?_⟩
  rw [hbody]
  by_cases hdone : code = .done
  · have hl : l < 16 := by
      by_contra hout
      have hrange : code = .range := if_pos (by omega)
      rw [hrange] at hdone
      cases hdone
    rw [if_pos hdone, hdone]
    have hpost : ((s.lane l).enable s.lt).post (s.alert.enableRequest (s.lane l)) =
        { (s.lane l).enable s.lt with
          alertReq :=
            if s.alert.state ≠ .idle ∧ (s.alert.profileAt s.alert.profile).zones.getLsbD (s.lane l).record.zone = true then
              some (.insert s.alert.profile)
            else (s.lane l).alertReq } := by
      rw [post_eq, enableRequest_or]
      rfl
    have hlane : (settle s (joinAnswer c (carryOut [] ((s.enabling l).unqueue rest)))).lane l =
        ((s.lane l).enable s.lt).post (s.alert.enableRequest (s.lane l)) :=
      (settle_lane _ _ _).trans (s.lane_onLane_self (fun x => (x.enable s.lt).post (s.alert.enableRequest x)) hl)
    rw [hlane, hpost]
    refine ⟨joinAnswer_done rfl, fun h => absurd rfl h, fun _ => ⟨?_, rfl, rfl, rfl, rfl, rfl, rfl, rfl, rfl, rfl, fun r => ?_⟩⟩
    · rw [settle_aside, joinAnswer_aside]
      exact congrArg (fun y => (s.setLane l y).aside) (hpost.trans rfl)
    · simp [Lane.enable, Monitor.fresh, ContItem.reset]
  · rw [if_neg hdone]
    obtain ⟨hans, haside⟩ := joinAnswer_refuse (s := s) (c := c) (rest := rest) code
    exact ⟨hans, fun _ => haside, fun h => absurd h hdone⟩

end Sys2Proof.Machine

namespace Sys2Proof.Machine

open Sys2Proof

/-! ## The filtered assertion of the line (R146) -/

theorem lineAsserted_pending (s : State)
    (h : ¬ ((s.alert.profileAt 0).defined = true ∧ (s.alert.state = .idle ∨ s.alert.severity ≤ (s.alert.profileAt 0).severity))) :
    lineAsserted s = { s with alert := { s.alert with linePending := true } } := if_neg h

theorem lineAsserted_begins (s : State)
    (h : (s.alert.profileAt 0).defined = true ∧ (s.alert.state = .idle ∨ s.alert.severity ≤ (s.alert.profileAt 0).severity)) :
    lineAsserted s = beginAlert .activeLine 0 .line s := if_pos h

/-- An assertion of the line changes the controller, the log and the lanes' alert requests at most. -/
theorem lineAsserted_frame (s : State) :
    let t := lineAsserted s
    t = { s with lanes := t.lanes, alert := t.alert, log := t.log } ∧
      ∀ l, t.lane l = { s.lane l with alertReq := (t.lane l).alertReq } ∧ ((s.lane l).enabled = false → t.lane l = s.lane l) := by
  intro t
  by_cases h : (s.alert.profileAt 0).defined = true ∧ (s.alert.state = .idle ∨ s.alert.severity ≤ (s.alert.profileAt 0).severity)
  · obtain ⟨mask, -, -, ht, hlane⟩ := beginAlert_after .activeLine 0 .line s
    rw [← lineAsserted_begins s h] at ht hlane
    refine ⟨?_, fun l => ?_⟩
    · have hlog := congrArg State.log ht
      have halert := congrArg State.alert ht
      change t.log = _ at hlog
      change t.alert = _ at halert
      rw [hlog, halert]
      exact ht
    · have hl : t.lane l = _ := hlane l
      refine ⟨by rw [hl], fun hoff => ?_⟩
      rw [hl, Lane.requestAfter, if_pos hoff]
  · rw [show t = { s with alert := { s.alert with linePending := true } } from lineAsserted_pending s h]
    exact ⟨rfl, fun l => ⟨rfl, fun _ => rfl⟩⟩

/-- An assertion of the line while no alert is in effect (R136, R140, R146). -/
theorem lineAsserted_idle (s : State) (hidle : s.alert.state = .idle) :
    let t := lineAsserted s
    let p0 := s.alert.profileAt 0
    if p0.defined = true then
      t.alert = s.onLine ∧
        (∃ mask, MaskOf mask (s.PostsOn 0 p0.zones) ∧
          t.log = s.logAfter [(255, .alert .start 0 p0.severity .line mask)]) ∧
        ∀ l, (t.lane l).alertReq = (s.lane l).requestAfter 0 p0.zones 0
    else
      t.alert = { s.alert with linePending := true } ∧ t.log = s.log ∧ ∀ l, (t.lane l).alertReq = (s.lane l).alertReq := by
  intro t p0
  by_cases hdef : p0.defined = true
  · have hzones : s.alert.zonesInEffect = 0 := by rw [zonesInEffect_eq, if_pos hidle]
    have hstart : s.alert.action = .start := if_pos hidle
    obtain ⟨mask, -, hmask, ht, hlane⟩ := beginAlert_after .activeLine 0 .line s
    rw [← lineAsserted_begins s ⟨hdef, .inl hidle⟩] at ht hlane
    rw [hzones] at hmask hlane
    rw [if_pos hdef]
    refine ⟨congrArg State.alert ht, ⟨mask, hmask, ?_⟩, fun l => ?_⟩
    · rw [hstart] at ht
      exact congrArg State.log ht
    · exact congrArg Lane.alertReq (hlane l)
  · rw [if_neg hdef, show t = { s with alert := { s.alert with linePending := true } } from lineAsserted_pending s fun h => hdef h.1]
    exact ⟨rfl, rfl, fun l => rfl⟩

/-! ## The release on one lane (R39, R114, R165) -/

theorem Lane.releaseBypass_disabled (x : Lane) (h : x.enabled = false) : x.releaseBypass = x :=
  if_neg (by rw [h]; exact Bool.false_ne_true)

theorem Lane.releaseBypass_enabled (x : Lane) (h : x.enabled = true) :
    let posts := (x.monitor.state = .lost ∨ x.monitor.state = .recovering) ∧ x.slateInsert = none
    x.releaseBypass =
        { x with
          roles := vmap RoleState.released x.roles
          slateInsert := if posts then some { countdown := 0, due := false } else x.slateInsert
          slateRemove := if posts then none else x.slateRemove } := by
  intro posts
  have hsooner : x.slateRemove.filter (fun r => decide (r.countdown < 0)) = none := by simp
  unfold Lane.releaseBypass
  rw [if_pos h]
  by_cases hp : posts
  · rw [if_pos hp, if_pos hp, if_pos hp, ← hsooner]
    rfl
  · rw [if_neg hp, if_neg hp, if_neg hp]

theorem vmap_released (roles : Vector RoleState 4) (r : Fin 4) :
    (vmap RoleState.released roles)[r] = { roles[r] with delta := 0, realign := false } := by
  simp [vmap, RoleState.released]

theorem Lane.releaseBypass_keeps (x : Lane) :
    x.releaseBypass.enabled = x.enabled ∧ x.releaseBypass.record = x.record ∧ x.releaseBypass.alertReq = x.alertReq := by
  by_cases h : x.enabled = true
  · rw [x.releaseBypass_enabled h]
    exact ⟨rfl, rfl, rfl⟩
  · rw [x.releaseBypass_disabled (Bool.eq_false_iff.2 h)]
    exact ⟨rfl, rfl, rfl⟩

/-! ## The release (R114, R152) -/

/-- The state once BYPASS has left every lane, before the line is taken afresh. -/
def State.bypassLeft (s : State) : State := { s with bypass := false, lanes := vmap Lane.releaseBypass s.lanes }

theorem bypassLeft_lane (s : State) (l : Nat) : s.bypassLeft.lane l = (s.lane l).releaseBypass :=
  lane_vmap s Lane.releaseBypass rfl l

theorem bypassLeft_postsOn (s : State) (old new : BitVec 8) : s.bypassLeft.PostsOn old new = s.PostsOn old new := by
  funext l
  obtain ⟨henabled, hrecord, -⟩ := (s.lane l).releaseBypass_keeps
  unfold State.PostsOn
  rw [bypassLeft_lane, henabled, hrecord]

theorem bypassLeft_requestAfter (s : State) (old new : BitVec 8) (p l : Nat) :
    (s.bypassLeft.lane l).requestAfter old new p = (s.lane l).requestAfter old new p := by
  obtain ⟨henabled, hrecord, hreq⟩ := (s.lane l).releaseBypass_keeps
  unfold Lane.requestAfter
  rw [bypassLeft_lane, henabled, hrecord, hreq]

theorem bypassLeft_alertReq (s : State) (l : Nat) : (s.bypassLeft.lane l).alertReq = (s.lane l).alertReq := by
  rw [bypassLeft_lane]
  exact (s.lane l).releaseBypass_keeps.2.2

/-- The release changes the lanes as R114 says, and beyond that the controller, the log and the lanes' alert requests at most. -/
theorem releaseBypass_frame (s : State) :
    let t := releaseBypass s
    t = { s with bypass := false, lanes := t.lanes, alert := t.alert, log := t.log } ∧
      ∀ l, t.lane l = { (s.lane l).releaseBypass with alertReq := (t.lane l).alertReq } ∧
        ((s.lane l).enabled = false → t.lane l = s.lane l) := by
  intro t
  have hoff (l : Nat) (h : (s.lane l).enabled = false) : s.bypassLeft.lane l = s.lane l :=
    (bypassLeft_lane s l).trans ((s.lane l).releaseBypass_disabled h)
  by_cases hline : s.alert.ealFiltered = true
  · have ht : t = lineAsserted s.bypassLeft := if_pos hline
    obtain ⟨hframe, hlane⟩ := lineAsserted_frame s.bypassLeft
    rw [← ht] at hframe hlane
    refine ⟨hframe, fun l => ⟨?_, fun h => ?_⟩⟩
    · rw [← bypassLeft_lane]
      exact (hlane l).1
    · rw [(hlane l).2 (by rw [hoff l h]; exact h), hoff l h]
  · have ht : t = s.bypassLeft := if_neg hline
    rw [ht]
    exact ⟨rfl, fun l => ⟨by rw [bypassLeft_lane], hoff l⟩⟩

/-- Settles O56, by whether BYPASS is held, whether a lane is enabled, and the filtered level of EAL. -/
theorem bypassReleases : Obligations.BypassReleases := by
  intro s
  refine ⟨fun hnot => ⟨settle s s, ?_, settle_apart s s⟩, fun hheld => ?_⟩
  · exact congrArg (fun u => Host.Outcome.next (settle s u)) (if_neg (by rw [hnot]; exact Bool.false_ne_true))
  have hexec : exec .bypassRelease s = .next (settle s (releaseBypass s)) :=
    congrArg (fun u => Host.Outcome.next (settle s u)) (if_pos hheld)
  obtain ⟨hframe, hlane⟩ := releaseBypass_frame s
  refine ⟨_, hexec, ?_, fun l hoff => ?disabled, fun l hon => ?enabled, fun hline => ?quiet, fun hline hidle => ?line, ?_⟩
  · rw [settle_bypass, hframe]
  case disabled =>
    rw [settle_lane]
    exact (hlane l).2 hoff
  case enabled =>
    have ht := (hlane l).1
    rw [(s.lane l).releaseBypass_enabled hon] at ht
    have hroles : ((releaseBypass s).lane l).roles = vmap RoleState.released (s.lane l).roles := congrArg Lane.roles ht
    rw [settle_lane]
    refine ⟨?_, fun r => ?_⟩
    · rw [hroles]
      exact ht
    · rw [hroles]
      exact vmap_released _ r
  case quiet =>
    have ht : releaseBypass s = s.bypassLeft := if_neg (by rw [hline]; exact Bool.false_ne_true)
    simp only [settle_alert, settle_log, settle_lane, ht]
    exact ⟨rfl, rfl, bypassLeft_alertReq s⟩
  case line =>
    have ht : releaseBypass s = lineAsserted s.bypassLeft := if_pos hline
    have hafter := lineAsserted_idle s.bypassLeft hidle
    simp only [bypassLeft_postsOn, bypassLeft_requestAfter, bypassLeft_alertReq] at hafter
    simp only [settle_alert, settle_log, settle_lane, ht]
    exact hafter
  · rw [settle_apart, settle_lanes, settle_alert, settle_log]
    exact congrArg State.apart hframe

end Sys2Proof.Machine

namespace Sys2Proof.Machine

open Sys2Proof

/-! ## A stack torn down (R26, R89) -/

theorem leaveStack_placement (e : Entry) (o : Placement → Outcome) (t : Pt) (s : State) (j : Nat) :
    (leaveStack e o t s).placement j = if e.source = .placement j then Placement.vacant else s.placement j := by
  cases hsource : e.source with
  | placement id =>
    have hleave : leaveStack e o t s = Machine.endPlacement id (o (s.placement id)) (some e) t s := by simp [leaveStack, hsource]
    have hplaces : (leaveStack e o t s).placement j = (s.setPlacement id Placement.vacant).placement j := by
      rw [hleave, endPlacement_eq]
      rfl
    rw [hplaces, setPlacement_vacant]
    exact if_congr (by rw [Source.placement.injEq]; exact eq_comm) rfl rfl
  | laneSlate => simp [leaveStack, hsource]
  | profile q => simp [leaveStack, hsource]

/-- The placements of a torn down stack are EMPTY, whatever the stack holds. -/
theorem leaveAll_placement (o : Outcome) (t : Pt) (st : List Entry) (s : State) (j : Nat) :
    (leaveAll o t st s).placement j = if onStackOf st j then Placement.vacant else s.placement j := by
  induction st generalizing s with
  | nil => simp [leaveAll, onStackOf]
  | cons e rest ih =>
    rw [leaveAll, ih, leaveStack_placement]
    have hcons : onStackOf (e :: rest) j ↔ onStackOf rest j ∨ e.source = .placement j := by simp [onStackOf, or_comm]
    simp only [hcons, ← ite_or]

/-! ## A lane torn down (R26, R27, R66) -/

/-- A lookahead after it is overtaken (R61). -/
def Look.dropped : Look → Look
  | .fetching key a true _ _ => .fetching key a true true false
  | .fetching _ _ false _ _ | .full .. | .empty => .empty

/-- The order of the fetches that wait, once lane `l`'s lookahead is overtaken (R61). -/
def State.orderWithout (s : State) (l : Nat) : List Nat :=
  if (s.lane l).look.ungranted = true then s.router.fetchOrder.filter fun m => decide (m ≠ l) else s.router.fetchOrder

theorem overtaken_frame (s : State) (l : Nat) :
    s.overtaken l =
      { s.looking l (s.lane l).look.dropped with router := { s.router with fetchOrder := s.orderWithout l } } := by
  unfold State.overtaken State.orderWithout
  cases hlook : (s.lane l).look with
  | empty =>
    have hsame : s.looking l .empty = s := setLane_eq_self s l _ (by rw [← hlook])
    change s = { s.looking l .empty with router := s.router }
    rw [hsame]
  | full => rfl
  | fetching key a granted stale demand => cases granted <;> rfl

/-- A lane at LANE-DISABLE (R26). -/
def Lane.dismantled (x : Lane) : Lane :=
  { x with
    enabled := false, stack := [], alertReq := none, slateInsert := none, slateRemove := none
    monitor := { x.monitor with state := .disabled }, look := x.look.dropped }

/-- The state at LANE-DISABLE of lane `l`, before the end of a wait. -/
def State.dismantled (s : State) (l : Nat) : State :=
  let u := leaveAll .abandoned (s.clock l) (s.lane l).stack s
  { s.setLane l (s.lane l).dismantled with
    placements := u.placements, log := u.log
    router := { s.router with forward := s.router.forward.map (FwdEntry.marked l), fetchOrder := s.orderWithout l } }

/-- The lane at LANE-DISABLE but for its lookahead. -/
def Lane.emptied (x : Lane) : Lane := { x.dropRequests.monitorTo .disabled with enabled := false, stack := [] }

/-- The overtaking of the emptied lane's lookahead completes what LANE-DISABLE leaves before the end of a wait. -/
theorem overtake_emptied (s : State) {l : Nat} (hl : l < 16) :
    overtake l (abandonReads l ((leaveAll .abandoned (s.clock l) (s.lane l).stack s).onLane l Lane.emptied)) =
      s.dismantled l := by
  have hkept : ∀ u : State, u.lanes = s.lanes → u.router = s.router →
      overtake l (abandonReads l (u.onLane l Lane.emptied)) =
        { u.setLane l (s.lane l).dismantled with
          router := { s.router with forward := s.router.forward.map (FwdEntry.marked l), fetchOrder := s.orderWithout l } } := by
    intro u hlanes hrouter
    have hsame : u.lane l = s.lane l := by unfold State.lane; rw [hlanes]
    have hlane : (abandonReads l (u.onLane l Lane.emptied)).lane l = (s.lane l).emptied := by
      rw [← hsame]
      exact u.lane_onLane_self Lane.emptied hl
    have horder : (abandonReads l (u.onLane l Lane.emptied)).orderWithout l = s.orderWithout l := by
      unfold State.orderWithout
      rw [hlane, ← hrouter]
      rfl
    have hlook : (abandonReads l (u.onLane l Lane.emptied)).looking l (s.lane l).emptied.look.dropped =
        abandonReads l (u.setLane l (s.lane l).dismantled) := by
      rw [State.looking, hlane]
      exact congrArg (abandonReads l) (setLane_twice u l _ _)
    rw [overtake_eq, overtaken_frame, horder, hlane, hlook, ← hrouter]
    rfl
  rw [hkept _ (by rw [leaveAll_eq]) (by rw [leaveAll_eq]), leaveAll_eq]
  rfl

theorem disableLane_eq (s : State) {l : Nat} (hl : l < 16) :
    disableLane l s = if s.waitsOn l = true then releaseWait (s.dismantled l) else s.dismantled l := by
  have hwait : (s.dismantled l).waitsOn l = s.waitsOn l := rfl
  rw [← hwait, ← overtake_emptied s hl]
  rfl

/-! ## The end of a wait (R27) -/

theorem releaseWait_frame (s : State) :
    releaseWait s = { s with wait := none, router := { s.router with forward := (releaseWait s).router.forward } } := by
  unfold releaseWait
  split <;> rfl

theorem changeFirst_map {α β : Type} {test : α → Bool} {f : α → α} (g : α → β) (hf : ∀ a, g (f a) = g a) (xs : List α) :
    (changeFirst test f xs).map g = xs.map g := by
  induction xs with
  | nil => rfl
  | cons a rest ih =>
    rw [changeFirst]
    split
    · rw [List.map_cons, List.map_cons, hf]
    · rw [List.map_cons, List.map_cons, ih]

theorem changeFirst_mem {α : Type} {test : α → Bool} {f : α → α} {xs : List α} {b : α} (h : b ∈ changeFirst test f xs) :
    b ∈ xs ∨ ∃ a ∈ xs, b = f a := by
  induction xs with
  | nil => exact .inl h
  | cons a rest ih =>
    rw [changeFirst] at h
    split at h
    · rcases List.mem_cons.1 h with rfl | hrest
      · exact .inr ⟨a, List.mem_cons_self .., rfl⟩
      · exact .inl (List.mem_cons_of_mem _ hrest)
    · rcases List.mem_cons.1 h with rfl | hrest
      · exact .inl (List.mem_cons_self ..)
      · exact (ih hrest).imp (List.mem_cons_of_mem _) fun ⟨c, hc, hb⟩ => ⟨c, List.mem_cons_of_mem _ hc, hb⟩

theorem releaseWait_req (s : State) :
    (releaseWait s).router.forward.map FwdEntry.req = s.router.forward.map FwdEntry.req := by
  unfold releaseWait
  split
  · exact changeFirst_map FwdEntry.req (by intro a; rfl) s.router.forward
  · rfl

theorem releaseWait_mem {s : State} {g : FwdEntry} (h : g ∈ (releaseWait s).router.forward) :
    g ∈ s.router.forward ∨ g.state = .ready := by
  unfold releaseWait at h
  split at h
  · rcases changeFirst_mem h with hold | ⟨a, -, rfl⟩
    · exact .inl hold
    · exact .inr rfl
  · exact .inl h

theorem releaseWait_forward {s : State} {pre post : List FwdEntry} {f : FwdEntry} (h : s.FirstIn .arrived pre f post) :
    (releaseWait s).router.forward = pre ++ { f with state := .ready, out := f.raw } :: post := by
  obtain ⟨hforward, hstate, hpre⟩ := h
  have holdest : s.oldestArrived = some f := by
    rw [State.oldestArrived, hforward]
    exact find?_first (fun g hg => decide_eq_false (hpre g hg)) (decide_eq_true hstate)
  rw [releaseWait, holdest]
  simp only
  rw [completeRead_eq s pre f post f.raw ⟨hforward, hstate, hpre⟩]
  rfl

/-! ## LANE-DISABLE (R26, R27) -/

section Marks

variable (l : Nat) (f : FwdEntry)

/-- A slot read's mark of abandonment is all that LANE-DISABLE changes in an entry (R27). -/
theorem marked_eq : f.marked l = { f with abandoned := (f.marked l).abandoned } := by
  unfold FwdEntry.marked
  split
  · split <;> rfl
  all_goals rfl

theorem marked_req : (f.marked l).req = f.req := by rw [marked_eq]
theorem marked_cls : (f.marked l).cls = f.cls := by rw [marked_eq]
theorem marked_state : (f.marked l).state = f.state := by rw [marked_eq]
theorem marked_raw : (f.marked l).raw = f.raw := by rw [marked_eq]

end Marks

theorem marked_abandoned {l k : Nat} {f : FwdEntry} (h : f.cls = .slotRead l k) :
    (f.marked l).state = .ready ∨ (f.marked l).abandoned = true := by
  unfold FwdEntry.marked
  rw [h]
  simp only [true_and]
  split
  next => exact .inr rfl
  next hready => exact .inl (not_not.1 hready)

/-- LANE-DISABLE beyond the forward queue and the wait. -/
theorem disableLane_frame (s : State) {l : Nat} (hl : l < 16) :
    let t := disableLane l s
    t = { s.dismantled l with wait := t.wait, router := { (s.dismantled l).router with forward := t.router.forward } } := by
  intro t
  by_cases hwait : s.waitsOn l = true
  · have ht : t = releaseWait (s.dismantled l) := (disableLane_eq s hl).trans (if_pos hwait)
    have hnone : t.wait = none := by rw [ht, releaseWait_frame]
    rw [hnone, ht]
    exact releaseWait_frame (s.dismantled l)
  · have ht : t = s.dismantled l := (disableLane_eq s hl).trans (if_neg hwait)
    rw [ht]

/-- LANE-DISABLE and the slot reads of the forward queue (R27). -/
theorem disableLane_reads (s : State) {l : Nat} (hl : l < 16) :
    let t := disableLane l s
    (((∀ w, s.wait = some w → w.lane ≠ l) → t.router.forward = s.router.forward.map (FwdEntry.marked l) ∧ t.wait = s.wait) ∧
      ∀ w pre f post, s.wait = some w → w.lane = l → s.FirstIn .arrived pre f post →
        t.router.forward =
          pre.map (FwdEntry.marked l) ++ { f.marked l with state := .ready, out := f.raw } :: post.map (FwdEntry.marked l)) ∧
    (t.router.forward.map FwdEntry.req = s.router.forward.map FwdEntry.req ∧
      ∀ f ∈ t.router.forward, ∀ k, f.cls = .slotRead l k → f.state = .ready ∨ f.abandoned = true) ∧
    (∀ w, t.wait = some w → w.lane ≠ l) := by
  intro t
  have hreq : (s.dismantled l).router.forward.map FwdEntry.req = s.router.forward.map FwdEntry.req := by
    rw [State.dismantled, List.map_map]
    exact List.map_congr_left fun f _ => marked_req l f
  have hdone : ∀ f ∈ (s.dismantled l).router.forward, ∀ k, f.cls = .slotRead l k → f.state = .ready ∨ f.abandoned = true := by
    intro f hf k hcls
    obtain ⟨g, -, rfl⟩ := List.mem_map.1 hf
    exact marked_abandoned ((marked_cls l g).symm.trans hcls)
  by_cases hwait : s.waitsOn l = true
  · have ht : t = releaseWait (s.dismantled l) := (disableLane_eq s hl).trans (if_pos hwait)
    rw [waitsOn_eq, decide_eq_true_eq] at hwait
    obtain ⟨w, hw, hwl⟩ := hwait
    rw [ht]
    refine ⟨⟨fun hother => absurd hwl (hother w hw), fun _ pre f post _ _ hfirst => ?_⟩, ⟨?_, fun f hf k hcls => ?_⟩, ?_⟩
    · obtain ⟨hforward, hstate, hpre⟩ := hfirst
      have hmarked : (s.dismantled l).FirstIn .arrived (pre.map (FwdEntry.marked l)) (f.marked l) (post.map (FwdEntry.marked l)) := by
        refine ⟨?_, (marked_state l f).trans hstate, fun g hg => ?_⟩
        · rw [State.dismantled, hforward, List.map_append, List.map_cons]
        · obtain ⟨g', hg', rfl⟩ := List.mem_map.1 hg
          rw [marked_state]
          exact hpre g' hg'
      rw [← marked_raw l f]
      exact releaseWait_forward hmarked
    · rw [releaseWait_req, hreq]
    · rcases releaseWait_mem hf with hold | hready
      · exact hdone f hold k hcls
      · exact .inl hready
    · rw [releaseWait_frame]
      rintro w ⟨⟩
  · have ht : t = s.dismantled l := (disableLane_eq s hl).trans (if_neg hwait)
    have hother : ∀ w, s.wait = some w → w.lane ≠ l := by
      rw [waitsOn_eq, decide_eq_true_eq] at hwait
      exact fun w hw hwl => hwait ⟨w, hw, hwl⟩
    rw [ht]
    exact ⟨⟨fun _ => ⟨rfl, rfl⟩, fun w _ _ _ hw hwl => absurd hwl (hother w hw)⟩, ⟨hreq, hdone⟩, hother⟩

/-- LANE-DISABLE of an enabled lane: the lane, the placements, the log and the rest (R26, R66). -/
theorem disableLane_after (s : State) {l : Nat} (hl : l < 16) :
    let t := disableLane l s
    t.lane l = (s.lane l).dismantled ∧
      (∀ m, m ≠ l → t.lane m = s.lane m) ∧
      (∀ id, t.placement id = if onStackOf (s.lane l).stack id then Placement.vacant else s.placement id) ∧
      t = { s with
        lanes := t.lanes, placements := t.placements, wait := t.wait, log := t.log
        router := { s.router with forward := t.router.forward, fetchOrder := s.orderWithout l } } ∧
      (noTwice (s.lane l).stack → t.log = s.logAfter (s.reports (fun _ _ => .abandoned) (s.clock l) (s.lane l).stack)) := by
  intro t
  have hframe : t = _ := disableLane_frame s hl
  have hlanes : t.lanes = (s.setLane l (s.lane l).dismantled).lanes := by rw [hframe]; rfl
  have hplaces : t.placements = (leaveAll .abandoned (s.clock l) (s.lane l).stack s).placements := by rw [hframe]; rfl
  have hlog : t.log = (leaveAll .abandoned (s.clock l) (s.lane l).stack s).log := by rw [hframe]; rfl
  refine ⟨?_, fun m hm => ?_, fun id => ?_, ?_, fun hn => ?_⟩
  · rw [State.lane, hlanes]
    exact s.lane_setLane_self _ hl
  · rw [State.lane, hlanes]
    exact s.lane_setLane_ne _ (Ne.symm hm)
  · rw [State.placement, hplaces]
    exact leaveAll_placement _ _ _ s id
  · rw [hlanes, hplaces, hlog]
    exact hframe
  · rw [hlog, (leaveAll_after .abandoned (s.clock l) (s.lane l).stack s hn).1]

/-- Settles O39: the lane torn down is `State.dismantled`, and its reads are those of `disableLane_reads`. -/
theorem laneDisableAnswers : Obligations.LaneDisableAnswers := by
  intro s c rest hex l
  have hbody : execute (isCode 0x04) laneDisableBody s =
      joinAnswer c (if 15 < l then refuse .range (s.unqueue rest)
        else carryOut [] (if (s.lane l).enabled then disableLane l (s.unqueue rest) else s.unqueue rest)) :=
    execute_of_executing hex _ rfl _
  refine ⟨settle s (execute (isCode 0x04) laneDisableBody s), rfl, ?_⟩
  rw [hbody]
  by_cases hrange : 15 < l
  · have hoff : (s.lane l).enabled = false := by rw [State.lane_of_le s (by omega)]; rfl
    obtain ⟨hans, haside⟩ := joinAnswer_refuse (s := s) (c := c) (rest := rest) .range
    rw [if_pos hrange, if_pos hrange]
    exact ⟨hans, fun _ => haside, fun hon => by rw [hoff] at hon; cases hon⟩
  have hl : l < 16 := by omega
  rw [if_neg hrange, if_neg hrange]
  by_cases hon : (s.lane l).enabled = true
  · obtain ⟨hlane, hothers, hplaces, hframe, hlog⟩ := disableLane_after (s.unqueue rest) hl
    obtain ⟨hforward, hreads, hwait⟩ := disableLane_reads (s.unqueue rest) hl
    rw [if_pos hon]
    generalize disableLane l (s.unqueue rest) = t at *
    have hcmd : t.cmd = (s.unqueue rest).cmd := by rw [hframe]
    refine ⟨joinAnswer_done hcmd, fun h => ?_, fun _ => ⟨?_, fun m hm => ?_, fun id _ => ?_, ?_, fun hn => ?_, ?_, ?_, ?_⟩⟩
    · exact absurd hon (by rcases h with h | h <;> simp_all)
    · exact (settle_lane _ _ _).trans hlane
    · exact (settle_lane _ _ _).trans (hothers m hm)
    · exact (settle_placement _ _ _).trans (hplaces id)
    · simp only [settle_aside, joinAnswer_aside, settle_lanes, settle_placements, settle_wait, settle_log, settle_forward]
      exact (congrArg State.aside hframe).trans rfl
    · exact (settle_log _ _).trans (hlog hn)
    · rw [settle_forward, settle_wait]
      exact hforward
    · rw [settle_forward]
      exact hreads
    · rw [settle_wait]
      exact hwait
  · rw [if_neg hon]
    refine ⟨joinAnswer_done rfl, fun _ => ?_, fun h => absurd h hon⟩
    rw [settle_aside, joinAnswer_aside]
    rfl

end Sys2Proof.Machine

namespace Sys2Proof.Machine

open Sys2Proof

/-! ## Slot reads returned as stored (R27, R112) -/

/-- The step completes, as memory gave it, an abandoned read and one of a lane that is not enabled (R27). -/
theorem slotReadStep_stored {s : State} {pre post : List FwdEntry} {f : FwdEntry} {l k : Nat} (h : s.ReadRuns pre f post l k)
    (hoff : f.abandoned = true ∨ (s.lane l).enabled = false) : slotReadStep s = s.readied pre f post f.raw := by
  obtain ⟨hwait, hfirst, hcls⟩ := h
  have hold : s.oldestArrived = some f := by
    rw [State.oldestArrived, hfirst.1]
    exact find?_first (fun g hg => decide_eq_false (hfirst.2.2 g hg)) (decide_eq_true hfirst.2.1)
  have hskips : (f.abandoned || !(s.lane l).enabled) = true := by simpa using hoff
  have hstep : slotReadStep s = completeRead f.raw s := by
    simp only [slotReadStep, hwait, hold, hcls, hskips, Option.isSome_none, Bool.false_eq_true, ↓reduceIte]
  have hsame : ({ s.readied pre f post f.raw with wait := none } : State) = s.readied pre f post f.raw := by rw [← hwait]; rfl
  rw [hstep, completeRead_eq s pre f post f.raw hfirst, hsame]

/-- While BYPASS is held the procedure is its first stage, and the slot is returned as stored (R39). -/
theorem runProcedure_bypass {s one : State} {l k : Nat} {slot : List Byte} (h : s.FirstStage l k (inspect (slotPacket slot)) one)
    (hone : stageOne l k (inspect (slotPacket slot)) s = one) (hb : s.bypass = true) : runProcedure l k slot s = completeRead slot one := by
  have hbypass : one.bypass = true := (congrArg State.bypass h.1).trans hb
  simp only [runProcedure, hone, hbypass, ↓reduceIte]

/-- Settles O32, by whether a stage runs at all. -/
theorem slotReadAsStored : Obligations.SlotReadAsStored := by
  intro s pre post f l k hruns
  refine ⟨fun hoff => ⟨settle s (slotReadStep s), rfl, ?_⟩, fun hab he hb => ?_⟩
  · rw [settle_apart, slotReadStep_stored hruns hoff]
  have hfirst := stageOne_first l k (inspect (slotPacket f.raw)) s he
  generalize hone : stageOne l k (inspect (slotPacket f.raw)) s = one at hfirst
  have hstage := hfirst
  obtain ⟨hframe, hothers, hlane, -, -⟩ := hfirst
  have hfwd : one.router.forward = s.router.forward := congrArg (·.router.forward) hframe
  have hwait : one.wait = none := (congrArg State.wait hframe).trans hruns.1
  have hmem : one.mem = s.mem := by rw [hframe]
  have hdone : completeRead f.raw one = one.readied pre f post f.raw := by
    rw [completeRead_eq one pre f post f.raw ⟨hfwd.trans hruns.2.1.1, hruns.2.1.2⟩, ← hwait]
    rfl
  have hstep : slotReadStep s = one.readied pre f post f.raw := by
    rw [slotReadStep_runs hruns hab he, runProcedure_bypass hstage hone hb, hdone]
  have hlane' : (settle s (slotReadStep s)).lane l = one.lane l := by rw [settle_lane, hstep]; rfl
  refine ⟨settle s (slotReadStep s), one, rfl, ⟨hstage, by rw [settle_apart, hstep]⟩, ?_, ?_, ?_, ?_, ?_, fun m hm => ?_⟩
  · rw [settle_forward, hstep]; rfl
  · rw [settle_wait, hstep]; exact hwait
  · rw [settle_mem, hstep]; exact hmem
  · rw [hlane', hlane]
  · rw [hlane', hlane]
  · rw [settle_lane, hstep]
    exact hothers m hm

end Sys2Proof.Machine

namespace Sys2Proof.Machine

open Sys2Proof

/-! ## The stages of a slot read on the base (R105, R108, R128) -/

section OnBase

variable {s u : State} {l k : Nat} {i : Insp} {cx : ReadCtx}

/-- On an undisturbed lane with the base on top, stages 2 to 5 do nothing. -/
theorem spliceStages_onBase (hst : (u.lane cx.lane).stack = []) (hun : u.Undisturbed cx.lane) :
    spliceStages cx u = finishSource cx (stageSix cx false u) := by
  obtain ⟨halert, hinsert, hremove, hpend⟩ := hun
  have hthree : stageThree cx u = u := by simp only [stageThree, hst]
  have hfour : stageFour cx u = u := stageFour_idle hpend
  have htop : (u.lane cx.lane).top = none := by rw [Lane.top, hst]; rfl
  have hfive : ∀ start, stageFive cx start none false u = (u, .nothing) := fun start => stageFive_same (by rw [htop])
  simp only [spliceStages, stageTwo_idle halert hinsert hremove, hthree, hfour, hst, syncStack, htop, hfive, afterStart]

/-- What the base returns of a stored slot, and the roles it leaves: the slot as stored, but that a packet of a role carries the
renumbered counter (R108, R128). -/
def ServedByBase (x : Lane) (i : Insp) (slot out : List Byte) (roles : Vector RoleState 4) : Prop :=
  if x.record.passes i then out = slot ∧ roles = x.roles
  else
    match x.record.role i with
    | none => out = slot ∧ roles = x.roles
    | some r =>
      let delta := if x.roles[r].realign ∧ i.hasPayload then x.roles[r].outLast + 1 - i.cc else x.roles[r].delta
      out = slot.take 4 ++ setCc (slot.drop 4) (i.cc + delta) ∧
        roles = x.roles.set r
          { outLast := if i.hasPayload then i.cc + delta else x.roles[r].outLast, delta := delta
            realign := x.roles[r].realign && !i.hasPayload }

/-- A lane's roles replaced. -/
def State.roled (u : State) (l : Nat) (roles : Vector RoleState 4) : State := u.setLane l { u.lane l with roles := roles }

theorem roled_lane (hl : l < 16) (roles : Vector RoleState 4) : (u.roled l roles).lane l = { u.lane l with roles := roles } :=
  u.lane_setLane_self _ hl

theorem roled_same : u.roled l (u.lane l).roles = u := setLane_eq_self u l _ rfl

theorem stageSix_onBase (r : ReadAt) (hst : (u.lane r.lane).stack = []) (b : Bool) :
    ∃ out roles, stageSix r.ctx b u = (u.roled r.lane roles, .returns out) ∧
      ServedByBase (u.lane r.lane) r.insp r.slot out roles := by
  have htop : (u.lane r.ctx.lane).top = none := by rw [Lane.top, show (u.lane r.ctx.lane).stack = [] from hst]; rfl
  cases hpass : (u.lane r.lane).record.passes r.insp with
  | true =>
    have hsix : stageSix r.ctx b u = (u, .returns r.slot) := if_pos hpass
    refine ⟨r.slot, (u.lane r.lane).roles, by rw [roled_same, hsix], ?_⟩
    rw [ServedByBase, if_pos hpass]
    exact ⟨rfl, rfl⟩
  | false =>
    have hbase : stageSix r.ctx b u = sourceBase r.ctx u := by
      have hpass' : (u.lane r.ctx.lane).record.passes r.ctx.insp = false := hpass
      simp only [stageSix, hpass', Bool.false_eq_true, ↓reduceIte, htop]
    simp only [ServedByBase, hpass, hbase, sourceBase_eq, Bool.false_eq_true, ↓reduceIte]
    cases (u.lane r.lane).record.role r.insp with
    | none => exact ⟨r.slot, (u.lane r.lane).roles, by rw [roled_same], rfl, rfl⟩
    | some p => exact ⟨_, _, rfl, rfl, rfl⟩

theorem prefetched_onBase (hst : (u.lane l).stack = []) (d : Bool) : u.prefetched l d = u := by
  simp only [State.prefetched, hst]

theorem filterMap_unmet {α β : Type} (p : α → Prop) [DecidablePred p] (g : α → Option β) (xs : List α) (h : ∀ a ∈ xs, ¬ p a) :
    (xs.filterMap fun a => if p a then g a else none) = [] :=
  List.filterMap_eq_nil_iff.2 fun a ha => if_neg (h a ha)

/-- The first stage of an undisturbed lane with the base on top moves its read index and its clock, and counts (R29, R33, R34). -/
theorem stageOne_onBase (he : (s.lane l).enabled = true) (hb : s.bypass = false) (hst : (s.lane l).stack = [])
    (hun : s.Undisturbed l) :
    let one := stageOne l k i s
    one = { s with lanes := one.lanes, log := one.log } ∧
      (∀ m, m ≠ l → one.lane m = s.lane m) ∧
      ∃ malformed ptsLess, one.lane l =
        { s.lane l with
          readIndex := (k + 1) % s.ringSlots l
          readSkips := if k = (s.lane l).readIndex then (s.lane l).readSkips else satInc (s.lane l).readSkips
          malformed := malformed, ptsLess := ptsLess
          clockC := ((s.lane l).record.anchorPts i).getD (s.lane l).clockC
          clockL := if (s.lane l).record.anchorPts i = none then (s.lane l).clockL else s.lt
          anchored := (s.lane l).anchored || ((s.lane l).record.anchorPts i).isSome } := by
  intro one
  obtain ⟨halert, hinsert, hremove, hpend⟩ := hun
  obtain ⟨hstate, hothers, hlane, hplace, -⟩ := stageOne_first l k i s he
  have hsame : one.placements = s.placements := by
    apply Vector.ext
    intro id hid
    have hkept := hplace id hid
    rw [if_neg fun h => hpend id hid h.1 h.2] at hkept
    simpa [State.placement, hid] using hkept
  have hmalformed : (one.lane l).malformed = _ := congrArg Lane.malformed hlane
  have hptsLess : (one.lane l).ptsLess = _ := congrArg Lane.ptsLess hlane
  refine ⟨?_, hothers, (one.lane l).malformed, (one.lane l).ptsLess, hlane.trans ?_⟩
  · rw [← hsame]
    exact hstate
  · rw [filterMap_unmet (fun id => (s.placement id).state = .pending ∧ (s.placement id).lane = l) _ (List.range 128)
      fun id hid h => hpend id (List.mem_range.1 hid) h.1 h.2]
    simp only [Lane.mk.injEq, true_and, hmalformed, hptsLess]
    refine ⟨?_, ?_, ?_, ?_, ?_⟩
    · simp only [hb, Bool.false_eq_true, false_and, ↓reduceIte]
      split <;> rfl
    · rw [hst, List.map_nil]
    · rw [hinsert, Option.map_none]
    · rw [hremove, Option.map_none]
    · exact if_neg fun h => h.1 rfl

/-- Without BYPASS the procedure goes on from its first stage to the others (R97). -/
theorem runProcedure_splices {one : State} {raw : List Byte} (hone : stageOne l k (inspect (raw.drop 4)) s = one)
    (hb : one.bypass = false) :
    runProcedure l k raw s =
      spliceStages { lane := l, slot := raw, insp := inspect (raw.drop 4), clock := one.clock l } one := by
  have hslot : inspect (slotPacket raw) = inspect (raw.drop 4) := rfl
  simp only [runProcedure, hslot, hone, hb, Bool.false_eq_true, ↓reduceIte]

/-- The whole procedure of a slot read of an undisturbed lane with the base on top: its first stage, and the base's roles. -/
theorem runProcedure_onBase {one : State} {raw : List Byte} {pre post : List FwdEntry} {f : FwdEntry}
    (hone : stageOne l k (inspect (raw.drop 4)) s = one) (he : (s.lane l).enabled = true)
    (hb : s.bypass = false) (hst : (s.lane l).stack = []) (hun : s.Undisturbed l) (hfirst : s.FirstIn .arrived pre f post) :
    ∃ out roles,
      runProcedure l k raw s = (one.roled l roles).completed pre f post out ∧
        ServedByBase (s.lane l) (inspect (raw.drop 4)) raw out roles := by
  obtain ⟨hframe, hothers, malformed, ptsLess, hlane⟩ := stageOne_onBase (k := k) (i := inspect (raw.drop 4)) he hb hst hun
  rw [hone] at hframe hothers hlane
  have hb1 : one.bypass = false := (congrArg (·.bypass) hframe).trans hb
  have hst1 : (one.lane l).stack = [] := by rw [hlane]; exact hst
  have hun1 : one.Undisturbed l := by
    obtain ⟨halert, hinsert, hremove, hpend⟩ := hun
    refine ⟨by rw [hlane]; exact halert, by rw [hlane]; exact hinsert, by rw [hlane]; exact hremove, fun id hid => ?_⟩
    rw [show one.placement id = s.placement id from congrArg (·.placement id) hframe]
    exact hpend id hid
  obtain ⟨out, roles, hsix, hserved⟩ := stageSix_onBase { lane := l, slot := raw, clock := one.clock l } hst1 false
  have hfirst1 : (one.roled l roles).FirstIn .arrived pre f post :=
    ⟨(congrArg (·.router.forward) hframe : one.router.forward = s.router.forward).trans hfirst.1, hfirst.2⟩
  have hstack : (((one.roled l roles).completed pre f post out).lane l).stack = [] := by
    have hlane' : ((one.roled l roles).completed pre f post out).lane l = { one.lane l with roles := roles } :=
      roled_lane (enabled_lt he) roles
    rw [hlane']
    exact hst1
  refine ⟨out, roles, ?_, ?_⟩
  · rw [runProcedure_splices hone hb1, spliceStages_onBase hst1 hun1]
    refine (congrArg (finishSource _) hsix).trans ?_
    rw [finishSource_returns hfirst1]
    exact prefetched_onBase hstack false
  · rw [hlane] at hserved
    exact hserved

end OnBase

/-- Settles O33: the stages are those of `runProcedure_staged`, and with the base on top and nothing pending only the first stage
and the base's source change anything. -/
theorem slotReadOnBase : Obligations.SlotReadOnBase := by
  refine fun s pre post f l k hruns hab he hb => ⟨fun hn => ?staged, fun hst hun => ?base⟩
  case staged =>
    obtain ⟨r, one, two, three, four, six, v, hr, hslot, hstaged, hreveals, hfin⟩ :=
      runProcedure_staged s pre f post l k hruns.2.1 he hb hn s
    rw [← slotReadStep_runs hruns hab he] at hfin
    exact ⟨r, one, two, three, four, hr, hslot, hstaged, fun _ => ⟨_, six, v, rfl, hreveals, hfin⟩⟩
  case base =>
    intro x p i
    obtain ⟨out, roles, hrun, hserved⟩ := runProcedure_onBase (k := k) (raw := f.raw) rfl he hb hst hun hruns.2.1
    obtain ⟨hframe, hothers, malformed, ptsLess, hlane⟩ := stageOne_onBase (k := k) (i := inspect (f.raw.drop 4)) he hb hst hun
    generalize stageOne l k (inspect (f.raw.drop 4)) s = one at hrun hframe hothers hlane
    have hl : l < 16 := enabled_lt he
    have hstep : slotReadStep s = (one.roled l roles).completed pre f post out :=
      (slotReadStep_runs hruns hab he).trans hrun
    have hself : (settle s (slotReadStep s)).lane l = { one.lane l with roles := roles } := by
      rw [settle_lane, hstep]
      exact roled_lane hl roles
    refine ⟨settle s (slotReadStep s), out, rfl, ?_, ⟨?_, ?_, ?_, ?_, ?_, fun m hm => ?_⟩, ?_, ?_, ?_⟩
    · rw [settle_forward, hstep]; rfl
    · rw [settle_wait, hstep]; rfl
    · rw [settle_mem, hstep]
      exact congrArg (·.mem) hframe
    · rw [settle_placements, hstep]
      exact congrArg (·.placements) hframe
    · rw [settle_clips, hstep]
      exact congrArg (·.clips) hframe
    · rw [settle_alert, hstep]
      exact congrArg (·.alert) hframe
    · rw [settle_lane, hstep]
      exact (one.lane_setLane_ne _ hm.symm).trans (hothers m hm)
    · rw [hself, hlane]
      exact ⟨rfl, rfl, hst, rfl, rfl⟩
    · rw [hself, hlane]
      cases hpts : (s.lane l).record.anchorPts i with
      | none => simp [x]
      | some c => simp
    · rw [hself]
      exact hserved

end Sys2Proof.Machine

namespace Sys2Proof.Machine

open Sys2Proof

/-! ## CLIP-CLEAR (R54, R55) -/

/-- CLIP-CLEAR's refusal table, row by row (R54). -/
theorem clipClearAnswer_eq (id : Nat) (s : State) :
    clipClearAnswer id s =
      if 255 < id then .range
      else if (s.clip id).defined = false then .noEntry
      else if s.InUse id then .inUse
      else .done := by
  have hdefined : (!(s.clip id).defined) = true ↔ (s.clip id).defined = false := by rw [Bool.not_eq_true']
  exact if_congr Iff.rfl rfl (if_congr hdefined rfl (if_congr (clipInUse_iff s id) rfl rfl))

/-- CLIP-CLEAR, refused or carried out. -/
theorem clipClearBody_eq (ws : List Word) (s : State) :
    clipClearBody ws s =
      if clipClearAnswer (numAt ws 2) s = .done then carryOut [] (s.setClip (numAt ws 2) Clip.undefined)
      else refuse (clipClearAnswer (numAt ws 2) s) s := by
  simp only [clipClearBody]
  cases clipClearAnswer (numAt ws 2) s <;> rfl

/-- Settles O42: the refusal table is `clipClearAnswer_eq`, and an execution that is not refused undefines the entry. -/
theorem clipClearAnswers : Obligations.ClipClearAnswers := by
  intro s c rest hex id code
  have hcode : clipClearAnswer id (s.unqueue rest) = code := clipClearAnswer_eq id s
  have hbody : execute (isCode 0x11) clipClearBody s =
      joinAnswer c (if code = .done then carryOut [] ((s.unqueue rest).setClip id Clip.undefined)
        else refuse code (s.unqueue rest)) := by
    rw [execute_of_executing hex _ rfl, clipClearBody_eq, hcode]
  refine ⟨settle s (execute (isCode 0x11) clipClearBody s), rfl, ?_⟩
  rw [hbody]
  by_cases hdone : code = .done
  · rw [if_pos hdone, hdone]
    refine ⟨joinAnswer_done rfl, fun h => absurd rfl h, fun _ => ?_⟩
    rw [settle_aside, joinAnswer_aside]
    rfl
  · rw [if_neg hdone]
    obtain ⟨hanswered, haside⟩ := joinAnswer_refuse (s := s) (c := c) (rest := rest) code
    exact ⟨hanswered, fun _ => haside, fun h => absurd h hdone⟩

end Sys2Proof.Machine

namespace Sys2Proof.Machine

open Sys2Proof

/-! ## The stacks torn down at the assertion of BYPASS (R66, R90, R91, R112) -/

/-- A lane changed but for its lookahead, which is then overtaken (R61). -/
theorem overtake_onLane (u : State) {l : Nat} (hl : l < 16) {f : Lane → Lane} (hf : ∀ x, (f x).look = x.look) :
    overtake l (u.onLane l f) =
      { u.setLane l { f (u.lane l) with look := (u.lane l).look.dropped } with
        router := { u.router with fetchOrder := u.orderWithout l } } := by
  have hlane : (u.onLane l f).lane l = f (u.lane l) := u.lane_onLane_self f hl
  have horder : (u.onLane l f).orderWithout l = u.orderWithout l := by
    unfold State.orderWithout
    rw [hlane, hf]
    rfl
  have hlook : (u.onLane l f).looking l (u.lane l).look.dropped =
      u.setLane l { f (u.lane l) with look := (u.lane l).look.dropped } := by
    rw [State.looking, hlane]
    exact setLane_twice u l _ _
  rw [overtake_eq, overtaken_frame, horder, hlane, hf, hlook]
  rfl

theorem orderWithout_eq (s : State) (l : Nat) :
    s.orderWithout l = s.router.fetchOrder.filter fun m => !(decide (m = l) && (s.lane m).look.ungranted) := by
  unfold State.orderWithout
  split
  next hlook =>
    refine List.filter_congr fun m _ => ?_
    by_cases hm : m = l
    · simp [hm, hlook]
    · simp [hm]
  next hlook =>
    refine (List.filter_eq_self.2 fun m _ => ?_).symm
    by_cases hm : m = l
    · simp [hm, hlook]
    · simp [hm]

/-- A lane once BYPASS is asserted (R112). -/
def Lane.bared (x : Lane) : Lane :=
  { x with stack := [], alertReq := none, slateInsert := none, slateRemove := none, look := x.look.dropped }

/-- The state once lane `l` is torn down for BYPASS. -/
def State.bared (s : State) (l : Nat) : State :=
  let u := leaveAll .bypassed (s.clock l) (s.lane l).stack s
  { s.setLane l (s.lane l).bared with
    placements := u.placements, log := u.log, router := { s.router with fetchOrder := s.orderWithout l } }

theorem overtake_tearDown (s : State) {l : Nat} (hl : l < 16) :
    overtake l ((leaveAll .bypassed (s.clock l) (s.lane l).stack s).onLane l Lane.tearDown) = s.bared l := by
  rw [overtake_onLane _ hl (f := Lane.tearDown) fun _ => rfl, leaveAll_eq]
  rfl

section Bared

variable (s : State) {l : Nat}

theorem bared_lane_self (hl : l < 16) : (s.bared l).lane l = (s.lane l).bared := s.lane_setLane_self _ hl

theorem bared_lane_ne {m : Nat} (h : m ≠ l) : (s.bared l).lane m = s.lane m := s.lane_setLane_ne _ h.symm

theorem bared_placement (id : Nat) :
    (s.bared l).placement id = if onStackOf (s.lane l).stack id then Placement.vacant else s.placement id :=
  leaveAll_placement .bypassed (s.clock l) (s.lane l).stack s id

theorem bared_handed (hn : noTwice (s.lane l).stack) :
    Handed s (s.bared l) (s.reports (fun _ _ => .bypassed) (s.clock l) (s.lane l).stack) :=
  ⟨(congrArg State.log (leaveAll_after .bypassed (s.clock l) (s.lane l).stack s hn).1).trans rfl, rfl, rfl⟩

end Bared

/-- From `s` to `t` the lanes of a list have been torn down for BYPASS, in the order of the list. -/
structure Bared (ls : List Nat) (s t : State) : Prop where
  lane : ∀ l, t.lane l = if l ∈ ls then (s.lane l).bared else s.lane l
  placement : ∀ id, t.placement id = if ∃ l ∈ ls, onStackOf (s.lane l).stack id then Placement.vacant else s.placement id
  frame : t = { s with
    lanes := t.lanes, placements := t.placements, log := t.log
    router := { s.router with
      fetchOrder := s.router.fetchOrder.filter fun m => !(decide (m ∈ ls) && (s.lane m).look.ungranted) } }
  handed : noTwice (ls.flatMap fun l => (s.lane l).stack) →
    Handed s t (ls.flatMap fun l => s.reports (fun _ _ => .bypassed) (s.clock l) (s.lane l).stack)

/-- The reports of a stack that shares no placement with the one of lane `l` do not see that lane torn down. -/
theorem bared_reports (s : State) {l m : Nat} (hm : m ≠ l)
    (hn : ∀ a ∈ (s.lane l).stack, ∀ b ∈ (s.lane m).stack, a.placementId = none ∨ a.placementId ≠ b.placementId) :
    (s.bared l).reports (fun _ _ => .bypassed) ((s.bared l).clock m) ((s.bared l).lane m).stack =
      s.reports (fun _ _ => .bypassed) (s.clock m) (s.lane m).stack := by
  have hclock : (s.bared l).clock m = s.clock m := by
    rw [State.clock, bared_lane_ne s hm]
    rfl
  rw [hclock, bared_lane_ne s hm]
  refine reports_congr _ _ _ fun b hb id hid => ?_
  rw [bared_placement, if_neg]
  rw [onStackOf_iff]
  rintro ⟨a, ha, haid⟩
  rcases hn a ha b hb with h | h
  · rw [h] at haid
    cases haid
  · exact h (haid.trans hid.symm)

theorem bypassLanes_bared {ls : List Nat} (hls : ∀ l ∈ ls, l < 16) (hnodup : ls.Nodup) (s : State) :
    Bared ls s (bypassLanes ls s) := by
  induction ls generalizing s with
  | nil => exact ⟨fun l => by simp [bypassLanes], fun id => by simp [bypassLanes], by simp [bypassLanes], fun _ => Handed.refl s⟩
  | cons l rest ih =>
    obtain ⟨hnot, hrest⟩ := List.nodup_cons.1 hnodup
    have hl : l < 16 := hls l (List.mem_cons_self ..)
    have hne : ∀ m ∈ rest, m ≠ l := fun m hm he => hnot (he ▸ hm)
    have hstep : bypassLanes (l :: rest) s = bypassLanes rest (s.bared l) := by rw [bypassLanes, overtake_tearDown s hl]
    obtain ⟨hlane, hplaces, hframe, hhanded⟩ := ih (fun m hm => hls m (List.mem_cons_of_mem _ hm)) hrest (s.bared l)
    rw [hstep]
    generalize bypassLanes rest (s.bared l) = t at *
    refine ⟨fun m => ?_, fun id => ?_, ?_, fun hn => ?_⟩
    · rw [hlane]
      by_cases hm : m = l
      · subst hm
        rw [if_neg hnot, if_pos (List.mem_cons_self ..), bared_lane_self s hl]
      · rw [bared_lane_ne s hm]
        exact if_congr (by simp [hm]) rfl rfl
    · have hstacks : (∃ m ∈ rest, onStackOf ((s.bared l).lane m).stack id) ↔ ∃ m ∈ rest, onStackOf (s.lane m).stack id :=
        exists_congr fun m => and_congr_right fun hm => by rw [bared_lane_ne s (hne m hm)]
      rw [hplaces, bared_placement, ← ite_or]
      exact if_congr (by rw [hstacks]; simp [or_comm]) rfl rfl
    · have horder : (s.bared l).router.fetchOrder.filter (fun m => !(decide (m ∈ rest) && ((s.bared l).lane m).look.ungranted)) =
          s.router.fetchOrder.filter fun m => !(decide (m ∈ l :: rest) && (s.lane m).look.ungranted) := by
        change (s.orderWithout l).filter _ = _
        rw [orderWithout_eq, List.filter_filter]
        refine List.filter_congr fun m _ => ?_
        by_cases hm : m = l
        · subst hm
          simp [hnot]
        · rw [bared_lane_ne s hm]
          simp [hm]
      rw [horder] at hframe
      exact hframe
    · rw [List.flatMap_cons, noTwice, List.pairwise_append] at hn
      obtain ⟨hself, hothers, hapart⟩ := hn
      have hstacks : (rest.flatMap fun m => ((s.bared l).lane m).stack) = rest.flatMap fun m => (s.lane m).stack :=
        List.flatMap_congr fun m hm => by rw [bared_lane_ne s (hne m hm)]
      have hreports : (rest.flatMap fun m =>
            (s.bared l).reports (fun _ _ => .bypassed) ((s.bared l).clock m) ((s.bared l).lane m).stack) =
          rest.flatMap fun m => s.reports (fun _ _ => .bypassed) (s.clock m) (s.lane m).stack :=
        List.flatMap_congr fun m hm => bared_reports s (hne m hm) fun a ha b hb => hapart a ha b (List.mem_flatMap.2 ⟨m, hm, hb⟩)
      have hlater := hhanded (by rw [hstacks]; exact hothers)
      rw [hreports] at hlater
      exact (bared_handed s hself).trans hlater

/-! ## The alert's end at the assertion of BYPASS (R136, R152) -/

/-- The records of the alert in effect as BYPASS ends it. -/
def AlertCtl.bypassRecords (a : AlertCtl) (mask : BitVec 16) : List (Nat × RecordBody) :=
  if a.state = .idle then [] else [(255, .alert .finish a.profile a.severity .bypass mask)]

/-- The controller once BYPASS is asserted. -/
def AlertCtl.bypassed (a : AlertCtl) : AlertCtl := { (if a.state = .idle then a else a.toIdle) with linePending := false }

theorem bypassAlert_after (mask : BitVec 16) (s : State) :
    bypassAlert mask s = { s with alert := s.alert.bypassed, log := s.logAfter (s.alert.bypassRecords mask) } := by
  unfold bypassAlert AlertCtl.bypassRecords AlertCtl.bypassed
  by_cases h : s.alert.state = .idle
  · rw [if_pos h, if_pos h, if_pos h]
    rfl
  · rw [if_neg h, if_neg h, if_neg h, handRecord_after]
    rfl

theorem alertMask_iff (s : State) : MaskOf s.alertMask fun l => ∃ e ∈ (s.lane l).stack, e.kind = .alert := by
  intro l hl
  rw [State.alertMask, mask16_iff _ l hl]
  simp only [Lane.entryOf, List.find?_isSome, decide_eq_true_eq]

/-! ## The assertion (R112, R152) -/

theorem unspliced_req (f : FwdEntry) : f.unspliced.req = f.req := by
  unfold FwdEntry.unspliced
  split <;> rfl

theorem unspliced_out (f : FwdEntry) (h : f.unspliced.state = .ready) : f.unspliced.out = f.unspliced.raw := by
  unfold FwdEntry.unspliced at h ⊢
  split
  · rfl
  next hready => rw [if_neg hready] at h; exact absurd h hready

/-- The forward queue once a slot read that waits has been released and every READY read returns its slot as stored (R112). -/
def State.storedForward (s : State) : List FwdEntry :=
  ((if s.wait.isSome then releaseWait s else s).router.forward).map FwdEntry.unspliced

theorem storedForward_req (s : State) : s.storedForward.map FwdEntry.req = s.router.forward.map FwdEntry.req := by
  have hunspliced : FwdEntry.req ∘ FwdEntry.unspliced = FwdEntry.req := funext unspliced_req
  rw [State.storedForward, List.map_map, hunspliced]
  split
  · exact releaseWait_req s
  · rfl

theorem storedForward_out {s : State} {f : FwdEntry} (hf : f ∈ s.storedForward) (hready : f.state = .ready) : f.out = f.raw := by
  obtain ⟨g, -, rfl⟩ := List.mem_map.1 hf
  exact unspliced_out g hready

theorem storedForward_idle {s : State} (h : s.wait = none) : s.storedForward = s.router.forward.map FwdEntry.unspliced := by
  simp [State.storedForward, h]

theorem storedForward_waits {s : State} {w : WaitingRead} {pre post : List FwdEntry} {f : FwdEntry} (hw : s.wait = some w)
    (hfirst : s.FirstIn .arrived pre f post) :
    s.storedForward = pre.map FwdEntry.unspliced ++ { f with state := .ready, out := f.raw } :: post.map FwdEntry.unspliced := by
  simp only [State.storedForward, hw, Option.isSome_some, ↓reduceIte, releaseWait_forward hfirst, List.map_append, List.map_cons]
  rfl

theorem storedForward_congr {s t : State} (hwait : t.wait = s.wait) (hforward : t.router.forward = s.router.forward) :
    t.storedForward = s.storedForward := by
  have hreleased : (releaseWait t).router.forward = (releaseWait s).router.forward := by
    unfold releaseWait State.oldestArrived
    rw [hforward]
    split
    · exact congrArg (changeFirst _ _) hforward
    · exact hforward
  unfold State.storedForward
  rw [hwait]
  split
  · rw [hreleased]
  · rw [hforward]

/-- The state once a wait has ended and every READY read returns its slot as stored (R112). -/
def State.released (u : State) : State :=
  let v := if u.wait.isSome then releaseWait u else u
  v.withForward (v.router.forward.map FwdEntry.asStored)

theorem released_frame (u : State) :
    u.released = { u with wait := none, router := { u.router with forward := u.storedForward } } := by
  have hout : u.released = (if u.wait.isSome then releaseWait u else u).withForward u.storedForward := rfl
  rw [hout]
  cases hwait : u.wait with
  | none => simp [State.withForward, hwait]
  | some w =>
    rw [Option.isSome_some, if_pos rfl, releaseWait_frame]
    rfl

theorem assertBypass_released (s : State) :
    assertBypass s = bypassAlert s.alertMask (bypassLanes laneNumbers { s with bypass := true }).released := rfl

/-- The assertion of BYPASS, from the lanes torn down. -/
theorem assertBypass_bared (s : State) :
    ∃ u, Bared laneNumbers { s with bypass := true } u ∧
      assertBypass s =
        { u with
          wait := none, alert := s.alert.bypassed, log := u.logAfter (s.alert.bypassRecords s.alertMask)
          router := { u.router with forward := s.storedForward } } := by
  have hbared := bypassLanes_bared (ls := laneNumbers) (fun l hl => List.mem_range.1 hl) List.nodup_range
    { s with bypass := true }
  refine ⟨_, hbared, ?_⟩
  have hframe := hbared.frame
  rw [assertBypass_released]
  generalize bypassLanes laneNumbers { s with bypass := true } = u at *
  have hstored : u.storedForward = s.storedForward :=
    storedForward_congr ((congrArg State.wait hframe).trans rfl) ((congrArg (·.router.forward) hframe).trans rfl)
  have halert : u.alert = s.alert := (congrArg State.alert hframe).trans rfl
  rw [released_frame, bypassAlert_after, hstored, ← halert]
  rfl

/-! ## What the assertion leaves, part by part (R66, R91, R112) -/

/-- A lane the ASIC does not have reads as at reset, with an empty lookahead. -/
theorem ungranted_lane {s : State} {m : Nat} (h : (s.lane m).look.ungranted = true) : m ∈ laneNumbers := by
  by_contra hm
  rw [State.lane_of_le s (Nat.not_lt.1 fun hlt => hm (List.mem_range.2 hlt))] at h
  exact absurd h (by decide)

theorem Bared.frame_all {s t : State} (h : Bared laneNumbers s t) :
    t = { s with
      lanes := t.lanes, placements := t.placements, log := t.log
      router := { s.router with fetchOrder := s.router.fetchOrder.filter fun m => !(s.lane m).look.ungranted } } := by
  have horder : (s.router.fetchOrder.filter fun m => !(decide (m ∈ laneNumbers) && (s.lane m).look.ungranted)) =
      s.router.fetchOrder.filter fun m => !(s.lane m).look.ungranted := by
    refine List.filter_congr fun m _ => ?_
    by_cases hm : m ∈ laneNumbers
    · rw [decide_eq_true hm, Bool.true_and]
    · rw [decide_eq_false hm, Bool.false_and, Bool.eq_false_iff.2 (mt ungranted_lane hm)]
  rw [← horder]
  exact h.frame

theorem Bared.placement_all {s t : State} (h : Bared laneNumbers s t) (id : Nat) :
    t.placement id = if ∃ l : Nat, l < 16 ∧ onStackOf (s.lane l).stack id then Placement.vacant else s.placement id := by
  have hlanes : (∃ l ∈ laneNumbers, onStackOf (s.lane l).stack id) ↔ ∃ l : Nat, l < 16 ∧ onStackOf (s.lane l).stack id := by
    simp only [laneNumbers, List.mem_range]
  exact (h.placement id).trans (if_congr hlanes rfl rfl)

/-- Settles O55, by whether BYPASS is held already; asserted, each part of the state is read off the lanes torn down. -/
theorem bypassAsserts : Obligations.BypassAsserts := by
  intro s
  refine ⟨fun hheld => ⟨settle s s, ?_, settle_apart s s⟩, fun hnot => ?_⟩
  · exact congrArg (fun u => Host.Outcome.next (settle s u)) (if_pos hheld)
  have hexec : exec .bypassAssert s = .next (settle s (assertBypass s)) :=
    congrArg (fun u => Host.Outcome.next (settle s u)) (if_neg (by rw [hnot]; exact Bool.false_ne_true))
  obtain ⟨u, hbared, htorn⟩ := assertBypass_bared s
  rw [htorn] at hexec
  refine ⟨_, hexec, ?held, settle_wait _ _, fun l hl => ?lanes, fun id _ => ?placements,
    ⟨fun hwait => ?idle, fun w pre f post hwait hfirst => ?waits⟩, ⟨?reads, fun f hf hready => ?stored⟩, fun hn => ⟨s.alertMask, alertMask_iff s, ?log⟩, ?alert, ?frame⟩
  case held =>
    rw [settle_bypass, hbared.frame]
  case lanes =>
    rw [settle_lane]
    exact (hbared.lane l).trans (if_pos (List.mem_range.2 hl))
  case placements =>
    rw [settle_placement]
    exact hbared.placement_all id
  case idle =>
    rw [settle_forward]
    exact storedForward_idle hwait
  case waits =>
    rw [settle_forward]
    exact storedForward_waits hwait hfirst
  case reads =>
    rw [settle_forward]
    exact storedForward_req s
  case stored =>
    rw [settle_forward] at hf
    exact storedForward_out hf hready
  case log =>
    rw [settle_log]
    exact (hbared.handed hn).logAfter_eq _
  case alert =>
    rw [settle_alert]
    unfold AlertCtl.bypassed
    split
    · rfl
    · rfl
  case frame =>
    rw [settle_apart, settle_lanes, settle_placements, settle_alert, settle_log, settle_forward]
    exact congrArg (fun v => ({ v with
      wait := none, alert := s.alert.bypassed, log := u.logAfter (s.alert.bypassRecords s.alertMask)
      router := { v.router with forward := s.storedForward } } : State).apart) hbared.frame_all

end Sys2Proof.Machine

namespace Sys2Proof.Machine

open Sys2Proof

/-! ## What leaves the memory path alone (R58, R60, R108, R113)

Nearly every operation leaves the forward queue, the reads under way, the wait and the level of BYPASS as they were. In the lanes it
fills no lookahead, and outside stages 2 and 4 of a slot read it makes no stack entry. `Calm` says this once; its flag tells whether
BYPASS may be held, so that the stages that do make entries are calm with the flag clear. -/

/-- From `x` to `y` the lookahead has not become FULL and, where BYPASS may be `held`, an empty stack has stayed empty. -/
structure Lane.Calm (held : Bool) (x y : Lane) : Prop where
  look : y.look.isFull = true → y.look = x.look
  stack : held = true → x.stack = [] → y.stack = []

/-- From `s` to `t` nothing has touched the memory path or the level of BYPASS, and every lane is calm. -/
structure Calm (held : Bool) (s t : State) : Prop where
  bypass : t.bypass = s.bypass
  wait : t.wait = s.wait
  forward : t.router.forward = s.router.forward
  inFlight : t.router.inFlight = s.router.inFlight
  lanes : ∀ l, (s.lane l).Calm held (t.lane l)

namespace Lane.Calm

variable {held : Bool} {x y z : Lane}

theorem refl (x : Lane) : x.Calm held x := ⟨fun _ => rfl, fun _ h => h⟩

theorem trans (h : x.Calm held y) (g : y.Calm held z) : x.Calm held z where
  look hz := by
    have hzy := g.look hz
    rw [hzy]
    exact h.look (hzy ▸ hz)
  stack hb hx := g.stack hb (h.stack hb hx)

theorem of_eq (hlook : y.look = x.look) (hstack : y.stack = x.stack) : x.Calm held y :=
  ⟨fun _ => hlook, fun _ h => hstack.trans h⟩

/-- With BYPASS not held the stack is free. -/
theorem of_look (hlook : y.look = x.look) : x.Calm false y := ⟨fun _ => hlook, nofun⟩

theorem relook (x : Lane) {k : Look} (hk : k.isFull = false) : x.Calm held { x with look := k } :=
  ⟨fun h => absurd (hk.symm.trans h) Bool.false_ne_true, fun _ h => h⟩

theorem mapStack (x : Lane) (f : Entry → Entry) : x.Calm held { x with stack := x.stack.map f } :=
  ⟨fun _ => rfl, fun _ h => by simp [h]⟩

theorem onTop (x : Lane) (f : Entry → Entry) : x.Calm held (x.onTop f) := by
  unfold Lane.onTop
  split
  · exact refl x
  next hst => exact ⟨fun _ => rfl, fun _ h => absurd (hst.symm.trans h) (List.cons_ne_nil _ _)⟩

theorem post (x : Lane) (q : Option AlertReq) : x.Calm held (x.post q) := by
  rw [post_eq]
  exact of_eq rfl rfl

theorem expireSlate (x : Lane) : x.Calm held x.expireSlate := of_eq rfl rfl

theorem fold (x : Lane) : x.Calm held x.fold := by
  rw [fold_eq]
  exact of_eq rfl rfl

end Lane.Calm

namespace Calm

variable {held : Bool} {s t u : State}

theorem refl (s : State) : Calm held s s := ⟨rfl, rfl, rfl, rfl, fun l => .refl (s.lane l)⟩

theorem trans (h : Calm held s t) (g : Calm held t u) : Calm held s u where
  bypass := g.bypass.trans h.bypass
  wait := g.wait.trans h.wait
  forward := g.forward.trans h.forward
  inFlight := g.inFlight.trans h.inFlight
  lanes l := (h.lanes l).trans (g.lanes l)

/-- A change outside all that is named here. -/
theorem away (h : Calm held s t) (hl : u.lanes = t.lanes) (hb : u.bypass = t.bypass) (hw : u.wait = t.wait)
    (hf : u.router.forward = t.router.forward) (hi : u.router.inFlight = t.router.inFlight) : Calm held s u :=
  h.trans ⟨hb, hw, hf, hi, fun l => by rw [congrFun (lane_congr hl) l]; exact .refl _⟩

/-- A change of lane `l`, where the rest named here is as it was. -/
theorem of_lane {l : Nat} (hothers : ∀ m, m ≠ l → t.lane m = s.lane m) (hl : (s.lane l).Calm held (t.lane l))
    (hb : t.bypass = s.bypass) (hw : t.wait = s.wait) (hf : t.router.forward = s.router.forward)
    (hi : t.router.inFlight = s.router.inFlight) : Calm held s t :=
  ⟨hb, hw, hf, hi, fun m => by
    by_cases hm : m = l
    · rw [hm]
      exact hl
    · rw [hothers m hm]
      exact .refl _⟩

/-- The same of a change that is framed by lanes, placements and the log. -/
theorem of_frame {l : Nat} (hframe : t = { s with lanes := t.lanes, placements := t.placements, log := t.log })
    (hothers : ∀ m, m ≠ l → t.lane m = s.lane m) (hl : (s.lane l).Calm held (t.lane l)) : Calm held s t :=
  .of_lane hothers hl ((congrArg State.bypass hframe).trans rfl) ((congrArg State.wait hframe).trans rfl)
    ((congrArg (·.router.forward) hframe).trans rfl) ((congrArg (·.router.inFlight) hframe).trans rfl)

/-! ### Tables -/

theorem setLane (h : Calm held s t) (l : Nat) {y : Lane} (hy : (t.lane l).Calm held y) : Calm held s (t.setLane l y) := by
  by_cases hl : l < 16
  · refine h.trans (.of_lane (fun m hm => t.lane_setLane_ne y hm.symm) ?_ rfl rfl rfl rfl)
    rw [t.lane_setLane_self y hl]
    exact hy
  · refine h.away ?_ rfl rfl rfl rfl
    rw [State.setLane_lanes, Vector.setIfInBounds_eq_of_size_le (Nat.le_of_not_lt hl)]

theorem onLane (h : Calm held s t) (l : Nat) {f : Lane → Lane} (hf : ∀ x : Lane, x.Calm held (f x)) : Calm held s (t.onLane l f) :=
  h.setLane l (hf _)

theorem setClip (h : Calm held s t) (i : Nat) (c : Clip) : Calm held s (t.setClip i c) := h.away rfl rfl rfl rfl rfl

theorem setPlacement (h : Calm held s t) (i : Nat) (p : Placement) : Calm held s (t.setPlacement i p) :=
  h.away rfl rfl rfl rfl rfl

theorem onPlacement (h : Calm held s t) (i : Nat) (f : Placement → Placement) : Calm held s (t.onPlacement i f) :=
  h.setPlacement i _

/-- A change of the Alert Controller alone. -/
theorem withAlert (h : Calm held s t) (a : AlertCtl) : Calm held s { t with alert := a } := h.away rfl rfl rfl rfl rfl

/-- A change of the Log Writer alone. -/
theorem withLog (h : Calm held s t) (g : LogWriter) : Calm held s { t with log := g } := h.away rfl rfl rfl rfl rfl

/-- Every lane changed by one function. -/
theorem mapLanes (h : Calm held s t) {f : Lane → Lane} (hf : ∀ x : Lane, x.Calm held (f x)) (h0 : f Lane.reset = Lane.reset) :
    Calm held s { t with lanes := vmap f t.lanes } :=
  h.trans ⟨rfl, rfl, rfl, rfl, fun l => by rw [lane_vmap t f h0 l]; exact hf _⟩

/-! ### Records and the ends of placements (R89 to R91, R183, R190, R191) -/

theorem presentLog (h : Calm held s t) : Calm held s (presentLog t) := by
  rw [presentLog_eq]
  exact h.withLog _

theorem handRecord (h : Calm held s t) (l : Nat) (b : RecordBody) : Calm held s (handRecord l b t) := by
  rw [handRecord_eq]
  exact h.withLog _

theorem endPlacement (h : Calm held s t) (id : Nat) (o : Outcome) (e : Option Entry) (c : Pt) :
    Calm held s (endPlacement id o e c t) :=
  (h.handRecord _ _).setPlacement _ _

theorem leaveStack (h : Calm held s t) (e : Entry) (o : Placement → Outcome) (c : Pt) : Calm held s (leaveStack e o c t) := by
  unfold Machine.leaveStack
  split
  · exact h.endPlacement _ _ _ _
  · exact h
  · exact h

theorem leaveEnds (h : Calm held s t) (covered : Bool) (c : Pt) (st : List Entry) : Calm held s (leaveEnds covered c st t) := by
  induction st generalizing t with
  | nil => exact h
  | cons e rest ih => exact ih (h.leaveStack _ _ _)

/-- The lane's AUDIT mark after a notice. -/
theorem unmark (h : Calm held s t) (l : Nat) : Calm held s (t.onLane l fun x => { x with audit := .none }) :=
  h.onLane l fun _ => .of_eq rfl rfl

theorem auditEntry (h : Calm held s t) (l id : Nat) (c : Option Pt) (start : Pt) (n : Nat) :
    Calm held s (auditEntry l id c start n t) := by
  unfold Machine.auditEntry
  split
  · exact (h.handRecord _ _).unmark l
  · exact h

theorem auditMissed (h : Calm held s t) (id : Nat) (p : Placement) : Calm held s (auditMissed id p t) := by
  unfold Machine.auditMissed
  split
  · exact (h.handRecord _ _).unmark _
  · exact h

theorem auditReturn (h : Calm held s t) (l : Nat) (k : Kind) (e : Option Pt) (c : Pt) (b : Bool) :
    Calm held s (auditReturn l k e c b t) := by
  unfold Machine.auditReturn
  split
  · exact (h.handRecord _ _).unmark l
  · exact h

/-! ### Lookaheads (R58 to R62) -/

/-- A lane's lookahead replaced by one that is not FULL. -/
theorem relook (h : Calm held s t) (l : Nat) {k : Look} (hk : k.isFull = false) :
    Calm held s (t.onLane l fun x => { x with look := k }) :=
  h.onLane l fun x => .relook x hk

theorem requestFetch (h : Calm held s t) (l : Nat) (e : Entry) (d : Bool) : Calm held s (requestFetch l e d t) := by
  unfold Machine.requestFetch
  split
  · exact h
  · exact (h.relook l rfl).away rfl rfl rfl rfl rfl

theorem prefetchTest (h : Calm held s t) (l : Nat) : Calm held s (prefetchTest l t) := by
  unfold Machine.prefetchTest
  split
  · exact h
  · split
    · exact h.requestFetch _ _ _
    · exact h

theorem prefetchTests (h : Calm held s t) (ls : List Nat) : Calm held s (prefetchTests ls t) := by
  induction ls generalizing t with
  | nil => exact h
  | cons l rest ih => exact ih (h.prefetchTest l)

theorem overtake (h : Calm held s t) (l : Nat) : Calm held s (overtake l t) := by
  unfold Machine.overtake
  split
  · exact h
  · exact h.relook l rfl
  · split
    · exact h.relook l rfl
    · exact (h.relook l rfl).away rfl rfl rfl rfl rfl

theorem alignLook (h : Calm held s t) (l : Nat) : Calm held s (alignLook l t) := by
  unfold Machine.alignLook
  split
  · exact h
  · split
    · exact h
    · exact h.overtake l

theorem demandFetch (h : Calm held s t) (l : Nat) : Calm held s (demandFetch l t) := by
  unfold Machine.demandFetch
  split
  · exact h
  · exact h.relook l rfl
  · split
    · exact h
    · exact h.requestFetch _ _ _

/-! ### Slot writes, cues and late tests (R28, R74 to R83) -/

/-- Cue intake changes entries of its lane's stack, and makes none (R77 to R81). -/
theorem cueTaken_stack {l : Nat} {c : Cue} {injected : Bool} {code : Nat} (h : s.CueTaken l c injected t code)
    (hst : (s.lane l).stack = []) : (t.lane l).stack = [] := by
  have hmoves : ∀ {ids f recent}, s.CueMoves l c ids f recent t → (t.lane l).stack = [] := by
    rintro ids f recent ⟨-, -, hlane, -⟩
    rw [hlane]
    exact hst
  unfold State.CueTaken at h
  extract_lets x armed pending waiting onStack asked cued moved unplaced cancelled recent at h
  clear_value armed
  split at h
  · cases armed with
    | cons id ids => exact hmoves h.1
    | nil =>
      dsimp only at h
      split at h
      · split at h
        · rw [h.1]
          exact hst
        · exact hmoves h.1
      · split at h
        · rw [h.1]
          exact hst
        · rw [h.1]
          exact hst
  · obtain ⟨-, -, hlane, -⟩ := h
    rw [hlane, hst, List.map_nil]
  · rw [h.1]
    exact hst

theorem cueTaken {l : Nat} {c : Cue} {injected : Bool} {code : Nat} (h : s.CueTaken l c injected t code) : Calm held s t := by
  have hframe := cueTaken_frame h
  exact .of_frame hframe.state hframe.others
    ⟨fun _ => (congrArg Lane.look hframe.lane).trans rfl, fun _ => cueTaken_stack h⟩

theorem intake (h : Calm held s t) {l : Nat} (hl : l < 16) (c : Cue) (injected : Bool) : Calm held s (intake l c injected t).1 :=
  h.trans (cueTaken (intake_taken l hl c injected t))

theorem cuePacket {l : Nat} {p : List Byte} {i : Insp} (h : s.CuePacket l p i t) : Calm held s t := by
  unfold State.CuePacket at h
  extract_lets m at h
  split at h
  · rw [h]
    exact .refl s
  · obtain ⟨hmessage, herror⟩ := h
    by_cases hc : i.payLen < 18 ∨ ∀ c, ¬ CueMessage m c
    · rw [herror hc]
      exact (refl s).onLane l fun _ => .of_eq rfl rfl
    · push Not at hc
      obtain ⟨hlen, c, hmsg⟩ := hc
      obtain ⟨code, htaken⟩ := hmessage c hlen hmsg
      exact cueTaken htaken

/-- A slot write (R28): the write index, cue intake, the monitor. -/
theorem ingress (h : Calm held s t) {l : Nat} (hl : l < 16) (w : Nat) (slot : List Byte) : Calm held s (ingress l w slot t) := by
  obtain ⟨taken, x, records, hcue, hwatched, heq⟩ := ingress_parts hl w slot t
  have hwatch := (watched_frame (taken.lane l) (t.ringSlots l) w (slotTag slot) (inspect (slot.drop 4))).lane
  rw [hwatched] at hwatch
  have hfollowed : Calm held s (t.onLane l (Lane.followed (t.ringSlots l) w)) := h.onLane l fun _ => .of_eq rfl rfl
  have htaken : Calm held s taken := hfollowed.trans (cuePacket hcue)
  rw [heq]
  refine (htaken.withLog (taken.logAfter (records.map fun b => (l, b)))).setLane l ?_
  exact .of_eq ((congrArg Lane.look hwatch).trans rfl) ((congrArg Lane.stack hwatch).trans rfl)

theorem lateTest (h : Calm held s t) (id : Nat) : Calm held s (lateTest id t) := by
  unfold Machine.lateTest
  extract_lets p
  split
  · split
    · exact h
    · split
      · exact (h.endPlacement _ _ _ _).auditMissed _ _
      · exact h.onPlacement _ _
  · exact h

theorem withdrawOnStack (h : Calm held s t) (id : Nat) : Calm held s (withdrawOnStack id t) := by
  unfold Machine.withdrawOnStack
  split
  · exact h
  · exact (h.onLane _ fun x => .mapStack x _).onPlacement _ _

/-! ### The Alert Controller (R138 to R152) -/

/-- Requests posted to lanes; a lane at its reset values gets none (R140). -/
theorem postAll (h : Calm held s t) {q : Lane → Option AlertReq} (hq : q Lane.reset = none) : Calm held s (postAll q t) :=
  h.mapLanes (fun x => .post x (q x)) (by rw [hq]; rfl)

theorem beginAlert (h : Calm held s t) (st : AlertState) (p : Nat) (r : AlertReason) : Calm held s (beginAlert st p r t) :=
  ((h.postAll (q := t.alert.requests p) rfl).withAlert _).handRecord _ _

theorem finishAlert (h : Calm held s t) (r : AlertReason) : Calm held s (finishAlert r t) :=
  ((h.postAll (q := t.alert.removals) rfl).withAlert _).handRecord _ _

theorem endAlert (h : Calm held s t) (r : AlertReason) : Calm held s (endAlert r t) := by
  unfold Machine.endAlert
  split
  · exact (h.finishAlert r).beginAlert _ _ _
  · exact h.finishAlert r

theorem lineAsserted (h : Calm held s t) : Calm held s (lineAsserted t) := by
  unfold Machine.lineAsserted
  extract_lets p0
  split
  · exact h.beginAlert _ _ _
  · exact h.withAlert _

theorem lineDeasserted (h : Calm held s t) : Calm held s (lineDeasserted t) := by
  unfold Machine.lineDeasserted
  extract_lets u
  have hu : Calm held s u := h.withAlert _
  split
  · exact hu.endAlert _
  · exact hu

theorem filteredChange (h : Calm held s t) : Calm held s (filteredChange t) := by
  unfold Machine.filteredChange
  split
  · exact h
  · split
    · exact h.lineAsserted
    · exact h.lineDeasserted

theorem renewalFailure (h : Calm held s t) : Calm held s (renewalFailure t) := by
  unfold Machine.renewalFailure
  extract_lets count alert counted
  have hc : Calm held s counted := h.withAlert _
  split
  · exact hc
  · exact (hc.withAlert _).handRecord _ _
  · exact hc.endAlert _
  · exact (hc.withAlert _).handRecord _ _

theorem judgeRenewal (h : Calm held s t) : Calm held s (judgeRenewal t) := by
  unfold Machine.judgeRenewal
  split
  · exact (h.withAlert _).renewalFailure
  · exact (h.withAlert _).withAlert _

/-! ### Stages 1 to 4 of a slot read (R29, R98 to R104) -/

/-- The first stage of a read of an enabled lane moves the E of entries, and makes none (R29, R34). -/
theorem stageOne {l : Nat} (he : (s.lane l).enabled = true) (k : Nat) (i : Insp) : Calm held s (stageOne l k i s) := by
  obtain ⟨hframe, hothers, hlane, -⟩ := stageOne_first l k i s he
  refine .of_frame hframe hothers ⟨fun _ => (congrArg Lane.look hlane).trans rfl, fun _ hst => ?_⟩
  refine (congrArg Lane.stack hlane).trans ?_
  change List.map _ (s.lane l).stack = []
  rw [hst, List.map_nil]

theorem stageTwo (h : Calm false s t) (l : Nat) : Calm false s (stageTwo l t).1 := by
  have happlied : Calm false s (applyAlert l t).1 := by
    unfold applyAlert
    extract_lets x cleared
    split
    · exact h
    · exact h.setLane l (.of_look rfl)
    all_goals
      split
      · exact h.setLane l (.of_look rfl)
      · exact h.setLane l (.of_look rfl)
  have hremove : ∀ x : Lane, x.applyRemove.look = x.look := fun x => by
    unfold Lane.applyRemove
    split <;> rfl
  have hinsert : ∀ x : Lane, x.applyInsert.look = x.look := fun x => by
    unfold Lane.applyInsert
    extract_lets cleared
    split
    · split
      · rfl
      · split <;> rfl
    · rfl
  exact happlied.onLane l fun x => .of_look ((hremove _).trans (hinsert x))

theorem stageThree (h : Calm false s t) (cx : ReadCtx) : Calm false s (stageThree cx t) := by
  unfold Machine.stageThree
  split
  · exact h
  next e rest _ =>
    extract_lets k u
    have hr : Calm false s (reportEnds cx.clock e k t) := by
      unfold reportEnds
      extract_lets top beneath
      split
      · exact (h.leaveEnds _ _ _).leaveEnds _ _ _
      · exact (h.leaveEnds _ _ _).leaveEnds _ _ _
    have hu : Calm false s u := hr.onLane cx.lane fun _ => .of_look rfl
    split
    · exact hu.auditReturn _ _ _ _ _
    · exact hu

theorem enterOne (h : Calm false s t) (cx : ReadCtx) (id : Nat) : Calm false s (enterOne cx id t) := by
  unfold Machine.enterOne
  extract_lets p x start u v
  split
  · exact h.onPlacement _ _
  · have hu : Calm false s u := h.setLane cx.lane (.of_look rfl)
    exact (hu.onPlacement _ _).auditEntry _ _ _ _ _

theorem enterAll (h : Calm false s t) (cx : ReadCtx) (ids : List Nat) : Calm false s (enterAll cx ids t) := by
  induction ids generalizing t with
  | nil => exact h
  | cons id rest ih => exact ih (h.enterOne cx id)

theorem syncStack (h : Calm held s t) (st : List Entry) : Calm held s (syncStack st t) := by
  rw [(syncStack_after st t).1]
  exact h.away rfl rfl rfl rfl rfl

/-! ### Stages 5 and 6 of a slot read (R105, R106, R108) -/

theorem onTop (h : Calm held s t) (l : Nat) (f : Entry → Entry) : Calm held s (t.onLane l fun x => x.onTop f) :=
  h.onLane l fun x => .onTop x f

theorem damageClip (h : Calm held s t) (l : Nat) : Calm held s (damageClip l t) :=
  h.onLane l fun x => (Lane.Calm.onTop x _).trans (.relook _ rfl)

theorem drawPacket (h : Calm held s t) (cx : ReadCtx) (e : Entry) (slot : List Byte) (i : Insp) :
    Calm held s (drawPacket cx e slot i t).1 := by
  unfold Machine.drawPacket
  extract_lets x c lag
  split
  · exact h.setLane _ ((Lane.Calm.onTop x _).trans (.relook _ rfl))
  · exact h.setLane _ (((Lane.Calm.onTop x _).trans (.relook _ rfl)).trans (.of_eq rfl rfl))

theorem consultLook (h : Calm held s t) (cx : ReadCtx) (e : Entry) : Calm held s (consultLook cx e t).1 := by
  unfold Machine.consultLook
  extract_lets u
  have hu : Calm held s u := h.alignLook _
  split
  · split
    · exact hu.damageClip _
    · split
      · exact hu.drawPacket _ _ _ _
      · exact hu
  · exact hu.demandFetch _
  · exact hu.demandFetch _

theorem beginClip (h : Calm held s t) (cx : ReadCtx) (start : Pt) : Calm held s (beginClip cx start t).1 := by
  unfold Machine.beginClip
  extract_lets u
  have hu : Calm held s u := h.alignLook _
  split
  · split
    · exact hu.damageClip _
    · exact hu.onTop _ _
  · exact hu.demandFetch _
  · exact hu.demandFetch _

theorem takeTurn (h : Calm held s t) (cx : ReadCtx) (start : Pt) : Calm held s (takeTurn cx start t).1 := by
  unfold Machine.takeTurn
  split
  · exact h
  · extract_lets e' u
    have hu : Calm held s u := h.onTop _ _
    split
    · exact hu.beginClip _ _
    · exact hu

theorem stageFive (h : Calm held s t) (cx : ReadCtx) (start : Pt) (old : Option Entry) (b : Bool) :
    Calm held s (stageFive cx start old b t).1 := by
  have hold : Calm held s (settleOld cx.lane old b t) := by
    unfold settleOld
    split
    · exact h.onTop _ _
    · split
      · exact h
      · exact h.onLane _ fun x => .mapStack x _
  unfold Machine.stageFive
  split
  · extract_lets u
    have hu : Calm held s u := hold.overtake _
    split
    · exact hu
    next shown _ _ _ =>
      have hs : Calm held s shown := hu.onTop _ _
      split
      · exact hs
      · exact hs.takeTurn _ _
  · exact h

theorem stageSix (h : Calm held s t) (cx : ReadCtx) (b : Bool) : Calm held s (stageSix cx b t).1 := by
  unfold Machine.stageSix
  split
  · exact h
  · split
    · unfold sourceBase
      extract_lets x
      split
      · exact h
      · exact h.setLane _ (.of_eq rfl rfl)
    · unfold sourceEntry
      split
      · exact h
      · split
        · exact h.consultLook _ _
        · split
          · exact h
          · have ht := h.takeTurn cx cx.clock
            split
            next heq => rw [heq] at ht; exact ht
            next heq => rw [heq] at ht; exact ht
            next heq => rw [heq] at ht; exact ht
            next heq =>
              rw [heq] at ht
              split
              · exact ht.consultLook _ _
              · exact ht

end Calm

end Sys2Proof.Machine

namespace Sys2Proof.Machine

open Sys2Proof

/-! ## What a step may return and hold (R58, R60, R108, R113)

`Faithful held s t` bounds what `t` may return and hold by what `s` does: it composes over the parts of a step, and it carries the
law of the slot's tag, the law of BYPASS and the law of the lookahead from `s` to `t`. Its flag tells, as in `Calm`, whether BYPASS
may be held. -/

/-- A slot that the memory path brings: one of 192 bytes, or one that a library fetch under way carries (R58). -/
def State.Brings (s : State) (slot : List Byte) : Prop :=
  slot.length = 192 ∨ ∃ f ∈ s.router.inFlight, f.owner ≠ .forward ∧ f.data = slot

/-- What a READY entry may return: its slot as stored, what an entry of `s` returns already, or, BYPASS not held, a slot under the
stored tag (R108, R113). -/
def State.MayReturn (s : State) (held : Bool) (g : FwdEntry) : Prop :=
  g.out = g.raw ∨ (∃ f ∈ s.router.forward, f.state = .ready ∧ f.raw = g.raw ∧ f.out = g.out) ∨
    held = false ∧ (4 ≤ g.raw.length → g.out.take 4 = g.raw.take 4)

/-- What a lane of `t` holds in a FULL lookahead stood there in `s`, or is a slot brought, with its inspection (R60). -/
def State.MayHold (s : State) (l : Nat) (k : Look) : Prop :=
  ∀ key slot i damaged, k = .full key slot i damaged →
    (s.lane l).look = .full key slot i damaged ∨ s.Brings slot ∧ i = inspect (slot.drop 4)

/-- From `s` to `t` every return, fetch and lookahead is one that `s` allows; with BYPASS `held` no wait begins and no empty stack
gets an entry. -/
structure Faithful (held : Bool) (s t : State) : Prop where
  bypass : t.bypass = true → s.bypass = true
  wait : held = true → s.wait = none → t.wait = none
  reads : ∀ g ∈ t.router.forward, g.state = .ready → s.MayReturn held g
  fetches : ∀ f ∈ t.router.inFlight, f.owner ≠ .forward → s.Brings f.data
  looks : ∀ l, s.MayHold l (t.lane l).look
  empties : held = true → ∀ l, (s.lane l).stack = [] → (t.lane l).stack = []

theorem mayReturn_of_mem {s : State} {held : Bool} {g : FwdEntry} (hg : g ∈ s.router.forward) (hready : g.state = .ready) :
    s.MayReturn held g := .inr (.inl ⟨g, hg, hready, rfl, rfl⟩)

theorem brings_of_mem {s : State} {f : InFlight} (hf : f ∈ s.router.inFlight) (howner : f.owner ≠ .forward) : s.Brings f.data :=
  .inr ⟨f, hf, howner, rfl⟩

theorem mayHold_of_look {s : State} {l : Nat} {k : Look} (h : k.isFull = true → k = (s.lane l).look) : s.MayHold l k :=
  fun _ _ _ _ hk => .inl ((h (by rw [hk]; rfl)).symm.trans hk)

namespace Faithful

variable {held : Bool} {s t u : State}

/-- Calm steps are faithful. -/
theorem of_calm (h : Calm held s t) : Faithful held s t where
  bypass hb := h.bypass ▸ hb
  wait _ hw := h.wait.trans hw
  reads _ hg hready := mayReturn_of_mem (h.forward ▸ hg) hready
  fetches _ hf howner := brings_of_mem (h.inFlight ▸ hf) howner
  looks l := mayHold_of_look (h.lanes l).look
  empties hb l := (h.lanes l).stack hb

theorem refl (s : State) : Faithful held s s := of_calm (.refl s)

theorem brings (h : Faithful held s t) {slot : List Byte} (hslot : t.Brings slot) : s.Brings slot := by
  rcases hslot with hlen | ⟨f, hf, howner, rfl⟩
  · exact .inl hlen
  · exact h.fetches f hf howner

theorem mayReturn (h : Faithful held s t) {g : FwdEntry} (hg : t.MayReturn held g) : s.MayReturn held g := by
  rcases hg with hstored | ⟨f, hf, hready, hraw, hout⟩ | htag
  · exact .inl hstored
  · have hmay := h.reads f hf hready
    unfold State.MayReturn at hmay ⊢
    rwa [hraw, hout] at hmay
  · exact .inr (.inr htag)

theorem mayHold (h : Faithful held s t) {l : Nat} {k : Look} (hk : t.MayHold l k) : s.MayHold l k := fun key slot i damaged hfull => by
  rcases hk key slot i damaged hfull with hlook | ⟨hslot, hinsp⟩
  · exact h.looks l key slot i damaged hlook
  · exact .inr ⟨h.brings hslot, hinsp⟩

theorem trans (h : Faithful held s t) (g : Faithful held t u) : Faithful held s u where
  bypass hb := h.bypass (g.bypass hb)
  wait hb hw := g.wait hb (h.wait hb hw)
  reads e he hready := h.mayReturn (g.reads e he hready)
  fetches f hf howner := h.brings (g.fetches f hf howner)
  looks l := h.mayHold (g.looks l)
  empties hb l hst := g.empties hb l (h.empties hb l hst)

/-- A calm step after a faithful one. -/
theorem calm (h : Faithful held s t) (g : Calm held t u) : Faithful held s u := h.trans (.of_calm g)

/-! ### The laws carried -/

theorem tagsOk (h : Faithful held s t) (hs : s.TagsOk) : t.TagsOk := by
  intro g hg hready hlen
  rcases h.reads g hg hready with hstored | ⟨f, hf, hfready, hraw, hout⟩ | ⟨-, htag⟩
  · rw [hstored]
  · rw [← hraw, ← hout]
    exact hs f hf hfready (hraw ▸ hlen)
  · exact htag hlen

theorem bypassOk (h : Faithful held s t) (hheld : s.bypass = true → held = true) (hs : s.BypassOk) : t.BypassOk := by
  intro hb
  have hon := hheld (h.bypass hb)
  obtain ⟨hstacks, hwait, hreads⟩ := hs (h.bypass hb)
  refine ⟨fun l => h.empties hon l (hstacks l), h.wait hon hwait, fun g hg hready => ?_⟩
  rcases h.reads g hg hready with hstored | ⟨f, hf, hfready, hraw, hout⟩ | ⟨hoff, -⟩
  · exact hstored
  · rw [← hraw, ← hout]
    exact hreads f hf hfready
  · exact absurd (hoff.symm.trans hon) Bool.false_ne_true

theorem returnLaws (h : Faithful held s t) (hheld : s.bypass = true → held = true) (hs : s.ReturnLaws) : t.ReturnLaws :=
  ⟨h.tagsOk hs.1, h.bypassOk hheld hs.2⟩

theorem looksOk (h : Faithful held s t) (hs : s.LooksOk) : t.LooksOk := by
  obtain ⟨hlooks, hfetches⟩ := hs
  have hbrings {slot : List Byte} (hslot : s.Brings slot) : slot.length = 192 := by
    rcases hslot with hlen | ⟨f, hf, howner, rfl⟩
    · exact hlen
    · exact hfetches f hf howner
  refine ⟨fun l key slot i damaged hfull => ?_, fun f hf howner => hbrings (h.fetches f hf howner)⟩
  rcases h.looks l key slot i damaged hfull with hlook | ⟨hslot, hinsp⟩
  · exact hlooks l key slot i damaged hlook
  · exact ⟨hbrings hslot, hinsp⟩

/-! ### The memory path (R1 to R3, R58, R60) -/

/-- The forward queue replaced, by entries that may return what they carry. -/
theorem withForward (h : Faithful held s t) {fs : List FwdEntry} (hfs : ∀ g ∈ fs, g.state = .ready → t.MayReturn held g) :
    Faithful held s (t.withForward fs) :=
  h.trans
    { bypass := id, wait := fun _ hw => hw, reads := hfs, fetches := fun _ hf ho => brings_of_mem hf ho
      looks := fun _ => mayHold_of_look fun _ => rfl, empties := fun _ _ hst => hst }

/-- The reads under way replaced, by fetches that bring what the step may bring. -/
theorem withInFlight (h : Faithful held s t) {fs : List InFlight} (hfs : ∀ f ∈ fs, f.owner ≠ .forward → t.Brings f.data) :
    Faithful held s { t with router := { t.router with inFlight := fs } } :=
  h.trans
    { bypass := id, wait := fun _ hw => hw, reads := fun _ hg hr => mayReturn_of_mem hg hr, fetches := hfs
      looks := fun _ => mayHold_of_look fun _ => rfl, empties := fun _ _ hst => hst }

/-- With BYPASS not held a slot read may come to wait. -/
theorem withWait (h : Faithful false s t) (w : Option WaitingRead) : Faithful false s { t with wait := w } :=
  h.trans
    { bypass := id, wait := nofun, reads := fun _ hg hr => mayReturn_of_mem hg hr, fetches := fun _ hf ho => brings_of_mem hf ho
      looks := fun _ => mayHold_of_look fun _ => rfl, empties := nofun }

/-- A wait ends. -/
theorem noWait (h : Faithful held s t) : Faithful held s { t with wait := none } :=
  h.trans
    { bypass := id, wait := fun _ _ => rfl, reads := fun _ hg hr => mayReturn_of_mem hg hr
      fetches := fun _ hf ho => brings_of_mem hf ho, looks := fun _ => mayHold_of_look fun _ => rfl, empties := fun _ _ hst => hst }

end Faithful

/-- The first entry changed is the one the search finds. -/
theorem changeFirst_found {α : Type} {test : α → Bool} {f : α → α} {xs : List α} {b : α} (h : b ∈ changeFirst test f xs) :
    b ∈ xs ∨ ∃ a, xs.find? test = some a ∧ b = f a := by
  induction xs with
  | nil => exact .inl h
  | cons a rest ih =>
    by_cases ha : test a = true
    · rw [changeFirst, if_pos ha] at h
      rcases List.mem_cons.1 h with rfl | hrest
      · exact .inr ⟨a, List.find?_cons_of_pos ha, rfl⟩
      · exact .inl (List.mem_cons_of_mem _ hrest)
    · rw [changeFirst, if_neg ha] at h
      rcases List.mem_cons.1 h with rfl | hrest
      · exact .inl (List.mem_cons_self ..)
      · rw [List.find?_cons_of_neg ha]
        exact (ih hrest).imp_left (List.mem_cons_of_mem _)

/-- The slot read whose procedure runs, if any, has stored slot `slot`. -/
def State.Serving (s : State) (slot : List Byte) : Prop := ∀ f, s.oldestArrived = some f → f.raw = slot

theorem Calm.serving {held : Bool} {s t : State} {slot : List Byte} (h : Calm held s t) (hs : s.Serving slot) : t.Serving slot := by
  unfold State.Serving State.oldestArrived
  rw [h.forward]
  exact hs

/-- An outcome of stage 6 keeps the tag of the ring slot (R108). -/
def Src.Tagged (slot : List Byte) : Src → Prop
  | .returns out => 4 ≤ slot.length → out.take 4 = slot.take 4
  | .waits _ => True

namespace Faithful

variable {held : Bool} {s t u : State}

/-- A read completes with its slot as stored, or, BYPASS not held, with a slot under the stored tag (R108). -/
theorem completeRead (h : Faithful held s t) {out : List Byte}
    (hout : ∀ f, t.oldestArrived = some f → out = f.raw ∨ held = false ∧ (4 ≤ f.raw.length → out.take 4 = f.raw.take 4)) :
    Faithful held s (completeRead out t) := by
  have hreturns : Faithful held s (t.withForward
      (changeFirst FwdEntry.isArrived (fun f => { f with state := .ready, out := out }) t.router.forward)) := by
    refine h.withForward fun g hg hready => ?_
    rcases changeFirst_found hg with hold | ⟨f, hf, rfl⟩
    · exact mayReturn_of_mem hold hready
    · exact (hout f hf).imp id .inr
  exact hreturns.noWait

theorem releaseWait (h : Faithful held s t) : Faithful held s (releaseWait t) := by
  unfold Machine.releaseWait
  split
  next f hf => exact h.completeRead fun g hg => .inl (congrArg FwdEntry.raw (Option.some.inj (hf.symm.trans hg)))
  · exact h.noWait

end Faithful

/-! ### The slot that stage 6 returns (R108) -/

theorem slotWith_tagged (slot p : List Byte) : (Src.returns (slotWith slot p)).Tagged slot := fun hlen =>
  List.take_left' (by rw [List.length_take]; exact Nat.min_eq_left hlen)

theorem nullSlot_tagged (cx : ReadCtx) : (nullSlot cx).Tagged cx.slot := slotWith_tagged _ _

theorem drawPacket_tagged (cx : ReadCtx) (e : Entry) (slot : List Byte) (i : Insp) (s : State) :
    (drawPacket cx e slot i s).2.Tagged cx.slot := by
  unfold drawPacket
  extract_lets x c lag
  split
  · exact nullSlot_tagged cx
  · exact slotWith_tagged _ _

theorem consultLook_tagged (cx : ReadCtx) (e : Entry) (s : State) : (consultLook cx e s).2.Tagged cx.slot := by
  unfold consultLook
  extract_lets u
  split
  · split
    · exact nullSlot_tagged cx
    · split
      · exact drawPacket_tagged _ _ _ _ _
      · exact nullSlot_tagged cx
  · trivial
  · trivial

theorem sourceEntry_tagged (cx : ReadCtx) (b : Bool) (e : Entry) (s : State) : (sourceEntry cx b e s).2.Tagged cx.slot := by
  unfold sourceEntry
  split
  · exact nullSlot_tagged cx
  · split
    · exact consultLook_tagged _ _ _
    · split
      · exact nullSlot_tagged cx
      · split
        · exact nullSlot_tagged cx
        · exact nullSlot_tagged cx
        · trivial
        · split
          · exact consultLook_tagged _ _ _
          · exact nullSlot_tagged cx

theorem stageSix_tagged (cx : ReadCtx) (b : Bool) (s : State) : (stageSix cx b s).2.Tagged cx.slot := by
  unfold stageSix
  split
  · exact fun _ => rfl
  · split
    · unfold sourceBase
      extract_lets x
      split
      · exact fun _ => rfl
      · exact slotWith_tagged _ _
    · exact sourceEntry_tagged _ _ _ _

namespace Faithful

variable {s t u : State}

/-! ### The slot read, BYPASS not held (R97) -/

theorem finishSource {r : State × Src} {cx : ReadCtx} (h : Faithful false s t) (hserves : t.Serving cx.slot)
    (hcalm : Calm false t r.1) (htag : r.2.Tagged cx.slot) : Faithful false s (finishSource cx r) := by
  unfold Machine.finishSource
  split
  next out hout =>
    refine ((h.calm hcalm).completeRead (out := out) fun f hf => .inr ⟨rfl, ?_⟩).calm ((Calm.refl _).prefetchTest _)
    rw [hcalm.serving hserves f hf]
    rw [hout] at htag
    exact htag
  · exact (h.calm hcalm).withWait _

theorem afterStart {r : State × Turn} {cx : ReadCtx} (h : Faithful false s t) (hserves : t.Serving cx.slot)
    (hcalm : Calm false t r.1) (start : Pt) : Faithful false s (afterStart cx start r) := by
  have hsix := fun b => h.finishSource hserves (hcalm.stageSix cx b) (stageSix_tagged cx b r.1)
  unfold Machine.afterStart
  split
  · exact (h.calm hcalm).withWait _
  · exact hsix _
  · exact hsix _
  · exact hsix _

theorem spliceStages (h : Faithful false s t) {cx : ReadCtx} (hserves : t.Serving cx.slot) :
    Faithful false s (spliceStages cx t) :=
  h.afterStart hserves
    ((((((Calm.refl t).stageTwo cx.lane).stageThree cx).enterAll cx _).syncStack _).stageFive cx _ _ _) _

theorem resumeRead (h : Faithful false s t) (w : WaitingRead) : Faithful false s (resumeRead w t) := by
  unfold Machine.resumeRead
  split
  · exact h
  next f hf =>
    extract_lets cx
    have hserves : t.Serving cx.slot := fun g hg => congrArg FwdEntry.raw (Option.some.inj (hg.symm.trans hf))
    split
    · exact h.afterStart hserves ((Calm.refl t).beginClip cx w.clock) _
    · split
      next e _ => exact h.finishSource hserves ((Calm.refl t).consultLook cx e) (consultLook_tagged cx e t)
      · exact h

end Faithful

/-! ### The parts of a step on the memory path -/

/-- A lane after lane `l` has changed is as it was, or is lane `l` changed. -/
theorem lane_onLane_cases (s : State) (l : Nat) (f : Lane → Lane) (m : Nat) :
    (s.onLane l f).lane m = s.lane m ∨ m = l ∧ (s.onLane l f).lane m = f (s.lane m) := by
  by_cases hm : m = l
  · subst hm
    by_cases hl : m < 16
    · exact .inr ⟨rfl, s.lane_onLane_self f hl⟩
    · have hge := Nat.le_of_not_lt hl
      exact .inl ((State.lane_of_le _ hge).trans (s.lane_of_le hge).symm)
  · exact .inl (s.lane_onLane_ne f (Ne.symm hm))

namespace Faithful

variable {held : Bool} {s t : State}

/-- The next procedure runs on an enabled lane, and under BYPASS returns the slot as stored (R97, R113). -/
theorem runProcedure {l : Nat} (he : (s.lane l).enabled = true) (k : Nat) {slot : List Byte} (hserves : s.Serving slot) :
    Faithful s.bypass s (runProcedure l k slot s) := by
  unfold Machine.runProcedure
  extract_lets i one
  have hone : Calm s.bypass s one := .stageOne he k i
  split
  · exact (of_calm hone).completeRead fun f hf => .inl (hone.serving hserves f hf).symm
  next hoff =>
    rw [hone.bypass, Bool.not_eq_true] at hoff
    rw [hoff] at hone ⊢
    exact (of_calm hone).spliceStages (hone.serving hserves)

theorem slotReadStep (s : State) : Faithful s.bypass s (slotReadStep s) := by
  unfold Machine.slotReadStep
  split
  · exact refl s
  · split
    · exact refl s
    next f hf =>
      have hserves : s.Serving f.raw := fun g hg => congrArg FwdEntry.raw (Option.some.inj (hg.symm.trans hf))
      split
      next l k _ =>
        split
        · exact (refl s).completeRead fun g hg => .inl (hserves g hg).symm
        next hruns =>
          have he : (s.lane l).enabled = true := by simp at hruns; exact hruns.2
          exact runProcedure he k hserves
      all_goals exact refl s

/-- A lookahead filled with a slot that is brought, with its inspection (R60). -/
theorem fill (h : Faithful held s t) (l : Nat) (key : LookKey) {slot : List Byte} (hslot : s.Brings slot) (damaged : Bool) :
    Faithful held s (t.onLane l fun x => { x with look := .full key slot (inspect (slotPacket slot)) damaged }) := by
  have hlane := lane_onLane_cases t l fun x => { x with look := .full key slot (inspect (slotPacket slot)) damaged }
  refine ⟨h.bypass, h.wait, h.reads, h.fetches, fun m => ?_, fun hb m hst => ?_⟩
  · rcases hlane m with hm | ⟨rfl, hm⟩
    · rw [hm]
      exact h.looks m
    · rw [hm]
      intro key' slot' i' damaged' hfull
      cases hfull
      exact .inr ⟨hslot, rfl⟩
  · rcases hlane m with hm | ⟨rfl, hm⟩
    · rw [hm]
      exact h.empties hb m hst
    · rw [hm]
      exact h.empties hb m hst

theorem fillLook (h : Faithful held s t) (l : Nat) {slot : List Byte} (hslot : s.Brings slot) :
    Faithful held s (fillLook l slot t) := by
  unfold Machine.fillLook
  split
  · split
    · exact h.calm (((Calm.refl t).relook l rfl).prefetchTest l)
    · exact h.fill l _ hslot _
  · exact h

/-- A library fetch arrives; where BYPASS may be held no read waits for it (R60, R97, R113). -/
theorem fetchArrival (hwait : held = true → s.wait = none) : Faithful held s (fetchArrival s) := by
  unfold Machine.fetchArrival
  split
  next l clip orphan data rest hflight =>
    have hrest : Faithful held s (landed rest s) :=
      (refl s).withInFlight fun f hf howner => brings_of_mem (hflight ▸ List.mem_cons_of_mem _ hf) howner
    have hdata : s.Brings data :=
      brings_of_mem (f := ⟨.fetch l clip orphan, data⟩) (hflight ▸ List.mem_cons_self ..) nofun
    split
    · exact hrest
    · have hfilled := hrest.fillLook l hdata
      unfold continueWait
      split
      next w hw =>
        split
        · cases held with
          | true => exact absurd (hw.symm.trans (hfilled.wait rfl (hwait rfl))) (Option.some_ne_none w)
          | false => exact hfilled.resumeRead w
        · exact hfilled
      · exact hfilled
  · exact refl s
  · exact refl s

/-- An entry that arrives READY returns its data as memory gave it (R1, R3). -/
theorem arrive_stored (f : FwdEntry) (data : List Byte) (h : (f.arrive data).state = .ready) :
    (f.arrive data).out = (f.arrive data).raw := by
  unfold FwdEntry.arrive at h ⊢
  split
  next hcls =>
    split
    · rfl
    next hkept => simp [hcls, hkept] at h
  all_goals rfl

theorem readArrival (s : State) : Faithful held s (readArrival s) := by
  unfold Machine.readArrival
  split
  next data rest hflight =>
    have hrest : Faithful held s (landed rest s) :=
      (refl s).withInFlight fun f hf howner => brings_of_mem (hflight ▸ List.mem_cons_of_mem _ hf) howner
    refine hrest.withForward fun g hg hready => ?_
    rcases changeFirst_found hg with hold | ⟨f, -, rfl⟩
    · exact mayReturn_of_mem hold hready
    · exact .inl (arrive_stored f data hready)
  · exact refl s
  · exact refl s

theorem returnRead (s : State) : Faithful held s (returnRead s) := by
  unfold Machine.returnRead
  split
  · exact refl s
  · split
    · have hleft : Faithful held s (s.withForward (removeFirst FwdEntry.isRead s.router.forward)) :=
        (refl s).withForward fun g hg hready => mayReturn_of_mem ((removeFirst_sublist _ _).subset hg) hready
      exact hleft.calm ((Calm.refl _).away rfl rfl rfl rfl rfl)
    · exact refl s

/-! ### Requests and grants (R1, R2, R13, R58) -/

theorem enqueue (h : Faithful held s t) (r : QRequest) (c : FwdClass) : Faithful held s (enqueue r c t) := by
  refine h.withForward fun g hg hready => ?_
  rcases List.mem_append.1 hg with hold | hnew
  · exact mayReturn_of_mem hold hready
  · rw [List.mem_singleton.1 hnew] at hready
    cases hready

end Faithful

namespace Calm

variable {held : Bool} {s t : State}

theorem takeCommand (n : Nat) (ws : List Word) (s : State) : Calm held s (takeCommand n ws s) := by
  unfold Machine.takeCommand
  split
  · exact (refl s).away rfl rfl rfl rfl rfl
  · split <;> exact (refl s).away rfl rfl rfl rfl rfl

theorem cancelCommand (n : Nat) (s : State) : Calm held s (cancelCommand n s) := by
  unfold Machine.cancelCommand
  split
  · exact (refl s).away rfl rfl rfl rfl rfl
  · split
    · exact (refl s).away rfl rfl rfl rfl rfl
    · exact refl s

theorem acceptControl (r : QRequest) (s : State) : Calm held s (acceptControl r s).1 := by
  unfold Machine.acceptControl
  split
  · rcases offerWrite_eq (s.controlLine r) r s with he | he | he
    · rw [he]
      exact cancelCommand _ s
    · rw [he]
      exact takeCommand _ _ s
    · rw [he]
      exact (refl s).away rfl rfl rfl rfl rfl
  · exact refl s

/-- A slot write reaches the Lane Tracker for a live ring, so for a lane of the part (R13). -/
theorem acceptRing (i : Nat) (r : QRequest) (s : State) : Calm held s (acceptRing i r s).1 := by
  unfold Machine.acceptRing
  extract_lets l off
  split
  · exact refl s
  next hlive =>
    split
    · have he : (s.lane l).enabled = true := by
        simp [State.ringLive] at hlive
        exact hlive.1
      exact (refl s).ingress (enabled_lt he) _ _
    · split
      · exact refl s
      · have hcounted : Calm held s (s.onLane l fun x => { x with strays := satInc x.strays }) :=
          (refl s).onLane l fun _ => .of_eq rfl rfl
        exact hcounted

theorem classify (r : QRequest) (s : State) : Calm held s (classify r s).1 := by
  unfold Machine.classify
  split
  · exact (refl s).away rfl rfl rfl rfl rfl
  · exact acceptControl r s
  · unfold acceptRegion
    split
    · exact acceptRing _ r s
    · unfold acceptLog
      split
      · exact (refl s).away rfl rfl rfl rfl rfl
      · exact refl s
    all_goals exact refl s
  · exact refl s

end Calm

namespace Faithful

variable {held : Bool} {s t : State}

theorem acceptRequest (r : QRequest) (s : State) : Faithful held s (acceptRequest r s) := by
  have hcounted : Calm held s (countStrayClaim r s) := by
    unfold countStrayClaim
    split
    · exact (Calm.refl s).away rfl rfl rfl rfl rfl
    · exact .refl s
  have hclaimed : Calm held s (if r.isClaim then claim r s else s) := by
    split
    · exact (Calm.refl s).away rfl rfl rfl rfl rfl
    · exact .refl s
  unfold Machine.acceptRequest
  split
  · exact refl s
  · split
    · exact (refl s).enqueue r _
    · split
      · exact (of_calm (hcounted.trans (.classify r _))).enqueue r _
      · exact (of_calm hclaimed).enqueue r _

end Faithful

/-! ### The arbiter and the resets (R16 to R20) -/

theorem Calm.grantLog {held : Bool} (s : State) : Calm held s (grantLog s) := by
  have hline : ∀ b c w, Calm held s (grantLogLine b c w s) := fun b c w => by
    unfold grantLogLine
    extract_lets a head
    split
    · exact (refl s).away rfl rfl rfl rfl rfl
    · split <;> exact (refl s).away rfl rfl rfl rfl rfl
  unfold Machine.grantLog
  split
  · exact (hline _ _ _).presentLog
  all_goals exact refl s

/-- After a reset event a READY entry returns its slot as stored (R19). -/
theorem toPlain_stored (f : FwdEntry) (h : f.toPlain.state = .ready) : f.toPlain.out = f.toPlain.raw := by
  unfold FwdEntry.toPlain at h ⊢
  split at h
  next hstate => cases hstate.symm.trans h
  next hstate => cases hstate.symm.trans h
  · rfl
  · rfl

theorem toOrphan_owner (f : InFlight) (h : f.toOrphan.owner ≠ .forward) : f.owner ≠ .forward := by
  unfold InFlight.toOrphan at h
  split at h
  · exact h
  next howner => rw [howner]; nofun

theorem toOrphan_data (f : InFlight) : f.toOrphan.data = f.data := by
  unfold InFlight.toOrphan
  split <;> rfl

namespace Faithful

variable {held : Bool} {s t : State}

theorem resetBlocks (h : Faithful held s t) : Faithful held s (resetBlocks t) := by
  have hlane : ∀ l, (Machine.resetBlocks t).lane l = Lane.reset := (resetBlocks_blank t).lane
  refine h.trans ⟨id, fun _ _ => rfl, fun g hg hready => .inl ?_, fun f hf howner => ?_, fun l => ?_, fun _ l _ => ?_⟩
  · obtain ⟨f, -, rfl⟩ := List.mem_map.1 hg
    exact toPlain_stored f hready
  · obtain ⟨e, he, rfl⟩ := List.mem_map.1 hf
    rw [toOrphan_data]
    exact brings_of_mem he (toOrphan_owner e howner)
  · rw [hlane]
    exact mayHold_of_look nofun
  · rw [hlane]
    rfl

theorem grantPart (s : State) : Faithful held s (grantPart s) := by
  have htaken : ∀ rest, Calm held s (takeWaiting rest s) := fun _ => (Calm.refl s).away rfl rfl rfl rfl rfl
  unfold Machine.grantPart
  split
  · exact refl s
  next n rest _ =>
    unfold grantAnswer
    split
    · exact of_calm (htaken rest)
    · extract_lets written cmd left
      have hleft : Calm held s left := (htaken rest).away rfl rfl rfl rfl rfl
      split
      · exact ((of_calm hleft).resetBlocks).calm ((Calm.refl _).away rfl rfl rfl rfl rfl)
      · exact of_calm hleft
  next rest _ => exact of_calm ((htaken rest).trans (.grantLog _))
  next rest _ => exact of_calm ((htaken rest).away rfl rfl rfl rfl rfl)

/-- A granted fetch carries the 192 bytes of a slot (R2, R58). -/
theorem grantFetch (h : Faithful held s t) (l : Nat) : Faithful held s (grantFetch l t) := by
  unfold Machine.grantFetch
  split
  next key a stale demand _ =>
    have hasked : Faithful held s (t.onLane l fun x => { x with look := .fetching key a true stale demand }) :=
      h.calm ((Calm.refl t).relook l rfl)
    have hflight := hasked.withInFlight
      (fs := t.router.inFlight ++ [{ owner := .fetch l key.clip false, data := t.mem.readBytes a Config.slotBytes }])
      fun f hf howner => by
        rcases List.mem_append.1 hf with hold | hnew
        · exact brings_of_mem hold howner
        · rw [List.mem_singleton.1 hnew]
          exact .inl (by simp [Memory.readBytes, Config.slotBytes])
    exact hflight.calm ((Calm.refl _).away rfl rfl rfl rfl rfl)
  all_goals exact h.calm ((Calm.refl t).away rfl rfl rfl rfl rfl)

theorem grantForward (h : Faithful held s t) : Faithful held s (grantForward t) := by
  unfold Machine.grantForward
  split
  · exact h
  · split
    · have hleft := h.withForward (fs := removeFirst FwdEntry.isQueued t.router.forward)
        fun g hg hready => mayReturn_of_mem ((removeFirst_sublist _ _).subset hg) hready
      exact hleft.calm ((Calm.refl _).away rfl rfl rfl rfl rfl)
    next a n _ =>
      have hgranted := h.withForward
        (fs := changeFirst FwdEntry.isQueued (fun f => { f with state := .granted }) t.router.forward) fun g hg hready => by
          rcases changeFirst_found hg with hold | ⟨f, -, rfl⟩
          · exact mayReturn_of_mem hold hready
          · cases hready
      have hflight := hgranted.withInFlight
        (fs := t.router.inFlight ++ [{ owner := .forward, data := t.mem.readBytes a (Config.lineBytes * n) }])
        fun f hf howner => by
          rcases List.mem_append.1 hf with hold | hnew
          · exact brings_of_mem hold howner
          · exact absurd (congrArg InFlight.owner (List.mem_singleton.1 hnew)) howner
      exact hflight.calm ((Calm.refl _).away rfl rfl rfl rfl rfl)

theorem grantStep (s : State) : Faithful held s (grantStep s) := by
  have hcounted : Faithful held s (countWait s) :=
    of_calm ((Calm.refl s).away (by rw [countWait_eq]) (by rw [countWait_eq]) (by rw [countWait_eq]) (by rw [countWait_eq])
      (by rw [countWait_eq]))
  unfold Machine.grantStep
  split
  · exact grantPart s
  · exact hcounted.grantFetch _
  · exact hcounted.grantForward
  · exact refl s

end Faithful

/-! ### The lines and the close of a step (R112, R114, R145) -/

theorem Calm.changeRaw {held : Bool} (level : Bool) (s : State) : Calm held s (changeRaw level s) := by
  unfold Machine.changeRaw
  split
  · exact refl s
  · extract_lets u
    split <;> exact (refl s).away rfl rfl rfl rfl rfl

theorem Calm.settle {held : Bool} {s t : State} (h : Calm held s t) (b : State) : Calm held s (settle b t) :=
  h.away (settle_lanes b t) (settle_bypass b t) (settle_wait b t) (settle_forward b t) (settle_inFlight b t)

theorem Faithful.releaseBypass {held : Bool} (s : State) : Faithful held s (releaseBypass s) := by
  have hlowered : Faithful held s { s with bypass := false } :=
    { bypass := nofun, wait := fun _ hw => hw, reads := fun _ hg hr => mayReturn_of_mem hg hr
      fetches := fun _ hf ho => brings_of_mem hf ho, looks := fun _ => mayHold_of_look fun _ => rfl, empties := fun _ _ hst => hst }
  have hlane (x : Lane) : x.Calm held x.releaseBypass := by
    unfold Lane.releaseBypass
    split
    · extract_lets y
      split <;> exact .of_eq rfl rfl
    · exact .refl x
  have hlanes : Calm held { s with bypass := false }
      { s with bypass := false, lanes := vmap Lane.releaseBypass s.lanes } := (Calm.refl _).mapLanes hlane rfl
  unfold Machine.releaseBypass
  extract_lets u
  split
  · exact hlowered.calm hlanes.lineAsserted
  · exact hlowered.calm hlanes

/-- What a step owes the laws of this obligation. -/
def State.Keeps (s t : State) : Prop := (s.ReturnLaws → t.ReturnLaws) ∧ (s.LooksOk → t.LooksOk)

theorem Faithful.keeps {s t : State} (h : Faithful s.bypass s t) : s.Keeps t := ⟨h.returnLaws id, h.looksOk⟩

/-- Under BYPASS no read waits, so an arrival continues none (R113). -/
theorem fetchArrival_keeps (s : State) : s.Keeps (fetchArrival s) :=
  ⟨fun hs => (Faithful.fetchArrival fun hb => (hs.2 hb).2.1).returnLaws id hs, (Faithful.fetchArrival (held := false) nofun).looksOk⟩

theorem dropped_isFull (k : Look) : k.dropped.isFull = false := by
  unfold Look.dropped
  split <;> rfl

/-- Once BYPASS is asserted every stack is empty, no lookahead FULL, and every READY read as stored (R112). -/
theorem assertBypass_keeps (s : State) : s.Keeps (assertBypass s) := by
  obtain ⟨u, hbared, htorn⟩ := assertBypass_bared s
  have hlane : ∀ l, ((assertBypass s).lane l).stack = [] ∧ ((assertBypass s).lane l).look.isFull = false := fun l => by
    have hu : (assertBypass s).lane l = u.lane l := by rw [htorn]; rfl
    rw [hu]
    by_cases hl : l ∈ laneNumbers
    · rw [hbared.lane l, if_pos hl]
      exact ⟨rfl, dropped_isFull _⟩
    · rw [u.lane_of_le (Nat.not_lt.1 fun hlt => hl (List.mem_range.2 hlt))]
      exact ⟨rfl, rfl⟩
  have hstored : ∀ f ∈ (assertBypass s).router.forward, f.state = .ready → f.out = f.raw := fun f hf => by
    rw [htorn] at hf
    exact storedForward_out hf
  have hwait : (assertBypass s).wait = none := by rw [htorn]
  have hflight : (assertBypass s).router.inFlight = s.router.inFlight := by
    rw [htorn]
    exact (congrArg (·.router.inFlight) hbared.frame).trans rfl
  refine ⟨fun _ => ⟨fun f hf hready _ => by rw [hstored f hf hready], fun _ => ⟨fun l => (hlane l).1, hwait, hstored⟩⟩,
    fun hs => ⟨fun l key slot i damaged hfull => ?_, fun f hf => hs.2 f (by rwa [hflight] at hf)⟩⟩
  have hnot := (hlane l).2
  rw [hfull] at hnot
  cases hnot

/-! ### The host's commands (chapter 10) -/

/-- A command body that is calm. -/
def CalmBody (body : List Word → State → Reply) : Prop := ∀ ws s, Calm s.bypass s (body ws s).state

theorem Calm.joinAnswer {held : Bool} {s : State} {r : Reply} (h : Calm held s r.state) (c : Captured) :
    Calm held s (joinAnswer c r) := h.away rfl rfl rfl rfl rfl

theorem Calm.carried {held : Bool} {s t : State} (h : Calm held s t) (ws : List Word) : Calm held s (carryOut ws t).state := h

/-- A command executed does what its body does (R174). -/
theorem execute_faithful {body : List Word → State → Reply} (hb : ∀ ws s, Faithful s.bypass s (body ws s).state)
    (test : Nat → Bool) (s : State) : Faithful s.bypass s (execute test body s) := by
  rcases execute_cases test body s with he | ⟨c, rest, -, -, he⟩
  · rw [he]
    exact .refl s
  · rw [he]
    have hqueue : Calm s.bypass s (s.unqueue rest) := (Calm.refl s).away rfl rfl rfl rfl rfl
    exact ((Faithful.of_calm hqueue).trans (hb c.words (s.unqueue rest))).calm (Calm.joinAnswer (.refl _) c)

theorem Calm.setRegion {held : Bool} (a : RegionArgs) (s : State) : Calm held s (setRegion a s) := by
  unfold Machine.setRegion
  extract_lets table v
  have hv : Calm held s v := (refl s).away rfl rfl rfl rfl rfl
  split
  · have hring : Calm held s (withdrawWaiting .log { v with log := { v.log with head := 0, tail := 0, presented := none } }) :=
      hv.away rfl rfl rfl rfl rfl
    exact hring.presentLog
  · exact hv

theorem regionSetBody_calm : CalmBody regionSetBody := fun ws s => by
  rw [regionSetBody_eq]
  split
  · exact (Calm.setRegion _ s).carried _
  · exact .refl s

theorem laneSetBody_calm : CalmBody laneSetBody := fun ws s => by
  unfold laneSetBody
  extract_lets a
  split
  · refine ((Calm.refl s).onLane a.lane fun x => ?_).carried _
    exact .of_eq rfl rfl
  · exact .refl s

theorem laneEnableBody_calm : CalmBody laneEnableBody := fun ws s => by
  unfold laneEnableBody
  split
  · refine ((Calm.refl s).onLane _ fun x => ?_).carried _
    have henabled : x.Calm s.bypass (x.enable s.lt) := .of_eq rfl rfl
    exact henabled.trans (.post _ _)
  · exact .refl s

theorem Calm.leaveAll {held : Bool} {s t : State} (h : Calm held s t) (o : Outcome) (c : Pt) (st : List Entry) :
    Calm held s (leaveAll o c st t) := by
  induction st generalizing t with
  | nil => exact h
  | cons e rest ih => exact ih (h.leaveStack _ _ _)

/-- LANE-DISABLE empties its lane's stack, marks its reads and ends its wait with the slot as stored (R26, R27). -/
theorem disableLane_faithful {held : Bool} (l : Nat) (s : State) : Faithful held s (disableLane l s) := by
  unfold disableLane
  extract_lets left off dropped
  have hoff : Calm held s off :=
    ((Calm.refl s).leaveAll _ _ _).onLane l fun _ => ⟨fun _ => rfl, fun _ _ => rfl⟩
  have hmarked : Faithful held s (abandonReads l off) := (Faithful.of_calm hoff).withForward fun g hg hready => by
    obtain ⟨f, hf, rfl⟩ := List.mem_map.1 hg
    have heq := marked_eq l f
    refine .inr (.inl ⟨f, hf, ?_, ?_, ?_⟩)
    · exact (marked_state l f).symm.trans hready
    · exact (marked_raw l f).symm
    · exact (congrArg FwdEntry.out heq).symm
  have hdropped : Faithful held s dropped := hmarked.calm ((Calm.refl _).overtake l)
  split
  · exact hdropped.releaseWait
  · exact hdropped

theorem laneDisableBody_faithful (ws : List Word) (s : State) : Faithful s.bypass s (laneDisableBody ws s).state := by
  unfold laneDisableBody
  split
  · exact .refl s
  · unfold carryOut
    split
    · exact disableLane_faithful _ s
    · exact .refl s

theorem laneStatusBody_calm : CalmBody laneStatusBody := fun ws s => by
  unfold laneStatusBody
  split <;> exact .refl s

theorem clipSetBody_calm : CalmBody clipSetBody := fun ws s => by
  rw [clipSetBody_eq]
  split
  · exact (((Calm.refl s).setClip _ _).prefetchTests laneNumbers).carried _
  · exact .refl s

theorem clipClearBody_calm : CalmBody clipClearBody := fun ws s => by
  unfold clipClearBody
  split
  · exact (Calm.refl s).setClip _ _
  · exact .refl s

theorem placeBody_calm : CalmBody placeBody := fun ws s => by
  unfold placeBody
  extract_lets a
  split
  · exact ((Calm.refl s).setPlacement _ _).lateTest a.id
  · exact .refl s

theorem withdrawBody_calm : CalmBody withdrawBody := fun ws s => by
  unfold withdrawBody
  extract_lets id
  split
  · exact .refl s
  · split
    · exact .refl s
    · exact (Calm.refl s).endPlacement _ _ _ _
    · exact (Calm.refl s).endPlacement _ _ _ _
    · exact (Calm.refl s).withdrawOnStack _
    · exact (Calm.refl s).withdrawOnStack _

theorem placementStatusBody_calm : CalmBody placementStatusBody := fun ws s => by
  unfold placementStatusBody
  split <;> exact .refl s

/-- A cue is injected into an enabled lane only (R76). -/
theorem cueBody_calm : CalmBody cueBody := fun ws s => by
  unfold cueBody
  extract_lets a
  split
  next hdone =>
    have he : (s.lane a.lane).enabled = true := by
      by_contra hoff
      simp only [cueAnswer, Bool.not_eq_true] at hdone hoff
      simp only [hoff, Bool.not_false, ↓reduceIte] at hdone
      split at hdone <;> cases hdone
    exact (Calm.refl s).intake (enabled_lt he) _ _
  · exact .refl s

theorem alertProfileBody_calm : CalmBody alertProfileBody := fun ws s => by
  unfold alertProfileBody
  extract_lets a
  have hp : Calm s.bypass s (setProfile a s) := (Calm.refl s).withAlert _
  split
  · split
    · exact hp.beginAlert _ _ _
    · exact hp
  · exact .refl s

theorem alertStartBody_calm : CalmBody alertStartBody := fun ws s => by
  unfold alertStartBody
  extract_lets p
  split
  · exact (Calm.refl s).beginAlert _ _ _
  · exact .refl s

theorem alertRenewBody_calm : CalmBody alertRenewBody := fun ws s => by
  unfold alertRenewBody
  split
  · exact (Calm.refl s).judgeRenewal
  all_goals exact .refl s

theorem alertEndBody_calm : CalmBody alertEndBody := fun ws s => by
  unfold alertEndBody
  split
  · exact (Calm.refl s).endAlert _
  · exact (Calm.refl s).endAlert _
  all_goals exact .refl s

theorem alertLockBody_calm : CalmBody alertLockBody := fun _ s => (Calm.refl s).withAlert _

theorem auditMarkBody_calm : CalmBody auditMarkBody := fun ws s => by
  unfold auditMarkBody
  split
  · exact .refl s
  · split
    · exact .refl s
    · refine ((Calm.refl s).onLane _ fun x => ?_).carried _
      exact .of_eq rfl rfl

theorem logAckBody_calm : CalmBody logAckBody := fun ws s => by
  unfold logAckBody
  extract_lets n
  split
  · exact ((Calm.refl s).withLog _).presentLog
  · exact .refl s

theorem unclaimBody_calm : CalmBody unclaimBody := fun ws s => by
  unfold unclaimBody
  split
  · exact .refl s
  · split
    · exact .refl s
    · exact (Calm.refl s).away rfl rfl rfl rfl rfl

theorem unknownBody_calm : CalmBody unknownBody := fun _ s => .refl s

/-! ### Every step -/

/-- Every step that answers a next state keeps the laws: an arrival of a fetch and the assertion of BYPASS by the laws they meet, the
others because they are faithful. -/
theorem exec_keeps {s t : State} {i : Instr} (h : exec i s = .next t) : s.Keeps t := by
  have close {u : State} (hu : s.Keeps u) (he : (.next (settle s u) : Host.Outcome State Fault Refusal) = .next t) : s.Keeps t := by
    have hsettled : u.Keeps (settle s u) := (Faithful.of_calm ((Calm.refl u).settle s)).keeps
    rw [← Host.Outcome.next.inj he]
    exact ⟨fun hs => hsettled.1 (hu.1 hs), fun hs => hsettled.2 (hu.2 hs)⟩
  have faithful {u : State} (hu : Faithful s.bypass s u)
      (he : (.next (settle s u) : Host.Outcome State Fault Refusal) = .next t) : s.Keeps t := close hu.keeps he
  have calmIf {p : Prop} [Decidable p] {u : State} (hu : Calm s.bypass s u)
      (he : (.next (settle s (if p then u else s)) : Host.Outcome State Fault Refusal) = .next t) : s.Keeps t := by
    split at he
    · exact faithful (.of_calm hu) he
    · exact faithful (.refl s) he
  have command {test : Nat → Bool} {body : List Word → State → Reply} (hb : CalmBody body)
      (he : (.next (settle s (execute test body s)) : Host.Outcome State Fault Refusal) = .next t) : s.Keeps t :=
    faithful (execute_faithful (fun ws u => .of_calm (hb ws u)) test s) he
  have same : Calm s.bypass s s := .refl s
  cases i with
  | qPortAccept r =>
    simp only [exec, execQPortAccept] at h
    split at h
    · exact faithful (.acceptRequest _ s) h
    · cases h
  | mPortGrant => exact faithful (.grantStep s) h
  | readDataArrival => exact faithful (.readArrival s) h
  | slotReadProcedure => exact faithful (.slotReadStep s) h
  | slateCountdownExpiry l =>
    simp only [exec, execSlateCountdownExpiry] at h
    split at h
    · exact calmIf (same.onLane l fun x => .expireSlate x) h
    · cases h
  | fetchDataArrival => exact close (fetchArrival_keeps s) h
  | readReturn => exact faithful (.returnRead s) h
  | regionSet => exact command regionSetBody_calm h
  | laneSet => exact command laneSetBody_calm h
  | laneEnable => exact command laneEnableBody_calm h
  | laneDisable => exact faithful (execute_faithful laneDisableBody_faithful _ s) h
  | laneStatus => exact command laneStatusBody_calm h
  | clipSet => exact command clipSetBody_calm h
  | clipClear => exact command clipClearBody_calm h
  | place => exact command placeBody_calm h
  | withdraw => exact command withdrawBody_calm h
  | placementStatus => exact command placementStatusBody_calm h
  | cue => exact command cueBody_calm h
  | alertProfile => exact command alertProfileBody_calm h
  | alertStart => exact command alertStartBody_calm h
  | alertRenew => exact command alertRenewBody_calm h
  | alertEnd => exact command alertEndBody_calm h
  | alertLock => exact command alertLockBody_calm h
  | auditMark => exact command auditMarkBody_calm h
  | logAck => exact command logAckBody_calm h
  | unclaim => exact command unclaimBody_calm h
  | unknownCommand => exact command unknownBody_calm h
  | rstNAssert =>
    refine faithful ?_ h
    split
    · exact .refl s
    · exact ((Faithful.refl s).resetBlocks).calm ((Calm.refl _).away rfl rfl rfl rfl rfl)
  | rstNRelease => exact calmIf (same.away (u := releaseReset s) rfl rfl rfl rfl rfl) h
  | bypassAssert =>
    refine close ?_ h
    split
    · exact (Faithful.refl s).keeps
    · exact assertBypass_keeps s
  | bypassRelease =>
    refine faithful ?_ h
    split
    · exact .releaseBypass s
    · exact .refl s
  | ealRawChange level => exact faithful (.of_calm (.changeRaw level s)) h
  | ealFilterExpiry => exact calmIf (same.withAlert _).filteredChange h
  | holdSecondElapsed => exact calmIf (same.withAlert _) h
  | holdLimitExpiry => exact calmIf (same.endAlert _) h
  | renewalPeriodExpiry => exact calmIf (same.withAlert _).renewalFailure h
  | laneClockFold l =>
    simp only [exec, execLaneClockFold] at h
    split at h
    · exact calmIf (same.onLane l fun x => .fold x) h
    · cases h

theorem step_keeps {s t : State} (h : step s = .next t) : s.Keeps t := by
  unfold step at h
  split at h
  · rw [← Host.Outcome.next.inj h, tick_eq]
    exact (Faithful.of_calm ((Calm.refl s).away rfl rfl rfl rfl rfl)).keeps
  next i rest _ => exact exec_keeps (s := { s with pending := rest }) h

/-- Settles O11: every step, a tick among them, keeps the laws by `step_keeps`. -/
theorem stepKeepsReturns : Obligations.StepKeepsReturns :=
  ⟨fun _ _ hs h => (step_keeps h).1 hs, fun _ _ hs h => (step_keeps h).2 hs⟩

end Sys2Proof.Machine

namespace Sys2Proof.Machine

open Sys2Proof

/-! ## The laws of stacks and placements in two halves (R87, R93)

Between stages 2 and 4 of a slot read the placements of a stack do not yet have the states of their places. `Standing` is the half
of the laws that holds throughout: each stack is ordered and fits its lane, and a placement is on a stack exactly where its state
says so. `Shows` is the other half, lane by lane: ON_AIR at the top, COVERED below it. -/

/-- A stack that lane `l` may have: ordered, with one entry at most for a placement, each in agreement with what it plays for. -/
structure State.StackOn (s : State) (l : Nat) (st : List Entry) : Prop where
  ordered : stackOrdered st
  single : noTwice st
  fits : ∀ e ∈ st, e.fits s l

/-- The laws of stacks and placements but for which of a stack's placements is ON_AIR and which are COVERED (R87, R93). -/
structure State.Standing (s : State) : Prop where
  stackOn : ∀ l, s.StackOn l (s.lane l).stack
  kinds : ∀ id, id < 128 → (s.placement id).kind = .programme ∨ (s.placement id).kind = .advert
  stands : ∀ id, id < 128 → ((s.placement id).onStack = true ↔ ∃ l, onStackOf (s.lane l).stack id)

/-- The placements of lane `l`'s stack have the states of their places (R87). -/
def State.Shows (s : State) (l : Nat) : Prop :=
  ∀ id, (onStackOf ((s.lane l).stack.take 1) id → (s.placement id).state = .onAir) ∧
    (onStackOf (s.lane l).stack.tail id → (s.placement id).state = .covered)

theorem placementId_eq_some {e : Entry} {id : Nat} : e.placementId = some id ↔ e.source = .placement id := by
  unfold Entry.placementId
  cases e.source <;> simp

theorem onStack_iff (p : Placement) : p.onStack = true ↔ p.state = .onAir ∨ p.state = .covered := decide_eq_true_iff

section Stacks

variable {s t : State} {l : Nat} {st : List Entry}

theorem fits_placement {e : Entry} {id : Nat} (h : e.fits s l) (hs : e.source = .placement id) :
    id < 128 ∧ (s.placement id).lane = l ∧ (e.kind = .programme ∨ e.kind = .advert) := by
  unfold Entry.fits at h
  rw [hs] at h
  exact h

/-- What an entry plays for agrees with its lane as long as the placement's lane stays. -/
theorem fits_congr {e : Entry} (h : e.fits s l)
    (hlane : ∀ id, e.source = .placement id → (t.placement id).lane = (s.placement id).lane) : e.fits t l := by
  unfold Entry.fits at *
  cases hs : e.source with
  | placement id =>
    rw [hs] at h
    obtain ⟨hid, hl, hk⟩ := h
    exact ⟨hid, (hlane id hs).trans hl, hk⟩
  | laneSlate => rwa [hs] at h
  | profile p => rwa [hs] at h

theorem noTwice_of_sources (h : st.Pairwise fun a b => a.source ≠ b.source) : noTwice st := by
  refine h.imp fun {a b} hne => ?_
  cases ha : a.placementId with
  | none => exact .inl rfl
  | some id => exact .inr fun hb => hne ((placementId_eq_some.1 ha).trans (placementId_eq_some.1 hb.symm).symm)

namespace State.StackOn

/-- Entries of equal sources are of equal kinds but for placements, so that an ordered stack has no source twice. -/
theorem sources (h : s.StackOn l st) : st.Pairwise fun a b => a.source ≠ b.source := by
  refine (h.ordered.and h.single).imp_of_mem fun {a b} ha hb ⟨hrank, hone⟩ hsame => ?_
  have hfa := h.fits a ha
  have hfb := h.fits b hb
  have hkind : a.kind = b.kind → False := fun hk => absurd hrank (by rw [hk]; exact lt_irrefl _)
  unfold Entry.fits at hfa hfb
  cases hs : a.source with
  | placement id =>
    have hida : a.placementId = some id := placementId_eq_some.2 hs
    have hidb : b.placementId = some id := placementId_eq_some.2 (hsame.symm.trans hs)
    rcases hone with hnone | hne
    · rw [hida] at hnone
      cases hnone
    · exact hne (hida.trans hidb.symm)
  | laneSlate =>
    rw [hs] at hfa
    rw [← hsame, hs] at hfb
    exact hkind (hfa.trans hfb.symm)
  | profile p =>
    rw [hs] at hfa
    rw [← hsame, hs] at hfb
    exact hkind (hfa.trans hfb.symm)

theorem congr (h : s.StackOn l st) (hlane : ∀ id, onStackOf st id → (t.placement id).lane = (s.placement id).lane) :
    t.StackOn l st :=
  ⟨h.ordered, h.single, fun e he => fits_congr (h.fits e he) fun id hs => hlane id ⟨e, he, hs⟩⟩

theorem sublist (h : s.StackOn l st) {st' : List Entry} (hsub : st'.Sublist st) : s.StackOn l st' :=
  ⟨h.ordered.sublist hsub, h.single.sublist hsub, fun e he => h.fits e (hsub.subset he)⟩

/-- Entries changed in their places, each of its kind and playing for its placement. -/
theorem map (h : s.StackOn l st) {f : Entry → Entry} (hkind : ∀ e ∈ st, (f e).kind = e.kind)
    (hid : ∀ e ∈ st, (f e).placementId = e.placementId) (hfits : ∀ e ∈ st, (f e).fits s l) : s.StackOn l (st.map f) where
  ordered := List.pairwise_map.2 (h.ordered.imp_of_mem fun ha hb hlt => by rwa [hkind _ ha, hkind _ hb])
  single := List.pairwise_map.2 (h.single.imp_of_mem fun ha hb hne => by rwa [hid _ ha, hid _ hb])
  fits e he := by
    obtain ⟨n, hn, rfl⟩ := List.mem_map.1 he
    exact hfits n hn

theorem nil (s : State) (l : Nat) : s.StackOn l [] := ⟨List.Pairwise.nil, List.Pairwise.nil, nofun⟩

end State.StackOn

theorem onStackOf_map {f : Entry → Entry} (hid : ∀ e ∈ st, (f e).placementId = e.placementId) (id : Nat) :
    onStackOf (st.map f) id ↔ onStackOf st id := by
  simp only [onStackOf_iff, List.mem_map]
  constructor
  · rintro ⟨_, ⟨e, he, rfl⟩, heid⟩
    exact ⟨e, he, (hid e he).symm.trans heid⟩
  · rintro ⟨e, he, heid⟩
    exact ⟨f e, ⟨e, he, rfl⟩, (hid e he).trans heid⟩

theorem onStackOf_mono {st' : List Entry} (h : st' ⊆ st) {id : Nat} (hid : onStackOf st' id) : onStackOf st id := by
  obtain ⟨e, he, hs⟩ := hid
  exact ⟨e, h he, hs⟩

theorem onStackOf_split (id : Nat) : onStackOf st id ↔ onStackOf (st.take 1) id ∨ onStackOf st.tail id := by
  cases st with
  | nil => simp [onStackOf]
  | cons e rest => simp [onStackOf]

/-! ### An entry joins a stack (R93) -/

theorem rank_injective {a b : Kind} (h : a.rank = b.rank) : a = b := by
  revert h
  cases a <;> cases b <;> decide

theorem insertEntry_perm (e : Entry) (st : List Entry) : (insertEntry e st).Perm (e :: st) := by
  induction st with
  | nil => exact .refl _
  | cons x rest ih =>
    unfold insertEntry
    split
    · exact .refl _
    · exact (ih.cons x).trans (.swap e x rest)

theorem insertEntry_ordered {e : Entry} (h : stackOrdered st) (hnone : ¬ ∃ n ∈ st, n.kind = e.kind) :
    stackOrdered (insertEntry e st) := by
  induction st with
  | nil => exact List.pairwise_singleton _ e
  | cons x rest ih =>
    obtain ⟨hx, hrest⟩ := List.pairwise_cons.1 h
    unfold insertEntry
    split
    next hlt =>
      refine List.pairwise_cons.2 ⟨fun n hn => ?_, h⟩
      rcases List.mem_cons.1 hn with rfl | hn
      · exact hlt
      · exact (hx n hn).trans hlt
    next hge =>
      have hne : x.kind.rank ≠ e.kind.rank := fun hr => hnone ⟨x, List.mem_cons_self .., rank_injective hr⟩
      have hlt : e.kind.rank < x.kind.rank := by omega
      refine List.pairwise_cons.2 ⟨fun n hn => ?_, ih hrest fun ⟨n, hn, hk⟩ => hnone ⟨n, List.mem_cons_of_mem _ hn, hk⟩⟩
      rcases List.mem_cons.1 ((insertEntry_perm e rest).subset hn) with rfl | hn
      · exact hlt
      · exact hx n hn

theorem noTwice_perm {st st' : List Entry} (hp : st.Perm st') (h : noTwice st) : noTwice st' :=
  hp.pairwise h fun {a b} hab => by
    cases hb : b.placementId with
    | none => exact .inl rfl
    | some id =>
      rw [hb] at hab
      rcases hab with hnone | hne
      · rw [hnone]
        exact .inr (Option.some_ne_none id)
      · exact .inr hne.symm

/-- An entry of a kind the stack lacks, for no placement the stack has, joins it in its place. -/
theorem State.StackOn.insert {e : Entry} (h : s.StackOn l st) (hfits : e.fits s l) (hnone : ¬ ∃ n ∈ st, n.kind = e.kind)
    (hout : ∀ id, e.source = .placement id → ¬ onStackOf st id) : s.StackOn l (insertEntry e st) where
  ordered := insertEntry_ordered h.ordered hnone
  single := by
    refine noTwice_perm (insertEntry_perm e st).symm (List.pairwise_cons.2 ⟨fun n hn => ?_, h.single⟩)
    cases hid : e.placementId with
    | none => exact .inl rfl
    | some id =>
      refine .inr fun heq => hout id (placementId_eq_some.1 hid) ?_
      exact (onStackOf_iff st id).2 ⟨n, hn, heq.symm⟩
  fits n hn := by
    rcases List.mem_cons.1 ((insertEntry_perm e st).subset hn) with rfl | hn
    · exact hfits
    · exact h.fits n hn

theorem onStackOf_insertEntry (e : Entry) (st : List Entry) (id : Nat) :
    onStackOf (insertEntry e st) id ↔ e.source = .placement id ∨ onStackOf st id := by
  have hmem : ∀ n, n ∈ insertEntry e st ↔ n ∈ e :: st := fun n => (insertEntry_perm e st).mem_iff
  simp [onStackOf, hmem]

/-! ### The halves make the whole -/

theorem State.Standing.lane_eq (h : s.Standing) {id : Nat} (hid : onStackOf (s.lane l).stack id) :
    id < 128 ∧ (s.placement id).lane = l := by
  obtain ⟨e, he, hs⟩ := hid
  obtain ⟨hlt, hl, -⟩ := fits_placement ((h.stackOn l).fits e he) hs
  exact ⟨hlt, hl⟩

theorem onTop_iff (s : State) (id : Nat) : s.OnTop id ↔ ∃ l, onStackOf ((s.lane l).stack.take 1) id := by
  refine exists_congr fun l => ?_
  cases (s.lane l).stack <;> simp [onStackOf]

theorem belowTop_iff (s : State) (id : Nat) : s.BelowTop id ↔ ∃ l, onStackOf (s.lane l).stack.tail id := by
  refine exists_congr fun l => ?_
  cases (s.lane l).stack <;> simp [onStackOf]

theorem standing_of_laws (h : s.StackLaws) : s.Standing := by
  obtain ⟨hordered, hsources, hfits, hkinds, hstates⟩ := h
  refine ⟨fun l => ⟨hordered l, noTwice_of_sources (hsources l), hfits l⟩, hkinds, fun id hid => ?_⟩
  obtain ⟨hair, hcov⟩ := hstates id hid
  rw [onStack_iff, hair, hcov, onTop_iff, belowTop_iff, ← exists_or]
  exact exists_congr fun l => (onStackOf_split id).symm

theorem shows_of_laws (h : s.StackLaws) (l : Nat) : s.Shows l := fun id => by
  have hstanding := standing_of_laws h
  obtain ⟨-, -, -, -, hstates⟩ := h
  refine ⟨fun htop => ?_, fun hbelow => ?_⟩
  · obtain ⟨hid, -⟩ := hstanding.lane_eq ((onStackOf_split id).2 (.inl htop))
    exact (hstates id hid).1.2 ((onTop_iff s id).2 ⟨l, htop⟩)
  · obtain ⟨hid, -⟩ := hstanding.lane_eq ((onStackOf_split id).2 (.inr hbelow))
    exact (hstates id hid).2.2 ((belowTop_iff s id).2 ⟨l, hbelow⟩)

theorem stackLaws_iff : s.StackLaws ↔ s.Standing ∧ ∀ l, s.Shows l := by
  refine ⟨fun h => ⟨standing_of_laws h, shows_of_laws h⟩, fun ⟨hstanding, hshows⟩ => ?_⟩
  refine ⟨fun l => (hstanding.stackOn l).ordered, fun l => (hstanding.stackOn l).sources, fun l => (hstanding.stackOn l).fits,
    hstanding.kinds, fun id hid => ?_⟩
  rw [onTop_iff, belowTop_iff]
  have hplace : (s.placement id).onStack = true →
      (∃ l, onStackOf ((s.lane l).stack.take 1) id) ∨ ∃ l, onStackOf (s.lane l).stack.tail id := fun hon => by
    obtain ⟨l, hl⟩ := (hstanding.stands id hid).1 hon
    exact ((onStackOf_split id).1 hl).imp (⟨l, ·⟩) (⟨l, ·⟩)
  refine ⟨⟨fun hair => ?_, fun ⟨l, hl⟩ => (hshows l id).1 hl⟩, ⟨fun hcov => ?_, fun ⟨l, hl⟩ => (hshows l id).2 hl⟩⟩
  · refine (hplace ((onStack_iff _).2 (.inl hair))).resolve_right fun ⟨l, hl⟩ => ?_
    cases hair.symm.trans ((hshows l id).2 hl)
  · refine (hplace ((onStack_iff _).2 (.inr hcov))).resolve_left fun ⟨l, hl⟩ => ?_
    cases hcov.symm.trans ((hshows l id).1 hl)

end Stacks

end Sys2Proof.Machine

namespace Sys2Proof.Machine

open Sys2Proof

/-! ## What leaves stacks and placements in their places (R87, R93)

Nearly every operation makes no stack entry, removes none and moves none, and gives no placement a state on a stack or takes one
from it. `Staid` says this once; what is staid keeps the laws. Stages 2 to 4 of a slot read, LANE-DISABLE, the assertion of BYPASS
and the resets are what is not. -/

/-- What the laws read of a stack entry: its kind and what it plays for. -/
def Entry.station (e : Entry) : Kind × Source := (e.kind, e.source)

/-- From `p` to `q` a placement keeps its place on a stack, with its lane there, and its kind remains one a placement may have. -/
structure Placement.Kept (p q : Placement) : Prop where
  kind : p.kind = .programme ∨ p.kind = .advert → q.kind = .programme ∨ q.kind = .advert
  lane : p.onStack = true → q.lane = p.lane
  onAir : q.state = .onAir ↔ p.state = .onAir
  covered : q.state = .covered ↔ p.state = .covered

/-- From `x` to `y` a lane keeps its stack, entry by entry. -/
def Lane.Staid (x y : Lane) : Prop := y.stack.map Entry.station = x.stack.map Entry.station

/-- From `s` to `t` every stack and every placement on one keep their places. -/
structure Staid (s t : State) : Prop where
  lanes : ∀ l, (s.lane l).Staid (t.lane l)
  placements : ∀ id, (s.placement id).Kept (t.placement id)

namespace Placement.Kept

variable {p q r : Placement}

theorem refl (p : Placement) : p.Kept p := ⟨id, fun _ => rfl, .rfl, .rfl⟩

theorem onStack (h : p.Kept q) : q.onStack = true ↔ p.onStack = true := by rw [onStack_iff, onStack_iff, h.onAir, h.covered]

theorem trans (h : p.Kept q) (g : q.Kept r) : p.Kept r :=
  ⟨fun hk => g.kind (h.kind hk), fun ho => (g.lane (h.onStack.2 ho)).trans (h.lane ho), g.onAir.trans h.onAir,
    g.covered.trans h.covered⟩

theorem of_eq (hkind : q.kind = p.kind) (hlane : q.lane = p.lane) (hstate : q.state = p.state) : p.Kept q :=
  ⟨fun h => by rwa [hkind], fun _ => hlane, by rw [hstate], by rw [hstate]⟩

/-- A placement that stands on no stack before or after. -/
theorem of_off (hp : p.onStack = false) (hq : q.onStack = false)
    (hkind : p.kind = .programme ∨ p.kind = .advert → q.kind = .programme ∨ q.kind = .advert) : p.Kept q := by
  simp only [Placement.onStack, decide_eq_false_iff_not, not_or] at hp hq
  refine ⟨hkind, fun h => ?_, iff_of_false hq.1 hp.1, iff_of_false hq.2 hp.2⟩
  exact (((onStack_iff p).1 h).elim hp.1 hp.2).elim

/-- A placement that stands on no stack ends. -/
theorem vacated (hp : p.onStack = false) : p.Kept Placement.vacant := of_off hp rfl fun _ => .inr rfl

end Placement.Kept

theorem onStack_of_pending {p : Placement} (h : p.state = .pending) : p.onStack = false := by
  simp [Placement.onStack, h]

theorem onStack_of_armed {p : Placement} (h : p.state = .armed) : p.onStack = false := by
  simp [Placement.onStack, h]

namespace Lane.Staid

variable {x y z : Lane}

theorem refl (x : Lane) : x.Staid x := rfl

theorem trans (h : x.Staid y) (g : y.Staid z) : x.Staid z := Eq.trans g h

theorem of_eq (h : y.stack = x.stack) : x.Staid y := congrArg (List.map Entry.station) h

/-- Entries changed in their places, each of its kind and playing for what it played for. -/
theorem of_map {f : Entry → Entry} (hy : y.stack = x.stack.map f) (hf : ∀ e, (f e).station = e.station) : x.Staid y := by
  unfold Lane.Staid
  rw [hy, List.map_map]
  exact List.map_congr_left fun e _ => hf e

theorem onTop (x : Lane) {f : Entry → Entry} (hf : ∀ e ∈ x.top, (f e).station = e.station) : x.Staid (x.onTop f) := by
  unfold Lane.Staid Lane.onTop
  cases hst : x.stack with
  | nil => simp [hst]
  | cons e rest => simp [hf e (by simp [Lane.top, hst])]

theorem post (x : Lane) (q : Option AlertReq) : x.Staid (x.post q) := by
  rw [post_eq]
  exact rfl

end Lane.Staid

section Laws

variable {s t : State} {st st' : List Entry}

theorem onStackOf_iff_stations (id : Nat) : onStackOf st id ↔ ∃ w ∈ st.map Entry.station, w.2 = .placement id := by
  simp [onStackOf, Entry.station]

theorem onStackOf_congr (h : st'.map Entry.station = st.map Entry.station) (id : Nat) : onStackOf st' id ↔ onStackOf st id := by
  rw [onStackOf_iff_stations, h, ← onStackOf_iff_stations]

theorem fits_of_station {l : Nat} {n e : Entry} (he : n.station = e.station) (h : n.fits s l) : e.fits s l := by
  obtain ⟨hkind, hsource⟩ := Prod.mk.inj he
  unfold Entry.fits at *
  rwa [hkind, hsource] at h

/-- A stack of the same stations, whose placements keep their lane. -/
theorem State.StackOn.of_stations {l : Nat} (h : s.StackOn l st) (hst : st'.map Entry.station = st.map Entry.station)
    (hlane : ∀ id, onStackOf st id → (t.placement id).lane = (s.placement id).lane) : t.StackOn l st' where
  ordered := by
    have hranks : (st.map Entry.station).Pairwise fun a b => b.1.rank < a.1.rank := List.pairwise_map.2 h.ordered
    rw [← hst] at hranks
    exact List.pairwise_map.1 hranks
  single := by
    have hsources : (st.map Entry.station).Pairwise fun a b => a.2 ≠ b.2 := List.pairwise_map.2 h.sources
    rw [← hst] at hsources
    exact noTwice_of_sources ((List.pairwise_map (f := Entry.station) (R := fun a b => a.2 ≠ b.2)).1 hsources)
  fits e he := by
    have hmem : e.station ∈ st.map Entry.station := hst ▸ List.mem_map_of_mem he
    obtain ⟨n, hn, heq⟩ := List.mem_map.1 hmem
    refine fits_congr (fits_of_station heq (h.fits n hn)) fun id hs => hlane id ⟨n, hn, ?_⟩
    exact (Prod.mk.inj heq).2.trans hs

theorem Staid.standing (h : Staid s t) (hs : s.Standing) : t.Standing where
  stackOn l := (hs.stackOn l).of_stations (h.lanes l) fun id hid => by
    obtain ⟨hlt, -⟩ := hs.lane_eq hid
    exact (h.placements id).lane ((hs.stands id hlt).2 ⟨l, hid⟩)
  kinds id hid := (h.placements id).kind (hs.kinds id hid)
  stands id hid := by
    rw [(h.placements id).onStack, hs.stands id hid]
    exact exists_congr fun l => (onStackOf_congr (h.lanes l) id).symm

theorem Staid.shows (h : Staid s t) {l : Nat} (hs : s.Shows l) : t.Shows l := fun id => by
  have hl := h.lanes l
  have htop : ((t.lane l).stack.take 1).map Entry.station = ((s.lane l).stack.take 1).map Entry.station := by
    rw [List.map_take, hl, List.map_take]
  have hbelow : ((t.lane l).stack.tail).map Entry.station = ((s.lane l).stack.tail).map Entry.station := by
    rw [List.map_tail, hl, List.map_tail]
  rw [onStackOf_congr htop, onStackOf_congr hbelow, (h.placements id).onAir, (h.placements id).covered]
  exact hs id

theorem Staid.stackLaws (h : Staid s t) (hs : s.StackLaws) : t.StackLaws := by
  obtain ⟨hstanding, hshows⟩ := stackLaws_iff.1 hs
  exact stackLaws_iff.2 ⟨h.standing hstanding, fun l => h.shows (hshows l)⟩

end Laws

end Sys2Proof.Machine

namespace Sys2Proof.Machine

open Sys2Proof

/-! ## The operations that leave them there -/

namespace Staid

variable {s t u : State}

theorem refl (s : State) : Staid s s := ⟨fun l => .refl (s.lane l), fun id => .refl (s.placement id)⟩

theorem trans (h : Staid s t) (g : Staid t u) : Staid s u :=
  ⟨fun l => (h.lanes l).trans (g.lanes l), fun id => (h.placements id).trans (g.placements id)⟩

/-- A change outside the lanes and the placements. -/
theorem away (h : Staid s t) (hl : u.lanes = t.lanes) (hp : u.placements = t.placements) : Staid s u :=
  h.trans ⟨fun l => by rw [congrFun (lane_congr hl) l]; exact .refl _,
    fun id => by rw [congrFun (placement_congr hp) id]; exact .refl _⟩

/-- A change of lane `l` alone, where the placements keep their places. -/
theorem of_lane {l : Nat} (hothers : ∀ m, m ≠ l → t.lane m = s.lane m) (hl : (s.lane l).Staid (t.lane l))
    (hp : ∀ id, (s.placement id).Kept (t.placement id)) : Staid s t :=
  ⟨fun m => by
    by_cases hm : m = l
    · rw [hm]
      exact hl
    · rw [hothers m hm]
      exact .refl _, hp⟩

/-! ### Tables -/

theorem onLane_self (h : Staid s t) (l : Nat) {f : Lane → Lane} (hf : (t.lane l).Staid (f (t.lane l))) : Staid s (t.onLane l f) :=
  h.trans ⟨fun m => by
    rcases lane_onLane_cases t l f m with hm | ⟨rfl, hm⟩
    · rw [hm]
      exact .refl _
    · rw [hm]
      exact hf, fun id => .refl (t.placement id)⟩

theorem onLane (h : Staid s t) (l : Nat) {f : Lane → Lane} (hf : ∀ x : Lane, x.Staid (f x)) : Staid s (t.onLane l f) :=
  h.onLane_self l (hf _)

theorem setLane (h : Staid s t) (l : Nat) {y : Lane} (hy : (t.lane l).Staid y) : Staid s (t.setLane l y) :=
  h.onLane_self l (f := fun _ => y) hy

theorem setPlacement (h : Staid s t) (id : Nat) {p : Placement} (hp : (t.placement id).Kept p) : Staid s (t.setPlacement id p) :=
  h.trans ⟨fun l => .refl (t.lane l), fun j => by
    rw [setPlacement_placement]
    split
    next hj => rw [hj.1]; exact hp
    · exact .refl _⟩

theorem onPlacement (h : Staid s t) (id : Nat) {f : Placement → Placement} (hf : ∀ p : Placement, p.Kept (f p)) :
    Staid s (t.onPlacement id f) := h.setPlacement id (hf _)

/-- A change of the Alert Controller alone. -/
theorem withAlert (h : Staid s t) (a : AlertCtl) : Staid s { t with alert := a } := h.away rfl rfl

/-- A change of the Log Writer alone. -/
theorem withLog (h : Staid s t) (g : LogWriter) : Staid s { t with log := g } := h.away rfl rfl

theorem setClip (h : Staid s t) (i : Nat) (c : Clip) : Staid s (t.setClip i c) := h.away rfl rfl

/-- Every lane changed by one function. -/
theorem mapLanes (h : Staid s t) {f : Lane → Lane} (hf : ∀ x : Lane, x.Staid (f x)) (h0 : f Lane.reset = Lane.reset) :
    Staid s { t with lanes := vmap f t.lanes } :=
  h.trans ⟨fun l => by rw [lane_vmap t f h0 l]; exact hf _, fun id => .refl (t.placement id)⟩

/-! ### Records and the ends of placements (R89 to R91, R183, R190, R191) -/

theorem handRecord (h : Staid s t) (l : Nat) (b : RecordBody) : Staid s (handRecord l b t) := by
  rw [handRecord_eq]
  exact h.withLog _

/-- A placement that stands on no stack ends. -/
theorem endPlacement (h : Staid s t) {id : Nat} (hid : (t.placement id).onStack = false) (o : Outcome) (e : Option Entry) (c : Pt) :
    Staid s (endPlacement id o e c t) := by
  rw [endPlacement_eq]
  exact (h.setPlacement id (.vacated hid)).withLog _

/-- The lane's AUDIT mark after a notice. -/
theorem unmark (h : Staid s t) (l : Nat) : Staid s (t.onLane l fun x => { x with audit := .none }) :=
  h.onLane l fun _ => .of_eq rfl

theorem auditMissed (h : Staid s t) (id : Nat) (p : Placement) : Staid s (auditMissed id p t) := by
  unfold Machine.auditMissed
  split
  · exact (h.handRecord _ _).unmark _
  · exact h

/-! ### Lookaheads (R58 to R62) -/

/-- A lane's lookahead replaced. -/
theorem relook (h : Staid s t) (l : Nat) (k : Look) : Staid s (t.onLane l fun x => { x with look := k }) :=
  h.onLane l fun _ => .of_eq rfl

theorem requestFetch (h : Staid s t) (l : Nat) (e : Entry) (d : Bool) : Staid s (requestFetch l e d t) := by
  unfold Machine.requestFetch
  split
  · exact h
  · exact (h.relook l _).away rfl rfl

theorem prefetchTest (h : Staid s t) (l : Nat) : Staid s (prefetchTest l t) := by
  unfold Machine.prefetchTest
  split
  · exact h
  · split
    · exact h.requestFetch _ _ _
    · exact h

theorem prefetchTests (h : Staid s t) (ls : List Nat) : Staid s (prefetchTests ls t) := by
  induction ls generalizing t with
  | nil => exact h
  | cons l rest ih => exact ih (h.prefetchTest l)

theorem overtake (h : Staid s t) (l : Nat) : Staid s (overtake l t) := by
  unfold Machine.overtake
  split
  · exact h
  · exact h.relook l _
  · split
    · exact h.relook l _
    · exact (h.relook l _).away rfl rfl

theorem alignLook (h : Staid s t) (l : Nat) : Staid s (alignLook l t) := by
  unfold Machine.alignLook
  split
  · exact h
  · split
    · exact h
    · exact h.overtake l

theorem demandFetch (h : Staid s t) (l : Nat) : Staid s (demandFetch l t) := by
  unfold Machine.demandFetch
  split
  · exact h
  · exact h.relook l _
  · split
    · exact h
    · exact h.requestFetch _ _ _

theorem fillLook (h : Staid s t) (l : Nat) (slot : List Byte) : Staid s (fillLook l slot t) := by
  unfold Machine.fillLook
  split
  · split
    · exact (h.relook l _).prefetchTest l
    · exact h.relook l _
  · exact h

/-! ### Slot writes, cues and late tests (R28, R74 to R83) -/

/-- A cue that starts or moves placements finds them on no stack and leaves them on none. -/
theorem cueMoves {l : Nat} {c : Cue} {ids : List Nat} {f : Placement → Placement} {recent : List Word}
    (h : s.CueMoves l c ids f recent t) (hoff : ∀ id ∈ ids, (s.placement id).onStack = false)
    (hf : ∀ p, (f p).state = .pending ∧ (f p).kind = p.kind) : Staid s t := by
  obtain ⟨-, hothers, hlane, hplaced, -⟩ := h
  refine .of_lane hothers (.of_eq (by rw [hlane])) fun id => ?_
  rw [hplaced]
  split
  next hid =>
    split
    · exact .vacated (hoff id hid)
    · obtain ⟨hstate, hkind⟩ := hf (s.placement id)
      exact .of_off (hoff id hid) (onStack_of_pending hstate) fun hk => by rwa [hkind]
  · exact .refl _

/-- Cue intake ends only placements that wait, and changes the entries of those on the stack in their places (R77 to R81). -/
theorem cueTaken {l : Nat} {c : Cue} {injected : Bool} {code : Nat} (h : s.CueTaken l c injected t code) : Staid s t := by
  have harmed : ∀ id ∈ s.cueIds l c.avail fun p => decide (p.state = .armed), (s.placement id).onStack = false := fun id hid =>
    onStack_of_armed (decide_eq_true_iff.1 ((mem_cueIds ..).1 hid).2.2)
  have hpending : ∀ id ∈ s.cueIds l c.avail fun p => decide (p.state = .pending), (s.placement id).onStack = false := fun id hid =>
    onStack_of_pending (decide_eq_true_iff.1 ((mem_cueIds ..).1 hid).2.2)
  have hwaiting : ∀ id ∈ s.cueIds l c.avail fun p => decide (p.state = .armed ∨ p.state = .pending),
      (s.placement id).onStack = false := fun id hid =>
    (decide_eq_true_iff.1 ((mem_cueIds ..).1 hid).2.2).elim onStack_of_armed onStack_of_pending
  unfold State.CueTaken at h
  extract_lets x armed pending waiting onStack asked cued moved unplaced cancelled recent at h
  split at h
  · cases ha : armed with
    | cons id ids =>
      rw [ha] at h
      refine cueMoves h.1 (fun j hj => harmed j ?_) fun _ => ⟨rfl, rfl⟩
      change j ∈ armed
      rw [ha, List.mem_singleton.1 hj]
      exact List.mem_cons_self ..
    | nil =>
      rw [ha] at h
      dsimp only at h
      split at h
      · split at h
        · rw [h.1]
          exact refl s
        · exact cueMoves h.1 (fun j hj => hpending j (List.mem_filter.1 hj).1) fun _ => ⟨rfl, rfl⟩
      · split at h
        · rw [h.1]
          exact refl s
        · rw [h.1]
          exact (refl s).withLog _
  · obtain ⟨-, hothers, hlane, hplaced, -⟩ := h
    refine .of_lane hothers (.of_map (congrArg Lane.stack hlane) fun e => by split <;> rfl) fun id => ?_
    rw [hplaced]
    split
    · exact .of_eq rfl rfl rfl
    · split
      next hid => exact .vacated (hpending id hid)
      · exact .refl _
  · obtain ⟨hframe, hplaced, -⟩ := h
    refine ⟨fun m => by rw [hframe]; exact .refl _, fun id => ?_⟩
    rw [hplaced]
    split
    next hid => exact .vacated (hwaiting id hid)
    · exact .refl _

theorem intake (h : Staid s t) {l : Nat} (hl : l < 16) (c : Cue) (injected : Bool) : Staid s (intake l c injected t).1 :=
  h.trans (cueTaken (intake_taken l hl c injected t))

theorem cuePacket {l : Nat} {p : List Byte} {i : Insp} (h : s.CuePacket l p i t) : Staid s t := by
  unfold State.CuePacket at h
  extract_lets m at h
  split at h
  · rw [h]
    exact refl s
  · obtain ⟨hmessage, herror⟩ := h
    by_cases hc : i.payLen < 18 ∨ ∀ c, ¬ CueMessage m c
    · rw [herror hc]
      exact (refl s).onLane l fun _ => .of_eq rfl
    · push Not at hc
      obtain ⟨hlen, c, hmsg⟩ := hc
      obtain ⟨code, htaken⟩ := hmessage c hlen hmsg
      exact cueTaken htaken

/-- A slot write (R28): the write index, cue intake, the monitor. -/
theorem ingress (h : Staid s t) {l : Nat} (hl : l < 16) (w : Nat) (slot : List Byte) : Staid s (ingress l w slot t) := by
  obtain ⟨taken, x, records, hcue, hwatched, heq⟩ := ingress_parts hl w slot t
  have hwatch := (watched_frame (taken.lane l) (t.ringSlots l) w (slotTag slot) (inspect (slot.drop 4))).lane
  rw [hwatched] at hwatch
  have hfollowed : Staid s (t.onLane l (Lane.followed (t.ringSlots l) w)) := h.onLane l fun _ => .of_eq rfl
  have htaken : Staid s taken := hfollowed.trans (cuePacket hcue)
  rw [heq]
  exact (htaken.withLog (taken.logAfter (records.map fun b => (l, b)))).setLane l (.of_eq ((congrArg Lane.stack hwatch).trans rfl))

theorem lateTest (h : Staid s t) (id : Nat) : Staid s (lateTest id t) := by
  unfold Machine.lateTest
  extract_lets p
  split
  next howed =>
    split
    · exact h
    · split
      · exact (h.endPlacement (onStack_of_pending howed.1) _ _ _).auditMissed _ _
      · exact h.onPlacement _ fun _ => .of_eq rfl rfl rfl
  · exact h

theorem withdrawOnStack (h : Staid s t) (id : Nat) : Staid s (withdrawOnStack id t) := by
  unfold Machine.withdrawOnStack
  split
  · exact h
  · refine (h.onLane _ fun x => .of_map rfl fun e => ?_).onPlacement _ fun _ => .of_eq rfl rfl rfl
    dsimp only
    split <;> rfl

/-! ### The Alert Controller (R138 to R152) -/

/-- Requests posted to lanes; a lane at its reset values gets none (R140). -/
theorem postAll (h : Staid s t) {q : Lane → Option AlertReq} (hq : q Lane.reset = none) : Staid s (postAll q t) :=
  h.mapLanes (fun x => .post x (q x)) (by rw [hq]; rfl)

theorem beginAlert (h : Staid s t) (st : AlertState) (p : Nat) (r : AlertReason) : Staid s (beginAlert st p r t) :=
  ((h.postAll (q := t.alert.requests p) rfl).withAlert _).handRecord _ _

theorem finishAlert (h : Staid s t) (r : AlertReason) : Staid s (finishAlert r t) :=
  ((h.postAll (q := t.alert.removals) rfl).withAlert _).handRecord _ _

theorem endAlert (h : Staid s t) (r : AlertReason) : Staid s (endAlert r t) := by
  unfold Machine.endAlert
  split
  · exact (h.finishAlert r).beginAlert _ _ _
  · exact h.finishAlert r

theorem lineAsserted (h : Staid s t) : Staid s (lineAsserted t) := by
  unfold Machine.lineAsserted
  extract_lets p0
  split
  · exact h.beginAlert _ _ _
  · exact h.withAlert _

theorem lineDeasserted (h : Staid s t) : Staid s (lineDeasserted t) := by
  unfold Machine.lineDeasserted
  extract_lets u
  have hu : Staid s u := h.withAlert _
  split
  · exact hu.endAlert _
  · exact hu

theorem filteredChange (h : Staid s t) : Staid s (filteredChange t) := by
  unfold Machine.filteredChange
  split
  · exact h
  · split
    · exact h.lineAsserted
    · exact h.lineDeasserted

theorem renewalFailure (h : Staid s t) : Staid s (renewalFailure t) := by
  unfold Machine.renewalFailure
  extract_lets count alert counted
  have hc : Staid s counted := h.withAlert _
  split
  · exact hc
  · exact (hc.withAlert _).handRecord _ _
  · exact hc.endAlert _
  · exact (hc.withAlert _).handRecord _ _

theorem judgeRenewal (h : Staid s t) : Staid s (judgeRenewal t) := by
  unfold Machine.judgeRenewal
  split
  · exact (h.withAlert _).renewalFailure
  · exact (h.withAlert _).withAlert _

/-- The release of BYPASS starts monitors and may start the line alert (R114). -/
theorem releaseBypass (h : Staid s t) : Staid s (releaseBypass t) := by
  have hlane : ∀ x : Lane, x.Staid x.releaseBypass := fun x => by
    unfold Lane.releaseBypass
    split
    · extract_lets y
      split <;> exact .of_eq rfl
    · exact .refl x
  have hu : Staid s { t with bypass := false, lanes := vmap Lane.releaseBypass t.lanes } := (h.mapLanes hlane rfl).away rfl rfl
  unfold Machine.releaseBypass
  extract_lets u
  split
  · exact hu.lineAsserted
  · exact hu

theorem changeRaw (level : Bool) (s : State) : Staid s (changeRaw level s) := by
  unfold Machine.changeRaw
  split
  · exact refl s
  · extract_lets u
    split <;> exact (refl s).away rfl rfl

/-! ### Stages 1, 5 and 6 of a slot read (R29, R105, R106, R108) -/

/-- The first stage of a read ends only PENDING placements (R82). -/
theorem stageOne {l : Nat} (he : (s.lane l).enabled = true) (k : Nat) (i : Insp) : Staid s (stageOne l k i s) := by
  obtain ⟨-, hothers, hlane, hplaced, -⟩ := stageOne_first l k i s he
  refine .of_lane hothers (.of_map (congrArg Lane.stack hlane) fun _ => rfl) fun id => ?_
  by_cases hid : id < 128
  · rw [hplaced id hid]
    split
    next hpending =>
      split
      · exact .of_eq rfl rfl rfl
      · exact .vacated (onStack_of_pending hpending.1)
    · exact .refl _
  · rw [State.placement_of_le _ (Nat.le_of_not_lt hid), State.placement_of_le _ (Nat.le_of_not_lt hid)]
    exact .refl _

/-- The top entry changed in its place. -/
theorem onTop (h : Staid s t) (l : Nat) {f : Entry → Entry} (hf : ∀ e, (f e).station = e.station) :
    Staid s (t.onLane l fun x => x.onTop f) := h.onLane l fun x => .onTop x fun e _ => hf e

end Staid

theorem endClip_station (e : Entry) (o : ClipOutcome) : (e.endClip o).station = e.station := by
  unfold Entry.endClip
  split <;> rfl

theorem afterDraw_station (e : Entry) (mapped : Bool) (lag count : Nat) : (e.afterDraw mapped lag count).station = e.station := by
  unfold Entry.afterDraw
  split
  · rfl
  · extract_lets tally e'
    split
    · exact endClip_station _ _
    · rfl

namespace Staid

variable {s t u : State}

theorem damageClip (h : Staid s t) (l : Nat) : Staid s (damageClip l t) :=
  h.onLane l fun x => (Lane.Staid.onTop x fun e _ => endClip_station e _).trans (.of_eq rfl)

theorem drawPacket (h : Staid s t) (cx : ReadCtx) (e : Entry) (held : List Byte) (i : Insp) :
    Staid s (drawPacket cx e held i t).1 := by
  unfold Machine.drawPacket
  extract_lets x c lag
  have hdrawn : ∀ mapped, x.Staid (x.onTop fun e => e.afterDraw mapped lag c.count) := fun mapped =>
    .onTop x fun e _ => afterDraw_station e mapped lag c.count
  split
  · exact h.setLane _ ((hdrawn false).trans (.of_eq rfl))
  · exact h.setLane _ ((hdrawn true).trans (.of_eq rfl))

theorem consultLook (h : Staid s t) (cx : ReadCtx) (e : Entry) : Staid s (consultLook cx e t).1 := by
  unfold Machine.consultLook
  extract_lets u
  have hu : Staid s u := h.alignLook _
  split
  · split
    · exact hu.damageClip _
    · split
      · exact hu.drawPacket _ _ _ _
      · exact hu
  · exact hu.demandFetch _
  · exact hu.demandFetch _

theorem beginClip (h : Staid s t) (cx : ReadCtx) (start : Pt) : Staid s (beginClip cx start t).1 := by
  unfold Machine.beginClip
  extract_lets u
  have hu : Staid s u := h.alignLook _
  split
  · split
    · exact hu.damageClip _
    · exact hu.onTop _ fun _ => rfl
  · exact hu.demandFetch _
  · exact hu.demandFetch _

end Staid

theorem walk_station (defined : Nat → Bool) (n : Nat) (e : Entry) : (e.walk defined n).station = e.station := by
  induction n generalizing e with
  | zero => rfl
  | succ n ih =>
    unfold Entry.walk
    split
    · rfl
    · split
      · rfl
      · exact ih _

namespace Staid

variable {s t u : State}

theorem takeTurn (h : Staid s t) (cx : ReadCtx) (start : Pt) : Staid s (takeTurn cx start t).1 := by
  unfold Machine.takeTurn
  split
  · exact h
  next e htop =>
    extract_lets e' u
    have hu : Staid s u := h.onLane_self _ (.onTop _ fun n hn => by
      obtain rfl := Option.some.inj (htop.symm.trans hn)
      exact walk_station _ _ _)
    split
    · exact hu.beginClip _ _
    · exact hu

theorem stageFive (h : Staid s t) (cx : ReadCtx) (start : Pt) (old : Option Entry) (b : Bool) :
    Staid s (stageFive cx start old b t).1 := by
  have hcover : ∀ e : Entry, e.cover.station = e.station := fun e => endClip_station e _
  have hold : Staid s (settleOld cx.lane old b t) := by
    unfold settleOld
    split
    · exact h.onTop _ fun _ => rfl
    · split
      · exact h
      · refine h.onLane _ fun x => .of_map rfl fun e => ?_
        split
        · exact hcover e
        · rfl
  unfold Machine.stageFive
  split
  · extract_lets u
    have hu : Staid s u := hold.overtake _
    split
    · exact hu
    next shown _ _ _ =>
      have hs : Staid s shown := hu.onTop _ fun _ => rfl
      split
      · exact hs
      · exact hs.takeTurn _ _
  · exact h

theorem stageSix (h : Staid s t) (cx : ReadCtx) (b : Bool) : Staid s (stageSix cx b t).1 := by
  unfold Machine.stageSix
  split
  · exact h
  · split
    · unfold sourceBase
      extract_lets x
      split
      · exact h
      · exact h.setLane _ (.of_eq rfl)
    · unfold sourceEntry
      split
      · exact h
      · split
        · exact h.consultLook _ _
        · split
          · exact h
          · have ht := h.takeTurn cx cx.clock
            split
            next heq => rw [heq] at ht; exact ht
            next heq => rw [heq] at ht; exact ht
            next heq => rw [heq] at ht; exact ht
            next heq =>
              rw [heq] at ht
              split
              · exact ht.consultLook _ _
              · exact ht

/-- The procedure waits. -/
theorem withWait (h : Staid s t) (w : Option WaitingRead) : Staid s { t with wait := w } := h.away rfl rfl

theorem completeRead (h : Staid s t) (out : List Byte) : Staid s (completeRead out t) := h.away rfl rfl

theorem finishSource {r : State × Src} (h : Staid s r.1) (cx : ReadCtx) : Staid s (finishSource cx r) := by
  unfold Machine.finishSource
  split
  · exact (h.completeRead _).prefetchTest _
  · exact h.withWait _

theorem afterStart {r : State × Turn} (h : Staid s r.1) (cx : ReadCtx) (start : Pt) : Staid s (afterStart cx start r) := by
  unfold Machine.afterStart
  split
  · exact h.withWait _
  · exact (h.stageSix cx true).finishSource cx
  · exact (h.stageSix cx false).finishSource cx
  · exact (h.stageSix cx false).finishSource cx

theorem resumeRead (h : Staid s t) (w : WaitingRead) : Staid s (resumeRead w t) := by
  unfold Machine.resumeRead
  split
  · exact h
  · extract_lets cx
    split
    · exact (h.beginClip cx _).afterStart cx _
    · split
      · exact (h.consultLook cx _).finishSource cx
      · exact h

/-! ### Arrivals, returns, requests and grants (R1 to R3, R13, R16, R60) -/

theorem fetchArrival (h : Staid s t) : Staid s (fetchArrival t) := by
  unfold Machine.fetchArrival
  split
  next l clip orphan data rest _ =>
    have hlanded : Staid s (landed rest t) := h.away rfl rfl
    split
    · exact hlanded
    · have hf : Staid s (Machine.fillLook l data (landed rest t)) := hlanded.fillLook l data
      unfold continueWait
      split
      · split
        · exact hf.resumeRead _
        · exact hf
      · exact hf
  · exact h
  · exact h

theorem readArrival (s : State) : Staid s (readArrival s) := by
  unfold Machine.readArrival
  split <;> exact (refl s).away rfl rfl

theorem returnRead (s : State) : Staid s (returnRead s) := by
  unfold Machine.returnRead
  split
  · exact refl s
  · split <;> exact (refl s).away rfl rfl

theorem takeCommand_placements (n : Nat) (ws : List Word) (s : State) : (takeCommand n ws s).placements = s.placements := by
  unfold takeCommand
  split
  · rfl
  · split <;> rfl

theorem cancelCommand_placements (n : Nat) (s : State) : (cancelCommand n s).placements = s.placements := by
  unfold cancelCommand
  split
  · rfl
  · split <;> rfl

theorem acceptControl (r : QRequest) (s : State) : Staid s (acceptControl r s).1 := by
  refine (refl s).away (Steady.acceptControl_lanes r s) ?_
  unfold Machine.acceptControl
  split
  · rcases offerWrite_eq (s.controlLine r) r s with he | he | he
    · rw [he]
      exact cancelCommand_placements _ s
    · rw [he]
      exact takeCommand_placements _ _ s
    · rw [he]
      rfl
  · rfl

theorem classify (r : QRequest) (s : State) : Staid s (classify r s).1 := by
  have hring : ∀ i, Staid s (acceptRing i r s).1 := fun i => by
    unfold acceptRing
    extract_lets l off
    split
    · exact refl s
    next hlive =>
      split
      · have he : (s.lane l).enabled = true := by
          simp [State.ringLive] at hlive
          exact hlive.1
        exact (refl s).ingress (enabled_lt he) _ _
      · split
        · exact refl s
        · have hstray : Staid s (s.onLane l fun x => { x with strays := satInc x.strays }) := (refl s).onLane l fun _ => .of_eq rfl
          exact hstray
  unfold Machine.classify
  split
  · exact (refl s).away rfl rfl
  · exact acceptControl r s
  · unfold acceptRegion
    split
    · exact hring _
    · unfold acceptLog
      split <;> exact (refl s).away rfl rfl
    all_goals exact refl s
  · exact refl s

theorem acceptRequest (r : QRequest) (s : State) : Staid s (acceptRequest r s) := by
  have hcounted : Staid s (countStrayClaim r s) := by
    unfold countStrayClaim
    split
    · exact (refl s).away rfl rfl
    · exact refl s
  unfold Machine.acceptRequest
  split
  · exact refl s
  · split
    · exact (refl s).away rfl rfl
    · split
      · extract_lets a
        have ha : Staid s a.1 := hcounted.trans (classify r _)
        exact ha.away rfl rfl
      · split <;> exact (refl s).away rfl rfl

theorem grantFetch (h : Staid s t) (l : Nat) : Staid s (grantFetch l t) := by
  unfold Machine.grantFetch
  split
  · exact (h.relook l _).away rfl rfl
  all_goals exact h.away rfl rfl

theorem grantForward (h : Staid s t) : Staid s (grantForward t) := by
  unfold Machine.grantForward
  split
  · exact h
  · split <;> exact h.away rfl rfl

end Staid

end Sys2Proof.Machine

namespace Sys2Proof.Machine

open Sys2Proof

/-! ## Placements leave stacks and join them (R86, R89, R93) -/

section Standing

variable {s t : State} {l : Nat}

/-- A placement has an entry on one part of a stack that gives no placement two, and so on no other part. -/
theorem onStackOf_append_iff {st kept gone : List Entry} (hp : st.Perm (kept ++ gone)) (h : noTwice st) (id : Nat) :
    onStackOf kept id ↔ onStackOf st id ∧ ¬ onStackOf gone id := by
  have happend : onStackOf st id ↔ onStackOf kept id ∨ onStackOf gone id := by
    simp only [onStackOf, hp.mem_iff, List.mem_append, or_and_right, exists_or]
  obtain ⟨-, -, hapart⟩ := List.pairwise_append.1 (noTwice_perm hp h)
  rw [happend]
  refine ⟨fun hk => ⟨.inl hk, fun hg => ?_⟩, fun ⟨hor, hg⟩ => hor.resolve_right hg⟩
  obtain ⟨a, ha, hida⟩ := (onStackOf_iff _ _).1 hk
  obtain ⟨b, hb, hidb⟩ := (onStackOf_iff _ _).1 hg
  rcases hapart a ha b hb with hnone | hne
  · cases hnone.symm.trans hida
  · exact hne (hida.trans hidb.symm)

namespace State.Standing

/-- Placements end, and of each stack the entries of the others stay. -/
theorem vacate (h : s.Standing) {gone : Nat → Prop} (hgone : ∀ id, gone id → t.placement id = Placement.vacant)
    (hkept : ∀ id, ¬ gone id → t.placement id = s.placement id)
    (hstacks : ∀ m, ∃ st : List Entry, st.Sublist (s.lane m).stack ∧ (t.lane m).stack.map Entry.station = st.map Entry.station)
    (hon : ∀ m id, onStackOf (t.lane m).stack id ↔ onStackOf (s.lane m).stack id ∧ ¬ gone id) : t.Standing where
  stackOn m := by
    obtain ⟨st, hsub, hst⟩ := hstacks m
    refine ((h.stackOn m).sublist hsub).of_stations hst fun id hid => ?_
    rw [hkept id ((hon m id).1 ((onStackOf_congr hst id).2 hid)).2]
  kinds id hid := by
    by_cases hg : gone id
    · rw [hgone id hg]
      exact .inr rfl
    · rw [hkept id hg]
      exact h.kinds id hid
  stands id hid := by
    simp only [hon]
    by_cases hg : gone id
    · rw [hgone id hg]
      simp [hg, Placement.onStack, Placement.vacant]
    · rw [hkept id hg, h.stands id hid]
      simp [hg]

/-- One lane's stack is reworked, the placements on it the same. -/
theorem restack (h : s.Standing) (hothers : ∀ m, m ≠ l → t.lane m = s.lane m) (hp : t.placements = s.placements)
    (hst : s.StackOn l (t.lane l).stack) (hon : ∀ id, onStackOf (t.lane l).stack id ↔ onStackOf (s.lane l).stack id) :
    t.Standing := by
  have hplaced := placement_congr hp
  have hstack : ∀ m, s.StackOn m (t.lane m).stack ∧
      ∀ id, onStackOf (t.lane m).stack id ↔ onStackOf (s.lane m).stack id := fun m => by
    by_cases hm : m = l
    · rw [hm]
      exact ⟨hst, hon⟩
    · rw [hothers m hm]
      exact ⟨h.stackOn m, fun _ => .rfl⟩
  refine ⟨fun m => (hstack m).1.congr fun id _ => by rw [hplaced], fun id hid => ?_, fun id hid => ?_⟩
  · rw [hplaced]
    exact h.kinds id hid
  · rw [hplaced, h.stands id hid]
    exact exists_congr fun m => ((hstack m).2 id).symm

/-- A placement that stands on no stack gets an entry on the stack of its lane, which lacks its kind. -/
theorem enter (h : s.Standing) {id : Nat} (hid : id < 128) (hoff : (s.placement id).onStack = false)
    (hlane : (s.placement id).lane = l) {e : Entry} (hkind : e.kind = (s.placement id).kind) (hsource : e.source = .placement id)
    (hnone : ¬ ∃ n ∈ (s.lane l).stack, n.kind = e.kind) (hothers : ∀ m, m ≠ l → t.lane m = s.lane m)
    (hst : (t.lane l).stack = insertEntry e (s.lane l).stack) (hp : ∀ j, j ≠ id → t.placement j = s.placement j)
    (hentered : (t.placement id).onStack = true ∧ (t.placement id).lane = l ∧ (t.placement id).kind = (s.placement id).kind) :
    t.Standing := by
  obtain ⟨hon, htlane, htkind⟩ := hentered
  have hout : ∀ m, ¬ onStackOf (s.lane m).stack id := fun m hm =>
    Bool.false_ne_true (hoff.symm.trans ((h.stands id hid).2 ⟨m, hm⟩))
  have hfits : e.fits s l := by
    unfold Entry.fits
    rw [hsource]
    exact ⟨hid, hlane, hkind ▸ h.kinds id hid⟩
  have hplaces : ∀ m j, onStackOf (t.lane m).stack j ↔ m = l ∧ j = id ∨ onStackOf (s.lane m).stack j := fun m j => by
    by_cases hm : m = l
    · subst hm
      rw [hst, onStackOf_insertEntry, hsource, Source.placement.injEq]
      simp [eq_comm]
    · rw [hothers m hm]
      simp [hm]
  refine ⟨fun m => ?_, fun j hj => ?_, fun j hj => ?_⟩
  · have hwas : s.StackOn m (t.lane m).stack := by
      by_cases hm : m = l
      · subst hm
        rw [hst]
        refine (h.stackOn m).insert hfits hnone fun j hs => ?_
        obtain rfl := Source.placement.inj (hsource.symm.trans hs)
        exact hout m
      · rw [hothers m hm]
        exact h.stackOn m
    refine hwas.congr fun j _ => ?_
    by_cases hj : j = id
    · rw [hj, htlane, hlane]
    · rw [hp j hj]
  · by_cases hji : j = id
    · rw [hji, htkind]
      exact h.kinds id hid
    · rw [hp j hji]
      exact h.kinds j hj
  · simp only [hplaces]
    by_cases hji : j = id
    · subst hji
      exact iff_of_true hon ⟨l, .inl ⟨rfl, rfl⟩⟩
    · rw [hp j hji, h.stands j hj]
      simp [hji]

end State.Standing

/-! ### What happens on one lane -/

/-- From `s` to `t` the other lanes and the placements of other lanes are the same. -/
structure Beside (l : Nat) (s t : State) : Prop where
  lanes : ∀ m, m ≠ l → t.lane m = s.lane m
  placements : ∀ id, (s.placement id).lane ≠ l → t.placement id = s.placement id

theorem Beside.refl (l : Nat) (s : State) : Beside l s s := ⟨fun _ _ => rfl, fun _ _ => rfl⟩

theorem Beside.trans {u : State} (h : Beside l s t) (g : Beside l t u) : Beside l s u where
  lanes m hm := (g.lanes m hm).trans (h.lanes m hm)
  placements id hid := (g.placements id (by rwa [h.placements id hid])).trans (h.placements id hid)

theorem Beside.shows (h : Beside l s t) (hs : s.Standing) {m : Nat} (hm : m ≠ l) (hshows : s.Shows m) : t.Shows m := fun id => by
  rw [h.lanes m hm]
  have hkeeps : onStackOf (s.lane m).stack id → t.placement id = s.placement id := fun hid => by
    obtain ⟨-, hlane⟩ := hs.lane_eq hid
    exact h.placements id (by rwa [hlane])
  obtain ⟨htop, hbelow⟩ := hshows id
  refine ⟨fun hid => ?_, fun hid => ?_⟩
  · rw [hkeeps ((onStackOf_split id).2 (.inl hid))]
    exact htop hid
  · rw [hkeeps ((onStackOf_split id).2 (.inr hid))]
    exact hbelow hid

/-- The laws hold again once lane `l` has been reworked and its placements show their places. -/
theorem Beside.stackLaws (h : Beside l s t) (hs : s.StackLaws) (ht : t.Standing) (hl : t.Shows l) : t.StackLaws := by
  obtain ⟨hstanding, hshows⟩ := stackLaws_iff.1 hs
  refine stackLaws_iff.2 ⟨ht, fun m => ?_⟩
  by_cases hm : m = l
  · rw [hm]
    exact hl
  · exact h.shows hstanding hm (hshows m)

end Standing

end Sys2Proof.Machine

namespace Sys2Proof.Machine

open Sys2Proof

/-! ## Stage 2 (R98, R99): alert and slate entries come, and the placements of the stack stay -/

/-- A stack reworked into one that the lane may have where it may have the first, with the same placements on it. -/
def State.Reworks (s : State) (l : Nat) (st st' : List Entry) : Prop :=
  s.StackOn l st → s.StackOn l st' ∧ ∀ id, onStackOf st' id ↔ onStackOf st id

section Requests

variable {s t : State} {l : Nat} {st st' : List Entry}

namespace State.Reworks

theorem refl (s : State) (l : Nat) (st : List Entry) : s.Reworks l st st := fun h => ⟨h, fun _ => .rfl⟩

theorem trans {st'' : List Entry} (h : s.Reworks l st st') (g : s.Reworks l st' st'') : s.Reworks l st st'' := fun hst => by
  obtain ⟨hst', hon⟩ := h hst
  obtain ⟨hst'', hon'⟩ := g hst'
  exact ⟨hst'', fun id => (hon' id).trans (hon id)⟩

theorem ite {p : Prop} [Decidable p] (h : s.Reworks l st st') : s.Reworks l st (if p then st' else st) := by
  split
  · exact h
  · exact refl s l st

theorem of_stations (h : st'.map Entry.station = st.map Entry.station) : s.Reworks l st st' := fun hst =>
  ⟨hst.of_stations h fun _ _ => rfl, onStackOf_congr h⟩

/-- The end request of the entries of a kind set or cleared. -/
theorem requestEnd (k : Kind) (b : Bool) :
    s.Reworks l st (st.map fun e => if e.kind = k then { e with endRequested := b } else e) := by
  refine of_stations ?_
  rw [List.map_map]
  refine List.map_congr_left fun e _ => ?_
  dsimp only [Function.comp]
  split <;> rfl

/-- An alert or slate entry joins a stack without one. -/
theorem insert {e : Entry} (hfits : e.fits s l) (hid : e.placementId = none) (hnone : ¬ ∃ n ∈ st, n.kind = e.kind) :
    s.Reworks l st (insertEntry e st) := fun h => by
  have hout : ∀ id, e.source ≠ .placement id := fun id hs =>
    Option.some_ne_none id ((placementId_eq_some.2 hs).symm.trans hid)
  refine ⟨h.insert hfits hnone fun id hs => absurd hs (hout id), fun id => ?_⟩
  rw [onStackOf_insertEntry]
  exact or_iff_right (hout id)

/-- The alert entry turns to another profile. -/
theorem retarget (p : Nat) (clips : List Nat) :
    s.Reworks l st (st.map fun e =>
      if e.kind = .alert then { e with source := .profile p, clips := clips, endRequested := false } else e) :=
  fun h => by
    have hid : ∀ e ∈ st,
        Entry.placementId (if e.kind = .alert then { e with source := .profile p, clips := clips, endRequested := false } else e) =
          e.placementId := by
      intro e he
      split
      next hk =>
        refine Eq.symm (Option.eq_none_iff_forall_ne_some.2 fun id hid => ?_)
        obtain ⟨-, -, hkind⟩ := fits_placement (h.fits e he) (placementId_eq_some.1 hid)
        rw [hk] at hkind
        exact hkind.elim Kind.noConfusion Kind.noConfusion
      · rfl
    refine ⟨h.map (fun e _ => ?_) hid fun e he => ?_, onStackOf_map hid⟩
    · split <;> rfl
    · split
      next hk => exact hk
      · exact h.fits e he

end State.Reworks

theorem afterAlert_reworks (s : State) (l : Nat) : s.Reworks l (s.lane l).stack (s.afterAlert l) := by
  have hset : ∀ p, s.Reworks l (s.lane l).stack
      (if ∃ e ∈ (s.lane l).stack, e.kind = .alert then
        (s.lane l).stack.map fun e =>
          if e.kind = .alert then { e with source := .profile p, clips := (s.alert.profileAt p).clips, endRequested := false }
          else e
      else Entry.new .alert (.profile p) (s.alert.profileAt p).clips none .atEnd :: (s.lane l).stack) := fun p => by
    split
    · exact .retarget _ _
    next hnone =>
      rw [← insertEntry_alert _ rfl _ hnone]
      exact .insert rfl rfl hnone
  unfold State.afterAlert
  extract_lets st
  split
  · exact .refl s l _
  · exact hset _
  · exact hset _
  · exact .requestEnd _ _

theorem afterInsert_reworks (s : State) (l : Nat) (x : Lane) (st : List Entry) : s.Reworks l st (x.afterInsert st) := by
  unfold Lane.afterInsert
  split
  · exact .requestEnd _ _
  next hnone =>
    split
    · rw [← insertEntry_slate _ rfl]
      exact .insert rfl rfl hnone
    · exact .refl s l st

theorem requests_reworks (hl : l < 16) (h : s.Requests l t) : s.Reworks l (s.lane l).stack (t.lane l).stack := by
  unfold State.Requests at h
  rw [h, State.lane_setLane_self _ _ hl]
  exact ((afterAlert_reworks s l).trans (.ite (afterInsert_reworks s l _ _))).trans (.ite (.requestEnd _ _))

theorem requests_standing (hl : l < 16) (hs : s.Standing) (h : s.Requests l t) : t.Standing ∧ Beside l s t := by
  obtain ⟨hst, hon⟩ := requests_reworks hl h (hs.stackOn l)
  unfold State.Requests at h
  have hothers : ∀ m, m ≠ l → t.lane m = s.lane m := fun m hm => by
    rw [h]
    exact s.lane_setLane_ne _ hm.symm
  have hp : t.placements = s.placements := by rw [h]; rfl
  exact ⟨hs.restack hothers hp hst hon, hothers, fun id _ => by rw [placement_congr hp]⟩

end Requests

/-! ## Stage 3 (R101 to R103): entries end, and their placements with them -/

section Ends

variable {s t : State} {l : Nat}

/-- Placements of lane `l` end, and of its stack the entries of the others stay. -/
theorem State.Standing.vacateLane (h : s.Standing) {kept gone : List Entry} (hperm : (s.lane l).stack.Perm (kept ++ gone))
    (hsub : kept.Sublist (s.lane l).stack) (hothers : ∀ m, m ≠ l → t.lane m = s.lane m)
    (hst : (t.lane l).stack.map Entry.station = kept.map Entry.station)
    (hp : ∀ id, t.placement id = if onStackOf gone id then Placement.vacant else s.placement id) : t.Standing ∧ Beside l s t := by
  have hlane : ∀ id, onStackOf gone id → (s.placement id).lane = l := fun id hid =>
    (h.lane_eq (onStackOf_mono (fun e he => hperm.mem_iff.2 (List.mem_append_right _ he)) hid)).2
  refine ⟨h.vacate (gone := onStackOf gone) (fun id hid => ?_) (fun id hid => ?_) (fun m => ?_) fun m id => ?_, hothers,
    fun id hid => ?_⟩
  · rw [hp, if_pos hid]
  · rw [hp, if_neg hid]
  · by_cases hm : m = l
    · subst hm
      exact ⟨kept, hsub, hst⟩
    · exact ⟨_, .refl _, by rw [hothers m hm]⟩
  · by_cases hm : m = l
    · subst hm
      rw [onStackOf_congr hst]
      exact onStackOf_append_iff hperm (h.stackOn m).single id
    · rw [hothers m hm]
      refine ⟨fun hid => ⟨hid, fun hg => hm ?_⟩, And.left⟩
      exact (h.lane_eq hid).2.symm.trans (hlane id hg)
  · rw [hp, if_neg fun hg => hid (hlane id hg)]

theorem ends_standing {clock : Pt} {rap : Option Pt} (hs : s.Standing) (h : s.Ends l clock rap t) : t.Standing ∧ Beside l s t := by
  unfold State.Ends at h
  extract_lets x at h
  split at h
  · rw [h]
    exact ⟨hs, .refl l s⟩
  next ended _ e below hst =>
    extract_lets gone kept returns leaves measured at h
    obtain ⟨-, hothers, hlane, hp, -⟩ := h
    have hparts : below.Perm (kept ++ gone) := ((List.filter_append_perm ended below).symm).trans List.perm_append_comm
    have hkept : kept.Sublist below := List.filter_sublist
    change (s.lane l).stack = e :: below at hst
    have hstack := congrArg Lane.stack hlane
    by_cases hleaves : leaves
    · simp only [hleaves, ↓reduceIte] at hp hstack
      refine hs.vacateLane (kept := kept) ?_ (hst ▸ hkept.cons e) hothers (congrArg _ hstack) hp
      rw [hst, ← List.append_assoc]
      exact (hparts.cons e).trans (List.perm_append_singleton e _).symm
    · simp only [hleaves, ↓reduceIte, List.append_nil] at hp hstack
      refine hs.vacateLane (kept := e :: kept) ?_ (hst ▸ hkept.cons_cons e) hothers ((congrArg _ hstack).trans rfl) hp
      rw [hst]
      exact hparts.cons e

end Ends

/-! ## Stage 4 (R86, R87, R104): offered placements enter, and the placements of the stack show their places -/

section Enters

variable {s t : State} {cx : ReadCtx}

/-- A placement the read may offer for entry: PENDING on its lane, with T known (R85). -/
def State.Offered (s : State) (l id : Nat) : Prop :=
  id < 128 ∧ (s.placement id).state = .pending ∧ (s.placement id).lane = l ∧ ∃ n, (s.placement id).t = some n

theorem offered_of_mem {k : Kind} {id : Nat} (h : id ∈ s.offered cx k) : s.Offered cx.lane id ∧ (s.placement id).kind = k := by
  obtain ⟨hid, hkind, hstate, hlane, n, hn, -⟩ := ((offered_offers s cx k).2 id).1 h
  exact ⟨⟨hid, hstate, hlane, n, hn⟩, hkind⟩

/-- One offer: the placement enters or is blocked, and the others stay as they are. -/
theorem enterOne_standing (hl : cx.lane < 16) (hs : s.Standing) {id : Nat} (ho : s.Offered cx.lane id) :
    (enterOne cx id s).Standing ∧ Beside cx.lane s (enterOne cx id s) ∧
      ∀ j, j ≠ id → (enterOne cx id s).placement j = s.placement j := by
  obtain ⟨hid, hstate, hlane, n, hn⟩ := ho
  have hbeside : ∀ {t : State}, (∀ m, m ≠ cx.lane → t.lane m = s.lane m) → (∀ j, j ≠ id → t.placement j = s.placement j) →
      Beside cx.lane s t := fun hothers hp => ⟨hothers, fun j hj => hp j fun heq => hj (heq ▸ hlane)⟩
  by_cases hblocked : ∃ e ∈ (s.lane cx.lane).stack, e.kind = (s.placement id).kind
  · rw [enterOne_blocked cx id s hblocked]
    have hp : ∀ j, j ≠ id → (s.setPlacement id { s.placement id with blocked := true }).placement j = s.placement j := fun j hj =>
      s.placement_setPlacement_ne _ hj.symm
    have hstaid : Staid s (s.setPlacement id { s.placement id with blocked := true }) :=
      (Staid.refl s).setPlacement id (.of_eq rfl rfl rfl)
    exact ⟨hstaid.standing hs, hbeside (fun _ _ => rfl) hp, hp⟩
  · obtain ⟨-, hothers, hst, hplaced, -⟩ := enterOne_enters cx hl id hid s n hn hblocked
    have hp : ∀ j, j ≠ id → (enterOne cx id s).placement j = s.placement j := fun j hj => by rw [hplaced, if_neg hj]
    refine ⟨hs.enter hid (onStack_of_pending hstate) hlane (e := enteringEntry id (s.placement id) cx.clock (cx.rap s)) rfl rfl
      hblocked hothers ?_ hp ?_, hbeside hothers hp, hp⟩
    · rw [insertEntry_eq]
      exact congrArg Lane.stack hst
    · rw [hplaced, if_pos rfl]
      exact ⟨rfl, hlane, rfl⟩

theorem enterAll_standing (hl : cx.lane < 16) {ids : List Nat} (hnodup : ids.Nodup) (hs : s.Standing)
    (ho : ∀ id ∈ ids, s.Offered cx.lane id) : (enterAll cx ids s).Standing ∧ Beside cx.lane s (enterAll cx ids s) := by
  induction ids generalizing s with
  | nil => exact ⟨hs, .refl _ s⟩
  | cons id rest ih =>
    obtain ⟨hnot, hrest⟩ := List.nodup_cons.1 hnodup
    obtain ⟨hone, hbeside, hp⟩ := enterOne_standing hl hs (ho id (List.mem_cons_self ..))
    obtain ⟨hall, hbesides⟩ := ih hrest hone fun j hj => by
      have hne : j ≠ id := fun heq => hnot (heq ▸ hj)
      unfold State.Offered
      rw [hp j hne]
      exact ho j (List.mem_cons_of_mem _ hj)
    exact ⟨hall, hbeside.trans hbesides⟩

theorem stageFour_standing (hl : cx.lane < 16) (hs : s.Standing) :
    (stageFour cx s).Standing ∧ Beside cx.lane s (stageFour cx s) := by
  refine enterAll_standing hl ?_ hs fun id hid => ?_
  · refine List.nodup_append.2 ⟨List.nodup_range.filter _, List.nodup_range.filter _, fun a ha b hb heq => ?_⟩
    obtain ⟨-, hadvert⟩ := offered_of_mem ha
    obtain ⟨-, hprogramme⟩ := offered_of_mem hb
    rw [heq, hprogramme] at hadvert
    cases hadvert
  · rcases List.mem_append.1 hid with hid | hid
    · exact (offered_of_mem hid).1
    · exact (offered_of_mem hid).1

theorem placedState_onStack {covered top : List Entry} {id : Nat} {p : Placement}
    (h : onStackOf covered id ∨ onStackOf top id → p.onStack = true) : (placedState covered top id p).onStack = p.onStack := by
  unfold placedState
  split
  next hc => exact (h (.inl hc)).symm
  · split
    next ht => exact (h (.inr ht)).symm
    · rfl

/-- The placements of lane `l`'s stack take the states of their places (R87). -/
theorem syncStack_standing {l : Nat} (hs : s.Standing) :
    (syncStack (s.lane l).stack s).Standing ∧ (syncStack (s.lane l).stack s).Shows l ∧
      Beside l s (syncStack (s.lane l).stack s) := by
  obtain ⟨hframe, hplaced⟩ := syncStack_after (s.lane l).stack s
  generalize syncStack (s.lane l).stack s = t at hframe hplaced
  have hlanes : ∀ m, t.lane m = s.lane m := congrFun (lane_congr (by rw [hframe]))
  have hat : ∀ id, t.placement id = placedState (s.lane l).stack.tail ((s.lane l).stack.take 1) id (s.placement id) := fun id => by
    by_cases hid : id < 128
    · exact hplaced id hid
    · have hout : ∀ st ⊆ (s.lane l).stack, ¬ onStackOf st id := fun st hst hon => hid (hs.lane_eq (onStackOf_mono hst hon)).1
      rw [t.placement_of_le (Nat.le_of_not_lt hid), s.placement_of_le (Nat.le_of_not_lt hid), placedState,
        if_neg (hout _ (List.tail_subset _)), if_neg (hout _ (List.take_subset _ _))]
  have hon : ∀ id, (t.placement id).onStack = (s.placement id).onStack := fun id => by
    rw [hat]
    refine placedState_onStack fun hor => ?_
    have hst : onStackOf (s.lane l).stack id := (onStackOf_split id).2 hor.symm
    exact (hs.stands id (hs.lane_eq hst).1).2 ⟨l, hst⟩
  refine ⟨⟨fun m => ?_, fun id hid => ?_, fun id hid => ?_⟩, fun id => ?_, fun m _ => hlanes m, fun id hid => ?_⟩
  · rw [hlanes]
    exact (hs.stackOn m).congr fun id _ => by rw [hat]; rfl
  · rw [hat]
    exact hs.kinds id hid
  · rw [hon, hs.stands id hid]
    simp only [hlanes]
  · have hparts : (s.lane l).stack.Perm ((s.lane l).stack.take 1 ++ (s.lane l).stack.tail) := by
      rw [← List.drop_one, List.take_append_drop]
    rw [hlanes, hat]
    refine ⟨fun htop => ?_, fun hbelow => if_pos hbelow⟩
    exact (if_neg ((onStackOf_append_iff hparts (hs.stackOn l).single id).1 htop).2).trans (if_pos htop)
  · have hout : ∀ st ⊆ (s.lane l).stack, ¬ onStackOf st id := fun st hst hon => hid (hs.lane_eq (onStackOf_mono hst hon)).2
    rw [hat, placedState, if_neg (hout _ (List.tail_subset _)), if_neg (hout _ (List.take_subset _ _))]

/-- Stages 2 to 6 of a read of lane `cx.lane` keep the laws (R97). -/
theorem spliceStages_stackLaws (hl : cx.lane < 16) (h : s.StackLaws) : (spliceStages cx s).StackLaws := by
  obtain ⟨htwo, hbeside₂⟩ := requests_standing hl (standing_of_laws h) (stageTwo_requests cx.lane hl s).1
  unfold spliceStages
  extract_lets old two three offered four synced start
  have hends := stageThree_ends cx hl two.1 (htwo.stackOn cx.lane).single
  obtain ⟨hthree, hbeside₃⟩ := ends_standing htwo hends
  obtain ⟨hfour, hbeside₄⟩ := stageFour_standing hl hthree
  obtain ⟨hsynced, hshows, hbeside₅⟩ := syncStack_standing (l := cx.lane) hfour
  have hlaws : synced.StackLaws :=
    (((hbeside₂.trans hbeside₃).trans hbeside₄).trans hbeside₅).stackLaws h hsynced hshows
  exact (((Staid.refl synced).stageFive cx start old two.2).afterStart cx start).stackLaws hlaws

theorem slotReadStep_stackLaws (h : s.StackLaws) : (slotReadStep s).StackLaws := by
  unfold slotReadStep
  split
  · exact h
  · split
    · exact h
    · split
      next f _ l k _ =>
        split
        · exact ((Staid.refl s).completeRead _).stackLaws h
        next hruns =>
          have he : (s.lane l).enabled = true := by simp at hruns; exact hruns.2
          unfold runProcedure
          extract_lets i one
          have hone : one.StackLaws := (Staid.stageOne he k i).stackLaws h
          split
          · exact ((Staid.refl one).completeRead _).stackLaws hone
          · exact spliceStages_stackLaws (enabled_lt he) hone
      all_goals exact h

end Enters

/-! ## Lanes torn down, and resets (R19, R20, R26, R89, R112) -/

section Torn

variable {s t : State}

/-- The stacks of some lanes are torn down, and the placements on them end. -/
theorem stackLaws_of_torn {torn : Nat → Prop} (h : s.StackLaws) (htorn : ∀ l, torn l → (t.lane l).stack = [])
    (hothers : ∀ l, ¬ torn l → (t.lane l).stack = (s.lane l).stack)
    (hgone : ∀ id, (∃ l, torn l ∧ onStackOf (s.lane l).stack id) → t.placement id = Placement.vacant)
    (hkept : ∀ id, (¬ ∃ l, torn l ∧ onStackOf (s.lane l).stack id) → t.placement id = s.placement id) : t.StackLaws := by
  obtain ⟨hs, hshows⟩ := stackLaws_iff.1 h
  have hone : ∀ {l id}, ¬ torn l → onStackOf (s.lane l).stack id → ¬ ∃ m, torn m ∧ onStackOf (s.lane m).stack id := by
    rintro l id hl hid ⟨m, hm, hidm⟩
    obtain ⟨-, hlane⟩ := hs.lane_eq hid
    obtain ⟨-, hlanem⟩ := hs.lane_eq hidm
    exact hl (hlane ▸ hlanem ▸ hm)
  refine stackLaws_iff.2 ⟨hs.vacate hgone hkept (fun l => ?_) fun l id => ?_, fun l id => ?_⟩
  · by_cases hl : torn l
    · exact ⟨[], List.nil_sublist _, by rw [htorn l hl]⟩
    · exact ⟨_, .refl _, by rw [hothers l hl]⟩
  · by_cases hl : torn l
    · rw [htorn l hl]
      exact ⟨fun ⟨_, he, _⟩ => absurd he List.not_mem_nil, fun ⟨hid, hno⟩ => absurd ⟨l, hl, hid⟩ hno⟩
    · rw [hothers l hl]
      exact ⟨fun hid => ⟨hid, hone hl hid⟩, And.left⟩
  · by_cases hl : torn l
    · rw [htorn l hl]
      exact ⟨fun ⟨_, he, _⟩ => absurd he List.not_mem_nil, fun ⟨_, he, _⟩ => absurd he List.not_mem_nil⟩
    · rw [hothers l hl]
      obtain ⟨htop, hbelow⟩ := hshows l id
      refine ⟨fun hid => ?_, fun hid => ?_⟩
      · rw [hkept id (hone hl ((onStackOf_split id).2 (.inl hid)))]
        exact htop hid
      · rw [hkept id (hone hl ((onStackOf_split id).2 (.inr hid)))]
        exact hbelow hid

theorem disableLane_stackLaws {l : Nat} (hl : l < 16) (h : s.StackLaws) : (disableLane l s).StackLaws := by
  obtain ⟨hlane, hothers, hp, -⟩ := disableLane_after s hl
  refine stackLaws_of_torn (torn := fun m => m = l) h (fun m hm => ?_) (fun m hm => congrArg Lane.stack (hothers m hm))
    (fun id hid => ?_) fun id hid => ?_
  · rw [hm, hlane]
    rfl
  · obtain ⟨_, rfl, hon⟩ := hid
    rw [hp, if_pos hon]
  · rw [hp, if_neg fun hon => hid ⟨l, rfl, hon⟩]

theorem assertBypass_stackLaws (h : s.StackLaws) : (assertBypass s).StackLaws := by
  obtain ⟨u, hbared, htorn⟩ := assertBypass_bared s
  have hlaws : u.StackLaws := by
    refine stackLaws_of_torn (torn := (· ∈ laneNumbers)) h (fun l hl => ?_) (fun l hl => ?_) (fun id hid => ?_) fun id hid => ?_
    · rw [hbared.lane, if_pos hl]
      rfl
    · rw [hbared.lane, if_neg hl]
      rfl
    · rw [hbared.placement]
      exact if_pos hid
    · rw [hbared.placement]
      exact if_neg hid
  rw [htorn]
  exact ((Staid.refl u).away rfl rfl).stackLaws hlaws

theorem State.Blank.stackLaws (h : s.Blank) : s.StackLaws := by
  have hlane := h.lane
  obtain ⟨-, -, -, -, -, -, -, -, -, -, hplacements, -⟩ := h
  have hplaced : ∀ id, s.placement id = Placement.vacant := fun id => by
    by_cases hid : id < 128
    · simp [State.placement, hplacements, hid]
    · exact s.placement_of_le (Nat.le_of_not_lt hid)
  have hout : ∀ l id, ¬ onStackOf (s.lane l).stack id := fun l id => by
    rw [hlane]
    exact fun ⟨_, he, _⟩ => absurd he List.not_mem_nil
  refine stackLaws_iff.2 ⟨⟨fun l => ?_, fun id _ => ?_, fun id _ => ?_⟩, fun l id => ⟨fun hid => ?_, fun hid => ?_⟩⟩
  · rw [hlane]
    exact .nil s l
  · rw [hplaced]
    exact .inr rfl
  · rw [hplaced]
    exact iff_of_false Bool.false_ne_true fun ⟨l, hl⟩ => hout l id hl
  · exact absurd ((onStackOf_split id).2 (.inl hid)) (hout l id)
  · exact absurd ((onStackOf_split id).2 (.inr hid)) (hout l id)

end Torn

end Sys2Proof.Machine

namespace Sys2Proof.Machine

open Sys2Proof

/-! ## The host's commands and every step (R87, R93) -/

/-- A cue goes to intake where its parameters are in range and its lane is enabled (R76). -/
theorem cueAnswer_done {a : CueArgs} {s : State} (h : cueAnswer a s = .done) :
    a.inRange = true ∧ (s.lane a.lane).enabled = true := by
  unfold cueAnswer at h
  split at h
  · cases h
  next hrange =>
    split at h
    · cases h
    next hon => simp_all

/-- A placement may be PLACEd where it is EMPTY (R70). -/
theorem placeAnswer_done {a : PlaceArgs} {s : State} (h : placeAnswer a s = .done) :
    a.inRange = true ∧ (s.placement a.id).state = .vacant := by
  unfold placeAnswer at h
  split at h
  · cases h
  · split at h
    · cases h
    · simp_all

/-- PLACE makes a programme or an advert that stands on no stack (R70). -/
theorem place_entry (ws : List Word) :
    ((placeArgs ws).entry.kind = .programme ∨ (placeArgs ws).entry.kind = .advert) ∧ (placeArgs ws).entry.onStack = false := by
  have hkind : ∀ n, (placeKindOf n).getD .advert = .programme ∨ (placeKindOf n).getD .advert = .advert := fun n => by
    unfold placeKindOf
    split
    · exact .inl rfl
    · split <;> exact .inr rfl
  refine ⟨hkind _, ?_⟩
  unfold PlaceArgs.entry
  extract_lets trigger time
  by_cases hcue : trigger = .cue
  · exact onStack_of_armed (if_pos hcue)
  · exact onStack_of_pending (if_neg hcue)

/-- A body of a command leaves stacks and placements in their places. -/
def StaidBody (body : List Word → State → Reply) : Prop := ∀ ws s, Staid s (body ws s).state

theorem Staid.carried {s t : State} (h : Staid s t) (ws : List Word) : Staid s (carryOut ws t).state := h

theorem regionSetBody_staid : StaidBody regionSetBody := fun ws s => by
  rw [regionSetBody_eq]
  split
  · have hset := setRegion_done (regionArgs ws) s
    have haside := hset.aside
    exact (Staid.refl s).away ((congrArg State.lanes haside).trans rfl) ((congrArg State.placements haside).trans rfl)
  · exact .refl s

theorem laneSetBody_staid : StaidBody laneSetBody := fun ws s => by
  unfold laneSetBody
  extract_lets a
  split
  · refine ((Staid.refl s).onLane a.lane fun x => ?_).carried _
    exact .of_eq rfl
  · exact .refl s

theorem laneEnableBody_staid : StaidBody laneEnableBody := fun ws s => by
  unfold laneEnableBody
  split
  · refine ((Staid.refl s).onLane _ fun x => ?_).carried _
    have henabled : x.Staid (x.enable s.lt) := .of_eq rfl
    exact henabled.trans (.post _ _)
  · exact .refl s

theorem laneStatusBody_staid : StaidBody laneStatusBody := fun ws s => by
  unfold laneStatusBody
  split <;> exact .refl s

theorem clipSetBody_staid : StaidBody clipSetBody := fun ws s => by
  rw [clipSetBody_eq]
  split
  · exact (((Staid.refl s).setClip _ _).prefetchTests laneNumbers).carried _
  · exact .refl s

theorem clipClearBody_staid : StaidBody clipClearBody := fun ws s => by
  unfold clipClearBody
  split
  · exact (Staid.refl s).setClip _ _
  · exact .refl s

theorem placeBody_staid : StaidBody placeBody := fun ws s => by
  obtain ⟨hkind, hoff⟩ := place_entry ws
  unfold placeBody
  extract_lets a
  split
  next hdone =>
    obtain ⟨-, hvacant⟩ := placeAnswer_done hdone
    have hwas : (s.placement a.id).onStack = false := by simp [Placement.onStack, hvacant]
    exact ((Staid.refl s).setPlacement a.id (.of_off hwas hoff fun _ => hkind)).lateTest a.id
  · exact .refl s

theorem withdrawBody_staid : StaidBody withdrawBody := fun ws s => by
  unfold withdrawBody
  extract_lets id
  split
  · exact .refl s
  · split
    · exact .refl s
    next harmed => exact (Staid.refl s).endPlacement (onStack_of_armed harmed) _ _ _
    next hpending => exact (Staid.refl s).endPlacement (onStack_of_pending hpending) _ _ _
    · exact (Staid.refl s).withdrawOnStack _
    · exact (Staid.refl s).withdrawOnStack _

theorem placementStatusBody_staid : StaidBody placementStatusBody := fun ws s => by
  unfold placementStatusBody
  split <;> exact .refl s

theorem cueBody_staid : StaidBody cueBody := fun ws s => by
  unfold cueBody
  extract_lets a
  split
  next hdone => exact (Staid.refl s).intake (enabled_lt (cueAnswer_done hdone).2) _ _
  · exact .refl s

theorem alertProfileBody_staid : StaidBody alertProfileBody := fun ws s => by
  unfold alertProfileBody
  extract_lets a
  have hp : Staid s (setProfile a s) := (Staid.refl s).withAlert _
  split
  · split
    · exact hp.beginAlert _ _ _
    · exact hp
  · exact .refl s

theorem alertStartBody_staid : StaidBody alertStartBody := fun ws s => by
  unfold alertStartBody
  extract_lets p
  split
  · exact (Staid.refl s).beginAlert _ _ _
  · exact .refl s

theorem alertRenewBody_staid : StaidBody alertRenewBody := fun ws s => by
  unfold alertRenewBody
  split
  · exact (Staid.refl s).judgeRenewal
  all_goals exact .refl s

theorem alertEndBody_staid : StaidBody alertEndBody := fun ws s => by
  unfold alertEndBody
  split
  · exact (Staid.refl s).endAlert _
  · exact (Staid.refl s).endAlert _
  all_goals exact .refl s

theorem alertLockBody_staid : StaidBody alertLockBody := fun _ s => (Staid.refl s).withAlert _

theorem auditMarkBody_staid : StaidBody auditMarkBody := fun ws s => by
  unfold auditMarkBody
  split
  · exact .refl s
  · split
    · exact .refl s
    · refine ((Staid.refl s).onLane _ fun x => ?_).carried _
      exact .of_eq rfl

theorem logAckBody_staid : StaidBody logAckBody := fun ws s => by
  unfold logAckBody
  extract_lets n
  split
  · rw [carryOut, presentLog_eq]
    exact (Staid.refl s).withLog _
  · exact .refl s

theorem unclaimBody_staid : StaidBody unclaimBody := fun ws s => by
  unfold unclaimBody
  split
  · exact .refl s
  · split
    · exact .refl s
    · exact (Staid.refl s).away rfl rfl

theorem unknownBody_staid : StaidBody unknownBody := fun _ s => .refl s

section Steps

variable {s t : State}

theorem laneDisableBody_stackLaws (ws : List Word) (h : s.StackLaws) : (laneDisableBody ws s).state.StackLaws := by
  unfold laneDisableBody
  split
  · exact h
  · unfold carryOut
    split
    next hon => exact disableLane_stackLaws (enabled_lt hon) h
    · exact h

theorem grantLog_staid (s : State) : Staid s (grantLog s) := by
  have hline : ∀ b c w, Staid s (grantLogLine b c w s) := fun b c w => by
    unfold grantLogLine
    extract_lets a head
    split
    · exact (Staid.refl s).away rfl rfl
    · split <;> exact (Staid.refl s).away rfl rfl
  unfold grantLog
  split
  · rw [presentLog_eq]
    exact (hline _ _ _).withLog _
  all_goals exact .refl s

/-- The DONE answer of UNCLAIM resets lanes and placements, and no other write of the part touches one (R20, R178). -/
theorem grantPart_stackLaws (h : s.StackLaws) : (grantPart s).StackLaws := by
  have htaken : ∀ rest, Staid s (takeWaiting rest s) := fun rest => (Staid.refl s).away rfl rfl
  unfold grantPart
  split
  · exact h
  next n rest _ =>
    unfold grantAnswer
    split
    · exact (htaken rest).stackLaws h
    · extract_lets written left answered
      split
      · exact (unclaimEffect_blank _).stackLaws
      · exact ((htaken rest).away (u := answered) rfl rfl).stackLaws h
  · exact ((htaken _).trans (grantLog_staid _)).stackLaws h
  next rest _ => exact ((htaken rest).away (u := grantStatus (takeWaiting rest s)) rfl rfl).stackLaws h

theorem grantStep_stackLaws (h : s.StackLaws) : (grantStep s).StackLaws := by
  have hcounted : Staid s (countWait s) := by
    rw [countWait_eq]
    exact (Staid.refl s).away rfl rfl
  unfold grantStep
  split
  · exact grantPart_stackLaws h
  · exact (hcounted.grantFetch _).stackLaws h
  · exact hcounted.grantForward.stackLaws h
  · exact h

/-- A command executed leaves what its body leaves (R174). -/
theorem execute_stackLaws {body : List Word → State → Reply} (hb : ∀ ws s, s.StackLaws → (body ws s).state.StackLaws)
    (test : Nat → Bool) (h : s.StackLaws) : (execute test body s).StackLaws := by
  rcases execute_cases test body s with he | ⟨c, rest, -, -, he⟩
  · rw [he]
    exact h
  · rw [he]
    have hbody := hb c.words (s.unqueue rest) (((Staid.refl s).away rfl rfl).stackLaws h)
    exact ((Staid.refl (body c.words (s.unqueue rest)).state).away rfl rfl).stackLaws hbody

/-- Every step that answers a next state keeps the laws: the resets leave no stack, LANE-DISABLE and BYPASS tear stacks down with
their placements, a slot read reworks its lane's stack, and the other steps are staid. -/
theorem exec_stackLaws {i : Instr} (hs : s.StackLaws) (h : exec i s = .next t) : t.StackLaws := by
  have close {u : State} (hu : u.StackLaws) (he : (.next (settle s u) : Host.Outcome State Fault Refusal) = .next t) :
      t.StackLaws := by
    rw [← Host.Outcome.next.inj he]
    exact ((Staid.refl u).away (settle_lanes s u) (settle_placements s u)).stackLaws hu
  have staid {u : State} (hu : Staid s u) (he : (.next (settle s u) : Host.Outcome State Fault Refusal) = .next t) :
      t.StackLaws := close (hu.stackLaws hs) he
  have staidIf {p : Prop} [Decidable p] {u : State} (hu : Staid s u)
      (he : (.next (settle s (if p then u else s)) : Host.Outcome State Fault Refusal) = .next t) : t.StackLaws := by
    split at he
    · exact staid hu he
    · exact staid (.refl s) he
  have command {test : Nat → Bool} {body : List Word → State → Reply} (hb : StaidBody body)
      (he : (.next (settle s (execute test body s)) : Host.Outcome State Fault Refusal) = .next t) : t.StackLaws :=
    close (execute_stackLaws (fun ws u hu => (hb ws u).stackLaws hu) test hs) he
  have same := Staid.refl s
  cases i with
  | qPortAccept r =>
    simp only [exec, execQPortAccept] at h
    split at h
    · exact staid (.acceptRequest _ s) h
    · cases h
  | mPortGrant => exact close (grantStep_stackLaws hs) h
  | readDataArrival => exact staid (.readArrival s) h
  | slotReadProcedure => exact close (slotReadStep_stackLaws hs) h
  | slateCountdownExpiry l =>
    simp only [exec, execSlateCountdownExpiry] at h
    split at h
    · refine staidIf (same.onLane l fun x => ?_) h
      exact .of_eq rfl
    · cases h
  | fetchDataArrival => exact staid same.fetchArrival h
  | readReturn => exact staid (.returnRead s) h
  | regionSet => exact command regionSetBody_staid h
  | laneSet => exact command laneSetBody_staid h
  | laneEnable => exact command laneEnableBody_staid h
  | laneDisable => exact close (execute_stackLaws (fun ws _ hu => laneDisableBody_stackLaws ws hu) _ hs) h
  | laneStatus => exact command laneStatusBody_staid h
  | clipSet => exact command clipSetBody_staid h
  | clipClear => exact command clipClearBody_staid h
  | place => exact command placeBody_staid h
  | withdraw => exact command withdrawBody_staid h
  | placementStatus => exact command placementStatusBody_staid h
  | cue => exact command cueBody_staid h
  | alertProfile => exact command alertProfileBody_staid h
  | alertStart => exact command alertStartBody_staid h
  | alertRenew => exact command alertRenewBody_staid h
  | alertEnd => exact command alertEndBody_staid h
  | alertLock => exact command alertLockBody_staid h
  | auditMark => exact command auditMarkBody_staid h
  | logAck => exact command logAckBody_staid h
  | unclaim => exact command unclaimBody_staid h
  | unknownCommand => exact command unknownBody_staid h
  | rstNAssert =>
    refine close ?_ h
    split
    · exact hs
    · exact (assertReset_blank s).stackLaws
  | rstNRelease => exact staidIf (same.away (u := releaseReset s) rfl rfl) h
  | bypassAssert =>
    refine close ?_ h
    split
    · exact hs
    · exact assertBypass_stackLaws hs
  | bypassRelease => exact staidIf same.releaseBypass h
  | ealRawChange level => exact staid (.changeRaw level s) h
  | ealFilterExpiry => exact staidIf (same.withAlert _).filteredChange h
  | holdSecondElapsed => exact staidIf (same.withAlert _) h
  | holdLimitExpiry => exact staidIf (same.endAlert _) h
  | renewalPeriodExpiry => exact staidIf (same.withAlert _).renewalFailure h
  | laneClockFold l =>
    simp only [exec, execLaneClockFold] at h
    split at h
    · refine staidIf (same.onLane l fun x => ?_) h
      rw [fold_eq]
      exact .of_eq rfl
    · cases h

end Steps

/-- Settles O8: a tick touches no lane and no placement, and `exec_stackLaws` has every step. -/
theorem stepKeepsPlacements : Obligations.StepKeepsPlacements := by
  intro s t hs h
  unfold step at h
  split at h
  · rw [← Host.Outcome.next.inj h, tick_eq]
    exact hs
  next i rest _ => exact exec_stackLaws (s := { s with pending := rest }) hs h

end Sys2Proof.Machine

namespace Sys2Proof.Machine

open Sys2Proof

/-! ## PLACE's tests (R70) -/

namespace PlaceArgs

variable {a : PlaceArgs} {s : State}

/-- Orders 1 to 3 of R70. -/
theorem inRange_iff (a : PlaceArgs) :
    a.inRange = true ↔
      ¬ (127 < a.id ∨ 15 < a.lane ∨ a.kind = none ∨ a.trigger = none ∨ a.rule = none) ∧
        ¬ (a.duration = 0 ∨ 2 ^ 31 ≤ a.duration ∨ (a.trigger = some .time ∧ 2 ^ 33 ≤ a.scheduled)) ∧
          ¬ (a.clipCount = 0 ∨ 6 < a.clipCount ∨ ∃ id ∈ a.clips, 255 < id) := by
  have hclips : allAtMost 255 a.clips = true ↔ ¬ ∃ id ∈ a.clips, 255 < id := by
    simp only [allAtMost, List.all_eq_true, decide_eq_true_eq, not_exists, not_and, not_lt]
  have hnumbers : (a.id ≤ 127 ∧ a.lane ≤ 15) ↔ ¬ 127 < a.id ∧ ¬ 15 < a.lane := by omega
  have htimes : (1 ≤ a.duration ∧ a.duration < 2 ^ 31 ∧ (a.trigger = some .time → a.scheduled < 2 ^ 33)) ↔
      ¬ a.duration = 0 ∧ ¬ 2 ^ 31 ≤ a.duration ∧ ¬ (a.trigger = some .time ∧ 2 ^ 33 ≤ a.scheduled) := by
    rw [not_and, Nat.one_le_iff_ne_zero, not_le, not_le]
  have hcount : (1 ≤ a.clipCount ∧ a.clipCount ≤ 6) ↔ ¬ a.clipCount = 0 ∧ ¬ 6 < a.clipCount := by omega
  unfold inRange
  simp only [Bool.and_eq_true, decide_eq_true_eq, Option.isSome_iff_ne_none, ne_eq, hclips, hnumbers, htimes, hcount, not_or,
    and_assoc]

/-- What parameters in range name. -/
theorem named_of_inRange (h : a.inRange = true) :
    a.id < 128 ∧ a.lane < 16 ∧ ∃ k g r, a.kind = some k ∧ a.trigger = some g ∧ a.rule = some r := by
  obtain ⟨hnames, -⟩ := (inRange_iff a).1 h
  simp only [not_or] at hnames
  obtain ⟨hid, hlane, hkind, htrigger, hrule⟩ := hnames
  obtain ⟨k, hk⟩ := Option.ne_none_iff_exists'.1 hkind
  obtain ⟨g, hg⟩ := Option.ne_none_iff_exists'.1 htrigger
  obtain ⟨r, hr⟩ := Option.ne_none_iff_exists'.1 hrule
  exact ⟨by omega, by omega, k, g, r, hk, hg, hr⟩

end PlaceArgs

/-- PLACE's refusal table, row by row (R70). -/
theorem placeAnswer_eq (a : PlaceArgs) (s : State) :
    placeAnswer a s =
      if 127 < a.id ∨ 15 < a.lane ∨ a.kind = none ∨ a.trigger = none ∨ a.rule = none then .range
      else if a.duration = 0 ∨ 2 ^ 31 ≤ a.duration ∨ (a.trigger = some .time ∧ 2 ^ 33 ≤ a.scheduled) then .range
      else if a.clipCount = 0 ∨ 6 < a.clipCount ∨ ∃ id ∈ a.clips, 255 < id then .range
      else if (s.placement a.id).state ≠ .vacant then .busy
      else .done := by
  rw [← ite_or, ← ite_or]
  refine if_congr ?_ rfl rfl
  rw [Bool.not_eq_true', ← Bool.not_eq_true, not_iff_comm, a.inRange_iff]
  simp only [not_or, and_assoc]

/-! ## PLACE carried out (R70, R71, R83) -/

/-- What PLACE leaves of the placement it makes, and the outcome with which it ends at once: a TIME placement has its late test made
where the lane's clock can tell, and owes it where not. -/
def PlaceArgs.tested (a : PlaceArgs) (s : State) : Placement × Option Outcome :=
  ({ a.entry with
      lateCheck := decide (a.trigger = some .time) && !((s.lane a.lane).enabled && (s.lane a.lane).anchored) },
    if a.trigger = some .time ∧ s.LateOn a.lane (some (BitVec.ofNat 33 a.scheduled)) then some .missedLate else none)

/-- The placement PLACE makes, field by field. -/
theorem PlaceArgs.entry_eq {a : PlaceArgs} {k : Kind} {g : Trigger} {r : ReturnRule} (hk : a.kind = some k)
    (hg : a.trigger = some g) (hr : a.rule = some r) :
    a.entry =
      { state := if g = .cue then .armed else .pending, lane := a.lane, kind := k, trigger := g, avail := a.avail,
        scheduled := BitVec.ofNat 33 a.scheduled, duration := a.duration, takeCueDuration := a.takeCueDuration, rule := r,
        clips := a.clips, t := if g = .time then some (BitVec.ofNat 33 a.scheduled) else none, lateCheck := decide (g = .time),
        blocked := false, preRoll := 0, entryTime := 0, withdrawn := false, earlyReturn := false } := by
  unfold PlaceArgs.entry
  rw [hk, hg, hr]
  rfl

/-- A placement that owes no late test has none made. -/
theorem lateTest_of_clear {id : Nat} {s : State} (h : (s.placement id).lateCheck = false) : lateTest id s = s := by
  unfold lateTest
  extract_lets p
  exact if_neg fun ⟨_, howed, _⟩ => Bool.false_ne_true (h.symm.trans howed)

theorem lateTest_entry {a : PlaceArgs} (h : a.inRange = true) (s : State) :
    lateTest a.id (s.setPlacement a.id a.entry) = judged a.id (a.tested s) s := by
  obtain ⟨hid, -, k, g, r, hk, hg, hr⟩ := PlaceArgs.named_of_inRange h
  have hentry := PlaceArgs.entry_eq hk hg hr
  unfold PlaceArgs.tested
  by_cases htime : g = .time
  · subst htime
    have hknown : a.entry.t = some (BitVec.ofNat 33 a.scheduled) := by rw [hentry]; rfl
    rw [lateTest_cued a.id hid s a.entry (by rw [hentry]; rfl) (by rw [hentry]; rfl) fun _ => hknown ▸ Option.some_ne_none _]
    simp only [hg, hknown, decide_true, Bool.true_and, true_and]
    rfl
  · have hclear : a.entry.lateCheck = false := by rw [hentry]; exact decide_eq_false htime
    have hother : a.trigger ≠ some .time := fun heq => htime (Option.some.inj (hg.symm.trans heq))
    have hplaced : (s.setPlacement a.id a.entry).placement a.id = a.entry := s.placement_setPlacement_self _ hid
    rw [lateTest_of_clear (by rw [hplaced, hclear]), if_neg fun hlate => hother hlate.1, decide_eq_false hother, Bool.false_and,
      ← hclear]
    rfl

/-- The placement PLACE leaves has the content given and the state its trigger gives (R70, R71). -/
theorem PlaceArgs.tested_content {a : PlaceArgs} (h : a.inRange = true) (s : State) :
    let p := (a.tested s).1
    (p.lane = a.lane ∧ some p.kind = a.kind ∧ some p.trigger = a.trigger ∧ some p.rule = a.rule ∧ p.avail = a.avail ∧
      p.scheduled = BitVec.ofNat 33 a.scheduled ∧ p.duration = a.duration ∧ p.takeCueDuration = a.takeCueDuration ∧
        p.clips = a.clips) ∧
      (p.state = (if a.trigger = some .cue then .armed else .pending) ∧
        p.t = (if a.trigger = some .time then some (BitVec.ofNat 33 a.scheduled) else none) ∧ p.preRoll = 0 ∧ p.blocked = false ∧
        (p.lateCheck = true ↔ a.trigger = some .time ∧ ¬ ((s.lane a.lane).enabled = true ∧ (s.lane a.lane).anchored = true)) ∧
        p.withdrawn = false ∧ p.earlyReturn = false) := by
  obtain ⟨-, -, k, g, r, hk, hg, hr⟩ := PlaceArgs.named_of_inRange h
  have howed : (decide (a.trigger = some .time) && !((s.lane a.lane).enabled && (s.lane a.lane).anchored)) = true ↔
      a.trigger = some .time ∧ ¬ ((s.lane a.lane).enabled = true ∧ (s.lane a.lane).anchored = true) := by
    rw [Bool.and_eq_true, decide_eq_true_iff, Bool.not_eq_true', ← Bool.not_eq_true, Bool.and_eq_true]
  have hstate : (if g = .cue then PState.armed else .pending) = if a.trigger = some .cue then .armed else .pending :=
    if_congr (by rw [hg, Option.some.injEq]) rfl rfl
  have ht : (if g = .time then some (BitVec.ofNat 33 a.scheduled) else none) =
      if a.trigger = some .time then some (BitVec.ofNat 33 a.scheduled) else none :=
    if_congr (by rw [hg, Option.some.injEq]) rfl rfl
  unfold PlaceArgs.tested
  rw [PlaceArgs.entry_eq hk hg hr]
  exact ⟨⟨rfl, hk.symm, hg.symm, hr.symm, rfl, rfl, rfl, rfl, rfl⟩, hstate, ht, rfl, rfl, howed, rfl, rfl⟩

/-- The records of a placement that PLACE ends at once (R91, R190). -/
theorem PlaceArgs.tested_records {a : PlaceArgs} (h : a.inRange = true) (htime : a.trigger = some .time) (s : State) (out : Bool)
    {k : Kind} (hk : a.kind = some k) :
    missedRecords a.lane out [(a.id, (a.tested s).1, .missedLate)] =
      (a.lane, .placement a.id k .time a.avail (some (BitVec.ofNat 33 a.scheduled)) none .missedLate 0 []) ::
        if out = true then [(a.lane, .auditOut a.id (some (BitVec.ofNat 33 a.scheduled)) none (-32768) 0)] else [] := by
  obtain ⟨-, -, k', g, r, hk', hg, hr⟩ := PlaceArgs.named_of_inRange h
  obtain rfl : k' = k := Option.some.inj (hk'.symm.trans hk)
  obtain rfl : g = .time := Option.some.inj (hg.symm.trans htime)
  simp only [missedRecords, PlaceArgs.tested, PlaceArgs.entry_eq hk' hg hr, Placement.neverEntered, List.append_nil, ↓reduceIte]

/-- PLACE, refused or carried out. -/
theorem placeBody_eq (ws : List Word) (s : State) :
    placeBody ws s =
      if placeAnswer (placeArgs ws) s = .done then
        carryOut [] (lateTest (placeArgs ws).id (s.setPlacement (placeArgs ws).id (placeArgs ws).entry))
      else refuse (placeAnswer (placeArgs ws) s) s := by
  simp only [placeBody]
  cases placeAnswer (placeArgs ws) s <;> rfl

/-- Settles O43: the refusal table is `placeAnswer_eq`, and the placement made is `PlaceArgs.tested`, ended where it is late. -/
theorem placeAnswers : Obligations.PlaceAnswers := by
  intro s c rest hex a x time testable code
  have hcode : placeAnswer a (s.unqueue rest) = code := placeAnswer_eq a (s.unqueue rest)
  have hbody : execute (isCode 0x20) placeBody s =
      joinAnswer c (if code = .done then carryOut [] (lateTest a.id ((s.unqueue rest).setPlacement a.id a.entry))
        else refuse code (s.unqueue rest)) := by
    rw [execute_of_executing hex _ rfl, placeBody_eq, hcode]
  refine ⟨settle s (execute (isCode 0x20) placeBody s), rfl, ?_⟩
  rw [hbody]
  by_cases hdone : code = .done
  · have hrange : a.inRange = true := (placeAnswer_done (hcode.trans hdone)).1
    obtain ⟨hid, hl, -⟩ := PlaceArgs.named_of_inRange hrange
    obtain ⟨hframe, ⟨hlog, -⟩, hothers, hlane, hplaced⟩ := judged_after a.lane a.id hid hl (s.unqueue rest) (a.tested s) rfl
    have hlate : testable ∧ ptAfter (s.clock a.lane) (ptPlus time x.record.entryWindow) = true ↔
        a.trigger = some .time ∧ s.LateOn a.lane (some time) := by
      simp only [testable, State.LateOn, Option.mem_def, Option.some.injEq, exists_eq_left', and_assoc]
      rfl
    have hmade : lateTest a.id ((s.unqueue rest).setPlacement a.id a.entry) = judged a.id (a.tested s) (s.unqueue rest) :=
      lateTest_entry hrange (s.unqueue rest)
    rw [if_pos hdone, hdone, hmade]
    refine ⟨joinAnswer_done ((congrArg State.cmd hframe).trans rfl), fun h => absurd rfl h, fun _ => ?_⟩
    split
    next hnow =>
      have hends : (a.tested s).2 = some .missedLate := if_pos (hlate.1 hnow)
      simp only [hends, reduceCtorEq, Option.isSome_some, true_and, ↓reduceIte, Option.map_some, Option.toList_some]
        at hlog hlane hplaced
      refine ⟨?_, fun id hne => ?_, fun m hm => ?_, ?_, fun kind hk => ?_, ?_⟩
      · exact (settle_placement _ _ _).trans ((hplaced a.id).trans (if_pos rfl))
      · exact (settle_placement _ _ _).trans ((hplaced id).trans (if_neg hne))
      · exact (settle_lane _ _ _).trans (hothers m hm)
      · exact (settle_lane _ _ _).trans hlane
      · rw [PlaceArgs.tested_records hrange (hlate.1 hnow).1 s _ hk] at hlog
        simp only [decide_eq_true_eq] at hlog
        exact (settle_log _ _).trans hlog
      · rw [settle_aside, joinAnswer_aside, settle_placements, settle_lanes, settle_log]
        exact (congrArg State.aside hframe).trans rfl
    next hnot =>
      have hstays : (a.tested s).2 = none := if_neg fun h => hnot (hlate.2 h)
      have hp : (settle s (joinAnswer c (carryOut [] (judged a.id (a.tested s) (s.unqueue rest))))).placement a.id =
          (a.tested s).1 :=
        (settle_placement _ _ _).trans ((hplaced a.id).trans (by rw [if_pos rfl, if_pos hstays]))
      have hjudged : judged a.id (a.tested s) (s.unqueue rest) = (s.unqueue rest).setPlacement a.id (a.tested s).1 := by
        unfold judged
        rw [hstays]
      rw [hp]
      refine ⟨?_, PlaceArgs.tested_content hrange s⟩
      rw [settle_aside, joinAnswer_aside, hjudged]
      rfl
  · rw [if_neg hdone]
    obtain ⟨hanswered, haside⟩ := joinAnswer_refuse (s := s) (c := c) (rest := rest) code
    exact ⟨hanswered, fun _ => haside, fun h => absurd h hdone⟩

end Sys2Proof.Machine

namespace Sys2Proof.Machine

open Sys2Proof

/-! ## WITHDRAW (R72, R88, R91) -/

/-- WITHDRAW's tests in their order (R72). -/
def withdrawAnswer (id : Nat) (s : State) : AnswerCode :=
  if 127 < id then .range else if (s.placement id).state = .vacant then .noEntry else .done

/-- WITHDRAW, refused, or carried out by where the placement stands. -/
theorem withdrawBody_eq (ws : List Word) (s : State) :
    withdrawBody ws s =
      if withdrawAnswer (numAt ws 2) s = .done then
        carryOut [] (if (s.placement (numAt ws 2)).onStack = true then withdrawOnStack (numAt ws 2) s
          else endPlacement (numAt ws 2) .withdrawn none 0 s)
      else refuse (withdrawAnswer (numAt ws 2) s) s := by
  unfold withdrawBody withdrawAnswer
  extract_lets id
  by_cases hrange : 127 < id
  · rw [if_pos hrange, if_pos hrange]
    rfl
  · rw [if_neg hrange, if_neg hrange]
    simp only [onStack_iff]
    cases (s.placement id).state <;> rfl

/-- WITHDRAW is refused only where there is no placement. -/
theorem vacant_of_withdrawAnswer {id : Nat} {s : State} (h : withdrawAnswer id s ≠ .done) : (s.placement id).state = .vacant := by
  unfold withdrawAnswer at h
  split at h
  next hrange => rw [s.placement_of_le hrange]; rfl
  · split at h
    next hvacant => exact hvacant
    · exact absurd rfl h

/-- A placement on the stack that is already marked stays as it is. -/
theorem withdrawOnStack_of_withdrawn {id : Nat} {s : State} (h : (s.placement id).withdrawn = true) : withdrawOnStack id s = s :=
  if_pos h

/-- A placement on the stack is marked, and the E of its entry is the lane clock (R72, R88). -/
theorem withdrawOnStack_of_unmarked {id : Nat} {s : State} (h : (s.placement id).withdrawn = false) :
    withdrawOnStack id s =
      (s.onLane (s.placement id).lane fun x =>
        { x with stack := x.stack.map fun e =>
            if e.source = .placement id then { e with endTime := some (s.clock (s.placement id).lane) } else e }).setPlacement id
        { s.placement id with withdrawn := true } :=
  if_neg (by rw [h]; exact Bool.false_ne_true)

/-- Settles O44: refused, there is no placement; else by whether it stands on its stack, and there by its mark. -/
theorem withdrawAnswers : Obligations.WithdrawAnswers := by
  intro s c rest hex id p code
  have hbody : execute (isCode 0x21) withdrawBody s =
      joinAnswer c (if code = .done then carryOut [] (if p.onStack = true then withdrawOnStack id (s.unqueue rest)
          else endPlacement id .withdrawn none 0 (s.unqueue rest))
        else refuse code (s.unqueue rest)) := by
    rw [execute_of_executing hex _ rfl, withdrawBody_eq]
    rfl
  refine ⟨settle s (execute (isCode 0x21) withdrawBody s), rfl, ?_⟩
  rw [hbody]
  by_cases hdone : code = .done
  · rw [if_pos hdone, hdone]
    by_cases hon : p.onStack = true
    · have hstands := (onStack_iff p).1 hon
      have hwaits : ¬ (p.state = .armed ∨ p.state = .pending) := fun h => by
        rcases hstands with hs | hs <;> simp [hs] at h
      rw [if_pos hon]
      refine ⟨joinAnswer_done ?_, fun h => absurd rfl h, fun h => absurd h hwaits, fun _ hmarked => ?_, fun _ hunmarked => ?_⟩
      · unfold withdrawOnStack
        split <;> rfl
      · rw [withdrawOnStack_of_withdrawn (s := s.unqueue rest) hmarked, settle_aside, joinAnswer_aside]
        rfl
      · rw [withdrawOnStack_of_unmarked (s := s.unqueue rest) hunmarked, settle_aside, joinAnswer_aside]
        rfl
    · have hoff : ¬ (p.state = .onAir ∨ p.state = .covered) := fun h => hon ((onStack_iff p).2 h)
      rw [if_neg hon, endPlacement_after]
      refine ⟨joinAnswer_done rfl, fun h => absurd rfl h, fun _ => ⟨?_, ?_⟩, fun h => absurd h hoff, fun h => absurd h hoff⟩
      · rw [settle_aside, joinAnswer_aside, settle_log]
        rfl
      · rw [settle_log, placementReport_none]
        rfl
  · have hvacant : p.state = .vacant := vacant_of_withdrawAnswer hdone
    rw [if_neg hdone]
    obtain ⟨hanswered, haside⟩ := joinAnswer_refuse (s := s) (c := c) (rest := rest) code
    refine ⟨hanswered, fun _ => haside, fun h => ?_, fun h => ?_, fun h => ?_⟩
    all_goals simp [hvacant] at h

end Sys2Proof.Machine

namespace Sys2Proof.Machine

open Sys2Proof

/-! ## CUE's tests and its result words (R76) -/

/-- Order 1 of R76. -/
theorem CueArgs.inRange_iff (a : CueArgs) :
    a.inRange = true ↔
      ¬ (15 < a.lane ∨ a.type = none ∨ (∃ n ∈ a.time, 2 ^ 33 ≤ n) ∨ ∃ n ∈ a.duration, 2 ^ 33 ≤ n) := by
  have hbelow : ∀ o : Option Nat, (o.all fun n => decide (n < 2 ^ 33)) = true ↔ ¬ ∃ n ∈ o, 2 ^ 33 ≤ n := fun o => by
    cases o <;> simp
  unfold CueArgs.inRange
  simp only [Bool.and_eq_true, decide_eq_true_eq, Option.isSome_iff_ne_none, ne_eq, hbelow, not_or, not_lt, and_assoc]

/-- CUE's refusal table, row by row (R76). -/
theorem cueAnswer_eq (a : CueArgs) (s : State) :
    cueAnswer a s =
      if 15 < a.lane ∨ a.type = none ∨ (∃ n ∈ a.time, 2 ^ 33 ≤ n) ∨ (∃ n ∈ a.duration, 2 ^ 33 ≤ n) then .range
      else if (s.lane a.lane).enabled = false then .notReady
      else .done := by
  refine if_congr ?_ rfl (if_congr (by rw [Bool.not_eq_true']) rfl rfl)
  rw [Bool.not_eq_true', ← Bool.not_eq_true, not_iff_comm, a.inRange_iff]

/-- CUE's result words: the intake case, and the placements changed, id i at bit i mod 32 of word i div 32 (12.4). -/
def cueResults (n : Nat) (s after : State) : List Word :=
  [word n, placementMaskWord (changedBy s after) 0, placementMaskWord (changedBy s after) 1,
    placementMaskWord (changedBy s after) 2, placementMaskWord (changedBy s after) 3]

/-- CUE, refused or carried out. -/
theorem cueBody_eq (ws : List Word) (s : State) :
    cueBody ws s =
      if cueAnswer (cueArgs ws) s = .done then
        carryOut (cueResults (intake (cueArgs ws).lane (cueArgs ws).cue true s).2.code s
          (intake (cueArgs ws).lane (cueArgs ws).cue true s).1) (intake (cueArgs ws).lane (cueArgs ws).cue true s).1
      else refuse (cueAnswer (cueArgs ws) s) s := by
  simp only [cueBody]
  cases cueAnswer (cueArgs ws) s <;> rfl

theorem placementMaskWord_changed (s t : State) (n j : Nat) (hj : j < 32) :
    (placementMaskWord (changedBy s t) n).getLsbD j = true ↔ s.cueChanged t (32 * n + j) := by
  rw [placementMaskWord_bit _ _ _ hj, changedBy_iff]

/-- Where a cue changes no lane and no placement its result words have no placement. -/
theorem cueResults_of_unchanged {s t : State} (n : Nat) (hl : t.lanes = s.lanes) (hp : t.placements = s.placements) :
    cueResults n s t = [word n, 0, 0, 0, 0] := by
  have hunchanged : ∀ id, ¬ s.cueChanged t id := fun id => by simp [State.cueChanged, lane_congr hl, placement_congr hp]
  have hmask : ∀ k, placementMaskWord (changedBy s t) k = 0 := fun k => by
    refine BitVec.eq_of_getLsbD_eq fun j hj => ?_
    have hzero : (0 : Word).getLsbD j = false := BitVec.getLsbD_zero
    rw [hzero, ← Bool.not_eq_true, placementMaskWord_changed s t k j hj]
    exact hunchanged _
  unfold cueResults
  rw [hmask, hmask, hmask, hmask]

/-! ## What a cue finds (R70, R77) -/

section Found

variable {s t : State} {l n : Nat} {c : Cue} {injected : Bool} {avail : Word}

/-- A cue finds the placements armed by cue for its avail. -/
theorem mem_cueIds_iff (s : State) (l : Nat) (avail : Word) (test : Placement → Bool) (id : Nat) :
    id ∈ s.cueIds l avail test ↔ id < 128 ∧ (s.placement id).isFor l avail = true ∧ test (s.placement id) = true := by
  rw [mem_cueIds, Placement.isFor, decide_eq_true_iff]

theorem cueIds_eq_nil (h : ∀ id, id < 128 → (s.placement id).isFor l avail = false) (test : Placement → Bool) :
    s.cueIds l avail test = [] :=
  List.eq_nil_iff_forall_not_mem.2 fun id hid => by
    obtain ⟨hlt, hfor, -⟩ := (mem_cueIds_iff ..).1 hid
    exact Bool.false_ne_true ((h id hlt).symm.trans hfor)

/-- The first placement found is the one of the lowest id. -/
theorem cueIds_head {test : Placement → Bool} {id : Nat} (hid : id ∈ s.cueIds l avail test)
    (hlow : ∀ j, j < id → j ∉ s.cueIds l avail test) : ∃ rest, s.cueIds l avail test = id :: rest := by
  have hsorted : (s.cueIds l avail test).Pairwise (· < ·) := List.pairwise_lt_range.filter _
  cases hids : s.cueIds l avail test with
  | nil =>
    rw [hids] at hid
    cases hid
  | cons first rest =>
    rw [hids] at hid hlow hsorted
    rcases List.mem_cons.1 hid with rfl | hrest
    · exact ⟨rest, rfl⟩
    · exact absurd (List.mem_cons_self ..) (hlow first ((List.pairwise_cons.1 hsorted).1 id hrest))

/-! ## What a cue does, by its type (R77 to R80) -/

theorem cueMoves_placement_of_not_mem {ids : List Nat} {f : Placement → Placement} {recent : List Word}
    (h : s.CueMoves l c ids f recent t) {id : Nat} (hid : id ∉ ids) : t.placement id = s.placement id := by
  obtain ⟨-, -, -, hplaced, -⟩ := h
  rw [hplaced, if_neg hid]

/-- A cue leaves the placements it does not find. -/
theorem cueTaken_placement_of_not_isFor (h : s.CueTaken l c injected t n) {id : Nat}
    (hid : (s.placement id).isFor l c.avail = false) : t.placement id = s.placement id := by
  have hout : ∀ test, id ∉ s.cueIds l c.avail test := fun test hmem =>
    Bool.false_ne_true (hid.symm.trans ((mem_cueIds_iff ..).1 hmem).2.1)
  unfold State.CueTaken at h
  extract_lets x armed pending waiting onStack asked cued moved unplaced cancelled recent at h
  split at h
  · cases ha : armed with
    | cons first ids =>
      rw [ha] at h
      refine cueMoves_placement_of_not_mem h.1 fun hmem => hout (fun p => decide (p.state = .armed)) ?_
      change id ∈ armed
      rw [ha, List.mem_singleton.1 hmem]
      exact List.mem_cons_self ..
    | nil =>
      rw [ha] at h
      dsimp only at h
      split at h
      · split at h
        · rw [h.1]
        · exact cueMoves_placement_of_not_mem h.1 fun hmem => hout _ (List.mem_filter.1 hmem).1
      · split at h
        · rw [h.1]
        · rw [h.1]
          rfl
  · obtain ⟨-, -, -, hplaced, -⟩ := h
    rw [hplaced, if_neg (hout _), if_neg (hout _)]
  · obtain ⟨-, hplaced, -⟩ := h
    rw [hplaced, if_neg (hout _)]

/-- An OUT starts the first ARMED placement it finds (R77, R78). -/
theorem cueTaken_started (h : s.CueTaken l c injected t n) (hc : c.type = .out) {id : Nat} {ids : List Nat}
    (harmed : (s.cueIds l c.avail fun p => decide (p.state = .armed)) = id :: ids) :
    s.CueMoves l c [id]
      (fun p => { p.cued c (s.askedTime l c) ((s.lane l).enabled && (s.lane l).anchored) with preRoll := 0 })
      (if c.avail ∈ (s.lane l).recent then (s.lane l).recent
        else if 4 ≤ (s.lane l).recent.length then (s.lane l).recent.drop 1 ++ [c.avail] else (s.lane l).recent ++ [c.avail]) t ∧
      n = 1 := by
  unfold State.CueTaken at h
  rw [hc, harmed] at h
  exact h

/-- An OUT starts the lowest ARMED placement for its avail: its avail joins the recent ones, and the placement is PENDING from then,
or ends where its T is late (R38, R77, R78, R83). -/
theorem cueTaken_starts (h : s.CueTaken l c injected t n) (hc : c.type = .out) {id : Nat} (hid : id < 128)
    (hfor : (s.placement id).isFor l c.avail = true) (harmed : (s.placement id).state = .armed)
    (hlow : ∀ j, j < id → (s.placement j).isFor l c.avail = true → (s.placement j).state ≠ .armed) :
    n = 1 ∧
      (t.lane l).recent = (if c.avail ∈ (s.lane l).recent then (s.lane l).recent
        else if 4 ≤ (s.lane l).recent.length then (s.lane l).recent.drop 1 ++ [c.avail] else (s.lane l).recent ++ [c.avail]) ∧
      (s.LateOn l (s.askedTime l c) → t.placement id = Placement.vacant) ∧
      (¬ s.LateOn l (s.askedTime l c) → (t.placement id).state = .pending ∧ (t.placement id).t = s.askedTime l c ∧
        (t.placement id).preRoll = 0 ∧ (t.placement id).blocked = false) := by
  have hfound : ∀ j, j ∈ s.cueIds l c.avail (fun p => decide (p.state = .armed)) ↔
      j < 128 ∧ (s.placement j).isFor l c.avail = true ∧ (s.placement j).state = .armed := fun j => by
    rw [mem_cueIds_iff, decide_eq_true_iff]
  obtain ⟨ids, hids⟩ := cueIds_head ((hfound id).2 ⟨hid, hfor, harmed⟩) fun j hj hmem => by
    obtain ⟨-, hforj, harmedj⟩ := (hfound j).1 hmem
    exact hlow j hj hforj harmedj
  obtain ⟨⟨-, -, hlane, hplaced, -⟩, hn⟩ := cueTaken_started h hc hids
  have hp := (hplaced id).trans (if_pos (List.mem_singleton.2 rfl))
  refine ⟨hn, by rw [hlane], fun hlate => hp.trans (if_pos hlate), fun hlate => ?_⟩
  rw [if_neg hlate] at hp
  rw [hp]
  exact ⟨rfl, rfl, rfl, rfl⟩

/-- An OUT that finds nothing, its avail not among the recent ones, is UNPLACED (R77, R81). -/
theorem cueTaken_unplaced (h : s.CueTaken l c injected t n) (hc : c.type = .out) (hnone : ∀ test, s.cueIds l c.avail test = [])
    (hrecent : c.avail ∉ (s.lane l).recent) :
    t = { s with log := s.logAfter [(l, .cueUnplaced .out c.avail .noPlacement injected)] } ∧ n = 6 := by
  unfold State.CueTaken at h
  rw [hc, hnone, hnone, hnone, hnone] at h
  dsimp only at h
  rw [if_neg (not_not.2 rfl), if_neg fun hfound => hfound.elim (fun hne => hne rfl) hrecent] at h
  exact h

/-- A CANCEL ends the placements it finds waiting, and leaves those on the stack (R80). -/
theorem cueTaken_cancelled (h : s.CueTaken l c injected t n) (hc : c.type = .cancel) {id : Nat} (hid : id < 128)
    (hfor : (s.placement id).isFor l c.avail = true) :
    ((s.placement id).state = .armed ∨ (s.placement id).state = .pending → t.placement id = Placement.vacant) ∧
      ((s.placement id).state = .onAir ∨ (s.placement id).state = .covered → t.placement id = s.placement id) := by
  have hfound : (id ∈ s.cueIds l c.avail fun p => decide (p.state = .armed ∨ p.state = .pending)) ↔
      (s.placement id).state = .armed ∨ (s.placement id).state = .pending := by
    rw [mem_cueIds_iff, decide_eq_true_iff]
    simp only [hid, hfor, true_and]
  unfold State.CueTaken at h
  rw [hc] at h
  obtain ⟨-, hplaced, -⟩ := h
  refine ⟨fun hwaits => (hplaced id).trans (if_pos (hfound.2 hwaits)), fun hstands => (hplaced id).trans (if_neg fun hmem => ?_)⟩
  have hwaits := hfound.1 hmem
  rcases hstands with hs | hs <;> simp [hs] at hwaits

/-- An IN ends the PENDING placements it finds, leaves the ARMED ones and marks those on the stack (R79). -/
theorem cueTaken_into (h : s.CueTaken l c injected t n) (hc : c.type = .into) {id : Nat} (hid : id < 128)
    (hfor : (s.placement id).isFor l c.avail = true) :
    ((s.placement id).state = .pending → t.placement id = Placement.vacant) ∧
      ((s.placement id).state = .armed → t.placement id = s.placement id) ∧
      ((s.placement id).state = .onAir ∨ (s.placement id).state = .covered →
        t.placement id = { s.placement id with rule := .early, earlyReturn := true }) := by
  have hstack : (id ∈ s.cueIds l c.avail fun p => decide (p.state = .onAir ∨ p.state = .covered)) ↔
      (s.placement id).state = .onAir ∨ (s.placement id).state = .covered := by
    rw [mem_cueIds_iff, decide_eq_true_iff]
    simp only [hid, hfor, true_and]
  have hpending : (id ∈ s.cueIds l c.avail fun p => decide (p.state = .pending)) ↔ (s.placement id).state = .pending := by
    rw [mem_cueIds_iff, decide_eq_true_iff]
    simp only [hid, hfor, true_and]
  unfold State.CueTaken at h
  rw [hc] at h
  obtain ⟨-, -, -, hplaced, -⟩ := h
  have hp := hplaced id
  simp only [hstack, hpending] at hp
  refine ⟨fun hs => ?_, fun hs => ?_, fun hs => hp.trans (if_pos hs)⟩
  · simpa [hs] using hp
  · simpa [hs] using hp

end Found

/-! ## CUE carried out (R76 to R81) -/

/-- The time an OUT asks for (R78). -/
theorem askedTime_cue (s : State) (a : CueArgs) :
    s.askedTime a.lane a.cue =
      match a.time with
      | some n => some (BitVec.ofNat 33 n)
      | none => if (s.lane a.lane).anchored then some (s.clock a.lane) else none := by
  unfold State.askedTime CueArgs.cue
  cases a.time <;> rfl

/-- Settles O45: the refusal table is `cueAnswer_eq`; the cue is taken by `intake_taken`, and each clause is read off `CueTaken`. -/
theorem cueAnswers : Obligations.CueAnswers := by
  intro s c rest hex a x code time late
  have hcode : cueAnswer a (s.unqueue rest) = code := cueAnswer_eq a (s.unqueue rest)
  obtain ⟨r, hr⟩ : ∃ r, r = intake a.lane a.cue true (s.unqueue rest) := ⟨_, rfl⟩
  have hbody : execute (isCode 0x23) cueBody s =
      joinAnswer c (if code = .done then carryOut (cueResults r.2.code (s.unqueue rest) r.1) r.1
        else refuse code (s.unqueue rest)) := by
    rw [execute_of_executing hex _ rfl, cueBody_eq, hcode, hr]
  by_cases hdone : code = .done
  · obtain ⟨-, hon⟩ := cueAnswer_done (hcode.trans hdone)
    have hl : a.lane < 16 := enabled_lt hon
    have htaken : (s.unqueue rest).CueTaken a.lane a.cue true r.1 r.2.code := hr ▸ intake_taken a.lane hl a.cue true _
    obtain ⟨hframe, hothers, -⟩ := cueTaken_frame htaken
    rw [if_pos hdone] at hbody
    refine ⟨settle s (execute (isCode 0x23) cueBody s), cueResults r.2.code (s.unqueue rest) r.1, rfl, ?_⟩
    rw [hbody, hdone]
    have hcmd : r.1.cmd = (s.unqueue rest).cmd := (congrArg State.cmd hframe).trans rfl
    have htime : (s.unqueue rest).askedTime a.lane a.cue = time := askedTime_cue s a
    have hlate : (s.unqueue rest).LateOn a.lane ((s.unqueue rest).askedTime a.lane a.cue) ↔ late := by
      rw [htime]
      exact and_iff_right hon
    have hcue : ∀ {type}, a.type = some type → a.cue.type = type := fun htype => by simp [CueArgs.cue, htype]
    have hanswered := answered_of_joinAnswer (s := s) (c := c) (rest := rest)
      (r := carryOut (cueResults r.2.code (s.unqueue rest) r.1) r.1) s (by rw [carryOut, hcmd]; rfl) (by rw [carryOut, hcmd]; rfl)
    have haside : (settle s (joinAnswer c (carryOut (cueResults r.2.code (s.unqueue rest) r.1) r.1))).aside = r.1.aside := by
      rw [settle_aside, joinAnswer_aside]
      rfl
    generalize settle s (joinAnswer c (carryOut (cueResults r.2.code (s.unqueue rest) r.1) r.1)) = t at hanswered haside ⊢
    have hlanes : ∀ m, t.lane m = r.1.lane m := congrFun (lane_congr ((congrArg State.lanes haside).trans rfl))
    have hplaced : ∀ id, t.placement id = r.1.placement id :=
      congrFun (placement_congr ((congrArg State.placements haside).trans rfl))
    have hstate : t.aside =
        ({ s.unqueue rest with lanes := r.1.lanes, placements := r.1.placements, log := r.1.log } : State).aside :=
      haside.trans (congrArg State.aside hframe)
    simp only [hlanes, hplaced]
    refine ⟨hanswered, fun h => absurd rfl h, fun _ => ⟨⟨(congrArg State.mem hstate).trans rfl,
      (congrArg State.clips hstate).trans rfl, (congrArg State.alert hstate).trans rfl, (congrArg State.wait hstate).trans rfl,
      (congrArg (·.router.forward) hstate).trans rfl, hothers, fun id => cueTaken_placement_of_not_isFor htaken⟩,
      fun type htype => ?taken, fun id hid htype hfor harmed hlow => ?started, fun htype hrecent hnone => ?unplaced,
      fun id hid hfor => ⟨fun htype => cueTaken_cancelled htaken (hcue htype) hid hfor,
        fun htype => cueTaken_into htaken (hcue htype) hid hfor⟩⟩⟩
    case taken =>
      have hsame : a.cue =
          { type := type, avail := a.avail, time := a.time.map (BitVec.ofNat 33), duration := a.duration } := by
        simp [CueArgs.cue, htype]
      have hmask := placementMaskWord_changed (s.unqueue rest) r.1
      refine ⟨r.1, r.2.code, _, _, _, _, hsame ▸ htaken, haside, rfl, fun j hj => ⟨?_, hmask 1 j hj, hmask 2 j hj, hmask 3 j hj⟩⟩
      have hzero := hmask 0 j hj
      rwa [Nat.mul_zero, Nat.zero_add] at hzero
    case started =>
      obtain ⟨hn, hrecent, hends, hstarts⟩ := cueTaken_starts htaken (hcue htype) hid hfor harmed hlow
      rw [hlate, htime] at hstarts
      refine ⟨?_, hrecent, fun h => hends (hlate.2 h), hstarts⟩
      rw [hn]
      rfl
    case unplaced =>
      obtain ⟨ht, hn⟩ := cueTaken_unplaced htaken (hcue htype) (cueIds_eq_nil (s := s.unqueue rest) hnone) hrecent
      have hlog : t.log = r.1.log := (congrArg State.log haside).trans rfl
      refine ⟨?_, haside.trans ?_⟩
      · rw [hn]
        exact cueResults_of_unchanged 6 (by rw [ht]) (by rw [ht])
      · rw [hlog, ht]
        rfl
  · rw [if_neg hdone] at hbody
    refine ⟨settle s (execute (isCode 0x23) cueBody s), [], rfl, ?_⟩
    rw [hbody]
    obtain ⟨hanswered, haside⟩ := joinAnswer_refuse (s := s) (c := c) (rest := rest) code
    exact ⟨hanswered, fun _ => ⟨rfl, haside⟩, fun h => absurd h hdone⟩

end Sys2Proof.Machine

namespace Sys2Proof.Machine

open Sys2Proof

/-! ## The order of the stacks (R93)

The order of a stack needs nothing of the placements: an entry joins only where its kind is free, and otherwise entries stay in their
places, change without their kind, or leave. So the law holds without that of the placements (O8), and what is `Staid` keeps it. -/

section Order

variable {st : List Entry}

/-- Entries changed in their places, each of its kind. -/
theorem stackOrdered_map {f : Entry → Entry} (h : stackOrdered st) (hkind : ∀ e, (f e).kind = e.kind) : stackOrdered (st.map f) :=
  List.pairwise_map.2 (h.imp fun hlt => by rwa [hkind, hkind])

theorem stackOrdered_of_stations {st' : List Entry} (h : stackOrdered st) (hst : st'.map Entry.station = st.map Entry.station) :
    stackOrdered st' := by
  have hranks : (st.map Entry.station).Pairwise fun a b => b.1.rank < a.1.rank := List.pairwise_map.2 h
  rw [← hst] at hranks
  exact List.pairwise_map.1 hranks

/-- The end requests of a kind set or cleared. -/
theorem stackOrdered_requestEnd (h : stackOrdered st) (k : Kind) (b : Bool) :
    stackOrdered (st.map fun e => if e.kind = k then { e with endRequested := b } else e) :=
  stackOrdered_map h fun e => by split <;> rfl

end Order

section StackOrder

variable {s t : State} {l : Nat}

theorem stacksOk_of_lanes (hs : s.StacksOk) (h : t.lanes = s.lanes) : t.StacksOk := fun l => by
  rw [lane_congr h]
  exact hs l

theorem Staid.stacksOk (h : Staid s t) (hs : s.StacksOk) : t.StacksOk := fun l => stackOrdered_of_stations (hs l) (h.lanes l)

/-- One lane's stack is reworked and is in order again. -/
theorem stacksOk_setLane (hs : s.StacksOk) {x : Lane} (hx : stackOrdered x.stack) : (s.setLane l x).StacksOk := fun m => by
  change stackOrdered ((s.onLane l fun _ => x).lane m).stack
  rcases lane_onLane_cases s l (fun _ => x) m with hm | ⟨-, hm⟩
  · rw [hm]
    exact hs m
  · rw [hm]
    exact hx

/-! ### Stage 2 (R98, R99): an alert entry joins where none stands, and a slate entry likewise -/

theorem afterAlert_ordered (hs : s.StacksOk) (l : Nat) : stackOrdered (s.afterAlert l) := by
  have hset : ∀ p, stackOrdered
      (if ∃ e ∈ (s.lane l).stack, e.kind = .alert then
        (s.lane l).stack.map fun e =>
          if e.kind = .alert then { e with source := .profile p, clips := (s.alert.profileAt p).clips, endRequested := false }
          else e
      else Entry.new .alert (.profile p) (s.alert.profileAt p).clips none .atEnd :: (s.lane l).stack) := fun p => by
    split
    · exact stackOrdered_map (hs l) fun e => by split <;> rfl
    next hnone =>
      rw [← insertEntry_alert _ rfl _ hnone]
      exact insertEntry_ordered (hs l) hnone
  unfold State.afterAlert
  extract_lets st
  split
  · exact hs l
  · exact hset _
  · exact hset _
  · exact stackOrdered_requestEnd (hs l) _ _

theorem afterInsert_ordered {st : List Entry} (h : stackOrdered st) (x : Lane) : stackOrdered (x.afterInsert st) := by
  unfold Lane.afterInsert
  split
  · exact stackOrdered_requestEnd h _ _
  next hnone =>
    split
    · rw [← insertEntry_slate _ rfl]
      exact insertEntry_ordered h hnone
    · exact h

theorem requests_stacksOk (hs : s.StacksOk) (h : s.Requests l t) : t.StacksOk := by
  have hite : ∀ {p : Prop} [Decidable p] {st st' : List Entry}, stackOrdered st → stackOrdered st' →
      stackOrdered (if p then st' else st) := fun h h' => by split <;> assumption
  have halert := afterAlert_ordered hs l
  have hinsert := hite (p := ∃ q ∈ (s.lane l).slateInsert, q.due = true) halert (afterInsert_ordered halert (s.lane l))
  unfold State.Requests at h
  rw [h]
  exact stacksOk_setLane hs (hite hinsert (stackOrdered_requestEnd hinsert _ _))

/-! ### Stage 3 (R101 to R103): entries leave, and those that stay keep their order -/

theorem leaveEnds_lanes (covered : Bool) (c : Pt) (st : List Entry) (s : State) : (leaveEnds covered c st s).lanes = s.lanes := by
  induction st generalizing s with
  | nil => rfl
  | cons e rest ih => rw [leaveEnds, ih, leaveStack_eq]

theorem reportEnds_lanes (c : Pt) (e : Entry) (k : EndsPlan) (s : State) : (reportEnds c e k s).lanes = s.lanes := by
  unfold reportEnds
  extract_lets top beneath
  split <;> exact (leaveEnds_lanes _ _ _ _).trans (leaveEnds_lanes _ _ _ _)

theorem afterEnds_ordered {e : Entry} {rest : List Entry} {k : EndsPlan} (h : stackOrdered (e :: rest)) (hkept : k.kept.Sublist rest)
    (x : Lane) : stackOrdered (x.afterEnds e k).stack := by
  have hstays : stackOrdered (e :: k.kept) := h.sublist (hkept.cons_cons e)
  unfold Lane.afterEnds
  dsimp only
  split
  · exact hstays.of_cons
  · exact stackOrdered_of_stations hstays rfl

theorem Staid.auditReturn (h : Staid s t) (l : Nat) (k : Kind) (e : Option Pt) (c : Pt) (b : Bool) :
    Staid s (auditReturn l k e c b t) := by
  unfold Machine.auditReturn
  split
  · exact (h.handRecord _ _).unmark l
  · exact h

theorem stageThree_stacksOk (cx : ReadCtx) (hs : s.StacksOk) : (stageThree cx s).StacksOk := by
  unfold stageThree
  split
  · exact hs
  next e rest hst =>
    extract_lets k u
    have hu : u.StacksOk :=
      stacksOk_setLane (stacksOk_of_lanes hs (reportEnds_lanes _ _ _ _))
        (afterEnds_ordered (hst ▸ hs cx.lane) List.filter_sublist _)
    split
    · exact ((Staid.refl u).auditReturn _ _ _ _ _).stacksOk hu
    · exact hu

/-! ### Stage 4 (R86, R104): a placement enters where its rank is free -/

theorem Staid.auditEntry (h : Staid s t) (l id : Nat) (c : Option Pt) (start : Pt) (n : Nat) :
    Staid s (auditEntry l id c start n t) := by
  unfold Machine.auditEntry
  split
  · exact (h.handRecord _ _).unmark l
  · exact h

theorem enterOne_stacksOk (cx : ReadCtx) (id : Nat) (hs : s.StacksOk) : (enterOne cx id s).StacksOk := by
  unfold enterOne
  extract_lets p x start u v
  split
  · exact hs
  next hfree =>
    have hnone : ¬ ∃ n ∈ x.stack, n.kind = p.kind := fun h => hfree ((entryOf_isSome x p.kind).2 h)
    have hu : u.StacksOk := stacksOk_setLane hs (insertEntry_ordered (hs cx.lane) hnone)
    exact ((Staid.refl v).auditEntry _ _ _ _ _).stacksOk hu

theorem enterAll_stacksOk (cx : ReadCtx) (ids : List Nat) (hs : s.StacksOk) : (enterAll cx ids s).StacksOk := by
  induction ids generalizing s with
  | nil => exact hs
  | cons id rest ih => exact ih (enterOne_stacksOk cx id hs)

/-- Stages 2 to 6 of a read of lane `cx.lane` keep every stack in order (R97). -/
theorem spliceStages_stacksOk {cx : ReadCtx} (hl : cx.lane < 16) (hs : s.StacksOk) : (spliceStages cx s).StacksOk := by
  have htwo := requests_stacksOk hs (stageTwo_requests cx.lane hl s).1
  unfold spliceStages
  extract_lets old two three offered four synced start
  have hfour : four.StacksOk := enterAll_stacksOk cx offered (stageThree_stacksOk cx htwo)
  have hsynced : synced.StacksOk := stacksOk_of_lanes hfour ((congrArg State.lanes (syncStack_after _ four).1).trans rfl)
  exact (((Staid.refl synced).stageFive cx start old two.2).afterStart cx start).stacksOk hsynced

end StackOrder

end Sys2Proof.Machine

namespace Sys2Proof.Machine

open Sys2Proof

/-! ## What a step makes of the stacks (R93) -/

/-- How a step changes the stacks: it leaves them and the placements on them in their places, it tears stacks down, it runs stages 2
to 6 of a slot read, or it does several of these in turn. -/
inductive Restacks : State → State → Prop where
  | staid {s t : State} (h : Staid s t) : Restacks s t
  | tears {s t : State} (h : ∀ l, (t.lane l).stack = [] ∨ (t.lane l).stack = (s.lane l).stack) : Restacks s t
  | splices {s : State} {cx : ReadCtx} (hl : cx.lane < 16) : Restacks s (spliceStages cx s)
  | trans {s t u : State} (h : Restacks s t) (g : Restacks t u) : Restacks s u

section Order

variable {s t : State}

theorem Restacks.stacksOk (h : Restacks s t) (hs : s.StacksOk) : t.StacksOk := by
  induction h with
  | staid h => exact h.stacksOk hs
  | tears h =>
    intro l
    rcases h l with hl | hl
    · exact hl ▸ List.Pairwise.nil
    · exact hl ▸ hs l
  | splices hl => exact spliceStages_stacksOk hl hs
  | trans _ _ ihs iht => exact iht (ihs hs)

namespace Restacks

/-- The resets leave no stack (R19, R20). -/
theorem blank (h : t.Blank) : Restacks s t := .tears fun l => .inl (by rw [h.lane l]; rfl)

/-- LANE-DISABLE tears its lane's stack down (R26). -/
theorem disableLane {l : Nat} (hl : l < 16) (s : State) : Restacks s (disableLane l s) := by
  obtain ⟨hlane, hothers, -⟩ := disableLane_after s hl
  refine .tears fun m => ?_
  by_cases hm : m = l
  · exact .inl (by rw [hm, hlane]; rfl)
  · exact .inr (by rw [hothers m hm])

/-- The assertion of BYPASS tears every stack down (R112). -/
theorem assertBypass (s : State) : Restacks s (assertBypass s) := by
  obtain ⟨u, hbared, htorn⟩ := assertBypass_bared s
  rw [htorn]
  refine .tears fun l => ?_
  change (u.lane l).stack = [] ∨ (u.lane l).stack = (s.lane l).stack
  rw [hbared.lane]
  split
  · exact .inl rfl
  · exact .inr rfl

theorem laneDisableBody (ws : List Word) (s : State) : Restacks s (laneDisableBody ws s).state := by
  unfold Machine.laneDisableBody
  split
  · exact .staid (.refl s)
  · unfold carryOut
    split
    next hon => exact .disableLane (enabled_lt hon) s
    · exact .staid (.refl s)

theorem slotReadStep (s : State) : Restacks s (slotReadStep s) := by
  have same := Staid.refl s
  unfold Machine.slotReadStep
  split
  · exact .staid same
  · split
    · exact .staid same
    · split
      next f _ l k _ =>
        split
        · exact .staid (same.completeRead _)
        next hruns =>
          have he : (s.lane l).enabled = true := by simp at hruns; exact hruns.2
          unfold runProcedure
          extract_lets i one
          have hone : Staid s one := .stageOne he k i
          split
          · exact .staid (hone.completeRead _)
          · exact .trans (.staid hone) (.splices (enabled_lt he))
      all_goals exact .staid same

/-- The DONE answer of UNCLAIM resets the lanes, and no other write of the part touches one (R20, R178). -/
theorem grantPart (s : State) : Restacks s (grantPart s) := by
  have taken : ∀ rest, Staid s (takeWaiting rest s) := fun rest => (Staid.refl s).away rfl rfl
  unfold Machine.grantPart
  split
  · exact .staid (.refl s)
  next n rest _ =>
    unfold grantAnswer
    split
    · exact .staid (taken rest)
    · extract_lets written left answered
      split
      · exact .blank (unclaimEffect_blank _)
      · exact .staid ((taken rest).away (u := answered) rfl rfl)
  · exact .staid ((taken _).trans (grantLog_staid _))
  next rest _ => exact .staid ((taken rest).away (u := grantStatus (takeWaiting rest s)) rfl rfl)

theorem grantStep (s : State) : Restacks s (grantStep s) := by
  have counted : Staid s (countWait s) := by
    rw [countWait_eq]
    exact (Staid.refl s).away rfl rfl
  unfold Machine.grantStep
  split
  · exact .grantPart s
  · exact .staid (counted.grantFetch _)
  · exact .staid counted.grantForward
  · exact .staid (.refl s)

/-- A command executed does to the stacks what its body does (R174). -/
theorem execute {body : List Word → State → Reply} (hb : ∀ ws s, Restacks s (body ws s).state) (test : Nat → Bool) (s : State) :
    Restacks s (execute test body s) := by
  rcases execute_cases test body s with he | ⟨c, rest, -, -, he⟩
  · rw [he]
    exact .staid (.refl s)
  · rw [he]
    have hqueue : Staid s (s.unqueue rest) := (Staid.refl s).away rfl rfl
    have hanswer : Staid (body c.words (s.unqueue rest)).state (joinAnswer c (body c.words (s.unqueue rest))) :=
      (Staid.refl _).away rfl rfl
    exact .trans (.staid hqueue) (.trans (hb c.words (s.unqueue rest)) (.staid hanswer))

end Restacks

/-- Every step that answers a next state: a grant, LANE-DISABLE, RST_N and BYPASS may tear stacks down, a slot read runs its stages, and
the other steps are staid. -/
theorem exec_restacks {i : Instr} (h : exec i s = .next t) : Restacks s t := by
  have close {u : State} (hu : Restacks s u) (he : (.next (settle s u) : Host.Outcome State Fault Refusal) = .next t) :
      Restacks s t := by
    rw [← Host.Outcome.next.inj he]
    exact .trans hu (.staid ((Staid.refl u).away (settle_lanes s u) (settle_placements s u)))
  have staid {u : State} (hu : Staid s u) (he : (.next (settle s u) : Host.Outcome State Fault Refusal) = .next t) :
      Restacks s t := close (.staid hu) he
  have closeIf {p : Prop} [Decidable p] {u : State} (hu : Restacks s u)
      (he : (.next (settle s (if p then u else s)) : Host.Outcome State Fault Refusal) = .next t) : Restacks s t := by
    split at he
    · exact close hu he
    · exact staid (.refl s) he
  have command {test : Nat → Bool} {body : List Word → State → Reply} (hb : StaidBody body)
      (he : (.next (settle s (execute test body s)) : Host.Outcome State Fault Refusal) = .next t) : Restacks s t :=
    close (.execute (fun ws u => .staid (hb ws u)) test s) he
  have same := Staid.refl s
  cases i with
  | qPortAccept r =>
    simp only [exec, execQPortAccept] at h
    split at h
    · exact staid (.acceptRequest _ s) h
    · cases h
  | mPortGrant => exact close (.grantStep s) h
  | readDataArrival => exact staid (.readArrival s) h
  | slotReadProcedure => exact close (.slotReadStep s) h
  | slateCountdownExpiry l =>
    simp only [exec, execSlateCountdownExpiry] at h
    split at h
    · refine closeIf (.staid (same.onLane l fun x => ?_)) h
      exact .of_eq rfl
    · cases h
  | fetchDataArrival => exact staid same.fetchArrival h
  | readReturn => exact staid (.returnRead s) h
  | regionSet => exact command regionSetBody_staid h
  | laneSet => exact command laneSetBody_staid h
  | laneEnable => exact command laneEnableBody_staid h
  | laneDisable => exact close (.execute .laneDisableBody _ s) h
  | laneStatus => exact command laneStatusBody_staid h
  | clipSet => exact command clipSetBody_staid h
  | clipClear => exact command clipClearBody_staid h
  | place => exact command placeBody_staid h
  | withdraw => exact command withdrawBody_staid h
  | placementStatus => exact command placementStatusBody_staid h
  | cue => exact command cueBody_staid h
  | alertProfile => exact command alertProfileBody_staid h
  | alertStart => exact command alertStartBody_staid h
  | alertRenew => exact command alertRenewBody_staid h
  | alertEnd => exact command alertEndBody_staid h
  | alertLock => exact command alertLockBody_staid h
  | auditMark => exact command auditMarkBody_staid h
  | logAck => exact command logAckBody_staid h
  | unclaim => exact command unclaimBody_staid h
  | unknownCommand => exact command unknownBody_staid h
  | rstNAssert =>
    refine close ?_ h
    split
    · exact .staid same
    · exact .blank (assertReset_blank s)
  | rstNRelease => exact closeIf (.staid (same.away (u := releaseReset s) rfl rfl)) h
  | bypassAssert =>
    refine close ?_ h
    split
    · exact .staid same
    · exact .assertBypass s
  | bypassRelease => exact closeIf (.staid same.releaseBypass) h
  | ealRawChange level => exact staid (.changeRaw level s) h
  | ealFilterExpiry => exact closeIf (.staid (same.withAlert _).filteredChange) h
  | holdSecondElapsed => exact closeIf (.staid (same.withAlert _)) h
  | holdLimitExpiry => exact closeIf (.staid (same.endAlert _)) h
  | renewalPeriodExpiry => exact closeIf (.staid (same.withAlert _).renewalFailure) h
  | laneClockFold l =>
    simp only [exec, execLaneClockFold] at h
    split at h
    · refine closeIf (.staid (same.onLane l fun x => ?_)) h
      rw [fold_eq]
      exact .of_eq rfl
    · cases h

end Order

/-- Settles O7: a tick touches no lane, and `exec_restacks` says of every other step what becomes of the stacks. -/
theorem stepKeepsStackOrder : Obligations.StepKeepsStackOrder := by
  intro s t hs h
  unfold step at h
  split at h
  · rw [← Host.Outcome.next.inj h, tick_eq]
    exact hs
  next i rest _ => exact (exec_restacks (s := { s with pending := rest }) h).stacksOk hs

end Sys2Proof.Machine

namespace Sys2Proof.Machine

open Sys2Proof

/-! ## What leaves the Alert Controller alone (R136)

The Alert Controller posts requests to lanes and hands records to the Log Writer, and no other block writes it: requests at the Q
port, grants, cues, slot reads and the commands of the other blocks leave it as it was. -/

theorem KeepsRest.alert {s t : State} (h : KeepsRest s t) : t.alert = s.alert := by rw [h]

/-! ### Records and the ends of placements (R89 to R91, R183, R190, R191) -/

@[simp] theorem presentLog_alert (s : State) : (presentLog s).alert = s.alert := by rw [presentLog_eq]

@[simp] theorem handRecord_alert (l : Nat) (b : RecordBody) (s : State) : (handRecord l b s).alert = s.alert := by
  rw [handRecord_eq]

@[simp] theorem endPlacement_alert (id : Nat) (o : Outcome) (e : Option Entry) (c : Pt) (s : State) :
    (endPlacement id o e c s).alert = s.alert := by
  rw [endPlacement_eq]
  rfl

@[simp] theorem leaveEnds_alert (covered : Bool) (c : Pt) (st : List Entry) (s : State) :
    (leaveEnds covered c st s).alert = s.alert := by
  induction st generalizing s with
  | nil => rfl
  | cons e rest ih => rw [leaveEnds, ih, leaveStack_eq]

@[simp] theorem auditEntry_alert (l id : Nat) (c : Option Pt) (start : Pt) (n : Nat) (s : State) :
    (auditEntry l id c start n s).alert = s.alert := by
  unfold auditEntry
  split <;> simp

@[simp] theorem auditMissed_alert (id : Nat) (p : Placement) (s : State) : (auditMissed id p s).alert = s.alert := by
  unfold auditMissed
  split <;> simp

@[simp] theorem auditReturn_alert (l : Nat) (k : Kind) (e : Option Pt) (c : Pt) (b : Bool) (s : State) :
    (auditReturn l k e c b s).alert = s.alert := by
  unfold auditReturn
  split <;> simp

@[simp] theorem lateTest_alert (id : Nat) (s : State) : (lateTest id s).alert = s.alert := by
  unfold lateTest endMissed
  extract_lets p
  split
  · split
    · rfl
    · split <;> simp
  · rfl

/-! ### Lookaheads (R58 to R62) -/

@[simp] theorem prefetchTest_alert (l : Nat) (s : State) : (prefetchTest l s).alert = s.alert := by
  unfold prefetchTest
  split
  · rfl
  · split
    · exact (KeepsRest.requestFetch _ _ _ s).alert
    · rfl

@[simp] theorem prefetchTests_alert (ls : List Nat) (s : State) : (prefetchTests ls s).alert = s.alert := by
  induction ls generalizing s with
  | nil => rfl
  | cons l rest ih => rw [prefetchTests, ih, prefetchTest_alert]

@[simp] theorem fillLook_alert (l : Nat) (slot : List Byte) (s : State) : (fillLook l slot s).alert = s.alert := by
  unfold fillLook
  split
  · split <;> simp
  · rfl

/-! ### Slot reads (R97) -/

theorem stageTwo_alert (l : Nat) (s : State) : (stageTwo l s).1.alert = s.alert := by
  change (applyAlert l s).1.alert = s.alert
  unfold applyAlert
  extract_lets x cleared
  split
  · rfl
  · rfl
  all_goals split <;> rfl

theorem stageThree_alert (cx : ReadCtx) (s : State) : (stageThree cx s).alert = s.alert := by
  have hreports : ∀ e k, (reportEnds cx.clock e k s).alert = s.alert := fun e k => by
    unfold reportEnds
    extract_lets top beneath
    split
    · exact (leaveEnds_alert _ _ _ _).trans (leaveEnds_alert _ _ _ _)
    · exact (leaveEnds_alert _ _ _ _).trans (leaveEnds_alert _ _ _ _)
  unfold stageThree
  split
  · rfl
  · extract_lets k u
    have hu : u.alert = s.alert := hreports _ k
    split
    · rw [auditReturn_alert, hu]
    · exact hu

theorem enterAll_alert (cx : ReadCtx) (ids : List Nat) (s : State) : (enterAll cx ids s).alert = s.alert := by
  induction ids generalizing s with
  | nil => rfl
  | cons id rest ih =>
    refine (ih _).trans ?_
    unfold enterOne
    extract_lets p x start u v
    split
    · rfl
    · exact auditEntry_alert _ _ _ _ _ v

@[simp] theorem completeRead_alert (out : List Byte) (s : State) : (completeRead out s).alert = s.alert := rfl

theorem finishSource_alert (cx : ReadCtx) (r : State × Src) : (finishSource cx r).alert = r.1.alert := by
  unfold finishSource
  split <;> simp

theorem afterStart_alert (cx : ReadCtx) (start : Pt) (r : State × Turn) : (afterStart cx start r).alert = r.1.alert := by
  have hsix : ∀ b, (finishSource cx (stageSix cx b r.1)).alert = r.1.alert := fun b =>
    (finishSource_alert _ _).trans (KeepsRest.stageSix cx b r.1).alert
  unfold afterStart
  split
  · rfl
  · exact hsix true
  all_goals exact hsix false

theorem spliceStages_alert (cx : ReadCtx) (s : State) : (spliceStages cx s).alert = s.alert := by
  unfold spliceStages
  extract_lets old two three offered four synced start
  calc (afterStart cx start (stageFive cx start old two.2 synced)).alert
      = synced.alert := (afterStart_alert _ _ _).trans (KeepsRest.stageFive cx start old two.2 synced).alert
    _ = four.alert := (congrArg State.alert (syncStack_after _ four).1).trans rfl
    _ = three.alert := enterAll_alert cx _ three
    _ = two.1.alert := stageThree_alert cx two.1
    _ = s.alert := stageTwo_alert cx.lane s

theorem slotReadStep_alert (s : State) : (slotReadStep s).alert = s.alert := by
  unfold slotReadStep
  split
  · rfl
  · split
    · rfl
    · split
      next f _ l k _ =>
        split
        · rfl
        next hruns =>
          have he : (s.lane l).enabled = true := by simp at hruns; exact hruns.2
          unfold runProcedure
          extract_lets i one
          have hone : one.alert = s.alert := by
            obtain ⟨hframe, -⟩ := stageOne_first l k i s he
            exact (congrArg State.alert hframe).trans rfl
          split
          · exact (completeRead_alert _ one).trans hone
          · exact (spliceStages_alert _ one).trans hone
      all_goals rfl

theorem resumeRead_alert (w : WaitingRead) (s : State) : (resumeRead w s).alert = s.alert := by
  unfold resumeRead
  split
  · rfl
  · extract_lets cx
    split
    · exact (afterStart_alert _ _ _).trans (KeepsRest.beginClip cx _ s).alert
    · split
      · exact (finishSource_alert _ _).trans (KeepsRest.consultLook cx _ s).alert
      · rfl

/-! ### Arrivals and returns (R1, R3, R60) -/

theorem fetchArrival_alert (s : State) : (fetchArrival s).alert = s.alert := by
  unfold fetchArrival
  split
  next l _ _ data rest _ =>
    split
    · rfl
    · have hfilled : (fillLook l data (landed rest s)).alert = s.alert := fillLook_alert _ _ _
      unfold continueWait
      split
      · split
        · exact (resumeRead_alert _ _).trans hfilled
        · exact hfilled
      · exact hfilled
  all_goals rfl

theorem readArrival_alert (s : State) : (readArrival s).alert = s.alert := by
  unfold readArrival
  split <;> rfl

theorem returnRead_alert (s : State) : (returnRead s).alert = s.alert := by
  unfold returnRead
  split
  · rfl
  · split <;> rfl

/-! ### Requests at the Q port (R1, R5 to R14) -/

theorem takeCommand_alert (n : Nat) (ws : List Word) (s : State) : (takeCommand n ws s).alert = s.alert := by
  unfold takeCommand
  split
  · rfl
  · split <;> rfl

theorem cancelCommand_alert (n : Nat) (s : State) : (cancelCommand n s).alert = s.alert := by
  unfold cancelCommand
  split
  · rfl
  · split <;> rfl

theorem acceptControl_alert (r : QRequest) (s : State) : (acceptControl r s).1.alert = s.alert := by
  unfold acceptControl
  split
  · rcases offerWrite_eq (s.controlLine r) r s with he | he | he
    · rw [he]
      exact cancelCommand_alert _ s
    · rw [he]
      exact takeCommand_alert _ _ s
    · rw [he]
      rfl
  · rfl

theorem ingress_alert {l : Nat} (hl : l < 16) (w : Nat) (slot : List Byte) (s : State) : (ingress l w slot s).alert = s.alert := by
  obtain ⟨taken, x, records, hcue, hwatched, heq⟩ := ingress_parts hl w slot s
  have hwritten := slotWritten_of_parts hl hcue hwatched (taken.logAfter (records.map fun b => (l, b)))
  rw [heq]
  exact (congrArg State.alert hwritten.state).trans rfl

theorem acceptRing_alert (i : Nat) (r : QRequest) (s : State) : (acceptRing i r s).1.alert = s.alert := by
  unfold acceptRing
  extract_lets l off
  split
  · rfl
  next hlive =>
    split
    · have he : (s.lane l).enabled = true := by
        simp [State.ringLive] at hlive
        exact hlive.1
      exact ingress_alert (enabled_lt he) _ _ s
    · split <;> rfl

theorem classify_alert (r : QRequest) (s : State) : (classify r s).1.alert = s.alert := by
  unfold classify
  split
  · rfl
  · exact acceptControl_alert r s
  · unfold acceptRegion
    split
    · exact acceptRing_alert _ r s
    · unfold acceptLog
      split <;> rfl
    all_goals rfl
  · rfl

theorem acceptRequest_alert (r : QRequest) (s : State) : (acceptRequest r s).alert = s.alert := by
  have hcounted : (countStrayClaim r s).alert = s.alert := by
    unfold countStrayClaim
    split <;> rfl
  unfold acceptRequest
  split
  · rfl
  · split
    · rfl
    · split
      · exact (classify_alert r _).trans hcounted
      · split <;> rfl

/-! ### Grants (R16) -/

theorem countWait_alert (s : State) : (countWait s).alert = s.alert := by rw [countWait_eq]

theorem grantForward_alert (s : State) : (grantForward s).alert = s.alert := by
  unfold grantForward
  split
  · rfl
  · split <;> rfl

theorem grantFetch_alert (l : Nat) (s : State) : (grantFetch l s).alert = s.alert := by
  unfold grantFetch
  split <;> rfl

theorem grantLog_alert (s : State) : (grantLog s).alert = s.alert := by
  have hline : ∀ b c w, (grantLogLine b c w s).alert = s.alert := fun b c w => by
    unfold grantLogLine
    extract_lets a head
    split
    · rfl
    · split <;> rfl
  unfold grantLog
  split
  · exact (presentLog_alert _).trans (hline _ _ _)
  all_goals rfl

/-- The DONE answer of UNCLAIM resets the controller, and no other grant touches it (R153, R178). -/
theorem grantStep_alert (s : State) : (grantStep s).alert = s.alert ∨ ∃ u, grantStep s = unclaimEffect u := by
  unfold grantStep
  split
  · unfold grantPart
    split
    · exact .inl rfl
    · unfold grantAnswer
      split
      · exact .inl rfl
      · extract_lets written left
        split
        · exact .inr ⟨_, rfl⟩
        · exact .inl rfl
    · exact .inl (grantLog_alert _)
    · exact .inl rfl
  · exact .inl ((grantFetch_alert _ _).trans (countWait_alert s))
  · exact .inl ((grantForward_alert _).trans (countWait_alert s))
  · exact .inl rfl

/-! ### The commands of the other blocks (chapter 10) -/

/-- A command of another block: whatever its words, its body leaves the controller alone. -/
def BesideAlert (body : List Word → State → Reply) : Prop := ∀ ws s, (body ws s).state.alert = s.alert

theorem regionSetBody_alert : BesideAlert regionSetBody := fun ws s => by
  rw [regionSetBody_eq]
  split
  · exact (congrArg State.alert (setRegion_done (regionArgs ws) s).aside).trans rfl
  · rfl

theorem laneSetBody_alert : BesideAlert laneSetBody := fun ws s => by
  rw [laneSetBody_eq]
  split <;> rfl

theorem laneEnableBody_alert : BesideAlert laneEnableBody := fun ws s => by
  rw [laneEnableBody_eq]
  split <;> rfl

theorem laneDisableBody_alert : BesideAlert laneDisableBody := fun ws s => by
  unfold laneDisableBody
  split
  · rfl
  · unfold carryOut
    split
    next hon =>
      obtain ⟨-, -, -, hframe, -⟩ := disableLane_after s (enabled_lt hon)
      exact (congrArg State.alert hframe).trans rfl
    · rfl

theorem laneStatusBody_alert : BesideAlert laneStatusBody := fun ws s => by
  unfold laneStatusBody
  split <;> rfl

theorem clipSetBody_alert : BesideAlert clipSetBody := fun ws s => by
  rw [clipSetBody_eq]
  split
  · exact prefetchTests_alert _ _
  · rfl

theorem clipClearBody_alert : BesideAlert clipClearBody := fun ws s => by
  unfold clipClearBody
  split <;> rfl

theorem placeBody_alert : BesideAlert placeBody := fun ws s => by
  unfold placeBody
  extract_lets a
  split
  · exact lateTest_alert _ _
  · rfl

theorem withdrawBody_alert : BesideAlert withdrawBody := fun ws s => by
  have honStack : ∀ id, (withdrawOnStack id s).alert = s.alert := fun id => by
    unfold withdrawOnStack
    split <;> rfl
  unfold withdrawBody
  extract_lets id
  split
  · rfl
  · split
    · rfl
    · exact endPlacement_alert _ _ _ _ s
    · exact endPlacement_alert _ _ _ _ s
    · exact honStack id
    · exact honStack id

theorem placementStatusBody_alert : BesideAlert placementStatusBody := fun ws s => by
  unfold placementStatusBody
  split <;> rfl

theorem cueBody_alert : BesideAlert cueBody := fun ws s => by
  unfold cueBody
  extract_lets a
  split
  next hdone =>
    have htaken := intake_taken a.lane (enabled_lt (cueAnswer_done hdone).2) a.cue true s
    exact (congrArg State.alert (cueTaken_frame htaken).state).trans rfl
  · rfl

theorem auditMarkBody_alert : BesideAlert auditMarkBody := fun ws s => by
  unfold auditMarkBody
  split
  · rfl
  · split <;> rfl

theorem logAckBody_alert : BesideAlert logAckBody := fun ws s => by
  unfold logAckBody
  extract_lets n
  split
  · exact presentLog_alert _
  · rfl

theorem unclaimBody_alert : BesideAlert unclaimBody := fun ws s => by
  unfold unclaimBody
  split
  · rfl
  · split <;> rfl

theorem unknownBody_alert : BesideAlert unknownBody := fun _ _ => rfl

end Sys2Proof.Machine

namespace Sys2Proof.Machine

open Sys2Proof

/-! ## A failed renewal (R148 to R150) -/

section Failure

variable {s : State}

/-- The state with a failure counted, reaction-fired and the controller's state coming to stand as given (R150). -/
def State.failed (s : State) (fired : Bool) (st : AlertState) : State :=
  { s with alert := { s.alert with loopCount := loopFail s.alert.loopCount, reactionFired := fired, state := st } }

theorem crosses_iff (a : AlertCtl) :
    a.crosses = true ↔ (a.profileAt a.profile).loopLimit ≤ loopFail a.loopCount ∧ a.reactionFired = false := by
  rw [AlertCtl.crosses, Bool.and_eq_true, decide_eq_true_eq, Bool.not_eq_true']

theorem fires_none (h : ¬ s.alert.crosses = true) : s.alert.fires = none := if_neg h

theorem fires_some (h : s.alert.crosses = true) {r : Reaction} (hr : (s.alert.profileAt s.alert.profile).reaction = r) :
    s.alert.fires = some r := (if_pos h).trans (congrArg some hr)

/-- Without a crossing a failure is counted, and no more. -/
theorem renewalFailure_counts (h : ¬ s.alert.crosses = true) :
    renewalFailure s = s.failed s.alert.reactionFired s.alert.state := by
  rw [renewalFailure, fires_none h]
  rfl

theorem renewalFailure_warn (h : s.alert.crosses = true) (hr : (s.alert.profileAt s.alert.profile).reaction = .warn) :
    renewalFailure s = (s.failed true s.alert.state).logged
      (s.logAfter [(255, .renewal s.alert.profile (loopFail s.alert.loopCount) .warn)]) := by
  rw [renewalFailure, fires_some h hr]
  exact handRecord_logged _ _ _

theorem renewalFailure_latch (h : s.alert.crosses = true) (hr : (s.alert.profileAt s.alert.profile).reaction = .latch) :
    renewalFailure s = (s.failed true .activeLatched).logged
      (s.logAfter [(255, .renewal s.alert.profile (loopFail s.alert.loopCount) .latch)]) := by
  rw [renewalFailure, fires_some h hr]
  exact handRecord_logged _ _ _

theorem renewalFailure_release (h : s.alert.crosses = true) (hr : (s.alert.profileAt s.alert.profile).reaction = .release) :
    renewalFailure s = endAlert .renewal (s.failed s.alert.reactionFired s.alert.state) := by
  rw [renewalFailure, fires_some h hr]
  rfl

end Failure

/-! ## The law of the loop count (R150) -/

section Loop

variable {s t : State}

theorem loopFail_le (n : Nat) : loopFail n ≤ 31 := Nat.min_le_right _ _

theorem le_loopFail {n : Nat} (h : n ≤ 31) : n ≤ loopFail n := Nat.le_min.2 ⟨Nat.le_add_right n 2, h⟩

theorem State.LoopOk.congr (h : s.LoopOk) (ht : t.alert = s.alert) : t.LoopOk := by
  unfold State.LoopOk
  rw [ht]
  exact h

/-- The law reads the controller's state, profiles, profile, count and reaction-fired alone. -/
theorem State.LoopOk.of_items (h : s.LoopOk) (hstate : t.alert.state = s.alert.state) (hprofiles : t.alert.profiles = s.alert.profiles)
    (hprofile : t.alert.profile = s.alert.profile) (hcount : t.alert.loopCount = s.alert.loopCount)
    (hfired : t.alert.reactionFired = s.alert.reactionFired) : t.LoopOk := by
  unfold State.LoopOk AlertCtl.profileAt at *
  rw [hstate, hprofiles, hprofile, hcount, hfired]
  exact h

/-- A count of 0 with reaction-fired clear, as every start and end of an alert and every reset leaves it. -/
theorem loopOk_of_clear (hcount : t.alert.loopCount = 0) (hfired : t.alert.reactionFired = false) : t.LoopOk := by
  refine ⟨by rw [hcount]; exact Nat.zero_le _, fun h => ?_⟩
  rw [hfired] at h
  cases h

theorem beginAlert_loopOk (st : AlertState) (p : Nat) (r : AlertReason) (s : State) : (beginAlert st p r s).LoopOk :=
  loopOk_of_clear (by rw [beginAlert, handRecord_alert]; rfl) (by rw [beginAlert, handRecord_alert]; rfl)

theorem finishAlert_loopOk (r : AlertReason) (s : State) : (finishAlert r s).LoopOk :=
  loopOk_of_clear (by rw [finishAlert, handRecord_alert]; rfl) (by rw [finishAlert, handRecord_alert]; rfl)

theorem endAlert_loopOk (r : AlertReason) (s : State) : (endAlert r s).LoopOk := by
  unfold endAlert
  split
  · exact beginAlert_loopOk _ _ _ _
  · exact finishAlert_loopOk _ _

theorem setLinePending_loopOk (h : s.LoopOk) (b : Bool) : (setLinePending b s).LoopOk := h.of_items rfl rfl rfl rfl rfl

theorem restartPeriod_loopOk (h : s.LoopOk) (lt : Rt) : (restartPeriod lt s).LoopOk := h.of_items rfl rfl rfl rfl rfl

theorem held_loopOk (h : s.LoopOk) (mark : Rt) (n : Nat) :
    ({ s with alert := { s.alert with holdMark := mark, heldSeconds := n } } : State).LoopOk := h.of_items rfl rfl rfl rfl rfl

theorem takeFiltered_loopOk (h : s.LoopOk) : (takeFiltered s).LoopOk := h.of_items rfl rfl rfl rfl rfl

theorem lineAsserted_loopOk (h : s.LoopOk) : (lineAsserted s).LoopOk := by
  unfold lineAsserted
  extract_lets p0
  split
  · exact beginAlert_loopOk _ _ _ _
  · exact setLinePending_loopOk h true

theorem lineDeasserted_loopOk (h : s.LoopOk) : (lineDeasserted s).LoopOk := by
  unfold lineDeasserted
  extract_lets u
  split
  · exact endAlert_loopOk _ _
  · exact setLinePending_loopOk h false

theorem filteredChange_loopOk (h : s.LoopOk) : (filteredChange s).LoopOk := by
  unfold filteredChange
  split
  · exact h
  · split
    · exact lineAsserted_loopOk h
    · exact lineDeasserted_loopOk h

theorem failed_loopOk {fired : Bool} {st : AlertState} (hst : st ≠ .idle)
    (hlimit : fired = true → (s.alert.profileAt s.alert.profile).loopLimit ≤ loopFail s.alert.loopCount) :
    (s.failed fired st).LoopOk := ⟨loopFail_le _, fun h => ⟨hst, hlimit h⟩⟩

/-- A failure never lowers the count, so reaction-fired stands at the limit or above; it comes to be set at a crossing only. -/
theorem renewalFailure_loopOk (h : s.LoopOk) (hactive : s.alert.state ≠ .idle) : (renewalFailure s).LoopOk := by
  by_cases hcross : s.alert.crosses = true
  · obtain ⟨hlimit, -⟩ := (crosses_iff s.alert).1 hcross
    cases hr : (s.alert.profileAt s.alert.profile).reaction with
    | warn =>
      rw [renewalFailure_warn hcross hr]
      exact (failed_loopOk hactive fun _ => hlimit).congr rfl
    | release =>
      rw [renewalFailure_release hcross hr]
      exact endAlert_loopOk _ _
    | latch =>
      rw [renewalFailure_latch hcross hr]
      exact (failed_loopOk (st := .activeLatched) (by decide) fun _ => hlimit).congr rfl
  · obtain ⟨hcount, hfired⟩ := h
    rw [renewalFailure_counts hcross]
    exact failed_loopOk hactive fun hf => (hfired hf).2.trans (le_loopFail hcount)

/-- A success lowers the count by one, and clears reaction-fired below the limit. -/
theorem renewalSuccess_loopOk (h : s.LoopOk) : (renewalSuccess s).LoopOk := by
  obtain ⟨hcount, hfired⟩ := h
  refine ⟨(Nat.sub_le _ 1).trans hcount, fun hf => ?_⟩
  obtain ⟨hset, hlimit⟩ := Bool.and_eq_true_iff.1 hf
  exact ⟨(hfired hset).1, of_decide_eq_true hlimit⟩

theorem failedPeriod_loopOk (h : s.LoopOk) (hactive : s.alert.state ≠ .idle) (lt : Rt) :
    (renewalFailure (restartPeriod lt s)).LoopOk := renewalFailure_loopOk (restartPeriod_loopOk h lt) hactive

theorem judgeRenewal_loopOk (h : s.LoopOk) (hactive : s.alert.state ≠ .idle) : (judgeRenewal s).LoopOk := by
  unfold judgeRenewal
  split
  · exact failedPeriod_loopOk h hactive s.lt
  · exact renewalSuccess_loopOk (restartPeriod_loopOk h s.lt)

theorem expirePeriod_loopOk (h : s.LoopOk) (hdue : s.periodDue = true) : (expirePeriod s).LoopOk := by
  have hcmd : s.alert.state = .activeCmd := of_decide_eq_true (Bool.and_eq_true_iff.1 hdue).1
  exact failedPeriod_loopOk h (by rw [hcmd]; decide) _

/-- The profile in effect is not redefined (R135). -/
theorem setProfile_loopOk (h : s.LoopOk) (a : ProfileArgs) (hfree : ¬ (s.alert.state ≠ .idle ∧ a.profile = s.alert.profile)) :
    (setProfile a s).LoopOk := by
  obtain ⟨hcount, hfired⟩ := h
  refine ⟨hcount, fun hf => ?_⟩
  obtain ⟨hactive, hlimit⟩ := hfired hf
  have hother : a.profile ≠ s.alert.profile := fun he => hfree ⟨hactive, he⟩
  refine ⟨hactive, ?_⟩
  have hsame : (setProfile a s).alert.profileAt s.alert.profile = s.alert.profileAt s.alert.profile := by
    simp [setProfile, AlertCtl.profileAt, hother]
  exact (congrArg Profile.loopLimit hsame).trans_le hlimit

/-! ### The commands of the Alert Controller (R135, R138, R143, R148, R151) -/

theorem alertProfileBody_loopOk (ws : List Word) (h : s.LoopOk) : (alertProfileBody ws s).state.LoopOk := by
  unfold alertProfileBody
  extract_lets a
  split
  next hdone =>
    split
    · exact beginAlert_loopOk _ _ _ _
    · refine setProfile_loopOk h a fun hbusy => ?_
      unfold profileAnswer at hdone
      rw [if_pos hbusy] at hdone
      split at hdone
      · cases hdone
      · split at hdone <;> cases hdone
  · exact h

theorem alertStartBody_loopOk (ws : List Word) (h : s.LoopOk) : (alertStartBody ws s).state.LoopOk := by
  unfold alertStartBody
  extract_lets p
  split
  · exact beginAlert_loopOk _ _ _ _
  · exact h

theorem alertRenewBody_loopOk (ws : List Word) (h : s.LoopOk) : (alertRenewBody ws s).state.LoopOk := by
  unfold alertRenewBody
  split
  next hcmd => exact judgeRenewal_loopOk h (by rw [hcmd]; decide)
  all_goals exact h

theorem alertEndBody_loopOk (ws : List Word) (h : s.LoopOk) : (alertEndBody ws s).state.LoopOk := by
  unfold alertEndBody
  split
  · exact endAlert_loopOk _ _
  · exact endAlert_loopOk _ _
  all_goals exact h

/-- A command executed leaves what its body leaves (R174). -/
theorem execute_loopOk {body : List Word → State → Reply} (hb : ∀ ws u, u.LoopOk → (body ws u).state.LoopOk)
    (test : Nat → Bool) (h : s.LoopOk) : (execute test body s).LoopOk := by
  rcases execute_cases test body s with he | ⟨c, rest, -, -, he⟩
  · rw [he]
    exact h
  · rw [he]
    exact (hb c.words (s.unqueue rest) h).congr rfl

/-! ### The resets and BYPASS (R19, R20, R114, R152, R153) -/

theorem assertReset_loopOk (s : State) : (assertReset s).LoopOk := loopOk_of_clear rfl rfl

theorem releaseReset_loopOk (h : s.LoopOk) : (releaseReset s).LoopOk := h.of_items rfl rfl rfl rfl rfl

theorem unclaimEffect_loopOk (s : State) : (unclaimEffect s).LoopOk := loopOk_of_clear rfl rfl

theorem grantStep_loopOk (h : s.LoopOk) : (grantStep s).LoopOk := by
  rcases grantStep_alert s with hsame | ⟨u, hu⟩
  · exact h.congr hsame
  · rw [hu]
    exact unclaimEffect_loopOk u

theorem assertBypass_loopOk (h : s.LoopOk) : (assertBypass s).LoopOk := by
  obtain ⟨u, -, hu⟩ := assertBypass_bared s
  have halert : (assertBypass s).alert = s.alert.bypassed := by rw [hu]
  by_cases hidle : s.alert.state = .idle
  · rw [AlertCtl.bypassed, if_pos hidle] at halert
    exact (setLinePending_loopOk h false).congr halert
  · rw [AlertCtl.bypassed, if_neg hidle] at halert
    exact loopOk_of_clear (by rw [halert]; rfl) (by rw [halert]; rfl)

theorem releaseBypass_loopOk (h : s.LoopOk) : (releaseBypass s).LoopOk := by
  have hleft : s.bypassLeft.LoopOk := h
  unfold releaseBypass
  extract_lets u
  split
  · exact lineAsserted_loopOk hleft
  · exact hleft

theorem changeRaw_loopOk (h : s.LoopOk) (level : Bool) : (changeRaw level s).LoopOk := by
  unfold changeRaw
  split
  · exact h
  · extract_lets u
    split
    · exact h.congr rfl
    · exact h.of_items rfl rfl rfl rfl rfl

/-- Every step that answers a next state keeps the law: the steps of the Alert Controller by their lemmas, the resets clear the
count, and the other steps leave the controller alone. -/
theorem exec_loopOk {i : Instr} (hs : s.LoopOk) (h : exec i s = .next t) : t.LoopOk := by
  have close {u : State} (hu : u.LoopOk) (he : (.next (settle s u) : Host.Outcome State Fault Refusal) = .next t) :
      t.LoopOk := by
    rw [← Host.Outcome.next.inj he]
    exact hu.congr (settle_alert s u)
  have beside {u : State} (hu : u.alert = s.alert) (he : (.next (settle s u) : Host.Outcome State Fault Refusal) = .next t) :
      t.LoopOk := close (hs.congr hu) he
  have closeIf {p : Prop} [Decidable p] {u v : State} (hu : p → u.LoopOk) (hv : ¬ p → v.LoopOk)
      (he : (.next (settle s (if p then u else v)) : Host.Outcome State Fault Refusal) = .next t) : t.LoopOk := by
    split at he
    next hp => exact close (hu hp) he
    next hp => exact close (hv hp) he
  have command {test : Nat → Bool} {body : List Word → State → Reply} (hb : BesideAlert body)
      (he : (.next (settle s (execute test body s)) : Host.Outcome State Fault Refusal) = .next t) : t.LoopOk :=
    close (execute_loopOk (fun ws u hu => hu.congr (hb ws u)) test hs) he
  have same : ∀ {p : Prop}, ¬ p → s.LoopOk := fun _ => hs
  cases i with
  | qPortAccept r =>
    simp only [exec, execQPortAccept] at h
    split at h
    · exact beside (acceptRequest_alert _ s) h
    · cases h
  | mPortGrant => exact close (grantStep_loopOk hs) h
  | readDataArrival => exact beside (readArrival_alert s) h
  | slotReadProcedure => exact beside (slotReadStep_alert s) h
  | slateCountdownExpiry l =>
    simp only [exec, execSlateCountdownExpiry] at h
    split at h
    · refine closeIf (fun _ => ?_) same h
      exact hs.congr (s.onLane_alert l Lane.expireSlate)
    · cases h
  | fetchDataArrival => exact beside (fetchArrival_alert s) h
  | readReturn => exact beside (returnRead_alert s) h
  | regionSet => exact command regionSetBody_alert h
  | laneSet => exact command laneSetBody_alert h
  | laneEnable => exact command laneEnableBody_alert h
  | laneDisable => exact command laneDisableBody_alert h
  | laneStatus => exact command laneStatusBody_alert h
  | clipSet => exact command clipSetBody_alert h
  | clipClear => exact command clipClearBody_alert h
  | place => exact command placeBody_alert h
  | withdraw => exact command withdrawBody_alert h
  | placementStatus => exact command placementStatusBody_alert h
  | cue => exact command cueBody_alert h
  | alertProfile => exact close (execute_loopOk (fun ws _ hu => alertProfileBody_loopOk ws hu) _ hs) h
  | alertStart => exact close (execute_loopOk (fun ws _ hu => alertStartBody_loopOk ws hu) _ hs) h
  | alertRenew => exact close (execute_loopOk (fun ws _ hu => alertRenewBody_loopOk ws hu) _ hs) h
  | alertEnd => exact close (execute_loopOk (fun ws _ hu => alertEndBody_loopOk ws hu) _ hs) h
  | alertLock => exact close (execute_loopOk (body := alertLockBody) (fun _ _ hu => hu) _ hs) h
  | auditMark => exact command auditMarkBody_alert h
  | logAck => exact command logAckBody_alert h
  | unclaim => exact command unclaimBody_alert h
  | unknownCommand => exact command unknownBody_alert h
  | rstNAssert => exact closeIf (fun _ => hs) (fun _ => assertReset_loopOk s) h
  | rstNRelease => exact closeIf (fun _ => releaseReset_loopOk hs) same h
  | bypassAssert => exact closeIf (fun _ => hs) (fun _ => assertBypass_loopOk hs) h
  | bypassRelease => exact closeIf (fun _ => releaseBypass_loopOk hs) same h
  | ealRawChange level => exact close (changeRaw_loopOk hs level) h
  | ealFilterExpiry => exact closeIf (fun _ => filteredChange_loopOk (takeFiltered_loopOk hs)) same h
  | holdSecondElapsed => exact closeIf (fun _ => held_loopOk hs _ _) same h
  | holdLimitExpiry => exact closeIf (fun _ => endAlert_loopOk _ _) same h
  | renewalPeriodExpiry => exact closeIf (expirePeriod_loopOk hs) same h
  | laneClockFold l =>
    simp only [exec, execLaneClockFold] at h
    split at h
    · refine closeIf (fun _ => ?_) same h
      exact hs.congr (s.onLane_alert l Lane.fold)
    · cases h

end Loop

/-- Settles O10: a tick touches only Local Time, and `exec_loopOk` has every step. -/
theorem stepKeepsLoopCount : Obligations.StepKeepsLoopCount := by
  intro s t hs h
  unfold step at h
  split at h
  · rw [← Host.Outcome.next.inj h, tick_eq]
    exact hs
  next i rest _ => exact exec_loopOk (s := { s with pending := rest }) hs h

end Sys2Proof.Machine

namespace Sys2Proof.Machine

open Sys2Proof

/-! ## The end of an alert, as the statements give it (R136, R140, R142, R187) -/

section Ends

variable {s t u : State} {reason : AlertReason}

/-- From `s` to `t` the alert in effect has ended, for the host, the hold limit or a reaction. -/
structure Ended (reason : AlertReason) (s t : State) : Prop where
  records : ∃ records, s.EndRecords reason records ∧ t.log = s.logAfter records
  lanes : ∀ l, t.lane l = { s.lane l with alertReq := s.requestAfterEnd l }
  follows : s.LineFollows → t.alert = s.onLine
  rests : ¬ s.LineFollows → s.alert.Ends t.alert

theorem endAlert_frame (reason : AlertReason) (hs : s.alert.state ≠ .idle) :
    endAlert reason s =
      { s with
        alert := (endAlert reason s).alert, lanes := (endAlert reason s).lanes, log := (endAlert reason s).log } :=
  (endAlert_after reason s hs).1

theorem endAlert_ended (hs : s.alert.state ≠ .idle) (hl : reason ≠ .line) (hb : reason ≠ .bypass) :
    Ended reason s (endAlert reason s) := by
  obtain ⟨-, hrecords, -, hlanes⟩ := endAlert_after reason s hs
  obtain ⟨hfollows, hrests⟩ := endAlert_items reason s hs hl hb
  refine ⟨hrecords, fun l => (hlanes l).trans ?_, hfollows, hrests⟩
  have hcause : (reason ≠ .line ∧ reason ≠ .bypass ∧ s.LineFollows) ↔ s.LineFollows :=
    ⟨fun h => h.2.2, fun h => ⟨hl, hb, h⟩⟩
  refine congrArg (fun q => { s.lane l with alertReq := q }) ?_
  exact if_congr (and_congr hcause Iff.rfl) rfl rfl

/-- The end of an alert reads off the controller, the lanes and the log. -/
theorem Ended.congr (h : Ended reason s t) (halert : u.alert = t.alert) (hlanes : u.lanes = t.lanes) (hlog : u.log = t.log) :
    Ended reason s u := by
  refine ⟨?_, fun l => ?_, ?_, ?_⟩
  · rw [hlog]
    exact h.records
  · rw [congrFun (lane_congr hlanes) l]
    exact h.lanes l
  · rw [halert]
    exact h.follows
  · rw [halert]
    exact h.rests

/-- A request once the alert has ended and none follows. -/
theorem requestAfterEnd_rests (h : ¬ s.LineFollows) (l : Nat) :
    s.requestAfterEnd l = (s.lane l).requestAtEnd (s.alert.profileAt s.alert.profile).zones := if_neg fun hh => h hh.1

/-- A request once the alert has ended and the line alert has started. -/
theorem requestAfterEnd_follows (h : s.LineFollows) (l : Nat) :
    s.requestAfterEnd l =
      if (s.lane l).enabled = true ∧ (s.alert.profileAt 0).zones.getLsbD (s.lane l).record.zone = true then some (.insert 0)
      else (s.lane l).requestAtEnd (s.alert.profileAt s.alert.profile).zones := if_congr (and_iff_right h) rfl rfl

end Ends

/-! ## The hold limit (R144) -/

theorem secondDue_iff (s : State) :
    s.secondDue = true ↔ s.alert.state ≠ .idle ∧ s.alert.heldSeconds < (s.alert.profileAt s.alert.profile).holdLimit ∧
      27000000 ≤ (s.lt - s.alert.holdMark).toNat := by
  rw [State.secondDue, Bool.and_eq_true, Bool.and_eq_true, decide_eq_true_eq, decide_eq_true_eq, decide_eq_true_eq, and_assoc]
  rfl

theorem holdExpired_iff (s : State) :
    s.holdExpired = true ↔
      s.alert.state ≠ .idle ∧ (s.alert.profileAt s.alert.profile).holdLimit ≤ s.alert.heldSeconds := by
  rw [State.holdExpired, Bool.and_eq_true, decide_eq_true_eq, decide_eq_true_eq]

/-- Settles O58, by whether the second and the limit are due. -/
theorem holdLimitRuns : Obligations.HoldLimitRuns := by
  intro s q second expired follows
  have hsecond : s.secondDue = true ↔ second := secondDue_iff s
  have hexpired : s.holdExpired = true ↔ expired := holdExpired_iff s
  constructor
  · by_cases hdue : second
    · have hexec : exec .holdSecondElapsed s = .next (settle s (holdSecond s)) :=
        congrArg (fun u => Host.Outcome.next (settle s u)) (if_pos (hsecond.2 hdue))
      refine ⟨_, hexec, fun _ => ?_, fun hnot => absurd hdue hnot⟩
      rw [settle_apart]
      rfl
    · have hexec : exec .holdSecondElapsed s = .next (settle s s) :=
        congrArg (fun u => Host.Outcome.next (settle s u)) (if_neg (mt hsecond.1 hdue))
      exact ⟨_, hexec, fun h => absurd h hdue, fun _ => settle_apart s s⟩
  · by_cases hdue : expired
    · have hexec : exec .holdLimitExpiry s = .next (settle s (endAlert .expired s)) :=
        congrArg (fun u => Host.Outcome.next (settle s u)) (if_pos (hexpired.2 hdue))
      have hended : Ended .expired s (settle s (endAlert .expired s)) :=
        (endAlert_ended hdue.1 (by decide) (by decide)).congr (settle_alert _ _) (settle_lanes _ _) (settle_log _ _)
      refine ⟨_, hexec, fun hnot => absurd hdue hnot, fun _ =>
        ⟨?_, fun hrests => ⟨hended.rests hrests, fun l => ?_⟩, hended.records, hended.lanes, hended.follows⟩⟩
      · rw [settle_apart, settle_alert, settle_lanes, settle_log]
        exact congrArg State.apart (endAlert_frame .expired hdue.1)
      · rw [hended.lanes l, requestAfterEnd_rests hrests]
    · have hexec : exec .holdLimitExpiry s = .next (settle s s) :=
        congrArg (fun u => Host.Outcome.next (settle s u)) (if_neg (mt hexpired.1 hdue))
      exact ⟨_, hexec, fun _ => settle_apart s s, fun h => absurd h hdue⟩

/-! ## A failed renewal in ACTIVE_CMD (R148 to R150) -/

section Failed

variable {s t : State}

/-- The state with a renewal judged: the period starts at `start`, and the count, reaction-fired and the controller's state come to
stand as given (R148 to R150). -/
def State.judged (s : State) (start : Rt) (count : Nat) (fired : Bool) (st : AlertState) : State :=
  { s with alert := { s.alert with periodStart := start, loopCount := count, reactionFired := fired, state := st } }

/-- The end of an alert does not read what a judged renewal changes. -/
theorem Ended.of_judged {reason : AlertReason} {start : Rt} {count : Nat} {fired : Bool}
    (h : Ended reason (s.judged start count fired s.alert.state) t) : Ended reason s t :=
  ⟨h.records, h.lanes, h.follows, h.rests⟩

/-- A failure in ACTIVE_CMD, the period restarted: counted, and the reaction of the profile at a crossing (R150). -/
theorem failedPeriod_after (start : Rt) (hcmd : s.alert.state = .activeCmd) :
    let q := s.alert.profileAt s.alert.profile
    let failed := min (s.alert.loopCount + 2) 31
    let crossing := q.loopLimit ≤ failed ∧ s.alert.reactionFired = false
    let u := renewalFailure (restartPeriod start s)
    (¬ crossing → u = s.judged start failed s.alert.reactionFired .activeCmd) ∧
    (crossing → q.reaction = .warn → u =
      (s.judged start failed true .activeCmd).logged (s.logAfter [(255, .renewal s.alert.profile failed .warn)])) ∧
    (crossing → q.reaction = .latch → u =
      (s.judged start failed true .activeLatched).logged (s.logAfter [(255, .renewal s.alert.profile failed .latch)])) ∧
    (crossing → q.reaction = .release →
      Ended .renewal s u ∧ u = { s with alert := u.alert, lanes := u.lanes, log := u.log }) := by
  intro q failed crossing u
  have hcross : (restartPeriod start s).alert.crosses = true ↔ crossing := crosses_iff (restartPeriod start s).alert
  have hfailed : ∀ fired st, (restartPeriod start s).failed fired st = s.judged start failed fired st := fun _ _ => rfl
  have hstate : (restartPeriod start s).alert.state = .activeCmd := hcmd
  refine ⟨fun hno => ?_, fun hx hr => ?_, fun hx hr => ?_, fun hx hr => ?_⟩
  · rw [← hstate]
    exact renewalFailure_counts (mt hcross.1 hno)
  · rw [← hstate]
    exact renewalFailure_warn (hcross.2 hx) hr
  · exact renewalFailure_latch (hcross.2 hx) hr
  · have hu : u = endAlert .renewal (s.judged start failed s.alert.reactionFired s.alert.state) :=
      renewalFailure_release (hcross.2 hx) hr
    have hactive : (s.judged start failed s.alert.reactionFired s.alert.state).alert.state ≠ .idle := by
      change s.alert.state ≠ .idle
      rw [hcmd]
      decide
    rw [hu]
    exact ⟨(endAlert_ended hactive (by decide) (by decide)).of_judged, endAlert_frame .renewal hactive⟩

end Failed

/-! ## The expiry of a renewal period (R149) -/

theorem periodDue_iff (s : State) :
    s.periodDue = true ↔ s.alert.state = .activeCmd ∧
      (s.alert.profileAt s.alert.profile).period * 270000 ≤ (s.lt - s.alert.periodStart).toNat := by
  rw [State.periodDue, Bool.and_eq_true, decide_eq_true_eq, decide_eq_true_eq]
  rfl

/-- Settles O59, by whether the period has passed; then `failedPeriod_after` has the failure and the reactions. -/
theorem renewalPeriodExpires : Obligations.RenewalPeriodExpires := by
  intro s q due failed crossing judged
  have hdue : s.periodDue = true ↔ due := periodDue_iff s
  by_cases h : due
  · have hexec : exec .renewalPeriodExpiry s =
        .next (settle s (renewalFailure (restartPeriod (s.alert.periodStart + BitVec.ofNat 32 (q.period * 270000)) s))) :=
      congrArg (fun u => Host.Outcome.next (settle s u)) (if_pos (hdue.2 h))
    obtain ⟨hcounts, hwarn, hlatch, hrelease⟩ :=
      failedPeriod_after (s.alert.periodStart + BitVec.ofNat 32 (q.period * 270000)) h.1
    refine ⟨_, hexec, fun hnot => absurd h hnot, fun _ hno => ?_, fun _ hx hr => ?_, fun _ hx hr => ?_, fun _ hx hr => ?_⟩
    · rw [settle_apart, hcounts hno]
      rfl
    · rw [settle_apart, settle_log, hwarn hx hr]
      exact ⟨rfl, rfl⟩
    · rw [settle_apart, settle_log, hlatch hx hr]
      exact ⟨rfl, rfl⟩
    · obtain ⟨hended, hframe⟩ := hrelease hx hr
      have hclosed := hended.congr (settle_alert s _) (settle_lanes s _) (settle_log s _)
      refine ⟨hclosed.follows, hclosed.rests, hclosed.records, hclosed.lanes, ?_⟩
      rw [settle_apart, settle_alert, settle_lanes, settle_log]
      exact congrArg State.apart hframe
  · have hexec : exec .renewalPeriodExpiry s = .next (settle s s) :=
      congrArg (fun u => Host.Outcome.next (settle s u)) (if_neg (mt hdue.1 h))
    exact ⟨_, hexec, fun _ => settle_apart s s, fun hd => absurd hd h, fun hd => absurd hd h, fun hd => absurd hd h,
      fun hd => absurd hd h⟩

end Sys2Proof.Machine

namespace Sys2Proof.Machine

open Sys2Proof

/-! ## Executions with result words (R174) -/

section Carried

variable {s u : State} {c : Captured} {rest : List Captured}

/-- An execution carried out with result words on a state that keeps the Command Unit. -/
theorem answered_carryOut (results : List Word) (hcmd : u.cmd = (s.unqueue rest).cmd) :
    s.Answered (settle s (joinAnswer c (carryOut results u))) c rest .done results := by
  have hq : u.cmd.queue = rest := by rw [hcmd]; rfl
  have ha : u.cmd.answers = s.cmd.answers := by rw [hcmd]; rfl
  exact answered_of_joinAnswer (r := carryOut results u) s hq ha

theorem carryOut_aside (results : List Word) : (settle s (joinAnswer c (carryOut results u))).aside = u.aside := by
  rw [settle_aside, joinAnswer_aside]
  rfl

theorem carryOut_alert (results : List Word) : (settle s (joinAnswer c (carryOut results u))).alert = u.alert := by
  rw [settle_alert]
  rfl

theorem carryOut_lanes (results : List Word) : (settle s (joinAnswer c (carryOut results u))).lanes = u.lanes := by
  rw [settle_lanes]
  rfl

theorem carryOut_log (results : List Word) : (settle s (joinAnswer c (carryOut results u))).log = u.log := by
  rw [settle_log]
  rfl

/-- What an execution changes of the Alert Controller, the lanes and the log stands as its body left it. -/
theorem carryOut_frame (results : List Word)
    (hframe : u = { s.unqueue rest with alert := u.alert, lanes := u.lanes, log := u.log }) :
    let t := settle s (joinAnswer c (carryOut results u))
    t.aside = ({ s with alert := t.alert, lanes := t.lanes, log := t.log } : State).aside := by
  intro t
  rw [carryOut_aside, carryOut_alert, carryOut_lanes, carryOut_log]
  exact (congrArg State.aside hframe).trans rfl

/-- The Command Unit is read off what such a change leaves. -/
theorem cmd_of_frame (hframe : u = { s.unqueue rest with alert := u.alert, lanes := u.lanes, log := u.log }) :
    u.cmd = (s.unqueue rest).cmd := (congrArg State.cmd hframe).trans rfl

/-- An end of the alert that a command carries out. -/
theorem Ended.carried {reason : AlertReason} {results : List Word} (h : Ended reason (s.unqueue rest) u) :
    Ended reason s (settle s (joinAnswer c (carryOut results u))) := by
  obtain ⟨hrecords, hlanes, hfollows, hrests⟩ := h.congr (carryOut_alert results) (carryOut_lanes results) (carryOut_log results)
  exact ⟨hrecords, hlanes, hfollows, hrests⟩

end Carried

/-! ## ALERT-RENEW (R148, R150) -/

theorem renewalEarly_iff (s : State) :
    s.renewalEarly = true ↔ (s.lt - s.alert.periodStart).toNat <
      (s.alert.profileAt s.alert.profile).period * (s.alert.profileAt s.alert.profile).lockedFraction * 16875 := decide_eq_true_iff

theorem judgeRenewal_early {s : State} (h : s.renewalEarly = true) :
    judgeRenewal s = renewalFailure (restartPeriod s.lt s) := if_pos h

theorem judgeRenewal_taken {s : State} (h : ¬ s.renewalEarly = true) (hcmd : s.alert.state = .activeCmd) :
    judgeRenewal s = s.judged s.lt (s.alert.loopCount - 1)
      (s.alert.reactionFired && decide ((s.alert.profileAt s.alert.profile).loopLimit ≤ s.alert.loopCount - 1)) .activeCmd := by
  rw [← hcmd]
  exact if_neg h

theorem renewalWords_taken {s : State} (h : ¬ s.renewalEarly = true) :
    renewalWords s = [2, word (s.lt - s.alert.periodStart).toNat, word (s.alert.loopCount - 1)] := if_neg h

theorem renewalWords_early {s : State} (h : s.renewalEarly = true) {fired : Option Reaction} (hfires : s.alert.fires = fired) :
    renewalWords s = [word (1 + put ((fired.map Reaction.firedCode).getD 0) 8 8), word (s.lt - s.alert.periodStart).toNat,
      word (min (s.alert.loopCount + 2) 31)] := by
  rw [← hfires]
  exact if_pos h

/-- Settles O48, by the state of the controller; in ACTIVE_CMD by whether the renewal is early, and then `failedPeriod_after` has the
failure and the reactions. -/
theorem alertRenewAnswers : Obligations.AlertRenewAnswers := by
  intro s c rest hex q e early failed crossing judged
  have hbody : execute (isCode 0x32) alertRenewBody s = joinAnswer c (alertRenewBody c.words (s.unqueue rest)) :=
    execute_of_executing hex _ rfl _
  refine ⟨settle s (execute (isCode 0x32) alertRenewBody s), rfl, ?_⟩
  rw [hbody]
  cases hst : s.alert.state with
  | idle =>
    have hreply : alertRenewBody c.words (s.unqueue rest) = refuse .noAlert (s.unqueue rest) := by
      rw [alertRenewBody, State.unqueue_alert, hst]
    rw [hreply]
    exact ⟨fun _ => joinAnswer_refuse _, nofun, nofun, nofun, nofun, nofun⟩
  | activeLine =>
    have hreply : alertRenewBody c.words (s.unqueue rest) = refuse .lineHeld (s.unqueue rest) := by
      rw [alertRenewBody, State.unqueue_alert, hst]
    rw [hreply]
    exact ⟨nofun, fun _ => joinAnswer_refuse _, nofun, nofun, nofun, nofun⟩
  | activeLatched =>
    have hreply : alertRenewBody c.words (s.unqueue rest) =
        carryOut [3, 0, word s.alert.loopCount] (s.unqueue rest) := by
      rw [alertRenewBody, State.unqueue_alert, hst]
    rw [hreply]
    exact ⟨nofun, nofun, fun _ => ⟨answered_carryOut _ rfl, carryOut_aside _⟩, nofun, nofun, nofun⟩
  | activeCmd =>
    have hreply : alertRenewBody c.words (s.unqueue rest) =
        carryOut (renewalWords (s.unqueue rest)) (judgeRenewal (s.unqueue rest)) := by
      rw [alertRenewBody, State.unqueue_alert, hst]
    rw [hreply]
    have hearly : (s.unqueue rest).renewalEarly = true ↔ early := renewalEarly_iff (s.unqueue rest)
    refine ⟨nofun, nofun, nofun, fun _ hlate => ?taken, fun _ hsoon hno => ?counts, fun _ hsoon hx => ?crosses⟩
    case taken =>
      rw [judgeRenewal_taken (mt hearly.1 hlate) hst, renewalWords_taken (mt hearly.1 hlate)]
      exact ⟨answered_carryOut _ rfl, carryOut_aside _⟩
    all_goals
      obtain ⟨hcounts, hwarn, hlatch, hrelease⟩ := failedPeriod_after (s := s.unqueue rest) s.lt hst
      have hcross : (s.unqueue rest).alert.crosses = true ↔ crossing := crosses_iff s.alert
      have hjudge : judgeRenewal (s.unqueue rest) = renewalFailure (restartPeriod s.lt (s.unqueue rest)) :=
        judgeRenewal_early (hearly.2 hsoon)
    case counts =>
      rw [hjudge, hcounts hno, renewalWords_early (hearly.2 hsoon) (fires_none (mt hcross.1 hno))]
      exact ⟨answered_carryOut _ rfl, carryOut_aside _⟩
    case crosses =>
      refine ⟨fun hr => ?warn, fun hr => ?latch, fun hr => ?release⟩ <;>
        rw [hjudge, renewalWords_early (hearly.2 hsoon) (fires_some (hcross.2 hx) hr)]
      case warn =>
        rw [hwarn hx hr, carryOut_log]
        exact ⟨answered_carryOut _ rfl, rfl, carryOut_aside _⟩
      case latch =>
        rw [hlatch hx hr, carryOut_log]
        exact ⟨answered_carryOut _ rfl, rfl, carryOut_aside _⟩
      case release =>
        obtain ⟨hended, hframe⟩ := hrelease hx hr
        exact ⟨answered_carryOut _ (cmd_of_frame hframe), hended.carried.records, hended.carried.lanes, carryOut_frame _ hframe,
          hended.carried.follows, hended.carried.rests⟩

/-! ## ALERT-END (R142, R143) -/

/-- Settles O49, by the state of the controller; a command alert, latched or not, ends by `endAlert_ended`. -/
theorem alertEndAnswers : Obligations.AlertEndAnswers := by
  intro s c rest hex old p0 follows
  have hbody : execute (isCode 0x33) alertEndBody s = joinAnswer c (alertEndBody c.words (s.unqueue rest)) :=
    execute_of_executing hex _ rfl _
  refine ⟨settle s (execute (isCode 0x33) alertEndBody s), rfl, fun hst => ?idle, fun hst => ?line, fun hst => ?ends⟩ <;> rw [hbody]
  case idle =>
    have hreply : alertEndBody c.words (s.unqueue rest) = refuse .noAlert (s.unqueue rest) := by
      rw [alertEndBody, State.unqueue_alert, hst]
    rw [hreply]
    exact joinAnswer_refuse _
  case line =>
    have hreply : alertEndBody c.words (s.unqueue rest) = refuse .lineHeld (s.unqueue rest) := by
      rw [alertEndBody, State.unqueue_alert, hst]
    rw [hreply]
    exact joinAnswer_refuse _
  case ends =>
    have hactive : (s.unqueue rest).alert.state ≠ .idle := by rcases hst with h | h <;> simp [h]
    have hfollows : s.LineFollows ↔ follows := by
      have hline : s.alert.state ≠ .activeLine := by rcases hst with h | h <;> simp [h]
      exact and_iff_right hline
    obtain ⟨mask, hmask, hremoves, -⟩ := finishAlert_after .command (s.unqueue rest) hactive
    have hreply : alertEndBody c.words (s.unqueue rest) =
        carryOut [BitVec.ofNat 32 (mask.toNat + if follows then 65536 else 0)] (endAlert .command (s.unqueue rest)) := by
      have hflag : flag ((s.unqueue rest).lineFollows .command) 16 = if follows then 65536 else 0 :=
        if_congr ((lineFollows_iff _ _).trans ⟨fun h => hfollows.1 h.2.2, fun h => ⟨by decide, by decide, hfollows.2 h⟩⟩) rfl rfl
      rw [← hflag, hmask]
      rcases hst with h | h <;> rw [alertEndBody, State.unqueue_alert, h] <;> rfl
    rw [hreply]
    have hclosed := (endAlert_ended (reason := .command) hactive (by decide) (by decide)).carried (c := c)
      (results := [BitVec.ofNat 32 (mask.toNat + if follows then 65536 else 0)])
    have hframe := endAlert_frame .command hactive
    refine ⟨⟨mask, answered_carryOut _ (cmd_of_frame hframe), fun l hl => ?_⟩, fun hno => ⟨hclosed.rests (mt hfollows.1 hno), fun l => ?_⟩,
      fun hf => ⟨hclosed.follows (hfollows.2 hf), fun l => ?_⟩, hclosed.records, carryOut_frame _ hframe⟩
    · rw [hremoves l hl, holdsAlert_iff]
      rfl
    · rw [hclosed.lanes l, requestAfterEnd_rests (mt hfollows.1 hno)]
    · rw [hclosed.lanes l, requestAfterEnd_follows (hfollows.2 hf)]

end Sys2Proof.Machine

namespace Sys2Proof.Machine

open Sys2Proof

/-! ## The start of an alert, as the statements give it (R136, R138 to R140, R146, R187) -/

section Begins

variable {s u : State} {st : AlertState} {p : Nat} {reason : AlertReason} {mask : BitVec 16}

/-- From `s` to `t` an alert on profile `p` has taken effect, from IDLE or in place of the alert in effect, and the lanes of `mask`
have its requests. -/
structure Begun (st : AlertState) (p : Nat) (reason : AlertReason) (mask : BitVec 16) (s t : State) : Prop where
  items : t.alert =
    { s.alert.taken st p (s.alert.profileAt p).severity s.lt with linePending := s.alert.pendingAfter st }
  lanes : ∀ l, t.lane l =
    { s.lane l with alertReq := (s.lane l).requestAfter s.alert.zonesInEffect (s.alert.profileAt p).zones p }
  log : t.log = s.logAfter [(255, .alert s.alert.action p (s.alert.profileAt p).severity reason mask)]
  posts : MaskOf mask (s.PostsOn s.alert.zonesInEffect (s.alert.profileAt p).zones)

theorem beginAlert_begun (st : AlertState) (p : Nat) (reason : AlertReason) (s : State) :
    Begun st p reason (s.postedMask (s.alert.requests p)) s (beginAlert st p reason s) := by
  obtain ⟨mask, rfl, hposts, hframe, hlanes⟩ := beginAlert_after st p reason s
  exact ⟨(congrArg State.alert hframe).trans rfl, hlanes, (congrArg State.log hframe).trans rfl, hposts⟩

theorem beginAlert_frame (st : AlertState) (p : Nat) (reason : AlertReason) (s : State) :
    beginAlert st p reason s =
      { s with
        alert := (beginAlert st p reason s).alert, lanes := (beginAlert st p reason s).lanes
        log := (beginAlert st p reason s).log } := by
  have hbegun := beginAlert_begun st p reason s
  obtain ⟨mask, rfl, -, hframe, -⟩ := beginAlert_after st p reason s
  rw [hbegun.items, hbegun.log]
  exact hframe

/-- The start of an alert reads off the controller, the lanes and the log. -/
theorem Begun.congr {t : State} (h : Begun st p reason mask s t) (halert : u.alert = t.alert) (hlanes : u.lanes = t.lanes)
    (hlog : u.log = t.log) : Begun st p reason mask s u :=
  ⟨halert.trans h.items, fun l => (congrFun (lane_congr hlanes) l).trans (h.lanes l), hlog.trans h.log, h.posts⟩

/-- A start that a command carries out. -/
theorem Begun.carried {c : Captured} {v : State} (h : Begun st p reason mask s u) (results : List Word) :
    Begun st p reason mask s (settle v (joinAnswer c (carryOut results u))) :=
  h.congr (carryOut_alert results) (carryOut_lanes results) (carryOut_log results)

end Begins

/-! ## ALERT-START (R138, R139) -/

/-- ALERT-START's refusal table, row by row (R138). -/
theorem alertStartAnswer_eq (p : Nat) (s : State) :
    alertStartAnswer p s =
      if 3 < p then .range
      else if s.bypass = true then .bypass
      else if (s.alert.profileAt p).defined = false then .notReady
      else if s.alert.state ≠ .idle ∧ (s.alert.profileAt p).severity < s.alert.severity then .lower
      else .done :=
  if_congr Iff.rfl rfl (if_congr Iff.rfl rfl (if_congr (Bool.not_eq_true' _).to_iff rfl (if_congr Iff.rfl rfl rfl)))

/-- ALERT-START, refused or carried out. -/
theorem alertStartBody_eq (ws : List Word) (s : State) :
    alertStartBody ws s =
      if alertStartAnswer (numAt ws 2) s = .done then
        carryOut [(beginAlert .activeCmd (numAt ws 2) .command s).alert.laid,
          packed (laneFields 0 fun l => (s.postedMask (s.alert.requests (numAt ws 2))).getLsbD l)]
          (beginAlert .activeCmd (numAt ws 2) .command s)
      else refuse (alertStartAnswer (numAt ws 2) s) s := by
  rw [← statusWord_eq, ← lanesWord_eq]
  simp only [alertStartBody]
  cases alertStartAnswer (numAt ws 2) s <;> rfl

/-- Settles O47: the refusal table is `alertStartAnswer_eq`, the start or replacement `beginAlert_begun`. -/
theorem alertStartAnswers : Obligations.AlertStartAnswers := by
  intro s c rest hex p code new old
  have hcode : alertStartAnswer p (s.unqueue rest) = code := alertStartAnswer_eq p s
  have hbody : execute (isCode 0x31) alertStartBody s = joinAnswer c (alertStartBody c.words (s.unqueue rest)) :=
    execute_of_executing hex _ rfl _
  have hexec : exec .alertStart s = .next (settle s (execute (isCode 0x31) alertStartBody s)) := rfl
  rw [hbody, alertStartBody_eq, hcode] at hexec
  by_cases hdone : code = .done
  · rw [if_pos hdone] at hexec
    have hbegun := beginAlert_begun .activeCmd p .command (s.unqueue rest)
    have hframe := beginAlert_frame .activeCmd p .command (s.unqueue rest)
    obtain ⟨results, hresults⟩ : ∃ results : List Word, results = [(beginAlert .activeCmd p .command (s.unqueue rest)).alert.laid,
      packed (laneFields 0 fun l => ((s.unqueue rest).postedMask ((s.unqueue rest).alert.requests p)).getLsbD l)] := ⟨_, rfl⟩
    rw [← hresults] at hexec
    have hcarried := hbegun.carried (c := c) (v := s) results
    refine ⟨_, results, hexec, ?_, fun hnot => absurd hdone hnot, fun _ =>
      ⟨hcarried.items, hcarried.lanes, carryOut_frame _ hframe, _, ?_, hcarried.log, hcarried.posts⟩⟩
    · rw [hdone]
      exact answered_carryOut _ (cmd_of_frame hframe)
    · rw [carryOut_alert]
      exact hresults
  · rw [if_neg hdone] at hexec
    obtain ⟨hanswered, haside⟩ := joinAnswer_refuse (s := s) (c := c) (rest := rest) code
    exact ⟨_, [], hexec, hanswered, fun _ => ⟨rfl, haside⟩, fun h => absurd h hdone⟩

/-! ## ALERT-PROFILE's tests (R135) -/

/-- Order 1 of R135. -/
theorem profileInRange_iff (a : ProfileArgs) :
    a.inRange = true ↔
      ¬ (3 < a.profile ∨ 2 ^ 8 ≤ a.zones ∨ a.severity = 0 ∨ 7 < a.severity ∨ a.clipCount = 0 ∨ 4 < a.clipCount ∨
        (∃ id ∈ a.clips, 255 < id) ∨ a.holdLimit = 0 ∨ 7200 < a.holdLimit ∨ a.period < 10 ∨ 1000 < a.period ∨
        15 < a.lockedFraction ∨ a.loopLimit < 2 ∨ 31 < a.loopLimit ∨ a.reaction = none) := by
  have hclips : allAtMost 255 a.clips = true ↔ ¬ ∃ id ∈ a.clips, 255 < id := by
    simp only [allAtMost, List.all_eq_true, decide_eq_true_eq, not_exists, not_and, not_lt]
  have hreaction : a.reaction.isSome = true ↔ ¬ a.reaction = none := Option.isSome_iff_ne_none
  rw [ProfileArgs.inRange, Bool.and_eq_true, Bool.and_eq_true, Bool.and_eq_true, decide_eq_true_eq, decide_eq_true_eq, hclips,
    hreaction]
  simp only [not_or, not_lt, not_le, Nat.one_le_iff_ne_zero, and_assoc]

/-- ALERT-PROFILE's refusal table, row by row (R135). -/
theorem profileAnswer_eq (a : ProfileArgs) (s : State) :
    profileAnswer a s =
      if 3 < a.profile ∨ 2 ^ 8 ≤ a.zones ∨ a.severity = 0 ∨ 7 < a.severity ∨ a.clipCount = 0 ∨ 4 < a.clipCount ∨
          (∃ id ∈ a.clips, 255 < id) ∨ a.holdLimit = 0 ∨ 7200 < a.holdLimit ∨ a.period < 10 ∨ 1000 < a.period ∨
          15 < a.lockedFraction ∨ a.loopLimit < 2 ∨ 31 < a.loopLimit ∨ a.reaction = none then .range
      else if s.alert.lock = true then .locked
      else if s.alert.state ≠ .idle ∧ a.profile = s.alert.profile then .busy
      else .done := by
  refine if_congr ?_ rfl rfl
  rw [Bool.not_eq_true', ← Bool.not_eq_true, not_iff_comm, profileInRange_iff]

/-- ALERT-PROFILE answered DONE has passed its range tests (R135). -/
theorem profileInRange_of_done {a : ProfileArgs} {s : State} (h : profileAnswer a s = .done) : a.inRange = true := by
  by_contra hout
  rw [profileAnswer, if_pos (by simp [hout])] at h
  cases h

theorem profile_le_of_inRange {a : ProfileArgs} (h : a.inRange = true) : a.profile ≤ 3 :=
  Nat.le_of_not_lt fun hlt => (profileInRange_iff a).1 h (.inl hlt)

/-! ## ALERT-PROFILE carried out (R135, R146) -/

theorem setProfile_profileAt (a : ProfileArgs) (s : State) (h : a.profile ≤ 3) (p : Nat) :
    (setProfile a s).alert.profileAt p = if p = a.profile then a.entry else s.alert.profileAt p := by
  simp only [setProfile, AlertCtl.profileAt, Vector.getElem?_setIfInBounds]
  by_cases hp : p = a.profile
  · have hlt : a.profile < 4 := Nat.lt_succ_of_le h
    simp [hp, hlt]
  · simp [hp, Ne.symm hp]

theorem profileStartsLine_iff (s : State) (p : Nat) :
    s.profileStartsLine p = true ↔
      p = 0 ∧ s.alert.state = .idle ∧ s.alert.linePending = true ∧ s.bypass = false := by
  rw [State.profileStartsLine, Bool.and_eq_true, Bool.and_eq_true, decide_eq_true_eq, Bool.not_eq_true', and_assoc, and_assoc]

/-- ALERT-PROFILE, refused or carried out. -/
theorem alertProfileBody_eq (ws : List Word) (s : State) :
    alertProfileBody ws s =
      if profileAnswer (profileArgs ws) s = .done then
        if s.profileStartsLine (profileArgs ws).profile = true then
          carryOut [1] (beginAlert .activeLine 0 .line (setProfile (profileArgs ws) s))
        else carryOut [0] (setProfile (profileArgs ws) s)
      else refuse (profileAnswer (profileArgs ws) s) s := by
  simp only [alertProfileBody]
  cases profileAnswer (profileArgs ws) s <;> rfl

/-- Settles O46: the refusal table is `profileAnswer_eq`, the new content `setProfile_profileAt`; where the line alert starts,
`beginAlert_begun` says how. -/
theorem alertProfileAnswers : Obligations.AlertProfileAnswers := by
  intro s c rest hex a code starts
  have hcode : profileAnswer a (s.unqueue rest) = code := profileAnswer_eq a s
  have hbody : execute (isCode 0x30) alertProfileBody s = joinAnswer c (alertProfileBody c.words (s.unqueue rest)) :=
    execute_of_executing hex _ rfl _
  have hexec : exec .alertProfile s = .next (settle s (execute (isCode 0x30) alertProfileBody s)) := rfl
  rw [hbody, alertProfileBody_eq, hcode] at hexec
  have hstarts : (s.unqueue rest).profileStartsLine a.profile = true ↔ starts := profileStartsLine_iff (s.unqueue rest) a.profile
  by_cases hdone : code = .done
  · rw [if_pos hdone] at hexec
    have hat := setProfile_profileAt a (s.unqueue rest) (profile_le_of_inRange (profileInRange_of_done (hcode.trans hdone)))
    have hself : (setProfile a (s.unqueue rest)).alert.profileAt a.profile = a.entry := (hat _).trans (if_pos rfl)
    have hothers : ∀ p, p ≠ a.profile → (setProfile a (s.unqueue rest)).alert.profileAt p = s.alert.profileAt p := fun p hp =>
      (hat p).trans (if_neg hp)
    by_cases hline : starts
    · rw [if_pos (hstarts.2 hline)] at hexec
      obtain ⟨hzero, hidle, -⟩ := id hline
      have hentry : (setProfile a (s.unqueue rest)).alert.profileAt 0 = a.entry := by rw [← hzero]; exact hself
      have hzones : (setProfile a (s.unqueue rest)).alert.zonesInEffect = 0 := if_pos hidle
      have haction : (setProfile a (s.unqueue rest)).alert.action = .start := if_pos hidle
      have hframe := beginAlert_frame .activeLine 0 .line (setProfile a (s.unqueue rest))
      obtain ⟨hitems, hlanes, hlog, hposts⟩ :=
        (beginAlert_begun .activeLine 0 .line (setProfile a (s.unqueue rest))).carried (c := c) (v := s) [1]
      rw [hentry] at hitems
      rw [hzones, hentry] at hlanes hposts
      rw [haction, hentry] at hlog
      refine ⟨_, [1], hexec, ?_, fun hnot => absurd hdone hnot, fun _ => ⟨?_, fun p hp => ?_, fun hno => absurd hline hno, fun _ =>
        ⟨rfl, ?_, hlanes, ⟨_, hposts, hlog⟩, carryOut_frame _ hframe⟩⟩⟩
      · rw [hdone]
        exact answered_carryOut _ (cmd_of_frame hframe)
      · rw [hitems]
        exact hself
      · rw [hitems]
        exact hothers p hp
      · rw [hitems]
        rfl
    · rw [if_neg (mt hstarts.1 hline)] at hexec
      refine ⟨_, [0], hexec, ?_, fun hnot => absurd hdone hnot, fun _ => ⟨?_, fun p hp => ?_, fun _ => ⟨rfl, ?_⟩, fun h => absurd h hline⟩⟩
      · rw [hdone]
        exact answered_carryOut _ rfl
      · rw [carryOut_alert]
        exact hself
      · rw [carryOut_alert]
        exact hothers p hp
      · rw [carryOut_aside, carryOut_alert]
        rfl
  · rw [if_neg hdone] at hexec
    obtain ⟨hanswered, haside⟩ := joinAnswer_refuse (s := s) (c := c) (rest := rest) code
    exact ⟨_, [], hexec, hanswered, fun _ => ⟨rfl, haside⟩, fun h => absurd h hdone⟩

/-! ## ALERT-LOCK (R151) -/

/-- Settles O50: the lock is set, and with it set the tests of ALERT-PROFILE, LANE-SET and UNCLAIM answer LOCKED. -/
theorem alertLockLocks : Obligations.AlertLockLocks := by
  intro s c rest
  refine ⟨fun hex => ?lock, fun hlock => ⟨fun hex hrange => ?profile, fun hex hrange hoff hzone => ?lane, fun hex => ?unclaim⟩⟩
  case lock =>
    have hbody : execute (isCode 0x34) alertLockBody s =
        joinAnswer c (carryOut [] { s.unqueue rest with alert := { s.alert with lock := true } }) :=
      execute_of_executing hex _ rfl _
    refine ⟨settle s (execute (isCode 0x34) alertLockBody s), rfl, ?_⟩
    rw [hbody]
    exact ⟨joinAnswer_done rfl, carryOut_aside []⟩
  case profile =>
    have hcode : profileAnswer (profileArgs c.words) (s.unqueue rest) = .locked := by
      rw [profileAnswer, if_neg (by simp [hrange])]
      exact if_pos hlock
    have hbody : execute (isCode 0x30) alertProfileBody s = joinAnswer c (refuse .locked (s.unqueue rest)) := by
      rw [execute_of_executing hex _ rfl, alertProfileBody_eq, hcode]
      rfl
    refine ⟨settle s (execute (isCode 0x30) alertProfileBody s), rfl, ?_⟩
    rw [hbody]
    exact joinAnswer_refuse .locked
  case lane =>
    have hcode : laneSetAnswer (laneArgs c.words) (s.unqueue rest) = .locked := by
      have hoff' : ((s.unqueue rest).lane (laneArgs c.words).lane).enabled = false := hoff
      rw [laneSetAnswer, if_neg (by simp [hrange]), if_neg (by simp [hoff'])]
      exact if_pos ⟨hlock, hzone⟩
    have hbody : execute (isCode 0x02) laneSetBody s = joinAnswer c (refuse .locked (s.unqueue rest)) := by
      rw [execute_of_executing hex _ rfl, laneSetBody_eq, hcode]
      rfl
    refine ⟨settle s (execute (isCode 0x02) laneSetBody s), rfl, ?_⟩
    rw [hbody]
    exact joinAnswer_refuse .locked
  case unclaim =>
    have hbody : execute (isCode 0x7F) unclaimBody s = joinAnswer c (refuse .locked (s.unqueue rest)) := by
      rw [execute_of_executing hex _ rfl]
      exact congrArg (joinAnswer c) (if_pos hlock)
    refine ⟨settle s (execute (isCode 0x7F) unclaimBody s), rfl, ?_⟩
    rw [hbody]
    exact joinAnswer_refuse .locked

end Sys2Proof.Machine

namespace Sys2Proof.Machine

open Sys2Proof

/-! ## The end of a line alert (R142, R147) -/

section LineEnds

variable {s t u : State}

/-- From `s` to `t` the line alert in effect has ended for the line, which no line alert follows. -/
structure LineEnded (s t : State) : Prop where
  records : ∃ records, s.EndRecords .line records ∧ t.log = s.logAfter records
  lanes : ∀ l, t.lane l =
    { s.lane l with alertReq := (s.lane l).requestAtEnd (s.alert.profileAt s.alert.profile).zones }
  items : s.alert.Ends t.alert

theorem endAlert_line (hs : s.alert.state ≠ .idle) : LineEnded s (endAlert .line s) := by
  obtain ⟨-, hrecords, halert, hlanes⟩ := endAlert_after .line s hs
  have hnone : ¬ (AlertReason.line ≠ .line ∧ AlertReason.line ≠ .bypass ∧ s.LineFollows) := fun h => h.1 rfl
  refine ⟨hrecords, fun l => (hlanes l).trans ?_, ?_⟩
  · rw [if_neg fun h => hnone h.1]
  · rw [halert, if_neg hnone]
    exact toIdle_ends _

theorem LineEnded.congr (h : LineEnded s t) (halert : u.alert = t.alert) (hlanes : u.lanes = t.lanes) (hlog : u.log = t.log) :
    LineEnded s u := by
  refine ⟨?_, fun l => (congrFun (lane_congr hlanes) l).trans (h.lanes l), ?_⟩
  · rw [hlog]
    exact h.records
  · rw [halert]
    exact h.items

end LineEnds

/-! ## The EAL line (R145 to R147, R152) -/

/-- The filter's expiry is due. -/
theorem filterDue_iff (s : State) :
    s.filterDue = true ↔ ∃ m ∈ s.alert.ealMark, 270000 ≤ (s.lt - m).toNat ∧ s.eal ≠ s.alert.ealFiltered := by
  unfold State.filterDue
  cases s.alert.ealMark with
  | none => simp
  | some m =>
    rw [Bool.and_eq_true, decide_eq_true_eq, decide_eq_true_eq]
    exact ⟨fun h => ⟨m, rfl, h⟩, fun ⟨_, hm, h⟩ => Option.some.inj hm ▸ h⟩

theorem changeRaw_same (s : State) : changeRaw s.eal s = s := if_pos rfl

/-- A change of the raw level, in reset and out of it. -/
theorem changeRaw_other {level : Bool} {s : State} (h : level ≠ s.eal) :
    changeRaw level s =
      { s with
        eal := level
        alert := { s.alert with
          ealMark := if s.rst = true then s.alert.ealMark else if level = s.alert.ealFiltered then none else some s.lt } } := by
  rw [changeRaw, if_neg h]
  by_cases hrst : s.rst = true
  · simp only [hrst, if_true]
  · simp only [hrst]
    rfl

theorem filteredChange_bypass {s : State} (h : s.bypass = true) : filteredChange s = s := if_pos h

theorem filteredChange_asserted {s : State} (hb : s.bypass = false) (h : s.alert.ealFiltered = true) :
    filteredChange s = lineAsserted s := by
  rw [filteredChange, hb, h]
  rfl

theorem filteredChange_deasserted {s : State} (hb : s.bypass = false) (h : s.alert.ealFiltered = false) :
    filteredChange s = lineDeasserted s := by
  rw [filteredChange, hb, h]
  rfl

theorem lineDeasserted_other {s : State} (h : s.alert.state ≠ .activeLine) : lineDeasserted s = setLinePending false s := if_neg h

theorem lineDeasserted_active {s : State} (h : s.alert.state = .activeLine) :
    lineDeasserted s = endAlert .line (setLinePending false s) := if_pos h

/-- The records of a line alert's end read neither the EAL filter nor line-pending. -/
theorem endRecords_of_filtered {s : State} {records : List (Nat × RecordBody)}
    (h : (setLinePending false (takeFiltered s)).EndRecords .line records) : s.EndRecords .line records := by
  obtain ⟨removed, inserted, hremoved, hinserted, rfl⟩ := h
  refine ⟨removed, inserted, hremoved, hinserted, ?_⟩
  rw [if_neg fun hline => hline.1 rfl, if_neg fun hline => hline.1 rfl]
  rfl

/-- Settles O57: the raw level by `changeRaw`; at the filter's expiry the filtered assertion or deassertion, by the controller's
state and profile 0. -/
theorem ealLineFilters : Obligations.EalLineFilters := by
  intro s due p0 takes old filtered
  have hdue : s.filterDue = true ↔ due := filterDue_iff s
  refine ⟨fun level => ⟨_, rfl, fun hsame => ?_, fun hother => ?_⟩, ?_⟩
  · rw [settle_apart, hsame, changeRaw_same]
  · rw [settle_apart, changeRaw_other hother]
  by_cases h : due
  case neg =>
    have hexec : exec .ealFilterExpiry s = .next (settle s s) :=
      congrArg (fun u => Host.Outcome.next (settle s u)) (if_neg (mt hdue.1 h))
    exact ⟨_, hexec, fun _ => settle_apart s s, fun hd => absurd hd h, fun hd => absurd hd h, fun hd => absurd hd h,
      fun hd => absurd hd h, fun hd => absurd hd h⟩
  have hexec : exec .ealFilterExpiry s = .next (settle s (filteredChange (takeFiltered s))) :=
    congrArg (fun u => Host.Outcome.next (settle s u)) (if_pos (hdue.2 h))
  refine ⟨_, hexec, fun hnot => absurd h hnot, fun _ hb => ?bypass, fun _ hb heal hno => ?pending, fun _ hb heal htakes => ?starts,
    fun _ hb heal hstate => ?clears, fun _ hb heal hstate => ?ends⟩
  case bypass =>
    rw [settle_apart, filteredChange_bypass (s := takeFiltered s) hb]
    rfl
  case pending =>
    rw [settle_apart, filteredChange_asserted (s := takeFiltered s) hb heal, lineAsserted_pending (takeFiltered s) hno]
    rfl
  case starts =>
    have hold : (takeFiltered s).alert.zonesInEffect = old := rfl
    rw [filteredChange_asserted (s := takeFiltered s) hb heal, lineAsserted_begins (takeFiltered s) htakes]
    obtain ⟨hitems, hlanes, hlog, hposts⟩ := (beginAlert_begun .activeLine 0 .line (takeFiltered s)).congr
      (settle_alert s _) (settle_lanes s _) (settle_log s _)
    rw [hold] at hlanes hposts
    refine ⟨hitems, hlanes, ⟨_, hposts, hlog⟩, ?_⟩
    rw [settle_apart, settle_alert, settle_lanes, settle_log]
    exact congrArg State.apart (beginAlert_frame .activeLine 0 .line (takeFiltered s))
  case clears =>
    rw [settle_apart, filteredChange_deasserted (s := takeFiltered s) hb heal, lineDeasserted_other (s := takeFiltered s) hstate]
    rfl
  case ends =>
    have hactive : (setLinePending false (takeFiltered s)).alert.state ≠ .idle := by
      change s.alert.state ≠ .idle
      rw [hstate]
      decide
    have hold : old = (s.alert.profileAt s.alert.profile).zones := if_neg hactive
    rw [filteredChange_deasserted (s := takeFiltered s) hb heal, lineDeasserted_active (s := takeFiltered s) hstate, hold]
    obtain ⟨⟨records, hrecords, hlog⟩, hlanes, hitems⟩ := (endAlert_line hactive).congr
      (settle_alert s _) (settle_lanes s _) (settle_log s _)
    refine ⟨hitems, hlanes, ⟨records, endRecords_of_filtered hrecords, hlog⟩, ?_⟩
    rw [settle_apart, settle_alert, settle_lanes, settle_log]
    exact congrArg State.apart (endAlert_frame .line hactive)

end Sys2Proof.Machine

namespace Sys2Proof.Machine

open Sys2Proof

/-! ## The expiry of a slate countdown (R166) -/

/-- A request whose countdown stands at 0 becomes due; one still counting is left as it is. -/
theorem SlateReq.expire_eq (q : SlateReq) : q.expire = if q.countdown = 0 then { q with due := true } else q := by
  by_cases hzero : q.countdown = 0 <;> simp [SlateReq.expire, hzero]

/-- The expiry on a lane: its two requests, each by `SlateReq.expire_eq`, and no other field. -/
theorem Lane.expireSlate_eq (x : Lane) :
    x.expireSlate = { x with
      slateInsert := x.slateInsert.map fun q => if q.countdown = 0 then { q with due := true } else q
      slateRemove := x.slateRemove.map fun q => if q.countdown = 0 then { q with due := true } else q } := by
  rw [← funext SlateReq.expire_eq]
  rfl

/-- Settles O35, by whether the lane is enabled: if so its requests follow `Lane.expireSlate_eq`, if not the step only closes. -/
theorem slateCountdownExpires : Obligations.SlateCountdownExpires := by
  intro s l hl
  have hexec : exec (.slateCountdownExpiry l) s =
      .next (settle s (if (s.lane l).enabled then s.onLane l Lane.expireSlate else s)) := if_pos hl
  refine ⟨_, hexec, fun hoff => ?disabled, fun hon => ?enabled⟩
  case disabled =>
    rw [hoff, if_neg Bool.false_ne_true, settle_apart]
  case enabled =>
    have hlane : (s.onLane l Lane.expireSlate).lane l = (s.lane l).expireSlate := s.lane_onLane_self _ hl
    rw [if_pos hon, settle_apart, settle_lane, hlane, Lane.expireSlate_eq]
    refine ⟨?_, rfl, rfl⟩
    rw [State.onLane, Lane.expireSlate_eq]
    rfl

end Sys2Proof.Machine

namespace Sys2Proof.Machine

open Sys2Proof

/-! ## Taking and cancelling commands (R169 to R173) -/

section Lines

variable (n : Nat) (ws : List Word) (s : State)

theorem queued_iff : s.queued n = true ↔ ∃ c ∈ s.cmd.queue, c.line = n := by simp [State.queued]

theorem droppable_iff : s.droppable n = true ↔ ∃ a ∈ s.cmd.answers, a.line = n ∧ a.isUnclaim = false := by
  simp [State.droppable]

/-- The entry a line keeps when it is superseded: the words and the take are the new ones (R172, log 28). -/
theorem supersede_eq (take : Nat) :
    Captured.supersede n ws take = fun c => if c.line = n then { line := n, words := ws, take := take } else c := by
  funext c
  refine if_ctx_congr Iff.rfl (fun hline => ?_) fun _ => rfl
  rw [← hline]

/-- A capture takes the place of its line's queued entry (R172). -/
theorem joinQueue_of_queued (h : s.queued n = true) :
    (joinQueue n ws s).cmd = { s.cmd with
      queue := s.cmd.queue.map fun c => if c.line = n then { line := n, words := ws, take := s.cmd.takes } else c
      takes := s.cmd.takes + 1 } := by
  rw [joinQueue, if_pos h, supersede_eq]

/-- A capture on a line with nothing queued joins the tail (R171). -/
theorem joinQueue_of_not_queued (h : ¬ s.queued n = true) :
    (joinQueue n ws s).cmd = { s.cmd with
      queue := s.cmd.queue ++ [{ line := n, words := ws, take := s.cmd.takes }]
      takes := s.cmd.takes + 1 } := by
  rw [joinQueue, if_neg h]

/-- The Command Unit after a take, by what the line holds: a queued command, an answer that a rewrite drops, or neither. -/
theorem takeCommand_cmd :
    (takeCommand n ws s).cmd =
      if ∃ c ∈ s.cmd.queue, c.line = n then
        { s.cmd with
          queue := s.cmd.queue.map fun c => if c.line = n then { line := n, words := ws, take := s.cmd.takes } else c
          takes := s.cmd.takes + 1
          supersedes := satInc s.cmd.supersedes }
      else if ∃ a ∈ s.cmd.answers, a.line = n ∧ a.isUnclaim = false then
        { s.cmd with
          queue := s.cmd.queue ++ [{ line := n, words := ws, take := s.cmd.takes }]
          answers := s.cmd.answers.filter fun a => decide (a.line ≠ n)
          takes := s.cmd.takes + 1
          supersedes := satInc s.cmd.supersedes }
      else
        { s.cmd with
          queue := s.cmd.queue ++ [{ line := n, words := ws, take := s.cmd.takes }]
          takes := s.cmd.takes + 1 } := by
  simp only [← queued_iff, ← droppable_iff]
  unfold takeCommand
  by_cases hq : s.queued n = true
  · rw [if_pos hq, if_pos hq, countSupersede, joinQueue_of_queued n ws s hq]
  · rw [if_neg hq, if_neg hq, apply_ite State.cmd]
    exact if_congr Iff.rfl (joinQueue_of_not_queued n ws (dropAnswer n s) hq) (joinQueue_of_not_queued n ws s hq)

/-- The Command Unit after a cancel, by what the line holds. -/
theorem cancelCommand_cmd :
    (cancelCommand n s).cmd =
      if ∃ c ∈ s.cmd.queue, c.line = n then
        { s.cmd with queue := s.cmd.queue.filter fun c => decide (c.line ≠ n), supersedes := satInc s.cmd.supersedes }
      else if ∃ a ∈ s.cmd.answers, a.line = n ∧ a.isUnclaim = false then
        { s.cmd with answers := s.cmd.answers.filter fun a => decide (a.line ≠ n), supersedes := satInc s.cmd.supersedes }
      else s.cmd := by
  rw [cancelCommand, apply_ite State.cmd, apply_ite State.cmd]
  exact if_congr (queued_iff n s) rfl (if_congr (droppable_iff n s) rfl rfl)

/-- Beside the queue and the answers a take changes the number of takes and of supersedes. -/
theorem takeCommand_aside :
    (takeCommand n ws s).aside =
      ({ s with cmd := { s.cmd with takes := s.cmd.takes + 1, supersedes := (takeCommand n ws s).cmd.supersedes } } : State).aside := by
  unfold takeCommand
  split
  · rfl
  · split <;> rfl

/-- Beside the queue and the answers a cancel changes the number of supersedes. -/
theorem cancelCommand_aside :
    (cancelCommand n s).aside = ({ s with cmd := { s.cmd with supersedes := (cancelCommand n s).cmd.supersedes } } : State).aside := by
  unfold cancelCommand
  split
  · rfl
  · split <;> rfl

end Lines

/-! ## Writes of command lines accepted (R12, R169, R170) -/

section Offers

variable {q : QRequest} {s : State}

@[simp] theorem countStrayClaim_cmd : (countStrayClaim q s).cmd = s.cmd := by
  unfold countStrayClaim
  split <;> rfl

/-- A stray claim is counted whatever the Command Unit holds. -/
theorem countStrayClaim_withCmd (k : CmdUnit) :
    countStrayClaim q ({ s with cmd := k } : State) = { countStrayClaim q s with cmd := k } := by
  unfold countStrayClaim
  split <;> rfl

theorem isWrite_of_fullWrite {m : Nat} (h : q.fullWrite m = true) : q.isWrite = true := by
  by_contra hread
  simp [fullWrite_of_not_isWrite q (by simpa using hread) m] at h

/-- A claim line's word 0 is the first word of the claim's key, not 0 (R5). -/
theorem isClaim_eq_false_of_word (h : wordAt (lineWords q.data) 0 = 0) : q.isClaim = false := by
  have hne : lineWords q.data ≠ claimWords := fun hwords => by
    rw [hwords] at h
    exact absurd h (by decide)
  simp [QRequest.isClaim, hne]

/-- A write that starts on a command line is offered to the Command Unit (R12, R169). -/
theorem classify_offer (hlines : 1 ≤ q.lines) (hin : s.WhollyIn q .control) (hwr : q.isWrite = true) (hn : s.controlLine q ≤ 15) :
    classify q (countStrayClaim q s) = offerWrite (s.controlLine q) q (countStrayClaim q s) := by
  simp only [classify, countStrayClaim_areaOfAll, areaOfAll_of_whollyIn hlines hin, acceptControl, countStrayClaim_controlLine, hwr,
    hn, and_self, ↓reduceIte]

@[simp] theorem joined_cmd (c : FwdClass) : (s.joined q c).cmd = s.cmd := rfl

theorem aside_of_apart {t u : State} (h : t.apart = u.apart) : t.aside = u.aside := by
  rw [State.aside, h, State.aside, ← State.apart_cmd t, h, State.apart_cmd]

/-- Two states that agree beside the queue and the answers do so with one more entry in their forward queues. -/
theorem joined_aside_congr {u v : State} (h : u.aside = v.aside) (q : QRequest) (c : FwdClass) :
    (u.joined q c).aside = (v.joined q c).aside := congrArg (State.joined · q c) h

end Offers

/-- Settles O19: the take is `takeCommand`, made beside the count of a stray claim. -/
theorem acceptTakesCommand : Obligations.AcceptTakesCommand := by
  intro s r hw hc q n words hin hn hfull hword
  have hlines : 1 ≤ q.lines := by rw [lines_of_fullWrite q hfull]
  have hclass : classify q (countStrayClaim q s) = (takeCommand n words (countStrayClaim q s), .command s.cmd.takes) := by
    rw [classify_offer hlines hin (isWrite_of_fullWrite hfull) hn, offerWrite, if_pos hfull]
    exact (if_neg hword).trans (by rw [countStrayClaim_cmd])
  obtain ⟨t, ht, hapart⟩ := accept_classified hw hc hclass
  have hcmd : t.cmd = (takeCommand n words (countStrayClaim q s)).cmd := by rw [(eq_of_apart hapart).1, joined_cmd]
  refine ⟨t, ht, ?aside, ?unit⟩
  case aside =>
    have htaken := takeCommand_aside n words (countStrayClaim q s)
    rw [← hcmd, countStrayClaim_cmd, ← countStrayClaim_withCmd] at htaken
    exact (aside_of_apart hapart).trans (joined_aside_congr htaken _ _)
  case unit =>
    rw [hcmd, takeCommand_cmd, countStrayClaim_cmd]
    split_ifs with hqueued hanswered
    · exact ⟨rfl, rfl, rfl⟩
    · exact ⟨rfl, rfl, rfl⟩
    · exact ⟨rfl, rfl, rfl⟩

/-- Settles O20: a cancel is `cancelCommand`, and neither a cancel nor a partial command is a claim line. -/
theorem acceptCancelsOrCounts : Obligations.AcceptCancelsOrCounts := by
  intro s r hw hc q n hin hn hwr
  have hlines : 1 ≤ q.lines := by
    rw [aligned_lines]
    exact lines_pos r hw
  have hoffer := classify_offer hlines hin hwr hn
  refine ⟨fun hfull hword => ?cancel, fun hpart => ?counted⟩
  case cancel =>
    have hclass : classify q (countStrayClaim q s) = (cancelCommand n s, .offered) := by
      rw [hoffer, countStrayClaim_of_not (isClaim_eq_false_of_word hword), offerWrite, if_pos hfull]
      exact if_pos hword
    obtain ⟨t, ht, hapart⟩ := accept_classified hw hc hclass
    have hcmd : t.cmd = (cancelCommand n s).cmd := by rw [(eq_of_apart hapart).1, joined_cmd]
    refine ⟨t, ht, ?_, ?_⟩
    · rw [hcmd]
      exact (aside_of_apart hapart).trans (joined_aside_congr (cancelCommand_aside n s) _ _)
    · rw [hcmd, cancelCommand_cmd]
      split_ifs with hqueued hanswered
      · exact ⟨rfl, rfl, rfl⟩
      · exact ⟨rfl, rfl, rfl⟩
      · exact ⟨rfl, rfl, rfl⟩
  case counted =>
    refine accept_classified hw hc ?_
    rw [hoffer, countStrayClaim_of_not (isClaim_eq_false q hpart), offerWrite, if_neg (by simp [hpart])]
    rfl

end Sys2Proof.Machine

namespace Sys2Proof.Machine

open Sys2Proof

/-! ## UNKNOWN and UNCLAIM (R174, R177, R178) -/

section Refusals

variable {s : State} {code : Nat} {c : Captured} {rest : List Captured} {body : List Word → State → Reply} {k : AnswerCode}

/-- An execution whose body refuses is a refused command. -/
theorem refused_of_body (hex : s.Executing code c rest) (test : Nat → Bool) (ht : test code = true)
    (hbody : body c.words (s.unqueue rest) = refuse k (s.unqueue rest)) :
    s.Refused (settle s (execute test body s)) c rest k := by
  rw [execute_of_executing hex test ht, hbody]
  exact joinAnswer_refuse k

/-- UNCLAIM answered DONE holds back every execution until its effect (R178). -/
theorem execute_of_unclaiming (h : s.cmd.unclaiming = true) (test : Nat → Bool) (body : List Word → State → Reply) :
    execute test body s = s := by
  rcases execute_cases test body s with hsame | ⟨-, -, hexecutes, -⟩
  · exact hsame
  · simp [State.executes, h] at hexecutes

end Refusals

/-- The steps that execute a command, in the order of their codes, and last the one for every other code (12.4). -/
def commandSteps : List Instr :=
  [.regionSet, .laneSet, .laneEnable, .laneDisable, .laneStatus, .clipSet, .clipClear, .place, .withdraw, .placementStatus, .cue,
    .alertProfile, .alertStart, .alertRenew, .alertEnd, .alertLock, .auditMark, .logAck, .unclaim, .unknownCommand]

/-- Each of them executes the oldest queued command, if its code satisfies the row's test, and closes (R174). -/
theorem exec_of_commandSteps {i : Instr} (h : i ∈ commandSteps) :
    ∃ test body, ∀ s, exec i s = .next (settle s (execute test body s)) := by
  fin_cases h <;> exact ⟨_, _, fun _ => rfl⟩

/-- Settles O53: an unknown code passes the row's test, and its body refuses. -/
theorem unknownCodeAnswers : Obligations.UnknownCodeAnswers := by
  intro s c rest code hex hcode
  have htest : isUnknown code = true := decide_eq_true hcode
  exact ⟨_, rfl, refused_of_body hex isUnknown htest rfl⟩

/-- Settles O52, by the lock and the alert in effect; answered DONE, no step executes by `execute_of_unclaiming`. -/
theorem unclaimAnswers : Obligations.UnclaimAnswers := by
  intro s c rest hex
  refine ⟨settle s (execute (isCode 0x7F) unclaimBody s), rfl, fun hlock => ?locked, fun hlock hactive => ?busy,
    fun hlock hidle => ?done⟩
  case locked => exact refused_of_body hex _ rfl (if_pos hlock)
  case busy =>
    refine refused_of_body hex _ rfl ?_
    rw [unclaimBody, if_neg (by simp [hlock])]
    exact if_pos hactive
  case done =>
    have hbody : unclaimBody c.words (s.unqueue rest) =
        carryOut [] { s.unqueue rest with cmd := { (s.unqueue rest).cmd with unclaiming := true } } := by
      rw [unclaimBody, if_neg (by simp [hlock])]
      exact if_neg (not_not.2 hidle)
    rw [execute_of_executing hex _ rfl, hbody]
    have hhalt : (settle s (joinAnswer c (carryOut [] { s.unqueue rest with
        cmd := { (s.unqueue rest).cmd with unclaiming := true } }))).cmd.unclaiming = true := by rw [settle_cmd]; rfl
    refine ⟨answered_of_joinAnswer s rfl rfl, hhalt, carryOut_aside [], fun i hi => ?_⟩
    obtain ⟨test, body, hexec⟩ := exec_of_commandSteps (i := i) hi
    refine ⟨_, hexec _, ?_⟩
    rw [execute_of_unclaiming hhalt, settle_apart]

end Sys2Proof.Machine

namespace Sys2Proof.Machine

open Sys2Proof

/-! ## The write presented next (R184) -/

/-- The write that the Log Writer would present on a ring of `c` lines, where none is presented. -/
def LogWriter.nextWrite (g : LogWriter) (c : Nat) : Option LogWrite :=
  if (g.head + 1) % c = g.tail then none else if 0 < g.lost then some .gap else if g.queue = [] then none else some .record

theorem presentLog_presented {s : State} {base : Word} {c : Nat} (hring : s.logRing = some (base, c)) :
    (presentLog s).log.presented = if s.log.presented ≠ none then s.log.presented else s.log.nextWrite c := by
  simp only [presentLog, hring, LogWriter.full, LogWriter.nextWrite]
  by_cases hwrite : s.log.presented = none
  · by_cases hfull : (s.log.head + 1) % c = s.log.tail
    · simp [hwrite, hfull]
    · by_cases hlost : 0 < s.log.lost
      · simp [hwrite, hfull, hlost]
      · by_cases hqueue : s.log.queue = [] <;> simp [hwrite, hfull, hlost, hqueue]
  · simp [hwrite]

/-! ## The grant of a log write (R184, R185, R187) -/

theorem RecordBody.laid_length (b : RecordBody) : b.laid.2.length = 14 := by
  cases b <;> rfl

theorem Record.laid_length (r : Record) : r.laid.length = 16 := congrArg (· + 2) r.body.laid_length

theorem gapLaid_length (lt : Rt) (lost : Nat) : (gapLaid lt lost).length = 16 := rfl

/-- The words of the write presented, `r` being the oldest queued record (R185). -/
def State.logWords (s : State) (w : LogWrite) (r : Record) : List Word := if w = .gap then gapLaid s.lt s.log.lost else r.laid

theorem State.logWords_length (s : State) (w : LogWrite) (r : Record) : (wordsBytes (s.logWords w r)).length = 64 := by
  rw [wordsBytes_length, State.logWords]
  cases w
  · exact congrArg (4 * ·) (gapLaid_length s.lt s.log.lost)
  · exact congrArg (4 * ·) r.laid_length

/-- The Log Writer once write `w` is granted, before it tests for the next: the head one on, and the write's source used up. -/
def LogWriter.granted (g : LogWriter) (c : Nat) (w : LogWrite) (queue : List Record) : LogWriter :=
  { g with head := (g.head + 1) % c, queue := queue, lost := if w = .gap then 0 else g.lost, presented := none }

section LogLine

variable {s : State} {base : Word} {c : Nat} {w : LogWrite} {r : Record} {queue : List Record}

theorem grantLogLine_eq (hrecord : w = .record → s.log.queue = r :: queue) (hgap : w = .gap → s.log.queue = queue) :
    grantLogLine base c w s =
      writeLine (base + BitVec.ofNat 32 (64 * s.log.head)) (s.logWords w r) (enablesFrom 0)
        { s with log := s.log.granted c w queue } := by
  cases w with
  | gap =>
    rw [← hgap rfl, grantLogLine, gapWords_eq, fullLine_eq]
    rfl
  | record =>
    simp only [grantLogLine, hrecord rfl, lineOf_eq, fullLine_eq]
    rfl

theorem grantLog_eq (hring : s.logRing = some (base, c)) (hpresented : s.log.presented = some w)
    (hrecord : w = .record → s.log.queue = r :: queue) (hgap : w = .gap → s.log.queue = queue) :
    grantLog s =
      writeLine (base + BitVec.ofNat 32 (64 * s.log.head)) (s.logWords w r) (enablesFrom 0)
        { s with log := { s.log.granted c w queue with presented := (s.log.granted c w queue).nextWrite c } } := by
  have hgrant : grantLog s = presentLog (grantLogLine base c w s) := by simp only [grantLog, hring, hpresented]
  have hnext : (presentLog (grantLogLine base c w s)).log.presented = (s.log.granted c w queue).nextWrite c := by
    rw [grantLogLine_eq hrecord hgap]
    exact presentLog_presented hring
  rw [hgrant, presentLog_eq, hnext, grantLogLine_eq hrecord hgap]
  rfl

end LogLine

namespace Settled

/-- Settles O26: `grantLog_eq` has the line written and what the Log Writer keeps, and memory reads the line back. -/
theorem grantLogLine : Obligations.GrantLogLine := by
  intro s base c w rest r queue hm hring hpresented hturn hrecord hgap line bytes head lost shown
  have hu : grantStep s = writeLine line (s.logWords w r) (enablesFrom 0)
      { takeWaiting rest s with log := { s.log.granted c w queue with presented := shown } } := by
    rw [grantStep_part hturn, grantPart_log hturn.1,
      grantLog_eq (s := takeWaiting rest s) hring hpresented hrecord hgap]
    rfl
  have hmem : (settle s (grantStep s)).mem = s.mem.writeMasked line bytes (enablesFrom 0) := by
    rw [settle_mem, hu, writeLine_mem]
    rfl
  have hlen : bytes.length = 64 := s.logWords_length w r
  refine ⟨_, exec_grant s, ?_, fun j hj => ?_, fun x hx => ?_⟩
  · rw [settle_apart, hmem, hu, writeLine_apart _ _ _ _ _ rfl, ← fullLine_eq]
    rfl
  · rw [hmem]
    exact read_lineWrite hm line hlen (by omega) (Nat.zero_le j) hj
  · rw [hmem]
    exact read_lineWrite_other line (by omega) hx

end Settled

end Sys2Proof.Machine

namespace Sys2Proof.Machine

open Sys2Proof

/-! ## AUDIT-MARK (R189) -/

theorem edgeOf_out_of_range {n : Nat} (h : n = 0 ∨ 3 < n) : edgeOf n = none := by
  rw [edgeOf, if_neg (by omega), if_neg (by omega), if_neg (by omega)]

theorem edgeOf_in_range {n : Nat} (h1 : 1 ≤ n) (h3 : n ≤ 3) :
    edgeOf n = some (if n = 2 then .into else .out, decide (n = 3)) := by
  interval_cases n <;> rfl

/-- The result word of AUDIT-MARK: the edge kept, BOTH as OUT, with the reduction at bit 8, and at bit 9 that the lane had a mark
(R189, 12.4). -/
def auditMarkWord (edge : Nat) (earlier : AuditMark) : Word :=
  BitVec.ofNat 32 ((if edge = 2 then 2 else 1) + (if edge = 3 then 256 else 0) + if earlier = .none then 0 else 512)

theorem auditMarkWord_eq (edge : Nat) (earlier : AuditMark) :
    word ((if edge = 2 then AuditMark.into else .out).code + flag (decide (edge = 3)) 8 + flag (decide (earlier ≠ .none)) 9) =
      auditMarkWord edge earlier := by
  have hcode : (if edge = 2 then AuditMark.into else .out).code = if edge = 2 then 2 else 1 := by
    split <;> rfl
  rw [hcode, auditMarkWord]
  simp [word, flag]

theorem auditMarkBody_refuses {ws : List Word} (h : 15 < laneArg ws ∨ numAt ws 3 = 0 ∨ 3 < numAt ws 3) (s : State) :
    auditMarkBody ws s = refuse .range s := by
  rw [auditMarkBody]
  split
  · rfl
  · next hl => rw [edgeOf_out_of_range (h.resolve_left hl)]

theorem auditMarkBody_marks {ws : List Word} (hl : laneArg ws ≤ 15) (h1 : 1 ≤ numAt ws 3) (h3 : numAt ws 3 ≤ 3) (s : State) :
    auditMarkBody ws s = carryOut [auditMarkWord (numAt ws 3) (s.lane (laneArg ws)).audit]
      (s.onLane (laneArg ws) fun x => { x with audit := if numAt ws 3 = 2 then .into else .out }) := by
  rw [auditMarkBody, if_neg (Nat.not_lt.2 hl), edgeOf_in_range h1 h3, ← auditMarkWord_eq]

/-! ## LOG-ACK (R184, R186) -/

section Acks

variable {s : State} {base : Word} {lines : Nat}

theorem logAckBody_without_ring (h : s.logRing = none) (ws : List Word) : logAckBody ws s = refuse .notReady s := by
  simp only [logAckBody, logAckAnswer, h]

theorem logAckBody_refuses (h : s.logRing = some (base, lines)) {ws : List Word}
    (hn : lines ≤ numAt ws 2 ∨
      lineDistance lines s.log.head s.log.tail < lineDistance lines (numAt ws 2) s.log.tail) :
    logAckBody ws s = refuse .range s := by
  simp only [logAckBody, logAckAnswer, h, if_pos hn]

theorem logAckBody_moves (h : s.logRing = some (base, lines)) {ws : List Word} (hn : numAt ws 2 < lines)
    (hd : lineDistance lines (numAt ws 2) s.log.tail ≤ lineDistance lines s.log.head s.log.tail) :
    logAckBody ws s =
      carryOut [word (numAt ws 2), word s.log.head] (presentLog (s.logged { s.log with tail := numAt ws 2 })) := by
  have hin : ¬ (lines ≤ numAt ws 2 ∨
      lineDistance lines s.log.head s.log.tail < lineDistance lines (numAt ws 2) s.log.tail) := by omega
  simp only [logAckBody, logAckAnswer, h, if_neg hin]
  rfl

end Acks

/-- Settles O51: AUDIT-MARK by the ranges of its two words, LOG-ACK by the ring and the range of the new tail, with
`presentLog_presented` for the write presented at once. -/
theorem logCommandsAnswer : Obligations.LogCommandsAnswer := by
  intro s c rest
  refine ⟨fun hex => ?mark, fun hex => ?ack⟩
  case mark =>
    intro l edge
    refine ⟨settle s (execute (isCode 0x40) auditMarkBody s), rfl, fun hout => ?range, fun hl h1 h3 => ?marks⟩
    case range => exact refused_of_body hex _ rfl (auditMarkBody_refuses hout _)
    case marks =>
      rw [execute_of_executing hex _ rfl, auditMarkBody_marks hl h1 h3]
      exact ⟨answered_carryOut _ rfl, carryOut_aside _⟩
  case ack =>
    intro n
    refine ⟨settle s (execute (isCode 0x41) logAckBody s), rfl, fun hnone => ?noRing, fun base lines hring =>
      ⟨fun hout => ?range, fun hn hd => ?moves⟩⟩
    case noRing => exact refused_of_body hex _ rfl (logAckBody_without_ring (s := s.unqueue rest) hnone _)
    case range => exact refused_of_body hex _ rfl (logAckBody_refuses (s := s.unqueue rest) hring hout)
    case moves =>
      rw [execute_of_executing hex _ rfl, logAckBody_moves (s := s.unqueue rest) hring hn hd, carryOut_log, carryOut_aside]
      refine ⟨answered_carryOut _ ?_, ?_, presentLog_presented hring⟩ <;>
        rw [presentLog_eq] <;> rfl

end Sys2Proof.Machine

namespace Sys2Proof.Machine

open Sys2Proof

/-! ## A step with nothing waiting (R193, log 2) -/

theorem step_of_idle {s : State} (h : s.pending = []) : step s = .next (tick s) := by
  simp only [step, h]

theorem tick_lt (s : State) : (tick s).lt = if s.rst = true ∨ s.refclk = false then s.lt else s.lt + 1 := by
  rw [tick]
  by_cases hold : s.rst = true ∨ s.refclk = false
  · rw [if_pos hold, if_pos (by simpa using hold)]
  · rw [if_neg hold, if_neg (by simpa using hold)]

/-- Settles O2: an idle step is a tick, a tick changes Local Time only (`tick_eq`), and that by RST_N and REFCLK (`tick_lt`). -/
theorem idleStepIsOneTick : Obligations.IdleStepIsOneTick := by
  intro s hidle
  rw [step_of_idle hidle, tick_eq, tick_lt]

end Sys2Proof.Machine

namespace Sys2Proof.Machine

open Sys2Proof

/-! ## A step with a command waiting -/

theorem step_of_front {c : Instr} {rest : List Instr} {s : State} (h : s.pending = c :: rest) :
    step s = exec c { s with pending := rest } := by
  simp only [step, h]

/-- Settles O1: the queue put on `s` has `c` at its front (`step_of_front`), and the queue's rest written over it leaves nothing of
it. -/
theorem stepTakesFront : Obligations.StepTakesFront :=
  fun c rest s => step_of_front (s := { s with pending := c :: rest }) rfl

end Sys2Proof.Machine
